-- ==== Sys2Proof/Word.lean ====
section
/-! DEFINITION. The word types of the raster-blit engine and nothing else (00_scope.md R8, R9). -/

namespace Sys2Proof

/-- A command word: the host moves only 32-bit words (20_memory.md R60). -/
abbrev Word := BitVec 32

/-- A byte of asset memory or of the output port (00_scope.md R9). -/
abbrev Byte := BitVec 8

/-- A 16-bit field: a coordinate, a size, a character code or an RGB565 colour (00_scope.md R8). -/
abbrev Half := BitVec 16

end Sys2Proof
end

