-- ==== Sys2Proof/Machine/Operands.lean ====
section
/-! DEFINITION. The header and the operand words (30_encoding.md R81, R83..R98): the fields of each kind, their
reserved bits, and the words an encoder builds. All of it is bit selection; what a field means is said by the command
that uses it. -/

namespace Sys2Proof

/-- Bits 31..16 of a word. -/
def hi16 (w : Word) : Half := w.extractLsb' 16 16

/-- Bits 15..0 of a word. -/
def lo16 (w : Word) : Half := w.extractLsb' 0 16

/-- A word from its two halves, the more significant first. -/
def word2 (hi lo : Half) : Word := hi ++ lo

/-- A word from its four bytes, the most significant first (R94). -/
def word4 (b3 b2 b1 b0 : Byte) : Word := (b3 ++ b2 : Half) ++ (b1 ++ b0 : Half)

/-- The opcode, header bits 31..24 (R81). -/
def opcOf (h : Word) : Byte := h.extractLsb' 24 8

/-- The header argument, bits 23..0 (R81). -/
def argOf (h : Word) : BitVec 24 := h.extractLsb' 0 24

/-- A header from its opcode and argument (R81). -/
def header (opc : Byte) (arg : BitVec 24) : Word := opc ++ arg

/-- A header argument that holds one 16-bit field, its bits 23..16 zero (`ROT16`, `NCHARS`). -/
def arg16 (v : Half) : BitVec 24 := (0 : Byte) ++ v

/-- A header argument that holds the `ON` bit, its bits 23..1 zero (R96). -/
def argOn (on : Bool) : BitVec 24 := (0 : BitVec 23) ++ BitVec.ofBool on

/-- What the header argument of an opcode holds (R81). -/
inductive ArgKind where
  | none | rot16 | nbytes | nchars | on
  deriving DecidableEq, Repr

/-- A reserved bit of the header argument is 1 (R101): the bits its opcode does not use. -/
def ArgKind.reservedBit (k : ArgKind) (arg : BitVec 24) : Bool :=
  match k with
  | .none => arg != 0
  | .rot16 | .nchars => arg.extractLsb' 16 8 != 0
  | .nbytes => false
  | .on => arg.extractLsb' 1 23 != 0

/-- The kinds of fixed operand word (R83..R92). -/
inductive WordKind where
  | pt | sz | len | rad | col | cp | addr | idx | org | rgb
  deriving DecidableEq, Repr

/-- A reserved bit of an operand word is 1 (R101): bits 31..16 of `LEN`, `RAD`, `COL`, bits 31..24 of `RGB`. -/
def WordKind.reservedBit (k : WordKind) (w : Word) : Bool :=
  match k with
  | .len | .rad | .col => hi16 w != 0
  | .rgb => w.extractLsb' 24 8 != 0
  | .pt | .sz | .cp | .addr | .idx | .org => false

/-- The two characters of a `CH` word, the first in bits 31..16 (R93). -/
def charsOfWord (w : Word) : List Half := [hi16 w, lo16 w]

/-- The four bytes of a `DATA` word, the most significant first (R94). -/
def bytesOfWord (w : Word) : List Byte :=
  [w.extractLsb' 24 8, w.extractLsb' 16 8, w.extractLsb' 8 8, w.extractLsb' 0 8]

/-- The `CH` words of a string (R93), the padding half zero (log entry 17). -/
def charWords : List Half → List Word
  | [] => []
  | [a] => [word2 a 0]
  | a :: b :: rest => word2 a b :: charWords rest

/-- The `DATA` words of a payload (R94), the padding bytes zero (log entry 17). -/
def dataWords : List Byte → List Word
  | [] => []
  | [a] => [word4 a 0 0 0]
  | [a, b] => [word4 a b 0 0]
  | [a, b, c] => [word4 a b c 0]
  | a :: b :: c :: d :: rest => word4 a b c d :: dataWords rest

end Sys2Proof
end

