-- ==== Sys2Proof/Syntax.lean ====
section
/-! DEFINITION. The command set (30_encoding.md R82): one constructor per row of the opcode table, its operands in
the order of R82. Coordinates stand as their 16-bit fields; what number a field means is said where it is used. -/

namespace Sys2Proof

/-- A decoded command. The operand names are those of 30_encoding.md R82. -/
inductive Instr where
  /-- 0x01, 40_panel_control.md R121. -/
  | init (rot16 nw nh : Half)
  /-- 0x02, 41_window_blit.md R164. -/
  | setwin (x0 y0 x1 y1 : Half)
  /-- 0x03, R165. -/
  | wrpix (payload : List Byte)
  /-- 0x04, R171. -/
  | fillrect (x y w h color : Half)
  /-- 0x05, R172. -/
  | pixel (x y color : Half)
  /-- 0x06, R173. -/
  | hline (x y w color : Half)
  /-- 0x07, R174. -/
  | vline (x y h color : Half)
  /-- 0x08, 42_raster.md R201. -/
  | line (x0 y0 x1 y1 color : Half)
  /-- 0x09, R202. -/
  | circle (x0 y0 r color : Half)
  /-- 0x0A, R203. -/
  | fcircle (x0 y0 r color : Half)
  /-- 0x0B, R204. -/
  | tri (x0 y0 x1 y1 x2 y2 color : Half)
  /-- 0x0C, R205. -/
  | ftri (x0 y0 x1 y1 x2 y2 color : Half)
  /-- 0x0D, 43_expand.md R244. -/
  | text8 (font : Word) (x y fg bg : Half) (chars : List Half)
  /-- 0x0E, R245. -/
  | text16 (font : Word) (x y fg bg : Half) (chars : List Half)
  /-- 0x0F, R250. -/
  | tttext (font : Word) (x y fg bg : Half) (chars : List Half)
  /-- 0x10, R251. -/
  | ttwidth (font : Word) (chars : List Half)
  /-- 0x11, R254. -/
  | bitmap (desc : Word) (x y : Half) (index : Word)
  /-- 0x12, R124. -/
  | setrot (rot16 : Half)
  /-- 0x13, R126. -/
  | setorg (xs ys : Half)
  /-- 0x14, R127. -/
  | sleep (on : Bool)
  /-- 0x15, R128. -/
  | invert (on : Bool)
  /-- 0x16, R129. -/
  | display (on : Bool)
  /-- 0x17, R130. -/
  | rgb565 (r g b : Byte)
  /-- OPC = 0x00 (R100), with the header's other bits. -/
  | illegal00 (low : BitVec 24)
  /-- OPC = 0x18..0x1F (R100), with the header's bits 26..0. -/
  | illegal18 (low : BitVec 27)
  /-- OPC = 0x20..0x3F (R100), with the header's bits 28..0. -/
  | illegal20 (low : BitVec 29)
  /-- OPC = 0x40..0x7F (R100), with the header's bits 29..0. -/
  | illegal40 (low : BitVec 30)
  /-- OPC = 0x80..0xFF (R100), with the header's bits 30..0. -/
  | illegal80 (low : BitVec 31)
  deriving DecidableEq, Repr

end Sys2Proof
end

