-- ==== Sys2Proof/WellFormed.lean ====
section
/-! DEFINITION. Which terms of `Instr` some packet encodes: only the counts that a header holds bound anything
(30_encoding.md R97, R98); every other operand fills its field. -/

namespace Sys2Proof

/-- A payload that `NBYTES` (24 bits) can count (30_encoding.md R97). -/
abbrev payloadFits (payload : List Byte) : Bool := decide (payload.length < 16777216)

/-- A string that `NCHARS` (16 bits) can count (30_encoding.md R98). -/
abbrev charsFit (chars : List Half) : Bool := decide (chars.length < 65536)

/-- The command has an encoding. -/
def Instr.wf : Instr → Bool
  | .wrpix payload => payloadFits payload
  | .text8 _ _ _ _ _ chars => charsFit chars
  | .text16 _ _ _ _ _ chars => charsFit chars
  | .tttext _ _ _ _ _ chars => charsFit chars
  | .ttwidth _ chars => charsFit chars
  | .init .. | .setwin .. | .fillrect .. | .pixel .. | .hline .. | .vline .. | .line .. | .circle ..
  | .fcircle .. | .tri .. | .ftri .. | .bitmap .. | .setrot .. | .setorg .. | .sleep .. | .invert ..
  | .display .. | .rgb565 .. | .illegal00 .. | .illegal18 .. | .illegal20 .. | .illegal40 ..
  | .illegal80 .. => true

end Sys2Proof
end

