-- ==== Sys2Proof/Decode.lean ====
section
/-! DEFINITION. From words to commands and back (30_encoding.md). The decoder is total: it answers the command at the
head of the stream and the words after its packet, or says by name why it answers none. The encoder writes the words
of R82 with every reserved and padding bit zero. -/

namespace Sys2Proof

/-- Why no command is read. -/
inductive DecodeReject where
  /-- The header or a fixed operand word has not arrived yet (60_exceptions.md R282). -/
  | needFixed
  /-- A reserved bit of the header or of a fixed operand word is 1 (R101). -/
  | reserved
  /-- The fixed part is there and sound; a character or payload word has not arrived yet. -/
  | needVar
  deriving DecidableEq, Repr

/-- The opcode as a number. -/
def opcode (h : Word) : Nat := (opcOf h).toNat

/-- The opcodes that are no command: 0x00 and 0x18..0xFF (R100). -/
def illegalOpcode (opc : Nat) : Bool := opc == 0 || decide (0x18 ≤ opc)

/-- What the header argument holds (R81, R82). -/
def argKind (opc : Nat) : ArgKind :=
  match opc with
  | 0x01 | 0x12 => .rot16
  | 0x03 => .nbytes
  | 0x0D | 0x0E | 0x0F | 0x10 => .nchars
  | 0x14 | 0x15 | 0x16 => .on
  | _ => .none

/-- The fixed operand words in order (R82). -/
def fixedKinds (opc : Nat) : List WordKind :=
  match opc with
  | 0x01 => [.sz]
  | 0x02 => [.pt, .pt]
  | 0x04 => [.pt, .sz, .col]
  | 0x05 => [.pt, .col]
  | 0x06 | 0x07 => [.pt, .len, .col]
  | 0x08 => [.pt, .pt, .col]
  | 0x09 | 0x0A => [.pt, .rad, .col]
  | 0x0B | 0x0C => [.pt, .pt, .pt, .col]
  | 0x0D | 0x0E | 0x0F => [.addr, .pt, .cp]
  | 0x10 => [.addr]
  | 0x11 => [.addr, .pt, .idx]
  | 0x13 => [.org]
  | 0x17 => [.rgb]
  | _ => []

/-- The number of fixed operand words, `fixed(OPC)` of R99. -/
def fixedWords (opc : Nat) : Nat := (fixedKinds opc).length

/-- The number of character or payload words, `var(H)` of R99. -/
def varWords (h : Word) : Nat :=
  match argKind (opcode h) with
  | .nbytes => ((argOf h).toNat + 3) / 4
  | .nchars => ((lo16 h).toNat + 1) / 2
  | .none | .rot16 | .on => 0

/-- The packet length `plen(H)` (R99); an illegal opcode has none, and its header is consumed alone (R285). -/
def plen (h : Word) : Nat :=
  if illegalOpcode (opcode h) then 1 else 1 + fixedWords (opcode h) + varWords h

/-- `reservedBitSet(opc, H, F)` of 60_exceptions.md R282 (R101). -/
def reservedBitSet (h : Word) (fixed : List Word) : Bool :=
  (argKind (opcode h)).reservedBit (argOf h) ||
    ((fixedKinds (opcode h)).zip fixed).any fun kw => kw.1.reservedBit kw.2

/-- The row of the opcode table that an illegal header falls in (R100). -/
def illegalInstr (h : Word) : Instr :=
  if opcode h = 0 then .illegal00 (h.extractLsb' 0 24)
  else if opcode h < 0x20 then .illegal18 (h.extractLsb' 0 27)
  else if opcode h < 0x40 then .illegal20 (h.extractLsb' 0 29)
  else if opcode h < 0x80 then .illegal40 (h.extractLsb' 0 30)
  else .illegal80 (h.extractLsb' 0 31)

/-- The characters of a packet: `NCHARS` of those its words hold, the padding half dropped (R93, R102). -/
def charsOf (h : Word) (var : List Word) : List Half := (var.flatMap charsOfWord).take (lo16 h).toNat

/-- The payload of a packet: `NBYTES` of the bytes its words hold, the padding dropped (R94, R102). -/
def payloadOf (h : Word) (var : List Word) : List Byte := (var.flatMap bytesOfWord).take (argOf h).toNat

/-- A fixed operand word by its position after the header; the decoder gives as many as R82 asks for. -/
def fixedWord (fixed : List Word) (k : Nat) : Word := fixed.getD k 0

/-- The command of a legal header, its fixed words and its variable words (R82). -/
def buildInstr (h : Word) (fixed var : List Word) : Instr :=
  let w0 := fixedWord fixed 0
  let w1 := fixedWord fixed 1
  let w2 := fixedWord fixed 2
  let w3 := fixedWord fixed 3
  match opcode h with
  | 0x01 => .init (lo16 h) (hi16 w0) (lo16 w0)
  | 0x02 => .setwin (hi16 w0) (lo16 w0) (hi16 w1) (lo16 w1)
  | 0x03 => .wrpix (payloadOf h var)
  | 0x04 => .fillrect (hi16 w0) (lo16 w0) (hi16 w1) (lo16 w1) (lo16 w2)
  | 0x05 => .pixel (hi16 w0) (lo16 w0) (lo16 w1)
  | 0x06 => .hline (hi16 w0) (lo16 w0) (lo16 w1) (lo16 w2)
  | 0x07 => .vline (hi16 w0) (lo16 w0) (lo16 w1) (lo16 w2)
  | 0x08 => .line (hi16 w0) (lo16 w0) (hi16 w1) (lo16 w1) (lo16 w2)
  | 0x09 => .circle (hi16 w0) (lo16 w0) (lo16 w1) (lo16 w2)
  | 0x0A => .fcircle (hi16 w0) (lo16 w0) (lo16 w1) (lo16 w2)
  | 0x0B => .tri (hi16 w0) (lo16 w0) (hi16 w1) (lo16 w1) (hi16 w2) (lo16 w2) (lo16 w3)
  | 0x0C => .ftri (hi16 w0) (lo16 w0) (hi16 w1) (lo16 w1) (hi16 w2) (lo16 w2) (lo16 w3)
  | 0x0D => .text8 w0 (hi16 w1) (lo16 w1) (hi16 w2) (lo16 w2) (charsOf h var)
  | 0x0E => .text16 w0 (hi16 w1) (lo16 w1) (hi16 w2) (lo16 w2) (charsOf h var)
  | 0x0F => .tttext w0 (hi16 w1) (lo16 w1) (hi16 w2) (lo16 w2) (charsOf h var)
  | 0x10 => .ttwidth w0 (charsOf h var)
  | 0x11 => .bitmap w0 (hi16 w1) (lo16 w1) w2
  | 0x12 => .setrot (lo16 h)
  | 0x13 => .setorg (hi16 w0) (lo16 w0)
  | 0x14 => .sleep (h.getLsbD 0)
  | 0x15 => .invert (h.getLsbD 0)
  | 0x16 => .display (h.getLsbD 0)
  | 0x17 => .rgb565 (w0.extractLsb' 16 8) (w0.extractLsb' 8 8) (w0.extractLsb' 0 8)
  | _ => illegalInstr h

/-- The command at the head of the stream and the words after its packet, or why there is none. The order of the
checks is that of 60_exceptions.md R282: illegal opcode, fixed words, reserved bits, then the variable words. -/
def decode (stream : List Word) : Except DecodeReject (Instr × List Word) :=
  match stream with
  | [] => .error .needFixed
  | h :: t =>
    if illegalOpcode (opcode h) then .ok (illegalInstr h, t)
    else if t.length < fixedWords (opcode h) then .error .needFixed
    else if reservedBitSet h (t.take (fixedWords (opcode h))) then .error .reserved
    else if (t.drop (fixedWords (opcode h))).length < varWords h then .error .needVar
    else .ok (buildInstr h (t.take (fixedWords (opcode h)))
        ((t.drop (fixedWords (opcode h))).take (varWords h)),
      (t.drop (fixedWords (opcode h))).drop (varWords h))

/-- The words of a command (R80..R94). -/
def encode : Instr → List Word
  | .init rot16 nw nh => [header 0x01 (arg16 rot16), word2 nw nh]
  | .setwin x0 y0 x1 y1 => [header 0x02 0, word2 x0 y0, word2 x1 y1]
  | .wrpix payload => header 0x03 (BitVec.ofNat 24 payload.length) :: dataWords payload
  | .fillrect x y w h color => [header 0x04 0, word2 x y, word2 w h, word2 0 color]
  | .pixel x y color => [header 0x05 0, word2 x y, word2 0 color]
  | .hline x y w color => [header 0x06 0, word2 x y, word2 0 w, word2 0 color]
  | .vline x y h color => [header 0x07 0, word2 x y, word2 0 h, word2 0 color]
  | .line x0 y0 x1 y1 color => [header 0x08 0, word2 x0 y0, word2 x1 y1, word2 0 color]
  | .circle x0 y0 r color => [header 0x09 0, word2 x0 y0, word2 0 r, word2 0 color]
  | .fcircle x0 y0 r color => [header 0x0A 0, word2 x0 y0, word2 0 r, word2 0 color]
  | .tri x0 y0 x1 y1 x2 y2 color =>
      [header 0x0B 0, word2 x0 y0, word2 x1 y1, word2 x2 y2, word2 0 color]
  | .ftri x0 y0 x1 y1 x2 y2 color =>
      [header 0x0C 0, word2 x0 y0, word2 x1 y1, word2 x2 y2, word2 0 color]
  | .text8 font x y fg bg chars =>
      header 0x0D (arg16 (BitVec.ofNat 16 chars.length)) :: font :: word2 x y :: word2 fg bg ::
        charWords chars
  | .text16 font x y fg bg chars =>
      header 0x0E (arg16 (BitVec.ofNat 16 chars.length)) :: font :: word2 x y :: word2 fg bg ::
        charWords chars
  | .tttext font x y fg bg chars =>
      header 0x0F (arg16 (BitVec.ofNat 16 chars.length)) :: font :: word2 x y :: word2 fg bg ::
        charWords chars
  | .ttwidth font chars =>
      header 0x10 (arg16 (BitVec.ofNat 16 chars.length)) :: font :: charWords chars
  | .bitmap desc x y index => [header 0x11 0, desc, word2 x y, index]
  | .setrot rot16 => [header 0x12 (arg16 rot16)]
  | .setorg xs ys => [header 0x13 0, word2 xs ys]
  | .sleep on => [header 0x14 (argOn on)]
  | .invert on => [header 0x15 (argOn on)]
  | .display on => [header 0x16 (argOn on)]
  | .rgb565 r g b => [header 0x17 0, word4 0 r g b]
  | .illegal00 low => [(0 : BitVec 8) ++ low]
  | .illegal18 low => [(3 : BitVec 5) ++ low]
  | .illegal20 low => [(1 : BitVec 3) ++ low]
  | .illegal40 low => [(1 : BitVec 2) ++ low]
  | .illegal80 low => [(1 : BitVec 1) ++ low]

/-- The header word of a command, what 60_exceptions.md R283 records of it (log entry 18). -/
def headerOf (i : Instr) : Word := (encode i).headD 0

/-- The 32-bit words of a number, the first from its bits 31..0 (the numbering of opcode_table.json). -/
def wordsOfNat : Nat → Nat → List Word
  | 0, _ => []
  | n + 1, w => BitVec.ofNat 32 w :: wordsOfNat n (w / 4294967296)

/-- The packet whose header is bits 31..0 of `w`: as many words as its header asks for, those above `nbits` zero. -/
def packetOfTable (nbits w : Nat) : List Word :=
  let v := w % 2 ^ nbits
  wordsOfNat (plen (BitVec.ofNat 32 v)) v

/-- The command the decoder reads from a row of the opcode table. -/
def decodeTableWord (nbits w : Nat) : Option Instr :=
  match decode (packetOfTable nbits w) with
  | .ok (i, _) => some i
  | .error _ => none

end Sys2Proof
end

