-- ==== Sys2Proof/Config.lean ====
section
/-! DEFINITION. What an implementation fixes (00_scope.md R7; 92_eei_decisions.md section 2), each parameter with
its legal range in its type, and the one free choice the spec leaves open. No rule assumes a value of any of them
(R122), so the implementation's own record is an opaque constant. -/

namespace Sys2Proof

/-- One item of `VENDOR_INIT` (00_scope.md R7): a command byte with an optional payload, or a delay in
milliseconds. -/
inductive VendorItem where
  | send (c : Byte) (payload : Option (List Byte))
  | delay (ms : Nat)
  deriving DecidableEq, Repr, Inhabited

/-- The named parameters of 00_scope.md R7. -/
structure Config where
  /-- `ASSET_SIZE`, 0 to 2^32 bytes. -/
  assetSize : Fin 4294967297
  /-- `FIFO_DEPTH` less one: the depth is at least 1. -/
  fifoDepthLess1 : Nat
  /-- `MADCTL[0..7]`: the byte sent with 0x36 for each rotation code. -/
  madctl : Vector Byte 8
  /-- `COLMOD_16BPP`: the byte sent with 0x3A. -/
  colmod16bpp : Byte
  /-- `VENDOR_INIT`. -/
  vendorInit : List VendorItem
  /-- `T_RST[0..3]`, milliseconds. -/
  tRst : Vector (Fin 65536) 4
  /-- `T_SWRESET`, milliseconds. -/
  tSwreset : Fin 65536
  /-- `T_SLPOUT`, milliseconds. -/
  tSlpout : Fin 65536
  /-- `T_SETTLE`, milliseconds. -/
  tSettle : Fin 65536
  /-- `SPI_MODE`, not observable (log entry 26). -/
  spiMode : Fin 4
  /-- `SPI_HZ` less one, not observable (log entry 26). -/
  spiHzLess1 : Nat
  /-- The register window's base in the host's address space, not observable (log entry 26). -/
  windowBase : Nat
  /-- Where the platform places asset address 0, not observable (log entry 26). -/
  assetBase : Nat
  deriving DecidableEq, Repr, Inhabited

/-- `FIFO_DEPTH`, at least 1 (00_scope.md R7). -/
abbrev Config.fifoDepth (c : Config) : Nat := c.fifoDepthLess1 + 1

/-- DESIGN CHOICE (log entry 1). The parameters of the implementation that comes out of reset: nothing is known of
them. -/
opaque Config.impl : Config

/-- DESIGN CHOICE (log entry 10). Which of the values a racing asset byte may have is read (20_memory.md R65): a free
choice, of the number of asset bytes loaded so far and the address. -/
opaque Config.racePick : Nat → Nat → Nat

end Sys2Proof
end

