-- ==== Sys2Proof/Machine/State.lean ====
section
/-! DEFINITION. The state of the raster-blit engine (10_state.md), as plain data: every field the spec names, the
environment the engine meets (the host's accesses, the port's holds), and the part of a command that is still to do
when one of these falls inside it. -/

namespace Sys2Proof.Machine

/-- Why the machine stops with a fault. -/
inductive Fault where
  /-- The platform loads an asset byte at an address outside asset memory (20_memory.md R52): there is no such byte.
  Raised only by a load of the environment, never by a command. Safe. -/
  | assetOutside
  deriving DecidableEq, Repr

/-- Why a step has no meaning. -/
inductive Refusal where
  /-- The command has no meaning yet, by its mnemonic. Raised by no arm now. Safe. -/
  | notModelled (mnemonic : String)
  /-- A host access that is not an aligned 32-bit access inside offsets 0x00..0x3F (20_memory.md R51;
  93_implementation_defined.md entry 1, treatment "refuse"). Raised only by a host access, never by a command. Safe. -/
  | hostAccess
  deriving DecidableEq, Repr

/-- An event of the output trace (20_memory.md R56). A `TXN(c, d)` has a command byte, a data-byte list or both, so it
is one of the first three. -/
inductive Event where
  /-- `TXN(c, none)`. -/
  | cmd (c : Byte)
  /-- `TXN(c, d)`. -/
  | cmdData (c : Byte) (d : List Byte)
  /-- `TXN(none, d)`. -/
  | data (d : List Byte)
  /-- `PIN(RST_N, l)`. -/
  | pinRst (level : Bool)
  /-- `WAIT(ms)`. -/
  | wait (ms : Nat)
  deriving DecidableEq, Repr

/-- The errors (60_exceptions.md R281). -/
inductive ErrKind where
  | opcode | reserved | uninit | desc | frame | asset
  deriving DecidableEq, Repr

/-- `S.phase` (10_state.md R31). -/
inductive Phase where
  | idle | exec
  deriving DecidableEq, Repr

/-- The output pin levels (10_state.md R32). -/
structure Pins where
  /-- `S.cs_n`, chip select, active low. -/
  csN : Bool
  /-- `S.dc`: 0 command, 1 data. -/
  dc : Bool
  /-- `S.rst_n`, panel reset, active low. -/
  rstN : Bool
  deriving DecidableEq, Repr

/-- What the host does to the block (log entry 5): a read or write of so many bytes at an offset of the register
window. -/
inductive HostAccess where
  | read (bytes off : Nat)
  | write (bytes off : Nat) (value : Word)
  deriving DecidableEq, Repr

/-- A host access to come, and how many engine ticks pass before it lands. -/
structure HostInput where
  wait : Nat
  access : HostAccess
  deriving DecidableEq, Repr

/-- What the platform does to the block (log entry 5). -/
inductive PlatformAccess where
  /-- A byte is stored into asset memory (20_memory.md R52). -/
  | loadAsset (addr : Nat) (value : Byte)
  /-- Power-on reset (70_reset_and_hazards.md R320). -/
  | powerOn
  deriving DecidableEq, Repr

/-- An act of the platform to come, and how many engine ticks pass before it lands. -/
structure PlatformInput where
  wait : Nat
  access : PlatformAccess
  deriving DecidableEq, Repr

/-- How long the port holds an event before it accepts it (20_memory.md R58). -/
inductive Hold where
  | ticks (n : Nat)
  | forever
  deriving DecidableEq, Repr

/-- A FONT1 descriptor's fields (43_expand.md R242). -/
structure Font1 where
  first : Nat
  last : Nat
  width : Nat
  height : Nat
  glyphs : Nat
  deriving DecidableEq, Repr

/-- A FONTV descriptor's fields (43_expand.md R247). -/
structure FontV where
  height : Nat
  offw : Nat
  maplen : Nat
  map : Nat
  widths : Nat
  offsets : Nat
  bits : Nat
  deriving DecidableEq, Repr

/-- A BMP descriptor's fields (43_expand.md R252). -/
structure Bmp where
  width : Nat
  height : Nat
  bpp : Nat
  rsvd : Nat
  frames : Nat
  palette : Nat
  bits : Nat
  deriving DecidableEq, Repr

/-- The pixels of a blit unit, which are read from asset memory before the unit's first event (43_expand.md R240; log
entry 10). -/
inductive Blit where
  /-- Pass `pass` of the bitmap-font glyph at `base` (43_expand.md R243). -/
  | strip (f : Font1) (base pass : Nat) (fg bg : Half)
  /-- A variable-width glyph, `w` wide, from bit `o` of its font's bits (R249). -/
  | glyph (f : FontV) (w o : Nat) (fg bg : Half)
  /-- A frame of a palette bitmap (R254). -/
  | frame (b : Bmp) (index : Nat)
  deriving DecidableEq, Repr

/-- What a command that walks a string does with each character. -/
inductive TextJob where
  /-- TEXT8, TEXT16 (43_expand.md R244). -/
  | bitmapFont (f : Font1)
  /-- TTTEXT (R250). -/
  | variableFont (f : FontV)
  /-- TTWIDTH (R251). -/
  | measure (f : FontV)
  deriving DecidableEq, Repr

/-- A text command between two characters: its local values (10_state.md R20). -/
structure TextRun where
  /-- The header, for the error record. -/
  hdr : Word
  job : TextJob
  /-- The y operand. -/
  y : Int
  fg : Half
  bg : Half
  /-- The pen; for TTWIDTH, the sum. -/
  pen : Int
  /-- Characters that are known and not yet processed. -/
  chs : List Half
  /-- How many of these the words popped so far hold; the words of the others are at the head of the FIFO. -/
  popped : Nat
  /-- Characters whose words were not yet in the FIFO when the command started. -/
  more : Nat
  deriving DecidableEq, Repr

/-- One indivisible action of the engine: an assignment or an output event of a command's pseudocode. Host accesses
fall between two of them (60_exceptions.md R290; log entry 21). -/
inductive Action where
  | emit (e : Event)
  /-- A blit unit (00_scope.md R15): its pixels are read from asset memory, then its window's events and one data
  transaction go out. -/
  | blit (window : List Event) (b : Blit)
  | setNative (w h : Half)
  | setOrigin (xs ys : Half)
  | setRot (r : BitVec 3)
  | setExtent (w h : Half)
  | setReady
  | setResult (v : Word)
  | setTbuf (color : Half)
  /-- An illegal header is recorded and the engine halts (R282 step 1, one line of its pseudocode). -/
  | halt (hdr : Word)
  /-- A word of the packet whose content is known leaves the FIFO. -/
  | pop
  /-- `raise E(a)` (R284): record, drop the rest, skip the packet words not consumed yet. -/
  | raise (e : ErrKind) (hdr : Word) (addr : Nat) (skipWords : Nat)
  /-- `skip(m)` (R282): discard `m` more words as they arrive. -/
  | skip (m : Nat)
  /-- WRPIX's payload is still arriving: the bytes so far and how many are to come. -/
  | payload (got : List Byte) (more : Nat)
  /-- A text command goes on. -/
  | text (r : TextRun)
  deriving DecidableEq, Repr

/-- An asset byte that was changed while commands already in the stream may read it (20_memory.md R65): its address,
its value before, and how many of the words now in the FIFO were there at the change. -/
structure Stale where
  addr : Nat
  old : Byte
  words : Nat
  deriving DecidableEq, Repr

/-- Asset memory: the bytes that are not 0x00, by rising address (log entry 3). -/
abbrev Memory := List Host.Cell

/-- The whole machine. -/
structure State where
  /-- The implementation parameters (00_scope.md R7); no step changes them. -/
  cfg : Config
  /-- `S.cp` (10_state.md R21). -/
  cp : Word
  /-- `S.native_w` (R22). -/
  nativeW : Half
  /-- `S.native_h` (R22). -/
  nativeH : Half
  /-- `S.rot` (R23). -/
  rot : BitVec 3
  /-- `S.width` (R24). -/
  width : Half
  /-- `S.height` (R24). -/
  height : Half
  /-- `S.xstart` (R25). -/
  xstart : Half
  /-- `S.ystart` (R25). -/
  ystart : Half
  /-- `S.ready` (R26). -/
  ready : Bool
  /-- `S.halted` (R27). -/
  halted : Bool
  /-- `S.err` (R28). -/
  err : Byte
  /-- `S.errhdr` (R28). -/
  errhdr : Word
  /-- `S.erraddr` (R28). -/
  erraddr : Word
  /-- `S.result` (R29). -/
  result : Word
  /-- `S.fifo` (R30), oldest word first. -/
  fifo : List Word
  /-- `S.phase` (R31). -/
  phase : Phase
  /-- `S.srst_pending` (R31). -/
  srstPending : Bool
  /-- `S.cs_n`, `S.dc`, `S.rst_n` (R32). -/
  pins : Pins
  /-- `S.tbuf` (R33). -/
  tbuf : Vector Half 1024
  /-- The output trace (20_memory.md R56), oldest event first. -/
  trace : List Event
  /-- Asset memory (20_memory.md R52). -/
  assets : Memory
  /-- Model: words of the current packet that the engine has consumed while it waits for the rest. -/
  pkt : List Word
  /-- Model: what is left of the executing command. -/
  todo : List Action
  /-- Model: the event at the head of `todo` is in progress at the port. -/
  inFlight : Bool
  /-- Model: the host accesses to come. -/
  host : List HostInput
  /-- Model: the acts of the platform to come. -/
  platform : List PlatformInput
  /-- Model: how long the port holds the next events. -/
  port : List Hold
  /-- Model: offset and value of every register read so far, oldest first. -/
  reads : List (Nat × Word)
  /-- Model: racing asset bytes. -/
  stale : List Stale
  /-- Model: how many asset bytes have been loaded; the argument of the free choice `Config.racePick`. -/
  loads : Nat
  deriving DecidableEq, Repr

/-- Power-on reset (10_state.md R48, 70_reset_and_hazards.md R320). `tbuf` is a DESIGN CHOICE (log entry 2), so is
`assets` (log entry 3), and so are the model's own fields (log entry 5). -/
def State.reset : State where
  cfg := Config.impl
  cp := 0
  nativeW := 0
  nativeH := 0
  rot := 0
  width := 0
  height := 0
  xstart := 0
  ystart := 0
  ready := false
  halted := false
  err := 0
  errhdr := 0
  erraddr := 0
  result := 0
  fifo := []
  phase := .idle
  srstPending := false
  pins := { csN := true, dc := true, rstN := true }
  tbuf := Vector.replicate 1024 0
  trace := []
  assets := []
  pkt := []
  todo := []
  inFlight := false
  host := []
  platform := []
  port := []
  reads := []
  stale := []
  loads := 0

end Sys2Proof.Machine
end

