-- ==== Sys2Proof/Machine/Flags.lean ====
section
/-! DEFINITION. The block has no condition codes (10_state.md R20). Its status bits are those of STATUS (R37), and its
error codes those of 60_exceptions.md R281. -/

namespace Sys2Proof.Machine

/-- The code of an error, the value of `S.err` (R281). -/
def ErrKind.code : ErrKind → Byte
  | .opcode => 0x01
  | .reserved => 0x02
  | .uninit => 0x03
  | .desc => 0x04
  | .frame => 0x05
  | .asset => 0x06

/-- STATUS.BUSY (R37): executing or words waiting, and not halted. -/
def State.busy (s : State) : Bool := (s.phase == .exec || !s.fifo.isEmpty) && !s.halted

/-- STATUS.FULL (R37). -/
def State.full (s : State) : Bool := s.fifo.length == s.cfg.fifoDepth

/-- The STATUS register (R37): ERR in bits 15..8, HALTED, READY, FULL, BUSY in bits 3..0, every other bit 0. -/
def State.status (s : State) : Word :=
  (0 : Half) ++ s.err ++ (0 : BitVec 4) ++ BitVec.ofBool s.halted ++ BitVec.ofBool s.ready ++
    BitVec.ofBool s.full ++ BitVec.ofBool s.busy

end Sys2Proof.Machine
end

