-- ==== Sys2Proof/Machine/Assets.lean ====
section
/-! DEFINITION. Asset memory: its bytes, the race of R65, the numbers and bits read from it, and the pixels of the three
kinds of blit unit (43_expand.md). -/

namespace Sys2Proof.Machine

/-! ### Byte order (00_scope.md R9, 20_memory.md R59) -/

/-- `be16(v)`: the high byte first. -/
def be16 (v : Half) : List Byte := [v.extractLsb' 8 8, v.extractLsb' 0 8]

/-- `be16pair(a, b)`. -/
def be16pair (a b : Half) : List Byte := be16 a ++ be16 b

/-- `rep(L, n)`. -/
def rep (l : List Byte) (n : Nat) : List Byte := (List.replicate n l).flatten

/-! ### Asset memory (00_scope.md R12, 20_memory.md R52..R55, R65) -/

/-- The byte at an address; one that is not listed reads 0x00 (log entry 3). -/
def Memory.read : Memory → Nat → Byte
  | [], _ => 0
  | (a, b) :: rest, x => if a = x then b else Memory.read rest x

/-- Store a byte and keep the canonical form. -/
def Memory.write : Memory → Nat → Byte → Memory
  | [], x, v => if v = 0 then [] else [(x, v)]
  | (a, b) :: rest, x, v =>
    if x < a then (if v = 0 then (a, b) :: rest else (x, v) :: (a, b) :: rest)
    else if x = a then (if v = 0 then rest else (a, v) :: rest)
    else (a, b) :: Memory.write rest x v

/-- The canonical form: addresses strictly rising, no byte equal to what an unlisted address reads as. -/
def Memory.wf (m : Memory) : Bool :=
  decide (m.Pairwise fun c d => c.1 < d.1) && m.all fun c => c.2 != 0

/-- `ASSET_SIZE` as a number. -/
def State.assetSize (s : State) : Nat := s.cfg.assetSize.val

/-- The byte the engine reads at an asset address. A byte changed under a command that may read it is its present or
an earlier value, whichever the free choice says (20_memory.md R65; log entry 10). -/
def State.assetByte (s : State) (a : Nat) : Byte :=
  let olds := s.stale.filterMap fun t => if t.addr = a then some t.old else none
  let now := Memory.read s.assets a
  match olds with
  | [] => now
  | _ :: _ => (now :: olds).getD (Config.racePick s.loads a % (olds.length + 1)) now

/-- `AssetCheck(addr, n)` passes (00_scope.md R12). -/
def State.assetCheck (s : State) (addr n : Nat) : Bool :=
  n == 0 || decide (addr + n ≤ s.assetSize)

/-- The number a list of bytes is, the most significant first (20_memory.md R53). -/
def beNat (l : List Byte) : Nat := l.foldl (fun acc b => acc * 256 + b.toNat) 0

/-- `AssetRead(addr, n)`, the check apart (00_scope.md R12, 20_memory.md R53). -/
def State.assetRead (s : State) (addr n : Nat) : Nat :=
  beNat ((List.range n).map fun k => s.assetByte (addr + k))

/-- `AssetBit(base, k)` (00_scope.md R12). -/
def State.assetBit (s : State) (base k : Nat) : Bool :=
  (s.assetByte (base + k / 8)).getLsbD (7 - k % 8)

/-- A byte stored by the platform (20_memory.md R52). While the engine is busy the old value is kept beside it, since
a command already in the stream may still read it (R65). -/
def State.loadAsset (addr : Nat) (value : Byte) (s : State) : State :=
  { s with
    assets := Memory.write s.assets addr value
    stale :=
      if s.busy then { addr := addr, old := Memory.read s.assets addr, words := s.fifo.length } :: s.stale
      else s.stale
    loads := s.loads + 1 }

/-! ### The pixels of a blit unit (43_expand.md) -/

/-- The two bytes of a glyph pixel (R243, R249): `fg` for a set bit, `bg` for a clear one. -/
def pixelBytes (fg bg : Half) (set : Bool) : List Byte := be16 (if set then fg else bg)

/-- The pixels of pass `p` of the glyph at `base`: rows `8p .. 8p+7`, row-major (R243). -/
def stripData (s : State) (f : Font1) (base p : Nat) (fg bg : Half) : List Byte :=
  (List.range 8).flatMap fun j =>
    (List.range f.width).flatMap fun i =>
      pixelBytes fg bg (s.assetBit base ((8 * p + j) * f.width + i))

/-- The pixels of a variable-width glyph, row-major (R249). -/
def vglyphData (s : State) (f : FontV) (w o : Nat) (fg bg : Half) : List Byte :=
  (List.range f.height).flatMap fun r =>
    (List.range w).flatMap fun q => pixelBytes fg bg (s.assetBit f.bits (o + r * w + q))

/-- `fo`: the first bit of a frame (R253). -/
def Bmp.frameBit (b : Bmp) (index : Nat) : Nat := index * b.width * b.height * b.bpp

/-- `v_k`: the palette index of pixel `k`, most significant bit first (R253). -/
def Bmp.pixelIndex (s : State) (b : Bmp) (fo k : Nat) : Nat :=
  (List.range b.bpp).foldl (fun acc t => 2 * acc + (s.assetBit b.bits (fo + k * b.bpp + t)).toNat) 0

/-- The pixels of a frame (R254). -/
def Bmp.frameData (s : State) (b : Bmp) (index : Nat) : List Byte :=
  (List.range (b.width * b.height)).flatMap fun k =>
    be16 (BitVec.ofNat 16 (s.assetRead (b.palette + 2 * b.pixelIndex s (b.frameBit index) k) 2))

/-- The bytes of a blit unit's data transaction, as asset memory has them now. -/
def Blit.bytes (s : State) : Blit → List Byte
  | .strip f base p fg bg => stripData s f base p fg bg
  | .glyph f w o fg bg => vglyphData s f w o fg bg
  | .frame b index => b.frameData s index

end Sys2Proof.Machine
end

