-- ==== Sys2Proof/Machine/Ops.lean ====
section
/-! DEFINITION. The named operations that the commands share: byte order, the output primitives, asset memory, the
window and the fill, raising an error and acknowledging it, and the order in which the actions of a command happen
when a host access or a held event falls among them. -/

namespace Sys2Proof.Machine

/-! ### Time (60_exceptions.md R290; 20_memory.md R64) -/

/-- A host write to CMD that must wait: the FIFO is full (10_state.md R30). -/
def State.blocked (s : State) (a : HostAccess) : Bool :=
  match a with
  | .write 4 0 _ => decide (s.cfg.fifoDepth ≤ s.fifo.length)
  | _ => false

/-- The host's next access lands now. -/
def State.hostDue (s : State) : Bool :=
  match s.host with
  | [] => false
  | h :: _ => h.wait == 0 && !s.blocked h.access

/-- The platform's next act lands now. -/
def State.platformDue (s : State) : Bool :=
  match s.platform with
  | [] => false
  | p :: _ => p.wait == 0

/-- Something of the environment lands now, before the engine's next action. -/
def State.envDue (s : State) : Bool := s.hostDue || s.platformDue

/-- One engine tick passes for the host's and the platform's next acts (log entry 5). -/
def State.tick (s : State) : State :=
  { s with
    host := match s.host with
      | [] => []
      | h :: rest => { h with wait := h.wait - 1 } :: rest
    platform := match s.platform with
      | [] => []
      | p :: rest => { p with wait := p.wait - 1 } :: rest }

/-! ### Words (10_state.md R21, R30) -/

/-- Words leave the FIFO: `cp` counts them. -/
def State.pop (n : Nat) (s : State) : State :=
  { s with
    fifo := s.fifo.drop n
    cp := s.cp + BitVec.ofNat 32 n
    stale := s.stale.map fun t => { t with words := t.words - n } }

/-! ### The output port (00_scope.md R13, 20_memory.md R56..R58) -/

/-- What happens on the wires during an event (R57). -/
inductive WireAct where
  | csN (level : Bool)
  | dc (level : Bool)
  | shift (b : Byte)
  | rstN (level : Bool)
  deriving DecidableEq, Repr

/-- The wire sequence of an event (R57). -/
def Event.wire : Event → List WireAct
  | .cmd c => [.csN false, .dc false, .shift c, .csN true]
  | .cmdData c d => [.csN false, .dc false, .shift c, .dc true] ++ d.map .shift ++ [.csN true]
  | .data d => [.csN false, .dc true] ++ d.map .shift ++ [.csN true]
  | .pinRst l => [.rstN l]
  | .wait _ => []

/-- The bits of a byte in the order they are shifted out, most significant first (R57). -/
def serialBits (b : Byte) : List Bool := (List.range 8).map fun k => b.getLsbD (7 - k)

/-- The levels after one wire action. -/
def Pins.act (p : Pins) : WireAct → Pins
  | .csN l => { p with csN := l }
  | .dc l => { p with dc := l }
  | .shift _ => p
  | .rstN l => { p with rstN := l }

/-- The levels after an event. -/
def Pins.after (p : Pins) (e : Event) : Pins := e.wire.foldl Pins.act p

/-- The levels while the port holds an event. DEDUCED: a transaction's first phase is on the wires. DESIGN CHOICE: a
`PIN(RST_N, l)` leaves `rst_n` (10_state.md R32) at its old level until the port accepts it (log entry 8). A `WAIT`
changes no pin (R57). -/
def Pins.during (p : Pins) : Event → Pins
  | .cmd _ | .cmdData _ _ => { p with csN := false, dc := false }
  | .data _ => { p with csN := false, dc := true }
  | .pinRst _ | .wait _ => p

/-- The port has accepted an event: it joins the trace (R56) and the pins are as it leaves them (R57). -/
def State.emit (e : Event) (s : State) : State :=
  { s with trace := s.trace ++ [e], pins := s.pins.after e }

/-- `Cmd(c)` (00_scope.md R13). -/
def cmdAct (c : Byte) : Action := .emit (.cmd c)

/-- `CmdData(c, d)`. -/
def cmdDataAct (c : Byte) (d : List Byte) : Action := .emit (.cmdData c d)

/-- `Data(d)`. -/
def dataAct (d : List Byte) : Action := .emit (.data d)

/-- `Pin(RST_N, l)`. -/
def pinAct (level : Bool) : Action := .emit (.pinRst level)

/-- `Wait(ms)`: emitted only when `ms > 0`. -/
def waitActs (ms : Nat) : List Action := if ms = 0 then [] else [.emit (.wait ms)]

/-- `Txn(c, p)` for a vendor item (40_panel_control.md R121). -/
def txnAct (c : Byte) : Option (List Byte) → Action
  | none => .emit (.cmd c)
  | some d => .emit (.cmdData c d)

/-! ### Errors (60_exceptions.md R283, R284, R287): taking one, and the acknowledgement -/

/-- The command is over: the engine is IDLE with nothing left to do (R282). -/
def State.endCommand (s : State) : State := { s with todo := [], phase := .idle }

/-- `record(code, H, a)` (R283): the first error since the last acknowledgement is kept; the address is reduced modulo
2^32. -/
def State.record (e : ErrKind) (hdr : Word) (addr : Nat) (s : State) : State :=
  if s.err = 0 then { s with err := e.code, errhdr := hdr, erraddr := BitVec.ofNat 32 addr } else s

/-- `skip(m)` (R282): words are popped and discarded one by one; when one has not arrived, or an access is due, the
rest waits. -/
def skipWords : Nat → State → State
  | 0, s => s.endCommand
  | m + 1, s =>
    if s.envDue || s.fifo.isEmpty then { s with todo := [.skip (m + 1)] } else skipWords m (s.pop 1).tick

/-- `raise E(a)` (R284): record, then skip the words of the packet that are not popped yet, and the command is over. -/
def State.raise (e : ErrKind) (hdr : Word) (addr words : Nat) (s : State) : State :=
  skipWords words (s.record e hdr addr).tick

/-- CTRL.ERRCLR (10_state.md R39, R287), the one operation that undoes an error. -/
def State.errclr (s : State) : State := { s with err := 0, errhdr := 0, erraddr := 0 }

/-! ### Reset (10_state.md R48, 70_reset_and_hazards.md R320, R321) -/

/-- The soft reset at a transaction boundary (R321 (3)): the values of R48, the FIFO and the command dropped; if the
reset line was low, `PIN(RST_N, 1)` (log entry 9). The trace, the platform's asset memory (log entry 4), the
parameters and the environment stay. -/
def State.softReset (s : State) : State :=
  { State.reset with
    cfg := s.cfg
    trace := if s.pins.rstN then s.trace else s.trace ++ [.pinRst true]
    assets := s.assets
    host := s.host
    platform := s.platform
    port := s.port
    reads := s.reads
    loads := s.loads }

/-- Power-on reset (R320): every field at its reset value and an empty trace; the parameters, the platform's asset
memory and the environment stay, and the event the port was holding is gone (log entry 11). -/
def State.powerOn (s : State) : State :=
  { State.reset with
    cfg := s.cfg
    assets := s.assets
    host := s.host
    platform := s.platform
    port := if s.inFlight then s.port.tail else s.port
    reads := s.reads
    loads := s.loads }

/-! ### The window and the fill (41_window_blit.md) -/

/-- What the window check and the sent coordinates depend on (10_state.md R24, R25). -/
structure Geometry where
  width : Half
  height : Half
  xstart : Half
  ystart : Half
  deriving DecidableEq, Repr

/-- The extent and origin now. -/
def State.geom (s : State) : Geometry :=
  { width := s.width, height := s.height, xstart := s.xstart, ystart := s.ystart }

/-- The window check (R161, R162): inclusive of the extent, both axes. -/
def windowAccepted (g : Geometry) (x0 y0 x1 y1 : Int) : Bool :=
  decide (0 ≤ x0 ∧ x0 ≤ x1 ∧ x1 ≤ g.width.toNat ∧ 0 ≤ y0 ∧ y0 ≤ y1 ∧ y1 ≤ g.height.toNat)

/-- A coordinate as it is sent: the origin added after the check, modulo 2^16 (R163). -/
def sentCoord (v : Int) (origin : Half) : Half := BitVec.ofInt 16 (v + origin.toNat)

/-- `WINDOW(x0, y0, x1, y1)` (R161). -/
def windowOut (g : Geometry) (x0 y0 x1 y1 : Int) : List Event :=
  if windowAccepted g x0 y0 x1 y1 then
    [.cmdData 0x2A (be16pair (sentCoord x0 g.xstart) (sentCoord x1 g.xstart)),
     .cmdData 0x2B (be16pair (sentCoord y0 g.ystart) (sentCoord y1 g.ystart)),
     .cmd 0x2C]
  else []

/-- The window as actions. -/
def windowActs (g : Geometry) (x0 y0 x1 y1 : Int) : List Action := (windowOut g x0 y0 x1 y1).map .emit

/-- `TBUF_PIXELS` (00_scope.md R6). -/
abbrev tbufPixels : Nat := 1024

/-- The data transactions of a fill of `count` pixels, the gearbox (R166, R170): full buffers, then the remainder. -/
def fillData (count : Nat) (color : Half) : List Action :=
  List.replicate (count / tbufPixels) (dataAct (rep (be16 color) tbufPixels)) ++
    (if count % tbufPixels = 0 then [] else [dataAct (rep (be16 color) (count % tbufPixels))])

/-- `FILL(x, y, w, h, color)` (R166, R175). -/
def fillActs (g : Geometry) (x y w h : Int) (color : Half) : List Action :=
  windowActs g x y (x + w - 1) (y + h - 1) ++
    (if (w * h).toNat = 0 then [] else [.setTbuf color]) ++ fillData (w * h).toNat color

/-! ### The order of things (60_exceptions.md R282, R290; 20_memory.md R58, R64) -/

/-- The events of a blit unit (43_expand.md R243, R249, R254): its window's, if it is accepted, and one data transaction
of its pixels, as asset memory has them now. -/
def unitEvents (window : List Event) (b : Blit) (s : State) : List Event := window ++ [.data (b.bytes s)]

/-- What one action does to the state. The last four are not single actions: `drain` sees to them. -/
def Action.apply (a : Action) (s : State) : State :=
  match a with
  | .emit e => s.emit e
  | .blit window b => (unitEvents window b s).foldl (fun t e => t.emit e) s
  | .setNative w h => { s with nativeW := w, nativeH := h }
  | .setOrigin xs ys => { s with xstart := xs, ystart := ys }
  | .setRot r => { s with rot := r }
  | .setExtent w h => { s with width := w, height := h }
  | .setReady => { s with ready := true }
  | .setResult v => { s with result := v }
  | .setTbuf color => { s with tbuf := Vector.replicate 1024 color }
  | .halt hdr => { s.record .opcode hdr 0 with halted := true }
  | .pop => s.pop 1
  | .raise .. | .skip .. | .payload .. | .text .. => s

/-- An event is offered to the port (20_memory.md R58): it is accepted, and the command goes on, or it is held, and the
command stays as it is, the event at its head. -/
def State.offer (e : Event) (acts : List Action) (goOn : State → State) (s : State) : State :=
  match s.port with
  | [] => goOn (s.emit e).tick
  | .ticks 0 :: holds => goOn (State.emit e { s with port := holds }).tick
  | _ :: _ => ({ s with todo := acts, inFlight := true, pins := s.pins.during e } : State).tick

/-- Events in order, then what comes after them: where an access is due or the port holds one, those that are left stay,
before the actions `rest` that follow them. -/
def State.sendAll : List Event → List Action → (State → State) → State → State
  | [], _, goOn, s => goOn s
  | e :: evs, rest, goOn, s =>
    if s.envDue then { s with todo := (e :: evs).map .emit ++ rest }
    else s.offer e ((e :: evs).map .emit ++ rest) (sendAll evs rest goOn)

/-- The actions of a command in order (R56, R64 (c)), until the command ends, an access of the environment is due, the
port holds an event, or a word of the packet is still to come; what is left stays in `todo`. `onText` goes on with a
text command. -/
def drain (onText : TextRun → State → State) : List Action → State → State
  | [], s => s.endCommand
  | a :: rest, s =>
    if s.envDue then { s with todo := a :: rest }
    else
      match a with
      | .emit e => s.offer e (a :: rest) (drain onText rest)
      | .blit window b => s.sendAll (unitEvents window b s) rest (drain onText rest)
      | .raise e hdr addr words => s.raise e hdr addr words
      | .skip m => skipWords m s
      | .payload _ _ => { s with todo := a :: rest }
      | .text r => onText r s
      | _ => drain onText rest (a.apply s).tick

/-- A text command that is met where none can be stays for the next step. -/
def laterText (r : TextRun) (s : State) : State := { s with todo := [.text r] }

/-- The engine is in EXEC (10_state.md R31). -/
def State.enter (s : State) : State := { s with phase := .exec }

/-- A command that is no text command starts: the engine is in EXEC and its actions happen. -/
def State.start (acts : List Action) (s : State) : State := drain laterText acts s.enter

/-- The actions of a command that requires READY (R282 step 3) and has `words` character or payload words: `E_UNINIT`
before any effect where it is not, and these words skipped. -/
def requireReady (hdr : Word) (words : Nat) (acts : List Action) (s : State) : List Action :=
  if s.ready then acts else [.raise .uninit hdr 0 words]

end Sys2Proof.Machine
end

