-- ==== Sys2Proof/Machine/Expand.lean ====
section
/-! DEFINITION. The packed-bitmap expander (43_expand.md): TEXT8, TEXT16, TTTEXT, TTWIDTH, BITMAP. A text command
walks its string character by character and pops a word of them when it comes to its first (60_exceptions.md R282); the
characters are known when their words are in the FIFO as the command starts, and else arrive one word at a time. -/

namespace Sys2Proof.Machine

/-- `fits(x, y, w, h)` (R241): exclusive of the extent, all four edges. -/
def fits (g : Geometry) (x y : Int) (w h : Nat) : Bool :=
  decide (0 ≤ x ∧ 0 ≤ y ∧ x + w ≤ g.width.toNat ∧ y + h ≤ g.height.toNat)

/-! ### Descriptors -/

/-- Read and validate a FONT1 descriptor for glyphs `wexp` wide (R242, R244). -/
def readFont1 (s : State) (wexp a : Nat) : Except (ErrKind × Nat) Font1 :=
  if !s.assetCheck a 12 then .error (.asset, a)
  else if s.assetRead (a + 4) 1 ≠ wexp then .error (.desc, 0)
  else if s.assetRead (a + 5) 1 = 0 ∨ s.assetRead (a + 5) 1 % 8 ≠ 0 then .error (.desc, 0)
  else if s.assetRead (a + 6) 2 ≠ 0 then .error (.desc, 0)
  else .ok
    { first := s.assetRead a 2
      last := s.assetRead (a + 2) 2
      width := s.assetRead (a + 4) 1
      height := s.assetRead (a + 5) 1
      glyphs := s.assetRead (a + 8) 4 }

/-- The fields of a FONTV descriptor (R247). -/
def fontVAt (s : State) (a : Nat) : FontV where
  height := s.assetRead a 1
  offw := s.assetRead (a + 1) 1
  maplen := s.assetRead (a + 2) 2
  map := s.assetRead (a + 4) 4
  widths := s.assetRead (a + 8) 4
  offsets := s.assetRead (a + 12) 4
  bits := s.assetRead (a + 16) 4

/-- Read and validate a FONTV descriptor and check its tables (R247); TTWIDTH does not check OFFSETS (R251). -/
def readFontV (s : State) (withOffsets : Bool) (a : Nat) : Except (ErrKind × Nat) FontV :=
  let f := fontVAt s a
  if !s.assetCheck a 20 then .error (.asset, a)
  else if f.height = 0 then .error (.desc, 0)
  else if f.offw < 1 ∨ 3 < f.offw then .error (.desc, 0)
  else if !s.assetCheck f.map (2 * f.maplen) then .error (.asset, f.map)
  else if !s.assetCheck f.widths f.maplen then .error (.asset, f.widths)
  else if withOffsets && !s.assetCheck f.offsets (f.offw * f.maplen) then .error (.asset, f.offsets)
  else .ok f

/-! ### Bitmap fonts (R242..R246) -/

/-- `GS`: the bytes of a glyph (R242). -/
def Font1.glyphSize (f : Font1) : Nat := f.height * f.width / 8

/-- `G(ch)`: where a glyph starts (R242). -/
def Font1.glyphAt (f : Font1) (c : Nat) : Nat := f.glyphs + (c - f.first) * f.glyphSize

/-- The passes of a glyph (R243), a blit unit each, whose pixels are read before its first event (R240; log entry
10). -/
def glyphActs (s : State) (f : Font1) (base : Nat) (x y : Int) (fg bg : Half) : List Action :=
  (List.range (f.height / 8)).map fun (p : Nat) =>
    .blit (windowOut s.geom x (y + 8 * p) (x + f.width - 1) (y + 8 * p + 7)) (.strip f base p fg bg)

/-! ### Variable-width fonts (R247..R249) -/

/-- `index(c)` (R248): the least mapped index with this code. -/
def FontV.index (s : State) (f : FontV) (c : Nat) : Option Nat :=
  (List.range f.maplen).find? fun i => s.assetRead (f.map + 2 * i) 2 == c

/-- `w_i` (R248). -/
def FontV.widthAt (s : State) (f : FontV) (i : Nat) : Nat := s.assetRead (f.widths + i) 1

/-- `o_i` (R248). -/
def FontV.offsetAt (s : State) (f : FontV) (i : Nat) : Nat :=
  s.assetRead (f.offsets + f.offw * i) f.offw

/-- A plain window-and-data blit of a variable-width glyph (R249): the data goes out whatever the window did. -/
def vglyphActs (s : State) (f : FontV) (w o : Nat) (x y : Int) (fg bg : Half) : List Action :=
  [.blit (windowOut s.geom x y (x + w - 1) (y + f.height - 1)) (.glyph f w o fg bg)]

/-! ### The walk over a string -/

/-- The words of the packet that a text command has not popped yet. -/
def TextRun.wordsLeft (r : TextRun) : Nat := (r.chs.length - r.popped + r.more + 1) / 2

/-- A failing region check of a unit (R240 (b)). -/
def TextRun.assetError (r : TextRun) (addr : Nat) : List Action :=
  [.raise .asset r.hdr addr r.wordsLeft]

/-- What one character does and where the pen (or the sum) is after it (R244, R246, R250, R251). What it looks up is
read at one moment, its pixels are not read yet (DESIGN CHOICE, log entry 10). -/
def charActs (s : State) (r : TextRun) (c : Half) : List Action × Int :=
  match r.job with
  | .bitmapFont f =>
    if ¬(f.first ≤ c.toNat ∧ c.toNat < f.last) then ([], r.pen)
    else if !fits s.geom r.pen r.y f.width f.height then ([], r.pen)
    else if !s.assetCheck (f.glyphAt c.toNat) f.glyphSize then
      (r.assetError (f.glyphAt c.toNat), r.pen)
    else (glyphActs s f (f.glyphAt c.toNat) r.pen r.y r.fg r.bg, r.pen + f.width)
  | .variableFont f =>
    match f.index s c.toNat with
    | none => ([], r.pen)
    | some i =>
      let w := f.widthAt s i
      let o := f.offsetAt s i
      if w = 0 then ([], r.pen)
      else if !s.assetCheck (f.bits + o / 8) ((o + w * f.height + 7) / 8 - o / 8) then
        (r.assetError (f.bits + o / 8), r.pen)
      else (vglyphActs s f w o r.pen r.y r.fg r.bg, r.pen + w)
  | .measure f =>
    match f.index s c.toNat with
    | none => ([], r.pen)
    | some i => ([], r.pen + f.widthAt s i)

/-- What follows the last character: TTWIDTH writes its sum (R251). -/
def TextRun.finish (r : TextRun) : List Action :=
  match r.job with
  | .measure _ => [.setResult (BitVec.ofInt 32 r.pen)]
  | .bitmapFont _ | .variableFont _ => []

/-- A character's own work, `go` being that of the characters after it: its reads and checks are one moment, a tick
passes, also where it emits nothing (DESIGN CHOICE, log entry 10), and its events follow. -/
def charStep (c : Half) (rest : List Half) (go : TextRun → State → State) (r : TextRun) (s : State) : State :=
  drain go ((charActs s r c).1 ++
    [.text { r with pen := (charActs s r c).2, chs := rest, popped := r.popped - 1 }]) s.tick

/-- A text command goes on with the characters that are known (R244, R250, R251), popping their words as it comes to
them (log entry 6); when more are to come it waits for their word. -/
def runText : List Half → TextRun → State → State
  | [], r, s =>
    if r.more = 0 then drain laterText r.finish s else { s with todo := [.text { r with chs := [] }] }
  | c :: rest, r, s =>
    if r.popped = 0 then
      drain (charStep c rest (runText rest)) [.pop, .text { r with popped := 2 }] s
    else charStep c rest (runText rest) r s

/-- The actions of any command, a text command's among them. -/
def runActs (acts : List Action) (s : State) : State := drain (fun r => runText r.chs r) acts s

/-- A command starts whose actions may be a text command's. -/
def State.startText (acts : List Action) (s : State) : State := runActs acts s.enter

/-- The actions of TEXT8 and TEXT16, `TEXTBM` (R244): the descriptor, then the walk. -/
def textBmActs (s : State) (hdr : Word) (wexp : Nat) (font : Word) (x y fg bg : Half)
    (chs : List Half) (more : Nat) : List Action :=
  match readFont1 s wexp font.toNat with
  | .error (e, a) => [.raise e hdr a ((chs.length + more + 1) / 2)]
  | .ok f =>
    [.text { hdr := hdr, job := .bitmapFont f, y := y.toInt, fg := fg, bg := bg, pen := x.toInt,
             chs := chs, popped := 0, more := more }]

/-- The actions of TTTEXT (R250). -/
def ttTextActs (s : State) (hdr : Word) (font : Word) (x y fg bg : Half)
    (chs : List Half) (more : Nat) : List Action :=
  match readFontV s true font.toNat with
  | .error (e, a) => [.raise e hdr a ((chs.length + more + 1) / 2)]
  | .ok f =>
    [.text { hdr := hdr, job := .variableFont f, y := y.toInt, fg := fg, bg := bg, pen := x.toInt,
             chs := chs, popped := 0, more := more }]

/-- The actions of TTWIDTH (R251). -/
def ttWidthActs (s : State) (hdr : Word) (font : Word) (chs : List Half) (more : Nat) :
    List Action :=
  match readFontV s false font.toNat with
  | .error (e, a) => [.raise e hdr a ((chs.length + more + 1) / 2)]
  | .ok f =>
    [.text { hdr := hdr, job := .measure f, y := 0, fg := 0, bg := 0, pen := 0,
             chs := chs, popped := 0, more := more }]

/-- TEXT8 (R244). -/
def execText8 (font : Word) (x y fg bg : Half) (chars : List Half) (s : State) :
    Host.Outcome State Fault Refusal :=
  let hdr := headerOf (.text8 font x y fg bg chars)
  .next (s.startText (requireReady hdr ((chars.length + 1) / 2) (textBmActs s hdr 8 font x y fg bg chars 0) s))

/-- TEXT16 (R245). -/
def execText16 (font : Word) (x y fg bg : Half) (chars : List Half) (s : State) :
    Host.Outcome State Fault Refusal :=
  let hdr := headerOf (.text16 font x y fg bg chars)
  .next (s.startText (requireReady hdr ((chars.length + 1) / 2) (textBmActs s hdr 16 font x y fg bg chars 0) s))

/-- TTTEXT (R250). -/
def execTttext (font : Word) (x y fg bg : Half) (chars : List Half) (s : State) :
    Host.Outcome State Fault Refusal :=
  let hdr := headerOf (.tttext font x y fg bg chars)
  .next (s.startText (requireReady hdr ((chars.length + 1) / 2) (ttTextActs s hdr font x y fg bg chars 0) s))

/-- TTWIDTH (R251). It does not require READY. -/
def execTtwidth (font : Word) (chars : List Half) (s : State) :
    Host.Outcome State Fault Refusal :=
  let hdr := headerOf (.ttwidth font chars)
  .next (s.startText (ttWidthActs s hdr font chars 0))

/-! ### Palette bitmaps (R252..R254) -/

/-- The fields of a BMP descriptor (R252). -/
def bmpAt (s : State) (a : Nat) : Bmp where
  width := s.assetRead a 2
  height := s.assetRead (a + 2) 2
  bpp := s.assetRead (a + 4) 1
  rsvd := s.assetRead (a + 5) 1
  frames := s.assetRead (a + 6) 2
  palette := s.assetRead (a + 8) 4
  bits := s.assetRead (a + 12) 4

/-- The region of a frame's bits (R254): its first byte's offset from BITS and its length. -/
def Bmp.frameRegion (b : Bmp) (index : Nat) : Nat × Nat :=
  let fo := b.frameBit index
  (fo / 8, (fo + b.width * b.height * b.bpp + 7) / 8 - fo / 8)

/-- The actions of BITMAP (R254), its checks in order. -/
def bitmapActs (s : State) (hdr : Word) (a index : Nat) (x y : Int) : List Action :=
  let b := bmpAt s a
  if !s.assetCheck a 16 then [.raise .asset hdr a 0]
  else if b.bpp = 0 ∨ 8 < b.bpp then [.raise .desc hdr 0 0]
  else if b.rsvd ≠ 0 then [.raise .desc hdr 0 0]
  else if b.frames ≤ index then [.raise .frame hdr 0 0]
  else if b.width = 0 ∨ b.height = 0 then []
  else if !fits s.geom x y b.width b.height then []
  else if !s.assetCheck b.palette (2 * 2 ^ b.bpp) then [.raise .asset hdr b.palette 0]
  else if !s.assetCheck (b.bits + (b.frameRegion index).1) (b.frameRegion index).2 then
    [.raise .asset hdr (b.bits + (b.frameRegion index).1) 0]
  else [.blit (windowOut s.geom x y (x + b.width - 1) (y + b.height - 1)) (.frame b index)]

/-- BITMAP (R254). -/
def execBitmap (desc : Word) (x y : Half) (index : Word) (s : State) :
    Host.Outcome State Fault Refusal :=
  let hdr := headerOf (.bitmap desc x y index)
  .next (s.start (requireReady hdr 0 (bitmapActs s hdr desc.toNat index.toNat x.toInt y.toInt) s))

end Sys2Proof.Machine
end

