-- ==== Sys2Proof/Machine/Illegal.lean ====
section
/-! DEFINITION. The illegal headers (30_encoding.md R100, 60_exceptions.md R285): `E_OPCODE` is recorded and the
engine halts. -/

namespace Sys2Proof.Machine

/-- What an illegal header does (60_exceptions.md R282 step 1): one line of pseudocode, one action (log entry 21). -/
def illegalActs (hdr : Word) : List Action := [.halt hdr]

/-- OPC = 0x00 (R285). -/
def execIllegal00 (low : BitVec 24) (s : State) : Host.Outcome State Fault Refusal :=
  .next (s.start (illegalActs (headerOf (.illegal00 low))))

/-- OPC = 0x18..0x1F (R285). -/
def execIllegal18 (low : BitVec 27) (s : State) : Host.Outcome State Fault Refusal :=
  .next (s.start (illegalActs (headerOf (.illegal18 low))))

/-- OPC = 0x20..0x3F (R285). -/
def execIllegal20 (low : BitVec 29) (s : State) : Host.Outcome State Fault Refusal :=
  .next (s.start (illegalActs (headerOf (.illegal20 low))))

/-- OPC = 0x40..0x7F (R285). -/
def execIllegal40 (low : BitVec 30) (s : State) : Host.Outcome State Fault Refusal :=
  .next (s.start (illegalActs (headerOf (.illegal40 low))))

/-- OPC = 0x80..0xFF (R285). -/
def execIllegal80 (low : BitVec 31) (s : State) : Host.Outcome State Fault Refusal :=
  .next (s.start (illegalActs (headerOf (.illegal80 low))))

end Sys2Proof.Machine
end

