-- ==== Sys2Proof/Machine/PanelControl.lean ====
section
/-! DEFINITION. Panel control and colour commands (40_panel_control.md): INIT, SETROT, SETORG, SLEEP, INVERT, DISPLAY,
RGB565. -/

namespace Sys2Proof.Machine

/-- `ROT16 mod 8` (30_encoding.md R95). -/
def rotOf (rot16 : Half) : BitVec 3 := rot16.extractLsb' 0 3

/-- The extent of a rotation code (R125): width and height swapped exactly when it is odd. -/
def extentOf (r : BitVec 3) (nativeW nativeH : Half) : Half × Half :=
  if r.getLsbD 0 then (nativeH, nativeW) else (nativeW, nativeH)

/-- `ROTATE(v)` (R124) of a panel of the given native size. -/
def rotateActs (cfg : Config) (rot16 nativeW nativeH : Half) : List Action :=
  let r := rotOf rot16
  let ext := extentOf r nativeW nativeH
  [.setRot r, .setExtent ext.1 ext.2, cmdDataAct 0x36 [cfg.madctl[r.toFin]]]

/-- One item of `VENDOR_INIT` (R121). -/
def vendorActs : VendorItem → List Action
  | .send c payload => [txnAct c payload]
  | .delay ms => waitActs ms

/-- INIT's sequence (R121); the native size is one action and the origin another (log entry 21). -/
def initActs (cfg : Config) (rot16 nw nh : Half) : List Action :=
  let ext := extentOf (rotOf rot16) nw nh
  [.setNative nw nh, .setOrigin 0 0] ++
  (pinAct false :: waitActs cfg.tRst[0].val) ++
  (pinAct true :: waitActs cfg.tRst[1].val) ++
  (pinAct false :: waitActs cfg.tRst[2].val) ++
  (pinAct true :: waitActs cfg.tRst[3].val) ++
  (cmdAct 0x01 :: waitActs cfg.tSwreset.val) ++
  (cmdAct 0x11 :: waitActs cfg.tSlpout.val) ++
  [cmdDataAct 0x3A [cfg.colmod16bpp]] ++
  rotateActs cfg rot16 nw nh ++
  cfg.vendorInit.flatMap vendorActs ++
  waitActs cfg.tSettle.val ++
  fillActs { width := ext.1, height := ext.2, xstart := 0, ystart := 0 }
    0 0 ext.1.toNat ext.2.toNat 0 ++
  [.setReady]

/-- INIT (R121). It does not require READY. -/
def execInit (rot16 nw nh : Half) (s : State) : Host.Outcome State Fault Refusal :=
  .next (s.start (initActs s.cfg rot16 nw nh))

/-- SETROT (R124). -/
def execSetrot (rot16 : Half) (s : State) : Host.Outcome State Fault Refusal :=
  .next (s.start (requireReady (headerOf (.setrot rot16)) 0
    (rotateActs s.cfg rot16 s.nativeW s.nativeH) s))

/-- SETORG (R126): both coordinates in one action (log entry 21). -/
def execSetorg (xs ys : Half) (s : State) : Host.Outcome State Fault Refusal :=
  .next (s.start (requireReady (headerOf (.setorg xs ys)) 0 [.setOrigin xs ys] s))

/-- SLEEP (R127). -/
def execSleep (on : Bool) (s : State) : Host.Outcome State Fault Refusal :=
  .next (s.start (requireReady (headerOf (.sleep on)) 0 [cmdAct (if on then 0x10 else 0x11)] s))

/-- INVERT (R128). -/
def execInvert (on : Bool) (s : State) : Host.Outcome State Fault Refusal :=
  .next (s.start (requireReady (headerOf (.invert on)) 0 [cmdAct (if on then 0x21 else 0x20)] s))

/-- DISPLAY (R129). -/
def execDisplay (on : Bool) (s : State) : Host.Outcome State Fault Refusal :=
  .next (s.start (requireReady (headerOf (.display on)) 0 [cmdAct (if on then 0x29 else 0x28)] s))

/-- `rgb565(r, g, b)` (R131): the top 5, 6 and 5 bits of the components. -/
def rgb565 (r g b : Byte) : Half :=
  ((r.extractLsb' 3 5) ++ (g.extractLsb' 2 6) ++ (b.extractLsb' 3 5) : BitVec 16)

/-- RGB565 (R130). It does not require READY. -/
def execRgb565 (r g b : Byte) (s : State) : Host.Outcome State Fault Refusal :=
  .next (s.start [.setResult ((rgb565 r g b).setWidth 32)])

end Sys2Proof.Machine
end

