-- ==== Sys2Proof/Machine/Raster.lean ====
section
/-! DEFINITION. Line, circle and triangle engines (42_raster.md): LINE, CIRCLE, FCIRCLE, TRI, FTRI. Each computes its
plot list (R200) on exact integers; a loop of the pseudocode is a recursion on the number of its passes. -/

namespace Sys2Proof.Machine

/-- One entry of a plot list (R200): a call of `PIXEL`, `HSPAN` or `VSPAN` without its colour. -/
inductive Plot where
  | pixel (x y : Int)
  | hspan (x y w : Int)
  | vspan (x y h : Int)
  deriving DecidableEq, Repr

/-- The actions of a call (41_window_blit.md R167). -/
def Plot.acts (g : Geometry) (color : Half) : Plot → List Action
  | .pixel x y => fillActs g x y 1 1 color
  | .hspan x y w => fillActs g x y w 1 color
  | .vspan x y h => fillActs g x y 1 h color

/-- The actions of a plot list, in call order (R200). -/
def plotActs (g : Geometry) (color : Half) (plots : List Plot) : List Action :=
  plots.flatMap (Plot.acts g color)

/-! ### LINE (R201) -/

/-- The loop of R201, with the number of its passes. -/
def lineLoop (steep : Bool) (dx dy ystep : Int) : Nat → Int → Int → Int → List Plot
  | 0, _, _, _ => []
  | n + 1, x, y, err =>
    let e := err - dy
    (if steep then Plot.pixel y x else Plot.pixel x y) ::
      (if e < 0 then lineLoop steep dx dy ystep n (x + 1) (y + ystep) (e + dx)
       else lineLoop steep dx dy ystep n (x + 1) y e)

/-- The loop of R201 from its endpoints after the transpose, the x values in rising order. -/
def lineFrom (steep : Bool) (x0 y0 x1 y1 : Int) : List Plot :=
  lineLoop steep (x1 - x0) (y1 - y0).natAbs (if y0 < y1 then 1 else -1) (x1 - x0 + 1).toNat x0 y0
    (Int.fdiv (x1 - x0) 2)

/-- The order of the endpoints (R201): swapped when x falls. -/
def lineOrdered (steep : Bool) (x0 y0 x1 y1 : Int) : List Plot :=
  if x1 < x0 then lineFrom steep x1 y1 x0 y0 else lineFrom steep x0 y0 x1 y1

/-- `LINE` (R201): the axes are transposed when the line is steeper than 45 degrees. -/
def linePlots (x0 y0 x1 y1 : Int) : List Plot :=
  if (x1 - x0).natAbs < (y1 - y0).natAbs then lineOrdered true y0 x0 y1 x1 else lineOrdered false x0 y0 x1 y1

/-- LINE (R201). -/
def execLine (x0 y0 x1 y1 color : Half) (s : State) : Host.Outcome State Fault Refusal :=
  .next (s.start (requireReady (headerOf (.line x0 y0 x1 y1 color)) 0
    (plotActs s.geom color (linePlots x0.toInt y0.toInt x1.toInt y1.toInt)) s))

/-! ### CIRCLE and FCIRCLE (R202, R203) -/

/-- The loop that both circle commands run (R202): the `(x, y)` of each pass after its update. There are at most as
many passes as `fuel` says when that is the radius, since x rises to at most y. -/
def circleLoop : Nat → Int → Int → Int → Int → Int → List (Int × Int)
  | 0, _, _, _, _, _ => []
  | fuel + 1, f, ddFx, ddFy, x, y =>
    if x < y then
      let y' := if 0 ≤ f then y - 1 else y
      let ddFy' := if 0 ≤ f then ddFy + 2 else ddFy
      let f' := if 0 ≤ f then f + ddFy' else f
      (x + 1, y') :: circleLoop fuel (f' + (ddFx + 2)) (ddFx + 2) ddFy' (x + 1) y'
    else []

/-- The passes of a circle of radius `r` (R202). -/
def circlePasses (r : Nat) : List (Int × Int) := circleLoop r (1 - r) 1 (-2 * r) 0 r

/-- The eight points of a pass (R202). -/
def octants (x0 y0 : Int) (p : Int × Int) : List Plot :=
  [.pixel (x0 + p.1) (y0 + p.2), .pixel (x0 - p.1) (y0 + p.2),
   .pixel (x0 + p.1) (y0 - p.2), .pixel (x0 - p.1) (y0 - p.2),
   .pixel (x0 + p.2) (y0 + p.1), .pixel (x0 - p.2) (y0 + p.1),
   .pixel (x0 + p.2) (y0 - p.1), .pixel (x0 - p.2) (y0 - p.1)]

/-- `CIRCLE` (R202): the four axis points, then eight a pass. -/
def circlePlots (x0 y0 : Int) (r : Nat) : List Plot :=
  [.pixel x0 (y0 + r), .pixel x0 (y0 - r), .pixel (x0 + r) y0, .pixel (x0 - r) y0] ++
    (circlePasses r).flatMap (octants x0 y0)

/-- CIRCLE (R202). -/
def execCircle (x0 y0 r color : Half) (s : State) : Host.Outcome State Fault Refusal :=
  .next (s.start (requireReady (headerOf (.circle x0 y0 r color)) 0
    (plotActs s.geom color (circlePlots x0.toInt y0.toInt r.toNat)) s))

/-- The four spans of a pass (R203). -/
def passSpans (x0 y0 : Int) (p : Int × Int) : List Plot :=
  [.vspan (x0 + p.1) (y0 - p.2) (2 * p.2 + 1), .vspan (x0 + p.2) (y0 - p.1) (2 * p.1 + 1),
   .vspan (x0 - p.1) (y0 - p.2) (2 * p.2 + 1), .vspan (x0 - p.2) (y0 - p.1) (2 * p.1 + 1)]

/-- `FCIRCLE` (R203). -/
def fcirclePlots (x0 y0 : Int) (r : Nat) : List Plot :=
  .vspan x0 (y0 - r) (2 * r + 1) :: (circlePasses r).flatMap (passSpans x0 y0)

/-- FCIRCLE (R203). -/
def execFcircle (x0 y0 r color : Half) (s : State) : Host.Outcome State Fault Refusal :=
  .next (s.start (requireReady (headerOf (.fcircle x0 y0 r color)) 0
    (plotActs s.geom color (fcirclePlots x0.toInt y0.toInt r.toNat)) s))

/-! ### TRI and FTRI (R204, R205) -/

/-- `TRI` (R204): three lines. -/
def triPlots (x0 y0 x1 y1 x2 y2 : Int) : List Plot :=
  linePlots x0 y0 x1 y1 ++ linePlots x1 y1 x2 y2 ++ linePlots x2 y2 x0 y0

/-- TRI (R204). -/
def execTri (x0 y0 x1 y1 x2 y2 color : Half) (s : State) : Host.Outcome State Fault Refusal :=
  .next (s.start (requireReady (headerOf (.tri x0 y0 x1 y1 x2 y2 color)) 0
    (plotActs s.geom color
      (triPlots x0.toInt y0.toInt x1.toInt y1.toInt x2.toInt y2.toInt)) s))

/-- A row's span between two columns in either order (R205). -/
def rowSpan (a b y : Int) : Plot := if b < a then .hspan b y (a - b + 1) else .hspan a y (b - a + 1)

/-- A loop of R205, with the number of its rows: the columns are `xa + sa div dya` and `xb + sb div dyb`. -/
def rowLoop (xa dxa dya xb dxb dyb : Int) : Nat → Int → Int → Int → List Plot
  | 0, _, _, _ => []
  | n + 1, sa, sb, y =>
    rowSpan (xa + Int.fdiv sa dya) (xb + Int.fdiv sb dyb) y ::
      rowLoop xa dxa dya xb dxb dyb n (sa + dxa) (sb + dxb) (y + 1)

/-- `FTRI` after the sort (R205). -/
def ftriSorted (p0 p1 p2 : Int × Int) : List Plot :=
  let (x0, y0) := p0
  let (x1, y1) := p1
  let (x2, y2) := p2
  if y0 = y2 then
    [.hspan (min x0 (min x1 x2)) y0 (max x0 (max x1 x2) - min x0 (min x1 x2) + 1)]
  else
    let last := if y1 = y2 then y1 else y1 - 1
    let upper := (last - y0 + 1).toNat
    let y := y0 + upper
    rowLoop x0 (x1 - x0) (y1 - y0) x0 (x2 - x0) (y2 - y0) upper 0 0 y0 ++
      rowLoop x1 (x2 - x1) (y2 - y1) x0 (x2 - x0) (y2 - y0) (y2 - y + 1).toNat
        ((x2 - x1) * (y - y1)) ((x2 - x0) * (y - y0)) y

/-- One compare-and-swap of the sort by y (R205). -/
def byRow (p q : Int × Int) : (Int × Int) × (Int × Int) := if q.2 < p.2 then (q, p) else (p, q)

/-- `FTRI` (R205): the three compare-and-swap steps, then the rows. -/
def ftriPlots (x0 y0 x1 y1 x2 y2 : Int) : List Plot :=
  let a := byRow (x0, y0) (x1, y1)
  let b := byRow a.2 (x2, y2)
  let c := byRow a.1 b.1
  ftriSorted c.1 c.2 b.2

/-- FTRI (R205). -/
def execFtri (x0 y0 x1 y1 x2 y2 color : Half) (s : State) : Host.Outcome State Fault Refusal :=
  .next (s.start (requireReady (headerOf (.ftri x0 y0 x1 y1 x2 y2 color)) 0
    (plotActs s.geom color
      (ftriPlots x0.toInt y0.toInt x1.toInt y1.toInt x2.toInt y2.toInt)) s))

end Sys2Proof.Machine
end

