-- ==== Sys2Proof/Machine/WindowBlit.lean ====
section
/-! DEFINITION. Window, raw blit and fill commands (41_window_blit.md): SETWIN, WRPIX, FILLRECT, PIXEL, HLINE, VLINE.
Positions are signed, sizes unsigned (30_encoding.md R83..R85). -/

namespace Sys2Proof.Machine

/-- SETWIN (R164). -/
def execSetwin (x0 y0 x1 y1 : Half) (s : State) : Host.Outcome State Fault Refusal :=
  .next (s.start (requireReady (headerOf (.setwin x0 y0 x1 y1)) 0
    (windowActs s.geom x0.toInt y0.toInt x1.toInt y1.toInt) s))

/-- WRPIX (R165): its payload's words are popped (log entry 27), then one data transaction, also for an empty
payload. -/
def execWrpix (payload : List Byte) (s : State) : Host.Outcome State Fault Refusal :=
  .next (s.start (requireReady (headerOf (.wrpix payload)) ((payload.length + 3) / 4)
    (List.replicate ((payload.length + 3) / 4) .pop ++ [dataAct payload]) s))

/-- FILLRECT (R171). -/
def execFillrect (x y w h color : Half) (s : State) : Host.Outcome State Fault Refusal :=
  .next (s.start (requireReady (headerOf (.fillrect x y w h color)) 0
    (fillActs s.geom x.toInt y.toInt w.toNat h.toNat color) s))

/-- PIXEL (R172). -/
def execPixel (x y color : Half) (s : State) : Host.Outcome State Fault Refusal :=
  .next (s.start (requireReady (headerOf (.pixel x y color)) 0
    (fillActs s.geom x.toInt y.toInt 1 1 color) s))

/-- HLINE (R173). -/
def execHline (x y w color : Half) (s : State) : Host.Outcome State Fault Refusal :=
  .next (s.start (requireReady (headerOf (.hline x y w color)) 0
    (fillActs s.geom x.toInt y.toInt w.toNat 1 color) s))

/-- VLINE (R174). -/
def execVline (x y h color : Half) (s : State) : Host.Outcome State Fault Refusal :=
  .next (s.start (requireReady (headerOf (.vline x y h color)) 0
    (fillActs s.geom x.toInt y.toInt 1 h.toNat color) s))

end Sys2Proof.Machine
end

