-- ==== Sys2Proof/Machine/Dispatch.lean ====
section
/-! DEFINITION. The meaning of each command, one arm per row of the opcode table (30_encoding.md R82). -/

namespace Sys2Proof.Machine

def exec (i : Instr) (s : State) : Host.Outcome State Fault Refusal :=
  match i with
  | .init rot16 nw nh => Sys2Proof.Machine.execInit rot16 nw nh s
  | .setwin x0 y0 x1 y1 => Sys2Proof.Machine.execSetwin x0 y0 x1 y1 s
  | .wrpix payload => Sys2Proof.Machine.execWrpix payload s
  | .fillrect x y w h color => Sys2Proof.Machine.execFillrect x y w h color s
  | .pixel x y color => Sys2Proof.Machine.execPixel x y color s
  | .hline x y w color => Sys2Proof.Machine.execHline x y w color s
  | .vline x y h color => Sys2Proof.Machine.execVline x y h color s
  | .line x0 y0 x1 y1 color => Sys2Proof.Machine.execLine x0 y0 x1 y1 color s
  | .circle x0 y0 r color => Sys2Proof.Machine.execCircle x0 y0 r color s
  | .fcircle x0 y0 r color => Sys2Proof.Machine.execFcircle x0 y0 r color s
  | .tri x0 y0 x1 y1 x2 y2 color => Sys2Proof.Machine.execTri x0 y0 x1 y1 x2 y2 color s
  | .ftri x0 y0 x1 y1 x2 y2 color => Sys2Proof.Machine.execFtri x0 y0 x1 y1 x2 y2 color s
  | .text8 font x y fg bg chars => Sys2Proof.Machine.execText8 font x y fg bg chars s
  | .text16 font x y fg bg chars => Sys2Proof.Machine.execText16 font x y fg bg chars s
  | .tttext font x y fg bg chars => Sys2Proof.Machine.execTttext font x y fg bg chars s
  | .ttwidth font chars => Sys2Proof.Machine.execTtwidth font chars s
  | .bitmap desc x y index => Sys2Proof.Machine.execBitmap desc x y index s
  | .setrot rot16 => Sys2Proof.Machine.execSetrot rot16 s
  | .setorg xs ys => Sys2Proof.Machine.execSetorg xs ys s
  | .sleep on => Sys2Proof.Machine.execSleep on s
  | .invert on => Sys2Proof.Machine.execInvert on s
  | .display on => Sys2Proof.Machine.execDisplay on s
  | .rgb565 r g b => Sys2Proof.Machine.execRgb565 r g b s
  | .illegal00 low => Sys2Proof.Machine.execIllegal00 low s
  | .illegal18 low => Sys2Proof.Machine.execIllegal18 low s
  | .illegal20 low => Sys2Proof.Machine.execIllegal20 low s
  | .illegal40 low => Sys2Proof.Machine.execIllegal40 low s
  | .illegal80 low => Sys2Proof.Machine.execIllegal80 low s

end Sys2Proof.Machine
end

