-- ==== Sys2Proof/Machine/Engine.lean ====
section
/-! DEFINITION. The engine's cycle (60_exceptions.md R282): consuming words, deciding what the packet is, running it,
and going on with a command that was cut short. -/

namespace Sys2Proof.Machine

/-- A new header is popped: asset bytes that changed before it was written are no race for it (20_memory.md R65). -/
def State.newHeader (s : State) : State :=
  if s.pkt = [] then { s with stale := s.stale.filter fun t => decide (0 < t.words) } else s

/-- The engine pops the header or a fixed word of a packet (R282) and keeps it until the packet is decided. -/
def State.takeWord (s : State) : State :=
  ({ s.newHeader.pop 1 with pkt := s.pkt ++ s.fifo.take 1, phase := .exec } : State).tick

/-- So many words of the fixed part are popped one by one, as far as they have arrived and no access is due (R282 "pop
fixed(opc) words, waiting for each"). -/
def State.gather : Nat → State → State
  | 0, s => s
  | n + 1, s =>
    if s.envDue then s else if s.fifo.isEmpty then s.tick else s.takeWord.gather n

/-- The words that the engine can see: those of the packet it has popped already, then the FIFO. -/
def State.stream (s : State) : List Word := s.pkt ++ s.fifo

/-- The words of a packet that are popped before anything is decided but an illegal opcode (R282). -/
def fixedPart (h : Word) : Nat := if illegalOpcode (opcode h) then 1 else 1 + fixedWords (opcode h)

/-- How many words of its fixed part a packet still lacks, the header first. -/
def State.lacking (s : State) : Nat :=
  match s.stream with
  | [] => 1
  | h :: _ => fixedPart h - s.pkt.length

/-- The actions of a command whose fixed words are there and whose characters or payload are still to come (R282
step 4 "pops its var(H) words as it needs them"). -/
def streamActs (h : Word) (fixed : List Word) (s : State) : List Action :=
  let a := fixedWord fixed 0
  let p := fixedWord fixed 1
  let c := fixedWord fixed 2
  match opcode h with
  | 0x03 => [.payload [] (argOf h).toNat]
  | 0x0D => textBmActs s h 8 a (hi16 p) (lo16 p) (hi16 c) (lo16 c) [] (lo16 h).toNat
  | 0x0E => textBmActs s h 16 a (hi16 p) (lo16 p) (hi16 c) (lo16 c) [] (lo16 h).toNat
  | 0x0F => ttTextActs s h a (hi16 p) (lo16 p) (hi16 c) (lo16 c) [] (lo16 h).toNat
  | 0x10 => ttWidthActs s h a [] (lo16 h).toNat
  | _ => []

/-- `requiresReady` (R282): every legal opcode but INIT, TTWIDTH and RGB565. -/
def requiresReady (opc : Nat) : Bool := !(opc == 0x01 || opc == 0x10 || opc == 0x17)

/-- The packet's fixed part is popped and sound and its variable part has not all arrived: R282 step 3, then step 4. -/
def startStream (h : Word) (fixed : List Word) (s : State) : State :=
  s.startText
    (if requiresReady (opcode h) && !s.ready then [.raise .uninit h 0 (varWords h)] else streamActs h fixed s)

/-- The packet's fixed part is popped: R282 from step 1 on. The variable words are still to be popped, by the command
as it needs them or by the skipping of an error. -/
def decidePacket (s : State) : Host.Outcome State Fault Refusal :=
  match decode s.stream with
  | .ok (i, _) => exec i { s with pkt := [] }
  | .error .needFixed => .next s
  | .error .reserved =>
    .next (State.startText [.raise .reserved (fixedWord s.pkt 0) 0 (varWords (fixedWord s.pkt 0))]
      { s with pkt := [] })
  | .error .needVar => .next (startStream (fixedWord s.pkt 0) s.pkt.tail { s with pkt := [] })

/-- The engine takes the next packet: what it lacks of the fixed part is popped, and when that is there, and no access
is due in between, the packet is decided. -/
def fetch (s : State) : Host.Outcome State Fault Refusal :=
  let t := s.gather s.lacking
  if t.envDue || t.lacking != 0 then .next t else decidePacket t

/-- A halted engine discards a word (R285). -/
def State.discard (s : State) : State := if s.fifo = [] then s.tick else (s.pop 1).tick

/-- A word of WRPIX's payload arrives (41_window_blit.md R165). -/
def State.payloadWord (got : List Byte) (more : Nat) (s : State) : State :=
  match s.fifo with
  | [] => s.tick
  | w :: _ =>
    let got := got ++ (bytesOfWord w).take more
    if more ≤ 4 then runActs [dataAct got] (s.pop 1).tick
    else ({ s.pop 1 with todo := [.payload got (more - 4)] } : State).tick

/-- A character word of a text command arrives, or the characters it has are worked off (30_encoding.md R93). -/
def State.textWord (r : TextRun) (s : State) : State :=
  if r.chs = [] ∧ 0 < r.more then
    match s.fifo with
    | [] => s.tick
    | w :: _ =>
      runActs [.text { r with chs := (charsOfWord w).take r.more, popped := 2, more := r.more - 2 }] (s.pop 1).tick
  else runActs [.text r] s

/-- The engine goes on with the executing command. -/
def resume (s : State) : State :=
  match s.todo with
  | .skip m :: _ => if s.fifo = [] then s.tick else skipWords m s
  | .payload got more :: _ => s.payloadWord got more
  | .text r :: _ => s.textWord r
  | acts => runActs acts s

/-- The event in progress is accepted; a pending soft reset acts at this boundary (70_reset_and_hazards.md R321). -/
def State.accept (s : State) : State :=
  let s := { s with inFlight := false, port := s.port.tail }
  match s.todo with
  | .emit e :: rest =>
    let s := ({ s with todo := rest }.emit e).tick
    if s.srstPending then s.softReset else runActs rest s
  | _ => s

/-- The port holds an event (20_memory.md R58). -/
def State.held (s : State) : State :=
  match s.port with
  | .forever :: _ => s.tick
  | .ticks (n + 1) :: rest => ({ s with port := .ticks n :: rest } : State).tick
  | .ticks 0 :: _ => s.accept
  | [] => s.accept

/-- One move of the engine. -/
def engine (s : State) : Host.Outcome State Fault Refusal :=
  if s.inFlight then .next s.held
  else if s.halted then .next s.discard
  else if s.todo = [] then fetch s
  else .next (resume s)

end Sys2Proof.Machine
end

