-- ==== Sys2Proof/Machine/HostPort.lean ====
section
/-! DEFINITION. The host's register window (10_state.md R35..R47, 20_memory.md R51, R61) and the other accesses of
the environment. -/

namespace Sys2Proof.Machine

/-- What a read of a register returns (R35); a read has no side effect (20_memory.md R61). -/
def State.readReg (s : State) (off : Nat) : Word :=
  match off with
  | 0x04 => s.status
  | 0x08 => s.result
  | 0x10 => s.width ++ s.height
  | 0x14 => s.nativeW ++ s.nativeH
  | 0x18 => s.xstart ++ s.ystart
  | 0x1C => (0 : BitVec 29) ++ s.rot
  | 0x20 => s.errhdr
  | 0x24 => s.erraddr
  | 0x28 => 0x52424501
  | _ => 0

/-- A write to CTRL (R39): ERRCLR at once; SRST at the next transaction boundary, which is now unless an event is in
progress (70_reset_and_hazards.md R321). -/
def State.writeCtrl (value : Word) (s : State) : State :=
  let s := if value.getLsbD 0 then s.errclr else s
  if value.getLsbD 1 then
    if s.inFlight then { s with srstPending := true } else s.softReset
  else s

/-- What a write to a register does (R36, R39); every other offset ignores it (R37..R47). -/
def State.writeReg (off : Nat) (value : Word) (s : State) : State :=
  match off with
  | 0x00 => { s with fifo := s.fifo ++ [value] }
  | 0x0C => s.writeCtrl value
  | _ => s

/-- An aligned 32-bit access inside the window (20_memory.md R51). -/
def windowAccess (bytes off : Nat) : Bool := bytes == 4 && off % 4 == 0 && decide (off < 64)

/-- A host access lands. -/
def access (a : HostAccess) (s : State) : Host.Outcome State Fault Refusal :=
  match a with
  | .read bytes off =>
    if windowAccess bytes off then .next { s with reads := s.reads ++ [(off, s.readReg off)] }
    else .refused .hostAccess
  | .write bytes off value =>
    if windowAccess bytes off then .next (s.writeReg off value) else .refused .hostAccess

/-- An act of the platform lands. -/
def platformAccess (a : PlatformAccess) (s : State) : Host.Outcome State Fault Refusal :=
  match a with
  | .loadAsset addr value =>
    if addr < s.assetSize then .next (s.loadAsset addr value) else .fault .assetOutside
  | .powerOn => .next s.powerOn

/-- What is due of the environment lands, the platform's act before the host's; with nothing due, nothing happens. -/
def environment (s : State) : Host.Outcome State Fault Refusal :=
  if s.platformDue then
    match s.platform with
    | [] => .next s
    | p :: rest => platformAccess p.access { s with platform := rest }
  else
    match s.host with
    | [] => .next s
    | h :: rest => access h.access { s with host := rest }

end Sys2Proof.Machine
end

