-- ==== Sys2Proof/Machine/Step.lean ====
section
/-! DEFINITION. One step of the machine: an access of the environment that is due, or else a move of the engine
(60_exceptions.md R290: each access falls wholly before or after an engine step). -/

namespace Sys2Proof.Machine

/-- One step. -/
def step (s : State) : Host.Outcome State Fault Refusal :=
  if s.envDue then environment s else engine s

/-- `s` with the packet of a row of the opcode table at the head of the command stream and nothing in its way: no
command under way, no halt, no access due. It stands for the host's writes to CMD (log entry 13). -/
def State.withFetchWord (s : State) (nbits w : Nat) : State :=
  { s with
    fifo := packetOfTable nbits w
    pkt := []
    todo := []
    inFlight := false
    halted := false
    phase := .idle
    srstPending := false
    host := []
    platform := []
    port := []
    stale := [] }

end Sys2Proof.Machine
end

