-- ==== Sys2Proof/Machine/Assembler.lean ====
section
/-! DEFINITION. The assembler of 30_encoding.md R104..R108: from a line of text to commands. A line is a list of
characters. A value that does not fit its field is rejected, not truncated (R105). -/

namespace Sys2Proof.Machine

/-- What a line is made of (R104, R105). -/
inductive Token where
  /-- A mnemonic, `on`, `off` or `rgb`, in upper case. -/
  | name (letters : List Char)
  | num (v : Int)
  /-- A double-quoted string, as its codes. -/
  | str (codes : List Nat)
  /-- One of `( ) [ ] , # @`. -/
  | mark (c : Char)
  deriving DecidableEq, Repr

/-! ### Reading tokens -/

/-- The value of a digit in a base up to 16. -/
def digitOf (base : Nat) (c : Char) : Option Nat :=
  let n := c.toNat
  let v := if 48 ≤ n ∧ n ≤ 57 then n - 48
    else if 97 ≤ n ∧ n ≤ 102 then n - 87
    else if 65 ≤ n ∧ n ≤ 70 then n - 55
    else 99
  if v < base then some v else none

/-- A letter, a digit or an underscore. -/
def wordChar (c : Char) : Bool := c.isAlphanum || c == '_'

/-- The value of a run of digits, none when it is empty or holds something else. -/
def digitsOf (base : Nat) (l : List Char) : Option Nat :=
  if l = [] then none
  else l.foldl (fun acc c => acc.bind fun a => (digitOf base c).map fun d => a * base + d) (some 0)

/-- A number without its sign: decimal, `0x` or `0b` (R104). -/
def numberOf (l : List Char) : Option Nat :=
  match l with
  | '0' :: x :: rest =>
    if x = 'x' ∨ x = 'X' then digitsOf 16 rest
    else if x = 'b' ∨ x = 'B' then digitsOf 2 rest
    else digitsOf 10 l
  | _ => digitsOf 10 l

/-- The codes of a string up to its closing quote, and the rest of the line (R105): an escaped quote or backslash,
`\uXXXX`, or a character's own code, which must be at most 0xFFFF. -/
def stringCodes : Nat → List Char → Option (List Nat × List Char)
  | 0, _ => none
  | _ + 1, [] => none
  | fuel + 1, c :: rest =>
    if c.toNat = 34 then some ([], rest)
    else if c.toNat = 92 then
      match rest with
      | e :: after =>
        if e.toNat = 34 ∨ e.toNat = 92 then
          (stringCodes fuel after).map fun q => (e.toNat :: q.1, q.2)
        else if e = 'u' then
          (digitsOf 16 (after.take 4)).bind fun v =>
            if (after.take 4).length = 4 then
              (stringCodes fuel (after.drop 4)).map fun q => (v :: q.1, q.2)
            else none
        else none
      | [] => none
    else if c.toNat ≤ 0xFFFF then (stringCodes fuel rest).map fun q => (c.toNat :: q.1, q.2)
    else none

/-- The tokens of a line; `;` starts a comment (R104). The fuel is the line's length. -/
def tokens : Nat → List Char → Option (List Token)
  | _, [] => some []
  | 0, _ :: _ => none
  | fuel + 1, c :: rest =>
    if c = ';' then some []
    else if c.isWhitespace then tokens fuel rest
    else if c = '(' ∨ c = ')' ∨ c = '[' ∨ c = ']' ∨ c = ',' ∨ c = '#' ∨ c = '@' then
      (tokens fuel rest).map (.mark c :: ·)
    else if c.toNat = 34 then
      (stringCodes (rest.length + 1) rest).bind fun q =>
        (tokens fuel q.2).map (.str q.1 :: ·)
    else if c = '-' then
      (numberOf (rest.takeWhile wordChar)).bind fun v =>
        (tokens fuel (rest.dropWhile wordChar)).map (.num (-(v : Int)) :: ·)
    else if c.isDigit then
      (numberOf (c :: rest.takeWhile wordChar)).bind fun v =>
        (tokens fuel (rest.dropWhile wordChar)).map (.num v :: ·)
    else if c.isAlpha then
      (tokens fuel (rest.dropWhile wordChar)).map
        (.name ((c :: rest.takeWhile wordChar).map Char.toUpper) :: ·)
    else none

/-! ### Operands (R105): each takes its tokens from the front -/

/-- A value in a signed 16-bit field. -/
def toS16 (v : Int) : Option Half :=
  if -32768 ≤ v ∧ v ≤ 32767 then some (BitVec.ofInt 16 v) else none

/-- A value in an unsigned field of `n` bits. -/
def toU (n : Nat) (v : Int) : Option (BitVec n) :=
  if 0 ≤ v ∧ v < 2 ^ n then some (BitVec.ofInt n v) else none

/-- A comma between two operands. -/
def comma : List Token → Option (List Token)
  | .mark ',' :: t => some t
  | _ => none

/-- `(x, y)`. -/
def operandPt : List Token → Option ((Half × Half) × List Token)
  | .mark '(' :: .num x :: .mark ',' :: .num y :: .mark ')' :: t => do
    some ((← toS16 x, ← toS16 y), t)
  | _ => none

/-- `[a, b]`. -/
def operandPair : List Token → Option ((Half × Half) × List Token)
  | .mark '[' :: .num a :: .mark ',' :: .num b :: .mark ']' :: t => do
    some ((← toU 16 a, ← toU 16 b), t)
  | _ => none

/-- `#n` in a field of `n` bits. -/
def operandNum (n : Nat) : List Token → Option (BitVec n × List Token)
  | .mark '#' :: .num v :: t => (toU n v).map fun b => (b, t)
  | _ => none

/-- `@a`. -/
def operandAddr : List Token → Option (Word × List Token)
  | .mark '@' :: .num v :: t => (toU 32 v).map fun b => (b, t)
  | _ => none

/-- `#c` or `rgb(r, g, b)` (R105, R108). -/
def operandCol : List Token → Option (Half × List Token)
  | .name ['R', 'G', 'B'] :: .mark '(' :: .num r :: .mark ',' :: .num g :: .mark ',' :: .num b ::
      .mark ')' :: t => do
    some (rgb565 (← toU 8 r) (← toU 8 g) (← toU 8 b), t)
  | t => operandNum 16 t

/-- `on` or `off`. -/
def operandOn : List Token → Option (Bool × List Token)
  | .name ['O', 'N'] :: t => some (true, t)
  | .name ['O', 'F', 'F'] :: t => some (false, t)
  | _ => none

/-- A string at the end of the line. -/
def operandStr : List Token → Option (List Half)
  | [.str codes] => if codes.length < 65536 then some (codes.map (BitVec.ofNat 16)) else none
  | _ => none

/-- The payload: byte values with commas between them, to the end of the line. -/
def operandBytes : List Token → Option (List Byte)
  | [] => some []
  | [.num v] => (toU 8 v).map fun b => [b]
  | .num v :: .mark ',' :: .num w :: t => do
    some ((← toU 8 v) :: (← operandBytes (.num w :: t)))
  | _ => none

/-- Nothing is left of the line. -/
def atEnd (t : List Token) : Option Unit := if t = [] then some () else none

/-! ### Lines -/

/-- `PT, COL` operands that `build` takes. -/
def asmPtCol (build : Half → Half → Half → Instr) (t : List Token) : Option (List Instr) := do
  let (p, t) ← operandPt t
  let (c, t) ← operandCol (← comma t)
  atEnd t
  some [build p.1 p.2 c]

/-- `PT, #n, COL` operands (`LEN`, `RAD`). -/
def asmPtNumCol (build : Half → Half → Half → Half → Instr) (t : List Token) :
    Option (List Instr) := do
  let (p, t) ← operandPt t
  let (n, t) ← operandNum 16 (← comma t)
  let (c, t) ← operandCol (← comma t)
  atEnd t
  some [build p.1 p.2 n c]

/-- Three `PT` and a `COL`. -/
def asmTri (build : Half → Half → Half → Half → Half → Half → Half → Instr) (t : List Token) :
    Option (List Instr) := do
  let (p, t) ← operandPt t
  let (q, t) ← operandPt (← comma t)
  let (r, t) ← operandPt (← comma t)
  let (c, t) ← operandCol (← comma t)
  atEnd t
  some [build p.1 p.2 q.1 q.2 r.1 r.2 c]

/-- `ADDR, PT, CP, string` operands. -/
def asmText (build : Word → Half → Half → Half → Half → List Half → Instr) (t : List Token) :
    Option (List Instr) := do
  let (a, t) ← operandAddr t
  let (p, t) ← operandPt (← comma t)
  let (fg, t) ← operandNum 16 (← comma t)
  let (bg, t) ← operandNum 16 (← comma t)
  let chars ← operandStr (← comma t)
  some [build a p.1 p.2 fg bg chars]

/-- `BLIT (x, y), [w, h], b0, ...` (R106): SETWIN then WRPIX; `w`, `h` at least 1 and the end must fit `PT`. -/
def blit (x y : Half) (w h : Half) (payload : List Byte) : Option (List Instr) := do
  if w = 0 ∨ h = 0 then none
  else
    let x1 ← toS16 (x.toInt + w.toNat - 1)
    let y1 ← toS16 (y.toInt + h.toNat - 1)
    some [.setwin x y x1 y1, .wrpix payload]

/-- `CLEAR [w, h], #c` (R107). -/
def clear (w h color : Half) : List Instr := [.fillrect 0 0 w h color]

/-- The commands of a line that begins with a mnemonic (R82, R105..R107). -/
def asmCommand (name : List Char) (t : List Token) : Option (List Instr) :=
  match name with
  | ['I', 'N', 'I', 'T'] => do
    let (sz, t) ← operandPair t
    let (r, t) ← operandNum 16 (← comma t)
    atEnd t
    some [.init r sz.1 sz.2]
  | ['S', 'E', 'T', 'W', 'I', 'N'] => do
    let (p, t) ← operandPt t
    let (q, t) ← operandPt (← comma t)
    atEnd t
    some [.setwin p.1 p.2 q.1 q.2]
  | ['W', 'R', 'P', 'I', 'X'] => do
    let payload ← operandBytes t
    if payload.length < 16777216 then some [.wrpix payload] else none
  | ['F', 'I', 'L', 'L', 'R', 'E', 'C', 'T'] => do
    let (p, t) ← operandPt t
    let (sz, t) ← operandPair (← comma t)
    let (c, t) ← operandCol (← comma t)
    atEnd t
    some [.fillrect p.1 p.2 sz.1 sz.2 c]
  | ['P', 'I', 'X', 'E', 'L'] => asmPtCol .pixel t
  | ['H', 'L', 'I', 'N', 'E'] => asmPtNumCol .hline t
  | ['V', 'L', 'I', 'N', 'E'] => asmPtNumCol .vline t
  | ['L', 'I', 'N', 'E'] => do
    let (p, t) ← operandPt t
    let (q, t) ← operandPt (← comma t)
    let (c, t) ← operandCol (← comma t)
    atEnd t
    some [.line p.1 p.2 q.1 q.2 c]
  | ['C', 'I', 'R', 'C', 'L', 'E'] => asmPtNumCol .circle t
  | ['F', 'C', 'I', 'R', 'C', 'L', 'E'] => asmPtNumCol .fcircle t
  | ['T', 'R', 'I'] => asmTri .tri t
  | ['F', 'T', 'R', 'I'] => asmTri .ftri t
  | ['T', 'E', 'X', 'T', '8'] => asmText .text8 t
  | ['T', 'E', 'X', 'T', '1', '6'] => asmText .text16 t
  | ['T', 'T', 'T', 'E', 'X', 'T'] => asmText .tttext t
  | ['T', 'T', 'W', 'I', 'D', 'T', 'H'] => do
    let (a, t) ← operandAddr t
    let chars ← operandStr (← comma t)
    some [.ttwidth a chars]
  | ['B', 'I', 'T', 'M', 'A', 'P'] => do
    let (a, t) ← operandAddr t
    let (p, t) ← operandPt (← comma t)
    let (i, t) ← operandNum 32 (← comma t)
    atEnd t
    some [.bitmap a p.1 p.2 i]
  | ['S', 'E', 'T', 'R', 'O', 'T'] => do
    let (r, t) ← operandNum 16 t
    atEnd t
    some [.setrot r]
  | ['S', 'E', 'T', 'O', 'R', 'G'] => do
    let (o, t) ← operandPair t
    atEnd t
    some [.setorg o.1 o.2]
  | ['S', 'L', 'E', 'E', 'P'] => do
    let (on, t) ← operandOn t
    atEnd t
    some [.sleep on]
  | ['I', 'N', 'V', 'E', 'R', 'T'] => do
    let (on, t) ← operandOn t
    atEnd t
    some [.invert on]
  | ['D', 'I', 'S', 'P', 'L', 'A', 'Y'] => do
    let (on, t) ← operandOn t
    atEnd t
    some [.display on]
  | ['R', 'G', 'B', '5', '6', '5'] => do
    let (r, t) ← operandNum 8 t
    let (g, t) ← operandNum 8 (← comma t)
    let (b, t) ← operandNum 8 (← comma t)
    atEnd t
    some [.rgb565 r g b]
  | ['B', 'L', 'I', 'T'] => do
    let (p, t) ← operandPt t
    let (sz, t) ← operandPair (← comma t)
    let payload ← if t = [] then some [] else (comma t).bind fun u => if u = [] then none else operandBytes u
    if payload.length < 16777216 then blit p.1 p.2 sz.1 sz.2 payload else none
  | ['C', 'L', 'E', 'A', 'R'] => do
    let (sz, t) ← operandPair t
    let (c, t) ← operandCol (← comma t)
    atEnd t
    some (clear sz.1 sz.2 c)
  | _ => none

/-- The commands of a line (R104): none for a blank line or a comment, `none` for a line the assembler rejects. -/
def assembleLine (line : List Char) : Option (List Instr) :=
  match tokens line.length line with
  | some [] => some []
  | some (.name n :: t) => asmCommand n t
  | _ => none

/-- The command words of a program, line by line (R104). -/
def assemble : List (List Char) → Option (List Word)
  | [] => some []
  | line :: rest => do
    some ((← assembleLine line).flatMap encode ++ (← assemble rest))

end Sys2Proof.Machine
end

