-- ==== Sys2Proof/Machine/Observer.lean ====
section
/-! DEFINITION. The reference panel observer (20_memory.md R66): outside the block and not normative, an assumption
about the panel with which statements about pixels can be made over the output trace (log entry 19). -/

namespace Sys2Proof.Machine

/-- What the observer keeps: column and row ranges, the write position, whether pixel data is being written, and the
pixel writes so far, oldest first, in sent coordinates. -/
structure Panel where
  cs0 : Nat
  cs1 : Nat
  rs0 : Nat
  rs1 : Nat
  px : Nat
  py : Nat
  writing : Bool
  writes : List ((Nat × Nat) × Half)
  deriving DecidableEq, Repr

/-- A panel of which nothing is known yet. -/
def Panel.start : Panel :=
  { cs0 := 0, cs1 := 0, rs0 := 0, rs1 := 0, px := 0, py := 0, writing := false, writes := [] }

/-- One pixel at the write position, and the position's advance within the window. -/
def Panel.put (color : Half) (p : Panel) : Panel :=
  let q := { p with writes := p.writes ++ [((p.px, p.py), color)] }
  if p.px + 1 ≤ p.cs1 then { q with px := p.px + 1 }
  else if p.py + 1 ≤ p.rs1 then { q with px := p.cs0, py := p.py + 1 }
  else { q with px := p.cs0, py := p.rs0 }

/-- Pixel data, byte pair by byte pair; half a pixel at the end is dropped (log entry 19). -/
def Panel.pixels : List Byte → Panel → Panel
  | hi :: lo :: rest, p => Panel.pixels rest (p.put (hi ++ lo : Half))
  | _, p => p

/-- A command byte and its data, if any. -/
def Panel.command (c : Byte) (d : List Byte) (p : Panel) : Panel :=
  if c = 0x2C then Panel.pixels d { p with px := p.cs0, py := p.rs0, writing := true }
  else
    match d with
    | [a, b, e, f] =>
      if c = 0x2A then
        { p with cs0 := (a ++ b : Half).toNat, cs1 := (e ++ f : Half).toNat, writing := false }
      else if c = 0x2B then
        { p with rs0 := (a ++ b : Half).toNat, rs1 := (e ++ f : Half).toNat, writing := false }
      else { p with writing := false }
    | _ => { p with writing := false }

/-- What the observer makes of one event. -/
def Panel.observe (p : Panel) : Event → Panel
  | .cmd c => p.command c []
  | .cmdData c d => p.command c d
  | .data d => if p.writing then p.pixels d else p
  | .pinRst _ | .wait _ => p

/-- What the observer has seen of a trace. -/
def Panel.ofTrace (trace : List Event) : Panel := trace.foldl Panel.observe Panel.start

/-- The colour last written at a position, if any. -/
def Panel.colorAt (p : Panel) (x y : Nat) : Option Half :=
  (p.writes.reverse.find? fun w => w.1 == (x, y)).map (·.2)

end Sys2Proof.Machine
end

