-- ==== Sys2Proof/Safety.lean ====
section
/-! DEFINITION. The terms in which statements about the machine are made: a quiet environment, a state that some
events have been added to, what a plot list or a string emits, and the invariant that every step keeps. -/

namespace Sys2Proof.Machine

/-! ### The environment -/

/-- No access of the environment is to come and the port accepts every event at once, so a command runs to its end in
one step. -/
abbrev State.quiet (s : State) : Prop := s.host = [] ∧ s.platform = [] ∧ s.port = []

/-- The engine is between two packets and is not halted: the next step takes a header. -/
abbrev State.betweenPackets (s : State) : Prop :=
  s.pkt = [] ∧ s.todo = [] ∧ s.inFlight = false ∧ s.halted = false

/-- So many steps, up to the first that stops. -/
def steps : Nat → State → Host.Outcome State Fault Refusal
  | 0, s => .next s
  | n + 1, s =>
    match step s with
    | .next t => steps n t
    | .fault f => .fault f
    | .refused r => .refused r

/-! ### What a command leaves -/

/-- The state with events added to the trace, in order, and the pins as they leave them. -/
def State.emitAll (evs : List Event) (s : State) : State :=
  { s with trace := s.trace ++ evs, pins := evs.foldl Pins.after s.pins }

/-- The state with an error raised and the whole packet consumed: recorded when it is the first,
and the engine IDLE (60_exceptions.md R283, R284). -/
def State.failed (e : ErrKind) (hdr : Word) (addr : Nat) (s : State) : State :=
  (s.record e hdr addr).endCommand

/-- The commands that require READY (60_exceptions.md R281, R282): all but INIT, RGB565, TTWIDTH and the illegal
headers. -/
def requiresReadyInstr : Instr → Bool
  | .init .. | .rgb565 .. | .ttwidth .. => false
  | .illegal00 .. | .illegal18 .. | .illegal20 .. | .illegal40 .. | .illegal80 .. => false
  | .setwin .. | .wrpix .. | .fillrect .. | .pixel .. | .hline .. | .vline .. | .line .. | .circle ..
  | .fcircle .. | .tri .. | .ftri .. | .text8 .. | .text16 .. | .tttext .. | .bitmap .. | .setrot ..
  | .setorg .. | .sleep .. | .invert .. | .display .. => true

/-- The state in which a packet of `n` words has been consumed and `rest` is left in the FIFO (10_state.md R21, R30):
words held back from it earlier are counted already. Asset bytes that changed before the packet's header was written
are no race for it (20_memory.md R65). -/
def State.tookPacket (n : Nat) (rest : List Word) (s : State) : State :=
  { s with
    fifo := rest
    cp := s.cp + BitVec.ofNat 32 (n - s.pkt.length)
    pkt := []
    phase := .exec
    stale := (if s.pkt = [] then s.stale.filter fun t => decide (0 < t.words) else s.stale).map
      fun t => { t with words := t.words - (n - s.pkt.length) } }

/-- `n` more words have left the FIFO, and `rest` is left in it (10_state.md R21). -/
def State.tookWords (n : Nat) (rest : List Word) (s : State) : State :=
  { s with
    fifo := rest
    cp := s.cp + BitVec.ofNat 32 n
    stale := s.stale.map fun t => { t with words := t.words - n } }

/-- The state whose FIFO has given up the `n` words of a command's characters or payload. -/
abbrev State.tookVar (n : Nat) (s : State) : State := s.tookWords n (s.fifo.drop n)

/-- How many words of characters or payload a command has (30_encoding.md R93, R94). -/
def varCount : Instr → Nat
  | .wrpix payload => (payload.length + 3) / 4
  | .text8 _ _ _ _ _ chars | .text16 _ _ _ _ _ chars | .tttext _ _ _ _ _ chars | .ttwidth _ chars =>
    (chars.length + 1) / 2
  | .init .. | .rgb565 .. | .illegal00 .. | .illegal18 .. | .illegal20 .. | .illegal40 .. | .illegal80 ..
  | .setwin .. | .fillrect .. | .pixel .. | .hline .. | .vline .. | .line .. | .circle .. | .fcircle ..
  | .tri .. | .ftri .. | .bitmap .. | .setrot .. | .setorg .. | .sleep .. | .invert .. | .display .. => 0

/-- Words arrive in batches: each is added to the FIFO, and the machine makes so many steps before the next. -/
def feed : List (List Word × Nat) → State → Host.Outcome State Fault Refusal
  | [], s => .next s
  | (words, k) :: more, s =>
    match steps k { s with fifo := s.fifo ++ words } with
    | .next t => feed more t
    | .fault f => .fault f
    | .refused r => .refused r

/-- The reserved bits of a header and of the fixed operand words after it, as masks (30_encoding.md R81..R98, R101). -/
def reservedMasks (opc : Nat) : List Word :=
  match opc with
  | 0x01 => [0x00FF0000, 0]
  | 0x02 => [0x00FFFFFF, 0, 0]
  | 0x03 => [0]
  | 0x04 => [0x00FFFFFF, 0, 0, 0xFFFF0000]
  | 0x05 => [0x00FFFFFF, 0, 0xFFFF0000]
  | 0x06 | 0x07 | 0x09 | 0x0A => [0x00FFFFFF, 0, 0xFFFF0000, 0xFFFF0000]
  | 0x08 => [0x00FFFFFF, 0, 0, 0xFFFF0000]
  | 0x0B | 0x0C => [0x00FFFFFF, 0, 0, 0, 0xFFFF0000]
  | 0x0D | 0x0E | 0x0F => [0x00FF0000, 0, 0, 0]
  | 0x10 => [0x00FF0000, 0]
  | 0x11 => [0x00FFFFFF, 0, 0, 0]
  | 0x12 => [0x00FF0000]
  | 0x13 => [0x00FFFFFF, 0]
  | 0x14 | 0x15 | 0x16 => [0x00FFFFFE]
  | 0x17 => [0x00FFFFFF, 0xFF000000]
  | _ => []

/-! ### Events of the window and the fill, in numbers (41_window_blit.md R161..R170) -/

/-- A 16-bit number as two bytes, the high one first. -/
def bytesOfNat16 (n : Nat) : List Byte := [BitVec.ofNat 8 (n / 256), BitVec.ofNat 8 n]

/-- A coordinate as it is sent: offset by the origin, modulo 2^16 (R163). -/
def sentNat (v : Int) (origin : Half) : Nat := ((v + origin.toNat) % 65536).toNat

/-- The window is accepted (R161): `0 <= start <= end <= extent` on both axes. -/
abbrev State.accepts (s : State) (x0 y0 x1 y1 : Int) : Prop :=
  (0 ≤ x0 ∧ x0 ≤ x1 ∧ x1 ≤ s.width.toNat) ∧ (0 ≤ y0 ∧ y0 ≤ y1 ∧ y1 ≤ s.height.toNat)

/-- The events of `WINDOW(x0, y0, x1, y1)` (R161). -/
def State.windowEvents (s : State) (x0 y0 x1 y1 : Int) : List Event :=
  if s.accepts x0 y0 x1 y1 then
    [.cmdData 0x2A (bytesOfNat16 (sentNat x0 s.xstart) ++ bytesOfNat16 (sentNat x1 s.xstart)),
     .cmdData 0x2B (bytesOfNat16 (sentNat y0 s.ystart) ++ bytesOfNat16 (sentNat y1 s.ystart)),
     .cmd 0x2C]
  else []

/-- The bytes of `n` pixels of one colour, each high byte first (20_memory.md R59). -/
def pixelRun (color : Half) (n : Nat) : List Byte :=
  (List.replicate n (bytesOfNat16 color.toNat)).flatten

/-- The events of `FILL(x, y, w, h, color)` (R166, R169): the window's, then full buffers of 1024 pixels, then the
remainder. -/
def State.fillEvents (s : State) (x y : Int) (w h : Nat) (color : Half) : List Event :=
  s.windowEvents x y (x + w - 1) (y + h - 1) ++
    List.replicate (w * h / 1024) (.data (pixelRun color 1024)) ++
    (if w * h % 1024 = 0 then [] else [.data (pixelRun color (w * h % 1024))])

/-- The transfer buffer after a fill of `count` pixels (R175). -/
def tbufAfter (color : Half) (count : Nat) (old : Vector Half 1024) : Vector Half 1024 :=
  if count = 0 then old else Vector.replicate 1024 color

/-- What a command that emits these events and leaves the transfer buffer so leaves of the machine. -/
def State.drawn (evs : List Event) (tbuf : Vector Half 1024) (s : State) : State :=
  { s.emitAll evs with tbuf := tbuf, todo := [], phase := .idle }

/-! ### Panel control (40_panel_control.md) -/

/-- The event of a delay: none when it is 0 (00_scope.md R13). -/
def delayEvents (ms : Nat) : List Event := if ms = 0 then [] else [.wait ms]

/-- The event of a vendor item (R121). -/
def vendorEvents : VendorItem → List Event
  | .send c none => [.cmd c]
  | .send c (some d) => [.cmdData c d]
  | .delay ms => delayEvents ms

/-- The extent of rotation request `v` (R125): native, its sides swapped when `v mod 8` is odd. -/
def rotatedWidth (v nativeW nativeH : Half) : Half := if v.toNat % 8 % 2 = 1 then nativeH else nativeW

/-- The other side of the extent (R125). -/
def rotatedHeight (v nativeW nativeH : Half) : Half := if v.toNat % 8 % 2 = 1 then nativeW else nativeH

/-- The byte sent with 0x36 for rotation request `v` (R125). -/
def madctlOf (cfg : Config) (v : Half) : Byte := cfg.madctl.toList.getD (v.toNat % 8) 0

/-- INIT's events up to the clear (R121). -/
def bringUpEvents (cfg : Config) (v : Half) : List Event :=
  (.pinRst false :: delayEvents cfg.tRst[0].val) ++ (.pinRst true :: delayEvents cfg.tRst[1].val) ++
  (.pinRst false :: delayEvents cfg.tRst[2].val) ++ (.pinRst true :: delayEvents cfg.tRst[3].val) ++
  (.cmd 0x01 :: delayEvents cfg.tSwreset.val) ++ (.cmd 0x11 :: delayEvents cfg.tSlpout.val) ++
  [.cmdData 0x3A [cfg.colmod16bpp], .cmdData 0x36 [madctlOf cfg v]] ++
  cfg.vendorInit.flatMap vendorEvents ++ delayEvents cfg.tSettle.val

/-! ### Shapes (42_raster.md), each by a closed formula instead of a loop -/

/-- The events of a list of pixels (R200, R167). -/
def State.pixelEvents (s : State) (color : Half) (points : List (Int × Int)) : List Event :=
  points.flatMap fun p => s.fillEvents p.1 p.2 1 1 color

/-- How far along the minor axis the `k`-th pixel of a line lies (R201): the times the error term has gone below 0. -/
def lineMinor (major minor k : Nat) : Nat := (k * minor + (major - 1 - major / 2)) / major

/-- The pixels of a line that is not steep, its left end given first (R201). -/
def shallowPixels (x0 y0 x1 y1 : Int) : List (Int × Int) :=
  (List.range ((x1 - x0).natAbs + 1)).map fun (k : Nat) =>
    (x0 + k, y0 + (if y0 < y1 then 1 else -1) * lineMinor (x1 - x0).natAbs (y1 - y0).natAbs k)

/-- The pixels of a steep line, its upper end given first (R201). -/
def steepPixels (x0 y0 x1 y1 : Int) : List (Int × Int) :=
  (List.range ((y1 - y0).natAbs + 1)).map fun (k : Nat) =>
    (x0 + (if x0 < x1 then 1 else -1) * lineMinor (y1 - y0).natAbs (x1 - x0).natAbs k, y0 + k)

/-- The pixels of a line in order (R201): one for each step of the major axis, forward. -/
def linePixels (x0 y0 x1 y1 : Int) : List (Int × Int) :=
  if (y1 - y0).natAbs ≤ (x1 - x0).natAbs then
    if x1 < x0 then shallowPixels x1 y1 x0 y0 else shallowPixels x0 y0 x1 y1
  else if y1 < y0 then steepPixels x1 y1 x0 y0 else steepPixels x0 y0 x1 y1

/-- The point after `k` passes of the midpoint loop (R202): `f`, `ddF_x` and `ddF_y` say whether
`(x + 1)^2 + y^2 - y` has reached `r^2`. -/
def circlePoint (r : Nat) : Nat → Int × Int
  | 0 => (0, r)
  | k + 1 =>
    let p := circlePoint r k
    (p.1 + 1, if (r : Int) ^ 2 ≤ (p.1 + 1) ^ 2 + p.2 ^ 2 - p.2 then p.2 - 1 else p.2)

/-- The midpoint loop of radius `r` makes `n` passes (R202): `x < y` before each, and no longer after the last. -/
def circleRuns (r n : Nat) : Prop :=
  (∀ k < n, (circlePoint r k).1 < (circlePoint r k).2) ∧ (circlePoint r n).2 ≤ (circlePoint r n).1

/-- The images of `(x, y)` under the eight symmetries of the square about the centre, in the order of R202. -/
def eightPoints (x0 y0 x y : Int) : List (Int × Int) :=
  [(x0 + x, y0 + y), (x0 - x, y0 + y), (x0 + x, y0 - y), (x0 - x, y0 - y),
   (x0 + y, y0 + x), (x0 - y, y0 + x), (x0 + y, y0 - x), (x0 - y, y0 - x)]

/-- The pixels of a circle outline of `n` passes (R202): the four axis points, then eight for each pass. -/
def circlePixels (x0 y0 : Int) (r n : Nat) : List (Int × Int) :=
  [(x0, y0 + r), (x0, y0 - r), (x0 + r, y0), (x0 - r, y0)] ++
    (List.range n).flatMap fun k =>
      eightPoints x0 y0 (circlePoint r (k + 1)).1 (circlePoint r (k + 1)).2

/-- The vertical spans (column, first row, length) of a filled circle of `n` passes (R203). -/
def circleSpans (x0 y0 : Int) (r n : Nat) : List (Int × Int × Nat) :=
  (x0, y0 - r, 2 * r + 1) ::
    (List.range n).flatMap fun k =>
      let x := (circlePoint r (k + 1)).1
      let y := (circlePoint r (k + 1)).2
      [(x0 + x, y0 - y, (2 * y + 1).toNat), (x0 + y, y0 - x, (2 * x + 1).toNat),
       (x0 - x, y0 - y, (2 * y + 1).toNat), (x0 - y, y0 - x, (2 * x + 1).toNat)]

/-- Three vertices sorted by row as the three compare-and-swap steps of R205 leave them. -/
def sortRows (p q r : Int × Int) : (Int × Int) × (Int × Int) × (Int × Int) :=
  if q.2 < p.2 then
    if r.2 < p.2 then (if r.2 < q.2 then (r, q, p) else (q, r, p)) else (q, p, r)
  else if r.2 < q.2 then (if r.2 < p.2 then (r, p, q) else (p, r, q)) else (p, q, r)

/-- The column where the edge from `p` to `q` crosses row `y` (R205, floor division). -/
def edgeAt (p q : Int × Int) (y : Int) : Int := p.1 + (q.1 - p.1) * (y - p.2) / (q.2 - p.2)

/-- One of the two edges that bound row `y` of a triangle sorted by row (R205): the upper edge above the middle
vertex, and on its row when that is the bottom. -/
def shortEdgeAt (p q r : Int × Int) (y : Int) : Int :=
  if y < q.2 ∨ q.2 = r.2 then edgeAt p q y else edgeAt q r y

/-- The horizontal spans (first column, row, length) of a filled triangle sorted by row (R205). -/
def triangleSpans (p q r : Int × Int) : List (Int × Int × Nat) :=
  if p.2 = r.2 then
    [(min p.1 (min q.1 r.1), p.2, (max p.1 (max q.1 r.1) - min p.1 (min q.1 r.1) + 1).toNat)]
  else
    (List.range (r.2 - p.2 + 1).toNat).map fun (k : Nat) =>
      (min (shortEdgeAt p q r (p.2 + k)) (edgeAt p r (p.2 + k)), p.2 + k,
       ((shortEdgeAt p q r (p.2 + k)) - (edgeAt p r (p.2 + k))).natAbs + 1)

/-- The spans of FTRI for vertices in any order (R205). -/
def ftriSpans (p q r : Int × Int) : List (Int × Int × Nat) :=
  triangleSpans (sortRows p q r).1 (sortRows p q r).2.1 (sortRows p q r).2.2

/-! ### Text (43_expand.md), by positions instead of a walk -/

/-- A region of `n` bytes lies in asset memory (00_scope.md R12): always when it is empty. -/
abbrev State.inAssets (s : State) (a n : Nat) : Prop := n = 0 ∨ a + n ≤ s.assetSize

/-- The bytes of `n` pixels of a one-bit raster that starts at bit `o` of the region at `base` (R243, R249). -/
def State.rasterBytes (s : State) (base o n : Nat) (fg bg : Half) : List Byte :=
  (List.range n).flatMap fun k =>
    bytesOfNat16 (if s.assetBit base (o + k) then fg else bg).toNat

/-- The descriptor at `a` has fields that TEXT8 (`wexp` 8) or TEXT16 (16) accepts (R242). -/
abbrev State.font1Valid (s : State) (wexp a : Nat) : Prop :=
  s.assetRead (a + 4) 1 = wexp ∧ s.assetRead (a + 5) 1 ≠ 0 ∧ s.assetRead (a + 5) 1 % 8 = 0 ∧
    s.assetRead (a + 6) 2 = 0

/-- The fields of the FONT1 descriptor at `a` (R242). -/
def State.font1 (s : State) (a : Nat) : Font1 where
  first := s.assetRead a 2
  last := s.assetRead (a + 2) 2
  width := s.assetRead (a + 4) 1
  height := s.assetRead (a + 5) 1
  glyphs := s.assetRead (a + 8) 4

/-- A character of a bitmap-font string is drawn at this pen position (R244): covered, and within the panel. -/
abbrev State.draws (s : State) (f : Font1) (y pen : Int) (c : Half) : Prop :=
  (f.first ≤ c.toNat ∧ c.toNat < f.last) ∧
    (0 ≤ pen ∧ 0 ≤ y ∧ pen + f.width ≤ s.width.toNat ∧ y + f.height ≤ s.height.toNat)

/-- The bytes of a glyph (R242). -/
def glyphBytes (f : Font1) : Nat := f.height * f.width / 8

/-- The address of a covered character's glyph (R242). -/
def glyphAddr (f : Font1) (c : Half) : Nat := f.glyphs + (c.toNat - f.first) * glyphBytes f

/-- The events of a drawn glyph (R243): `HEIGHT / 8` strips, each a window and one data transaction of `8 * WIDTH`
pixels, row-major. -/
def State.glyphEvents (s : State) (f : Font1) (c : Half) (x y : Int) (fg bg : Half) : List Event :=
  (List.range (f.height / 8)).flatMap fun (p : Nat) =>
    s.windowEvents x (y + 8 * p) (x + f.width - 1) (y + 8 * p + 7) ++
      [.data (s.rasterBytes (glyphAddr f c) (8 * p * f.width) (8 * f.width) fg bg)]

/-- What a bitmap-font string emits from a pen position on, and the address of the glyph region that fails its check
and ends it, if one does (R244, R246): a skipped character draws nothing and leaves the pen. -/
def State.stringRun (s : State) (f : Font1) (y : Int) (fg bg : Half) :
    Int → List Half → List Event × Option Nat
  | _, [] => ([], none)
  | pen, c :: rest =>
    if s.draws f y pen c then
      if s.inAssets (glyphAddr f c) (glyphBytes f) then
        (s.glyphEvents f c pen y fg bg ++ (s.stringRun f y fg bg (pen + f.width) rest).1,
          (s.stringRun f y fg bg (pen + f.width) rest).2)
      else ([], some (glyphAddr f c))
    else s.stringRun f y fg bg pen rest

/-- What a string leaves: its events, and the error if a region failed its check (R240 (b), (c)). -/
def State.afterText (s : State) (hdr : Word) (run : List Event × Option Nat) : State :=
  match run.2 with
  | none => s.drawn run.1 s.tbuf
  | some a => (s.emitAll run.1).failed .asset hdr a

/-- The descriptor at `a` has fields that TTTEXT and TTWIDTH accept (R247). -/
abbrev State.fontVValid (s : State) (a : Nat) : Prop :=
  s.assetRead a 1 ≠ 0 ∧ 1 ≤ s.assetRead (a + 1) 1 ∧ s.assetRead (a + 1) 1 ≤ 3

/-- The fields of the FONTV descriptor at `a` (R247). -/
def State.fontV (s : State) (a : Nat) : FontV where
  height := s.assetRead a 1
  offw := s.assetRead (a + 1) 1
  maplen := s.assetRead (a + 2) 2
  map := s.assetRead (a + 4) 4
  widths := s.assetRead (a + 8) 4
  offsets := s.assetRead (a + 12) 4
  bits := s.assetRead (a + 16) 4

/-- The width of a character of a variable-width font, 0 for an unmapped one (R248, R251). -/
def State.advance (s : State) (f : FontV) (c : Half) : Nat :=
  match f.index s c.toNat with
  | none => 0
  | some i => s.assetRead (f.widths + i) 1

/-- The pen advance of a string (R250, R251): the sum of its mapped characters' widths. -/
def State.measure (s : State) (f : FontV) (chars : List Half) : Nat :=
  (chars.map (s.advance f)).sum

/-- The first address and the length of the region that holds a variable-width glyph's bits (R249). -/
def glyphRegion (f : FontV) (w o : Nat) : Nat × Nat := (f.bits + o / 8, (o + w * f.height + 7) / 8 - o / 8)

/-- What a variable-width string emits from a pen position on, and the address of the glyph region that fails its
check and ends it, if one does (R249, R250). -/
def State.vstringRun (s : State) (f : FontV) (y : Int) (fg bg : Half) :
    Int → List Half → List Event × Option Nat
  | _, [] => ([], none)
  | pen, c :: rest =>
    match f.index s c.toNat with
    | none => s.vstringRun f y fg bg pen rest
    | some i =>
      let w := s.assetRead (f.widths + i) 1
      let o := s.assetRead (f.offsets + f.offw * i) f.offw
      if w = 0 then s.vstringRun f y fg bg pen rest
      else if s.inAssets (glyphRegion f w o).1 (glyphRegion f w o).2 then
        (s.windowEvents pen y (pen + w - 1) (y + f.height - 1) ++
            [.data (s.rasterBytes f.bits o (w * f.height) fg bg)] ++
            (s.vstringRun f y fg bg (pen + w) rest).1,
          (s.vstringRun f y fg bg (pen + w) rest).2)
      else ([], some (glyphRegion f w o).1)

/-- The table whose check fails first (R247), if one does; OFFSETS is checked by TTTEXT alone. -/
def State.missingTable (s : State) (f : FontV) (withOffsets : Bool) : Option Nat :=
  if ¬s.inAssets f.map (2 * f.maplen) then some f.map
  else if ¬s.inAssets f.widths f.maplen then some f.widths
  else if withOffsets = true ∧ ¬s.inAssets f.offsets (f.offw * f.maplen) then some f.offsets
  else none

/-! ### Bitmaps (43_expand.md) -/

/-- The fields of the BMP descriptor at `a` (R252). -/
def State.bmp (s : State) (a : Nat) : Bmp where
  width := s.assetRead a 2
  height := s.assetRead (a + 2) 2
  bpp := s.assetRead (a + 4) 1
  rsvd := s.assetRead (a + 5) 1
  frames := s.assetRead (a + 6) 2
  palette := s.assetRead (a + 8) 4
  bits := s.assetRead (a + 12) 4

/-- The first bit of a frame (R253). -/
def frameStart (b : Bmp) (index : Nat) : Nat := index * b.width * b.height * b.bpp

/-- The palette index of pixel `k` (R253). -/
def State.paletteIndex (s : State) (b : Bmp) (index k : Nat) : Nat :=
  ((List.range b.bpp).map fun t =>
    (s.assetBit b.bits (frameStart b index + k * b.bpp + t)).toNat * 2 ^ (b.bpp - 1 - t)).sum

/-- The bytes of a frame (R253, R254). -/
def State.frameBytes (s : State) (b : Bmp) (index : Nat) : List Byte :=
  (List.range (b.width * b.height)).flatMap fun k =>
    bytesOfNat16 (s.assetRead (b.palette + 2 * s.paletteIndex b index k) 2)

/-- BITMAP's checks before anything is drawn, in order (R252, R254): the error and its address. -/
def State.bitmapReject (s : State) (a index : Nat) : Option (ErrKind × Nat) :=
  if s.assetSize < a + 16 then some (.asset, a)
  else if s.assetRead (a + 4) 1 = 0 ∨ 8 < s.assetRead (a + 4) 1 ∨ s.assetRead (a + 5) 1 ≠ 0 then
    some (.desc, 0)
  else if s.assetRead (a + 6) 2 ≤ index then some (.frame, 0)
  else none

/-- BITMAP draws nothing (R254): a side of zero, or the frame would go past the panel's edge (R241). -/
abbrev State.bitmapSkipped (s : State) (b : Bmp) (x y : Int) : Prop :=
  b.width = 0 ∨ b.height = 0 ∨
    ¬(0 ≤ x ∧ 0 ≤ y ∧ x + b.width ≤ s.width.toNat ∧ y + b.height ≤ s.height.toNat)

/-- BITMAP's region checks for a frame that would be drawn, in order (R254): the address of the one that fails. -/
def State.bitmapMissing (s : State) (b : Bmp) (index : Nat) : Option Nat :=
  if s.assetSize < b.palette + 2 * 2 ^ b.bpp then some b.palette
  else if s.assetSize < b.bits + (frameStart b index + b.width * b.height * b.bpp + 7) / 8 then
    some (b.bits + frameStart b index / 8)
  else none

/-! ### Whole results of the commands that read asset memory (43_expand.md) -/

/-- What TEXT8 (`wexp` 8) and TEXT16 (16) leave (R242..R246), READY set. -/
def State.bitmapTextResult (s : State) (hdr : Word) (wexp : Nat) (font : Word) (x y fg bg : Half)
    (chars : List Half) : State :=
  if s.assetSize < font.toNat + 12 then s.failed .asset hdr font.toNat
  else if ¬s.font1Valid wexp font.toNat then s.failed .desc hdr 0
  else s.afterText hdr (s.stringRun (s.font1 font.toNat) y.toInt fg bg x.toInt chars)

/-- What TTTEXT leaves (R247..R250), READY set. -/
def State.variableTextResult (s : State) (hdr : Word) (font : Word) (x y fg bg : Half)
    (chars : List Half) : State :=
  if s.assetSize < font.toNat + 20 then s.failed .asset hdr font.toNat
  else if ¬s.fontVValid font.toNat then s.failed .desc hdr 0
  else
    match s.missingTable (s.fontV font.toNat) true with
    | some a => s.failed .asset hdr a
    | none => s.afterText hdr (s.vstringRun (s.fontV font.toNat) y.toInt fg bg x.toInt chars)

/-- What TTWIDTH leaves (R247, R248, R251). -/
def State.widthResult (s : State) (hdr : Word) (font : Word) (chars : List Half) : State :=
  if s.assetSize < font.toNat + 20 then s.failed .asset hdr font.toNat
  else if ¬s.fontVValid font.toNat then s.failed .desc hdr 0
  else
    match s.missingTable (s.fontV font.toNat) false with
    | some a => s.failed .asset hdr a
    | none =>
      { s with
        result := BitVec.ofNat 32 (s.measure (s.fontV font.toNat) chars), todo := [], phase := .idle }

/-- What BITMAP leaves (R252..R254), READY set. -/
def State.bitmapResult (s : State) (hdr desc : Word) (x y : Half) (index : Word) : State :=
  match s.bitmapReject desc.toNat index.toNat with
  | some (e, a) => s.failed e hdr a
  | none =>
    let b := s.bmp desc.toNat
    if s.bitmapSkipped b x.toInt y.toInt then s.drawn [] s.tbuf
    else
      match s.bitmapMissing b index.toNat with
      | some a => s.failed .asset hdr a
      | none =>
        s.drawn (s.windowEvents x.toInt y.toInt (x.toInt + b.width - 1) (y.toInt + b.height - 1) ++
          [.data (s.frameBytes b index.toNat)]) s.tbuf

/-! ### What interference leaves alone -/

/-- Only reads of the register window are to come from the host, nothing from the platform, and the port accepts every
event in the end (20_memory.md R58, R61). -/
def State.harmless (s : State) : Prop :=
  (∀ h ∈ s.host, ∃ off, h.access = .read 4 off ∧ windowAccess 4 off = true) ∧ s.platform = [] ∧
    ∀ p ∈ s.port, ∃ n, p = .ticks n

/-- Everything but the environment and the record of what the host has read. -/
def State.inside (s : State) : State := { s with host := [], platform := [], port := [], reads := [] }

/-! ### Reset -/

/-- Every field that the spec gives a value at power-on has it, the trace is empty, and the engine has nothing to do
(10_state.md R48, 70_reset_and_hazards.md R320). -/
structure State.isReset (t : State) : Prop where
  registers : t.cp = 0 ∧ t.nativeW = 0 ∧ t.nativeH = 0 ∧ t.rot = 0 ∧ t.width = 0 ∧ t.height = 0 ∧
    t.xstart = 0 ∧ t.ystart = 0
  status : t.ready = false ∧ t.halted = false ∧ t.err = 0 ∧ t.errhdr = 0 ∧ t.erraddr = 0 ∧ t.result = 0
  engine : t.fifo = [] ∧ t.phase = .idle ∧ t.srstPending = false ∧ t.pkt = [] ∧ t.todo = [] ∧ t.inFlight = false
  port : t.pins = { csN := true, dc := true, rstN := true } ∧ t.trace = []

/-! ### The invariant -/

/-- The error record is consistent (10_state.md R28, 60_exceptions.md R281): a code of 0 with nothing beside it, or
one of the six codes, and an address only for `E_ASSET`. -/
abbrev State.errorRecordOk (s : State) : Prop :=
  (s.err = 0 ∧ s.errhdr = 0 ∧ s.erraddr = 0) ∨
    (1 ≤ s.err.toNat ∧ s.err.toNat ≤ 6 ∧ (s.erraddr ≠ 0 → s.err = 6))

/-- No event of the trace waits 0 milliseconds (20_memory.md R56). -/
def Event.ok : Event → Bool
  | .wait ms => ms != 0
  | _ => true

/-- No event of an action waits 0 milliseconds (20_memory.md R56). -/
def Action.waitOk : Action → Bool
  | .emit e => e.ok
  | .blit window _ => window.all Event.ok
  | _ => true

/-- An action raises with an address only for `E_ASSET` (60_exceptions.md R283). -/
def Action.recordOk : Action → Bool
  | .raise e _ a _ => a == 0 || e == .asset
  | _ => true

/-- What INIT and SETROT set up (10_state.md R22, R23, R24, R26). -/
structure Setup where
  nativeW : Half
  nativeH : Half
  rot : BitVec 3
  width : Half
  height : Half
  ready : Bool

/-- The machine's. -/
def State.setup (s : State) : Setup where
  nativeW := s.nativeW
  nativeH := s.nativeH
  rot := s.rot
  width := s.width
  height := s.height
  ready := s.ready

/-- The extent is the native size, its sides swapped exactly when the rotation code is odd (R24). -/
def Setup.fits (p : Setup) : Prop :=
  (p.rot.toNat % 2 = 0 → p.width = p.nativeW ∧ p.height = p.nativeH) ∧
    (p.rot.toNat % 2 = 1 → p.width = p.nativeH ∧ p.height = p.nativeW)

/-- So it is once INIT is complete (R24). -/
def Setup.ok (p : Setup) : Prop := p.ready = true → p.fits

/-- What an action changes of it. -/
def Action.onSetup : Action → Setup → Setup
  | .setNative w h, p => { p with nativeW := w, nativeH := h }
  | .setRot r, p => { p with rot := r }
  | .setExtent w h, p => { p with width := w, height := h }
  | .setReady, p => { p with ready := true }
  | _, p => p

/-- An action after which `drain` goes on with the next. The others end the command, or wait for words. -/
def Action.simple : Action → Bool
  | .raise .. | .skip .. | .payload .. | .text .. => false
  | _ => true

/-- The set-up is as R24 says when some actions have been performed, or an error has ended them. -/
def setupOk : List Action → Setup → Prop
  | [], p => p.ok
  | a :: rest, p => if a.simple then setupOk rest (a.onSetup p) else p.ok

/-- The event is a transaction (20_memory.md R56). -/
def Event.isTxn : Event → Bool
  | .cmd _ | .cmdData _ _ | .data _ => true
  | .pinRst _ | .wait _ => false

/-- What holds of every state a run reaches, and every step keeps. -/
structure State.Inv (s : State) : Prop where
  /-- Asset memory is in its canonical form (log entry 3). -/
  assets_wf : Memory.wf s.assets = true
  /-- and lies inside `ASSET_SIZE` (20_memory.md R52). -/
  assets_inside : ∀ c ∈ s.assets, c.1 < s.assetSize
  /-- The FIFO holds at most `FIFO_DEPTH` words (10_state.md R30). -/
  fifo_bound : s.fifo.length ≤ s.cfg.fifoDepth
  /-- The error record is consistent (R28, R281), -/
  record_ok : s.errorRecordOk
  /-- now and after what is left of the command. -/
  todo_record_ok : ∀ a ∈ s.todo, a.recordOk = true
  /-- No event waits 0 milliseconds (20_memory.md R56), -/
  trace_ok : ∀ e ∈ s.trace, e.ok = true
  /-- now and later. -/
  todo_wait_ok : ∀ a ∈ s.todo, a.waitOk = true
  /-- Between transactions chip select is high (20_memory.md R57). -/
  cs_idle : s.inFlight = false → s.pins.csN = true
  /-- What has been popped of a packet that is not decided is no more than its fixed part (60_exceptions.md R282), -/
  pkt_partial : ∀ h t, s.pkt = h :: t → s.pkt.length ≤ fixedPart h
  /-- and no command is under way. -/
  todo_pkt : s.todo ≠ [] → s.pkt = []
  /-- A soft reset is pending only while an event is in progress (70_reset_and_hazards.md R321). -/
  srst_pending : s.srstPending = true → s.inFlight = true
  /-- The engine is in EXEC exactly while a packet is being consumed or executed (10_state.md R31). -/
  phase_exec : s.phase = .exec ↔ (s.pkt ≠ [] ∨ s.todo ≠ [])
  /-- An event in progress is the head of what is left to do, and chip select is low only in a transaction. -/
  in_flight : s.inFlight = true →
    ∃ e rest, s.todo = .emit e :: rest ∧ (s.pins.csN = true ∨ e.isTxn = true)
  /-- The extent is the native size, swapped exactly when the rotation code is odd, once INIT is complete and no command
  is under way (10_state.md R24); while one is, so it will be at its end. -/
  setup_ok : setupOk s.todo s.setup
  /-- BUSY = 0 and HALTED = 0: every word written has been consumed, every command has ended and no event is in progress
  (20_memory.md R64 (f)). -/
  busy_clear : s.status.getLsbD 0 = false → s.status.getLsbD 3 = false →
    s.fifo = [] ∧ s.pkt = [] ∧ s.todo = [] ∧ s.inFlight = false

end Sys2Proof.Machine
end

