-- ==== Sys2Proof/Certificates/Slice0/Obligations.lean ====
section
/-! DEFINITION. What is claimed of the model, each claim after a rule of the spec. A claim about one command says what
the whole next state is, so it is a frame too: no field, and no byte of asset memory, changes but those it names. The
commands are stated where nothing of the environment interferes (`State.quiet`); what interference does is stated
apart. -/

section

open Sys2Proof Sys2Proof.Machine

/-! ### Encoding (30_encoding.md) -/

/-- Every well-formed command is read back from its words, with every operand at every value (R80..R98). -/
def Obligations.DecodeOfEncodeIsTheCommand : Prop :=
  ∀ (i : Instr) (rest : List Word), i.wf = true → decode (encode i ++ rest) = .ok (i, rest)

/-- R99: the packet length is one header, the fixed words of the opcode and the counted words; no other bit of the
header enters. -/
def Obligations.PacketLengthTable : Prop :=
  ∀ (opc : Nat) (arg : BitVec 24), 1 ≤ opc → opc ≤ 0x17 →
    plen (header (BitVec.ofNat 8 opc) arg) =
      1 + [1, 2, 0, 3, 2, 3, 3, 3, 3, 3, 4, 4, 3, 3, 3, 1, 3, 0, 1, 0, 0, 0, 1].getD (opc - 1) 0 +
        (if opc = 0x03 then (arg.toNat + 3) / 4
         else if 0x0D ≤ opc ∧ opc ≤ 0x10 then (arg.toNat % 65536 + 1) / 2 else 0)

/-- What the decoder reads is well formed, takes exactly the header's packet length from the stream (an illegal header
alone), and has that header (R99, R100). -/
def Obligations.DecoderTakesExactlyThePacket : Prop :=
  ∀ (h : Word) (t : List Word) (i : Instr) (rest : List Word), decode (h :: t) = .ok (i, rest) →
    i.wf = true ∧ headerOf i = h ∧ plen h ≤ t.length + 1 ∧ rest = t.drop (plen h - 1)

/-- Words written out from the spec's encodings decode to their commands (R82..R98; vectors E-1 of
95_test_vectors.md). -/
def Obligations.SpecWordsDecode : Prop :=
  decode [0x01000001, 0x014001E0] = .ok (.init 1 320 480, []) ∧
  decode [0x02000000, 0x00010002, 0x012C0190] = .ok (.setwin 1 2 300 400, []) ∧
  decode [0x03000005, 0x01020304, 0x05FFFFFF] = .ok (.wrpix [1, 2, 3, 4, 5], []) ∧
  decode [0x05000000, 0xFFFFFFFE, 0x0000001F] = .ok (.pixel (-1) (-2) 0x1F, []) ∧
  decode [0x09000000, 0x000A000A, 0x00000002, 0x0000F800] = .ok (.circle 10 10 2 0xF800, []) ∧
  decode [0x0D000003, 0x00000000, 0x00000000, 0xFFFF0000, 0x0041005A, 0x0042FFFF] =
    .ok (.text8 0 0 0 0xFFFF 0 [0x41, 0x5A, 0x42], []) ∧
  decode [0x11000000, 0x00000060, 0x00050005, 0x00000001] = .ok (.bitmap 0x60 5 5 1, []) ∧
  decode [0x17000000, 0x00FF8040] = .ok (.rgb565 0xFF 0x80 0x40, []) ∧
  decode [0x18000000] = .ok (.illegal18 0x18000000, [])

/-- R101, R282 step 2: a packet one of whose reserved bits is set is dropped whole with `E_RESERVED` and no other
effect; of its counted words, those that are there are skipped at once, the others as they arrive. -/
def Obligations.ReservedBitRejectsThePacket : Prop :=
  ∀ (s : State) (h : Word) (fixed rest : List Word) (k : Nat),
    s.quiet → s.betweenPackets → 1 ≤ opcode h → opcode h ≤ 0x17 →
    fixed.length + 1 = (reservedMasks (opcode h)).length → s.fifo = h :: fixed ++ rest →
    (∃ p ∈ (h :: fixed).zip (reservedMasks (opcode h)), p.1 &&& p.2 ≠ 0) →
    k = min (varWords h) rest.length →
    step s = .next
      { (s.tookPacket (1 + fixed.length + k) (rest.drop k)).record .reserved h 0 with
        todo := if k = varWords h then [] else [.skip (varWords h - k)]
        phase := if k = varWords h then .idle else .exec }

/-- R282 `skip(m)`: each word of a rejected packet that is there is popped and discarded, with none the engine waits,
and after the last it is IDLE: in one step where nothing is due meanwhile, one word a tick where an access is. -/
def Obligations.SkippedWordsAreDiscarded : Prop :=
  (∀ (s : State) (m k : Nat),
    s.host = [] → s.platform = [] → s.inFlight = false → s.halted = false → 0 < m →
    s.todo = [.skip m] → k = min m s.fifo.length →
    step s = .next
      { s.tookWords k (s.fifo.drop k) with
        todo := if k = m then [] else [.skip (m - k)]
        phase := if k = m then .idle else s.phase }) ∧
  ∀ (s : State) (m : Nat) (w : Word) (rest : List Word),
    s.envDue = false → s.inFlight = false → s.halted = false → s.todo = [.skip (m + 2)] →
    s.fifo = w :: rest → (s.tookWords 1 rest).tick.envDue = true →
    step s = .next { (s.tookWords 1 rest).tick with todo := [.skip (m + 1)] }

/-! ### The engine's cycle (60_exceptions.md) -/

/-- A step runs the decoded command: where the words that the engine holds and the FIFO begin with a whole packet, the
fixed part is popped one word a tick, and where no access falls due meanwhile, the step is the meaning of the command at
the state that this leaves, its characters or payload still in the FIFO (R282). In a quiet environment, between two
packets, that state is the one whose FIFO has given up the fixed part. -/
def Obligations.StepRunsTheDecodedCommand : Prop :=
  ∀ (s : State) (h : Word) (t : List Word) (i : Instr) (rest : List Word),
    s.inFlight = false → s.halted = false → s.todo = [] →
    s.pkt ++ s.fifo = h :: t → s.pkt.length ≤ fixedPart h → decode (s.pkt ++ s.fifo) = .ok (i, rest) →
    ((∀ k ≤ fixedPart h - s.pkt.length, (State.takeWord^[k] s).envDue = false) →
      step s = exec i { State.takeWord^[fixedPart h - s.pkt.length] s with pkt := [] }) ∧
    (s.quiet → s.pkt = [] →
      step s = exec i (s.tookPacket (fixedPart h) (s.fifo.drop (fixedPart h))))

/-- Where the fixed words of a packet have not all arrived, the engine takes those that have, or waits when there is
none (R282 "waiting for each"). -/
def Obligations.EngineWaitsForFixedWords : Prop :=
  ∀ (s : State), s.quiet → s.inFlight = false → s.halted = false → s.todo = [] →
    decode (s.pkt ++ s.fifo) = .error .needFixed →
    (s.fifo = [] → step s = .next s) ∧
    (s.fifo ≠ [] → ∃ t, step s = .next t ∧
      t.pkt = s.pkt ++ s.fifo ∧ t.fifo = [] ∧ t.cp = s.cp + BitVec.ofNat 32 s.fifo.length ∧ t.phase = .exec ∧
      t.trace = s.trace)

/-- It does not matter when the words of a packet arrive (R64 (a), R282 step 4): in whatever batches they come, and
however long the engine works on what is there before the next, the end is the same as if the packet had been there
whole. -/
def Obligations.WordArrivalTimesDoNotMatter : Prop :=
  ∀ (i : Instr) (batches : List (List Word × Nat)) (s t : State),
    i.wf = true → encode i = (batches.map Prod.fst).flatten → s.quiet → s.betweenPackets → s.fifo = [] →
    feed batches s = .next t →
    ∃ m, steps m t = step { s with fifo := encode i }

/-- R285: each illegal header records `E_OPCODE`, unless an error is recorded already, and halts the engine. -/
def Obligations.IllegalHeadersHalt : Prop :=
  ∀ (s : State), s.quiet →
    (∀ low, exec (.illegal00 low) s =
      .next { s.record .opcode ((0 : BitVec 8) ++ low) 0 with halted := true, todo := [], phase := .idle }) ∧
    (∀ low, exec (.illegal18 low) s =
      .next { s.record .opcode ((3 : BitVec 5) ++ low) 0 with halted := true, todo := [], phase := .idle }) ∧
    (∀ low, exec (.illegal20 low) s =
      .next { s.record .opcode ((1 : BitVec 3) ++ low) 0 with halted := true, todo := [], phase := .idle }) ∧
    (∀ low, exec (.illegal40 low) s =
      .next { s.record .opcode ((1 : BitVec 2) ++ low) 0 with halted := true, todo := [], phase := .idle }) ∧
    (∀ low, exec (.illegal80 low) s =
      .next { s.record .opcode ((1 : BitVec 1) ++ low) 0 with halted := true, todo := [], phase := .idle })

/-- R100: every header of opcode 0x00 or 0x18..0xFF is illegal, whatever its other bits and whatever follows it. -/
def Obligations.IllegalOpcodesDecodeAsIllegal : Prop :=
  ∀ (h : Word) (t : List Word), opcode h = 0 ∨ 0x18 ≤ opcode h →
    ∃ i, decode (h :: t) = .ok (i, t) ∧ headerOf i = h ∧
      ((∃ low, i = .illegal00 low) ∨ (∃ low, i = .illegal18 low) ∨ (∃ low, i = .illegal20 low) ∨
        (∃ low, i = .illegal40 low) ∨ (∃ low, i = .illegal80 low))

/-- R285: a halted engine pops and discards every word; BUSY reads 0 and HALTED reads 1 throughout. -/
def Obligations.HaltedEngineDiscardsEveryWord : Prop :=
  ∀ (s : State) (words rest : List Word),
    s.host = [] → s.platform = [] → s.inFlight = false → s.halted = true → s.fifo = words ++ rest →
    steps words.length s = .next (s.tookWords words.length rest) ∧
      (s.tookWords words.length rest).status.getLsbD 0 = false ∧
      (s.tookWords words.length rest).status.getLsbD 3 = true

/-- A halt is left only by a power-on reset that is due, by an SRST write that is due on a transaction boundary, or by
the acceptance of the event in progress while a soft reset is pending (R27, R285, R321). -/
def Obligations.HaltIsLeftOnlyByReset : Prop :=
  ∀ (s t : State), step s = .next t → s.halted = true → t.halted = false →
    (s.platformDue = true ∧ ∃ p rest, s.platform = p :: rest ∧ p.access = .powerOn) ∨
    (s.platformDue = false ∧ s.hostDue = true ∧ s.inFlight = false ∧
      ∃ h rest v, s.host = h :: rest ∧ h.access = .write 4 0x0C v ∧ v.getLsbD 1 = true) ∨
    (s.envDue = false ∧ s.inFlight = true ∧ s.srstPending = true ∧
      (s.port = [] ∨ ∃ holds, s.port = .ticks 0 :: holds) ∧
      ∃ e acts, s.todo = .emit e :: acts ∧
        t.trace = s.trace ++ [e] ++ (if (s.pins.after e).rstN then [] else [.pinRst true]))

/-- R282 step 3, R281: each of the twenty commands that require READY, decoded before an INIT has completed, records
`E_UNINIT`, skips its characters or payload, and does nothing else. -/
def Obligations.UninitialisedCommandsAreRejected : Prop :=
  ∀ (i : Instr) (s : State), requiresReadyInstr i = true → s.ready = false → s.quiet →
    varCount i ≤ s.fifo.length →
    exec i s = .next ((s.tookVar (varCount i)).failed .uninit (headerOf i) 0)

/-- R283: the first error since the last acknowledgement or reset is kept, with its code, header and address modulo
2^32; later ones change nothing. -/
def Obligations.FirstErrorIsKept : Prop :=
  ∀ (e : ErrKind) (h : Word) (a : Nat) (s : State),
    (s.err = 0 → s.record e h a =
      { s with
        err := (match e with
          | .opcode => 1 | .reserved => 2 | .uninit => 3 | .desc => 4 | .frame => 5 | .asset => 6)
        errhdr := h
        erraddr := BitVec.ofNat 32 (a % 4294967296) }) ∧
    (s.err ≠ 0 → s.record e h a = s)

/-! ### Panel control and colour (40_panel_control.md) -/

/-- R121: INIT's whole sequence and what it leaves, READY or not. -/
def Obligations.InitBringsUpThePanel : Prop :=
  ∀ (v nw nh : Half) (s : State), s.quiet →
    exec (.init v nw nh) s = .next
      { s.emitAll (bringUpEvents s.cfg v ++
          State.fillEvents
            { s with
              xstart := 0, ystart := 0
              width := rotatedWidth v nw nh, height := rotatedHeight v nw nh }
            0 0 (rotatedWidth v nw nh).toNat (rotatedHeight v nw nh).toNat 0) with
        nativeW := nw, nativeH := nh, xstart := 0, ystart := 0
        rot := BitVec.ofNat 3 (v.toNat % 8)
        width := rotatedWidth v nw nh, height := rotatedHeight v nw nh
        tbuf := tbufAfter 0 ((rotatedWidth v nw nh).toNat * (rotatedHeight v nw nh).toNat) s.tbuf
        ready := true, todo := [], phase := .idle }

/-- R124, R125: SETROT, its encoding, its effect and its rejection before INIT. -/
def Obligations.SetrotRotates : Prop :=
  ∀ (v : Half) (s : State), s.quiet →
    encode (.setrot v) = [BitVec.ofNat 32 (0x12000000 + v.toNat)] ∧
    (s.ready = true → exec (.setrot v) s = .next
      { s.emitAll [.cmdData 0x36 [madctlOf s.cfg v]] with
        rot := BitVec.ofNat 3 (v.toNat % 8)
        width := rotatedWidth v s.nativeW s.nativeH, height := rotatedHeight v s.nativeW s.nativeH
        todo := [], phase := .idle }) ∧
    (s.ready = false → exec (.setrot v) s =
      .next (s.failed .uninit (BitVec.ofNat 32 (0x12000000 + v.toNat)) 0))

/-- R126: SETORG, its encoding, its effect and its rejection before INIT. -/
def Obligations.SetorgSetsTheOrigin : Prop :=
  ∀ (xs ys : Half) (s : State), s.quiet →
    encode (.setorg xs ys) = [0x13000000, xs ++ ys] ∧
    (s.ready = true → exec (.setorg xs ys) s =
      .next { s with xstart := xs, ystart := ys, todo := [], phase := .idle }) ∧
    (s.ready = false → exec (.setorg xs ys) s = .next (s.failed .uninit 0x13000000 0))

/-- R127, R128, R129: SLEEP, INVERT and DISPLAY, their encodings, the one command byte each sends, and their rejections
before INIT; READY stays. -/
def Obligations.TogglesSendOneCommand : Prop :=
  ∀ (on : Bool) (s : State), s.quiet →
    (encode (.sleep on) = [BitVec.ofNat 32 (0x14000000 + on.toNat)] ∧
      encode (.invert on) = [BitVec.ofNat 32 (0x15000000 + on.toNat)] ∧
      encode (.display on) = [BitVec.ofNat 32 (0x16000000 + on.toNat)]) ∧
    (s.ready = true →
      exec (.sleep on) s = .next (s.drawn [.cmd (if on then 0x10 else 0x11)] s.tbuf) ∧
      exec (.invert on) s = .next (s.drawn [.cmd (if on then 0x21 else 0x20)] s.tbuf) ∧
      exec (.display on) s = .next (s.drawn [.cmd (if on then 0x29 else 0x28)] s.tbuf)) ∧
    (s.ready = false →
      exec (.sleep on) s = .next (s.failed .uninit (BitVec.ofNat 32 (0x14000000 + on.toNat)) 0) ∧
      exec (.invert on) s = .next (s.failed .uninit (BitVec.ofNat 32 (0x15000000 + on.toNat)) 0) ∧
      exec (.display on) s = .next (s.failed .uninit (BitVec.ofNat 32 (0x16000000 + on.toNat)) 0))

/-- R130: RGB565, its encoding; it writes RESULT, READY or not, and emits nothing. -/
def Obligations.Rgb565SetsTheResult : Prop :=
  ∀ (r g b : Byte) (s : State), s.quiet →
    encode (.rgb565 r g b) =
      [0x17000000, BitVec.ofNat 32 (r.toNat * 65536 + g.toNat * 256 + b.toNat)] ∧
    exec (.rgb565 r g b) s = .next
      { s with
        result := BitVec.ofNat 32 (r.toNat / 8 * 2048 + g.toNat / 4 * 32 + b.toNat / 8)
        todo := [], phase := .idle }

/-- R131: the packed colour is `{r[7:3], g[7:2], b[7:3]}`, also as shifts and masks, and re-encoding a decoded colour
gives it back. -/
def Obligations.Rgb565PacksTopBits : Prop :=
  (∀ r g b : Byte,
    rgb565 r g b = r.extractLsb 7 3 ++ g.extractLsb 7 2 ++ b.extractLsb 7 3 ∧
    rgb565 r g b = ((r.setWidth 16 &&& 0xF8) <<< 8) ||| ((g.setWidth 16 &&& 0xFC) <<< 3) |||
      (b.setWidth 16 >>> 3)) ∧
  ∀ c : Half,
    rgb565 ((c.extractLsb 15 11).setWidth 8 <<< 3) ((c.extractLsb 10 5).setWidth 8 <<< 2)
      ((c.extractLsb 4 0).setWidth 8 <<< 3) = c

/-! ### Window, raw blit and fill (41_window_blit.md) -/

/-- R164 with R161, R162, R163: SETWIN, its encoding, its events (inclusive check on both axes, origin added after it
modulo 2^16, none where the check fails) and its rejection before INIT. -/
def Obligations.SetwinIssuesTheWindow : Prop :=
  ∀ (x0 y0 x1 y1 : Half) (s : State), s.quiet →
    encode (.setwin x0 y0 x1 y1) = [0x02000000, x0 ++ y0, x1 ++ y1] ∧
    (s.ready = true → exec (.setwin x0 y0 x1 y1) s =
      .next (s.drawn (s.windowEvents x0.toInt y0.toInt x1.toInt y1.toInt) s.tbuf)) ∧
    (s.ready = false → exec (.setwin x0 y0 x1 y1) s = .next (s.failed .uninit 0x02000000 0))

/-- R165: WRPIX sends its payload as one data transaction, an empty or odd one too, and consumes its words. -/
def Obligations.WrpixSendsThePayload : Prop :=
  ∀ (payload : List Byte) (s : State), s.quiet → s.ready = true → (payload.length + 3) / 4 ≤ s.fifo.length →
    exec (.wrpix payload) s =
      .next ((s.tookVar ((payload.length + 3) / 4)).drawn [.data payload] s.tbuf)

/-- R171 with R166, R170, R175: FILLRECT, its encoding, its effect and its rejection before INIT. -/
def Obligations.FillrectFills : Prop :=
  ∀ (x y w h color : Half) (s : State), s.quiet →
    encode (.fillrect x y w h color) = [0x04000000, x ++ y, w ++ h, (0 : Half) ++ color] ∧
    (s.ready = true → exec (.fillrect x y w h color) s =
      .next (s.drawn (s.fillEvents x.toInt y.toInt w.toNat h.toNat color)
        (tbufAfter color (w.toNat * h.toNat) s.tbuf))) ∧
    (s.ready = false → exec (.fillrect x y w h color) s = .next (s.failed .uninit 0x04000000 0))

/-- R172 with R167: PIXEL, its encoding, its effect and its rejection before INIT. -/
def Obligations.PixelIsAOnePixelFill : Prop :=
  ∀ (x y color : Half) (s : State), s.quiet →
    encode (.pixel x y color) = [0x05000000, x ++ y, (0 : Half) ++ color] ∧
    (s.ready = true → exec (.pixel x y color) s =
      .next (s.drawn (s.fillEvents x.toInt y.toInt 1 1 color) (Vector.replicate 1024 color))) ∧
    (s.ready = false → exec (.pixel x y color) s = .next (s.failed .uninit 0x05000000 0))

/-- R173, R174 with R167: HLINE and VLINE are fills of one row and one column; their encodings, effects and
rejections before INIT. -/
def Obligations.SpansAreOneRowOrColumn : Prop :=
  ∀ (x y len color : Half) (s : State), s.quiet →
    encode (.hline x y len color) = [0x06000000, x ++ y, (0 : Half) ++ len, (0 : Half) ++ color] ∧
    encode (.vline x y len color) = [0x07000000, x ++ y, (0 : Half) ++ len, (0 : Half) ++ color] ∧
    (s.ready = true →
      exec (.hline x y len color) s =
        .next (s.drawn (s.fillEvents x.toInt y.toInt len.toNat 1 color)
          (tbufAfter color len.toNat s.tbuf)) ∧
      exec (.vline x y len color) s =
        .next (s.drawn (s.fillEvents x.toInt y.toInt 1 len.toNat color)
          (tbufAfter color len.toNat s.tbuf))) ∧
    (s.ready = false →
      exec (.hline x y len color) s = .next (s.failed .uninit 0x06000000 0) ∧
      exec (.vline x y len color) s = .next (s.failed .uninit 0x07000000 0))

/-- R168: PIXEL emits four events where `0 <= x <= width` and `0 <= y <= height`, and otherwise its data transaction
alone. -/
def Obligations.PixelEventCount : Prop :=
  ∀ (x y color : Half) (s t : State), s.quiet → s.ready = true → exec (.pixel x y color) s = .next t →
    ((0 ≤ x.toInt ∧ x.toInt ≤ s.width.toNat) ∧ (0 ≤ y.toInt ∧ y.toInt ≤ s.height.toNat) →
      ∃ cols rows, t.trace = s.trace ++
        [Event.cmdData 0x2A cols, .cmdData 0x2B rows, .cmd 0x2C, .data (bytesOfNat16 color.toNat)]) ∧
    (¬((0 ≤ x.toInt ∧ x.toInt ≤ s.width.toNat) ∧ (0 ≤ y.toInt ∧ y.toInt ≤ s.height.toNat)) →
      t.trace = s.trace ++ [Event.data (bytesOfNat16 color.toNat)])

/-- R170, R169: the gearbox law. A fill's data transactions are `k` of 2048 bytes and one of `2 r` bytes if `r > 0`,
where `w * h = 1024 k + r`; together they are `w * h` pixels of the colour, window accepted or dropped. -/
def Obligations.GearboxLaw : Prop :=
  ∀ (x y w h color : Half) (s t : State) (k r : Nat),
    s.quiet → s.ready = true → w.toNat * h.toNat = 1024 * k + r → r < 1024 →
    exec (.fillrect x y w h color) s = .next t →
    ∃ (window : List Event) (chunks : List (List Byte)), t.trace = s.trace ++ window ++ chunks.map .data ∧
      (window = [] ∨ ∃ cols rows, window = [.cmdData 0x2A cols, .cmdData 0x2B rows, .cmd 0x2C]) ∧
      chunks.map List.length = List.replicate k 2048 ++ (if 0 < r then [2 * r] else []) ∧
      chunks.flatten = (List.replicate (w.toNat * h.toNat) (bytesOfNat16 color.toNat)).flatten

/-! ### Shapes (42_raster.md) -/

/-- R201: LINE plots one pixel for each step of the longer axis, the other coordinate where the error term puts it
(in closed form, `linePixels`). -/
def Obligations.LinePlotsItsPixels : Prop :=
  ∀ (x0 y0 x1 y1 color : Half) (s : State), s.quiet → s.ready = true →
    exec (.line x0 y0 x1 y1 color) s =
      .next (s.drawn (s.pixelEvents color (linePixels x0.toInt y0.toInt x1.toInt y1.toInt))
        (Vector.replicate 1024 color))

/-- R207: a line's plot list, and so all it does, is the same in both directions, whatever interferes. -/
def Obligations.LineIsSymmetric : Prop :=
  (∀ x0 y0 x1 y1 : Int, linePlots x0 y0 x1 y1 = linePlots x1 y1 x0 y0) ∧
  ∀ (x0 y0 x1 y1 color : Half) (s : State),
    exec (.line x0 y0 x1 y1 color) s = exec (.line x1 y1 x0 y0 color) s

/-- R202: CIRCLE plots the four axis points, then the eight images of each pass of the midpoint loop, which ends. -/
def Obligations.CirclePlotsEightfold : Prop :=
  ∀ (x0 y0 r color : Half) (s : State), s.quiet → s.ready = true →
    ∃ n, circleRuns r.toNat n ∧
      exec (.circle x0 y0 r color) s =
        .next (s.drawn (s.pixelEvents color (circlePixels x0.toInt y0.toInt r.toNat n))
          (Vector.replicate 1024 color))

/-- R203: FCIRCLE draws the middle column, then four vertical spans for each pass of the midpoint loop, which ends. -/
def Obligations.FilledCircleIsVerticalSpans : Prop :=
  ∀ (x0 y0 r color : Half) (s : State), s.quiet → s.ready = true →
    ∃ n, circleRuns r.toNat n ∧
      exec (.fcircle x0 y0 r color) s =
        .next (s.drawn
          ((circleSpans x0.toInt y0.toInt r.toNat n).flatMap fun v => s.fillEvents v.1 v.2.1 1 v.2.2 color)
          (Vector.replicate 1024 color))

/-- The passes of CIRCLE and FCIRCLE: each is next to the circle in its column, as far as the octant reaches, and they
go on exactly while `x < y` (derived from R202; the model's own loop on exact integers). -/
def Obligations.CirclePointsAreNearest : Prop :=
  ∀ r : Nat, (circlePasses r).length ≤ r ∧
    (∀ (k : Nat) (p : Int × Int), (circlePasses r)[k]? = some p →
      p.1 = k + 1 ∧ 0 ≤ p.2 ∧
      (r : Int) ^ 2 ≤ p.1 ^ 2 + p.2 ^ 2 + p.2 ∧ p.1 ^ 2 + p.2 ^ 2 - p.2 ≤ (r : Int) ^ 2 ∧
      (p.1 ≤ p.2 → p.1 ^ 2 + p.2 ^ 2 - p.2 < (r : Int) ^ 2) ∧
      (p.1 < p.2 ↔ k + 1 < (circlePasses r).length)) ∧
    (circlePasses r = [] ↔ r = 0)

/-- R208: for radius 0 and 1 the pixels plotted are exactly the axis points. -/
def Obligations.SmallCirclesAreAxisPoints : Prop :=
  ∀ (x0 y0 : Int),
    (∀ p, p ∈ circlePlots x0 y0 0 ↔ p = .pixel x0 y0) ∧
    (∀ p, p ∈ circlePlots x0 y0 1 ↔
      p = .pixel (x0 + 1) y0 ∨ p = .pixel (x0 - 1) y0 ∨ p = .pixel x0 (y0 + 1) ∨ p = .pixel x0 (y0 - 1))

/-- R204: TRI is its three lines in order, shared vertices plotted twice. -/
def Obligations.TriIsThreeLines : Prop :=
  ∀ (x0 y0 x1 y1 x2 y2 color : Half) (s : State), s.quiet → s.ready = true →
    exec (.tri x0 y0 x1 y1 x2 y2 color) s =
      .next (s.drawn
        (s.pixelEvents color (linePixels x0.toInt y0.toInt x1.toInt y1.toInt) ++
          s.pixelEvents color (linePixels x1.toInt y1.toInt x2.toInt y2.toInt) ++
          s.pixelEvents color (linePixels x2.toInt y2.toInt x0.toInt y0.toInt))
        (Vector.replicate 1024 color))

/-- R205: FTRI draws the spans between its edges (in closed form, `ftriSpans`). -/
def Obligations.FtriFillsBetweenItsEdges : Prop :=
  ∀ (x0 y0 x1 y1 x2 y2 color : Half) (s : State), s.quiet → s.ready = true →
    exec (.ftri x0 y0 x1 y1 x2 y2 color) s =
      .next (s.drawn
        ((ftriSpans (x0.toInt, y0.toInt) (x1.toInt, y1.toInt) (x2.toInt, y2.toInt)).flatMap
          fun h => s.fillEvents h.1 h.2.1 h.2.2 1 color)
        (Vector.replicate 1024 color))

/-- R206 (b): FTRI gives every row from the least to the greatest vertex row exactly one span, in order, each at least
one pixel long. -/
def Obligations.FtriGivesEachRowOneSpan : Prop :=
  ∀ (x0 y0 x1 y1 x2 y2 : Int), ∃ first last : Int,
    first = min y0 (min y1 y2) ∧ last = max y0 (max y1 y2) ∧
    ∃ spans : List (Int × Nat),
      ftriPlots x0 y0 x1 y1 x2 y2 =
        (spans.zipIdx).map (fun q => .hspan q.1.1 (first + q.2) q.1.2) ∧
      spans.length = (last - first).toNat + 1 ∧ ∀ q ∈ spans, 1 ≤ q.2

/-! ### Text and bitmaps (43_expand.md) -/

/-- R244, R245 with R242, R243, R246, R240: TEXT8 and TEXT16, from their descriptor checks to their last strip or the
glyph region that fails its check. -/
def Obligations.BitmapTextDrawsItsGlyphs : Prop :=
  ∀ (font : Word) (x y fg bg : Half) (chars : List Half) (s : State),
    s.quiet → s.ready = true → chars.length < 65536 → (chars.length + 1) / 2 ≤ s.fifo.length →
    exec (.text8 font x y fg bg chars) s =
      .next ((s.tookVar ((chars.length + 1) / 2)).bitmapTextResult
        (BitVec.ofNat 32 (0x0D000000 + chars.length)) 8 font x y fg bg chars) ∧
    exec (.text16 font x y fg bg chars) s =
      .next ((s.tookVar ((chars.length + 1) / 2)).bitmapTextResult
        (BitVec.ofNat 32 (0x0E000000 + chars.length)) 16 font x y fg bg chars)

/-- R250 with R247, R248, R249: TTTEXT, from its descriptor and table checks to its last glyph or the glyph region
that fails its check. -/
def Obligations.VariableTextDrawsItsGlyphs : Prop :=
  ∀ (font : Word) (x y fg bg : Half) (chars : List Half) (s : State),
    s.quiet → s.ready = true → chars.length < 65536 → (chars.length + 1) / 2 ≤ s.fifo.length →
    exec (.tttext font x y fg bg chars) s =
      .next ((s.tookVar ((chars.length + 1) / 2)).variableTextResult
        (BitVec.ofNat 32 (0x0F000000 + chars.length)) font x y fg bg chars)

/-- R251: TTWIDTH writes the sum of its mapped characters' widths to RESULT, READY or not, or records its error and
leaves RESULT. -/
def Obligations.TtwidthMeasures : Prop :=
  ∀ (font : Word) (chars : List Half) (s : State), s.quiet → chars.length < 65536 →
    (chars.length + 1) / 2 ≤ s.fifo.length →
    exec (.ttwidth font chars) s =
      .next ((s.tookVar ((chars.length + 1) / 2)).widthResult (BitVec.ofNat 32 (0x10000000 + chars.length)) font chars)

/-- R251: TTWIDTH is the pen advance of TTTEXT: a string drawn in one piece is its first part, then its second part
from where TTWIDTH of the first says the pen is. -/
def Obligations.WidthIsThePenAdvance : Prop :=
  ∀ (font : Word) (x x' y fg bg : Half) (first second : List Half) (s t u : State),
    s.quiet → s.ready = true → s.err = 0 → (first ++ second).length < 65536 →
    (first.length + 1) / 2 + (second.length + 1) / 2 ≤ s.fifo.length →
    exec (.tttext font x y fg bg first) s = .next t → t.err = 0 →
    exec (.ttwidth font first) s = .next u →
    x'.toInt = x.toInt + u.result.toNat →
    ∃ v w, exec (.tttext font x' y fg bg second) t = .next v ∧
      exec (.tttext font x y fg bg (first ++ second)) s = .next w ∧
      v.trace = w.trace ∧ v.err = w.err ∧ v.erraddr = w.erraddr ∧ v.pins = w.pins

/-- R248: a character's index is the least whose map entry is its code; it is unmapped exactly when none is. -/
def Obligations.LookupFindsTheLeastIndex : Prop :=
  ∀ (s : State) (f : FontV) (c : Nat),
    (∀ i, f.index s c = some i ↔
      (i < f.maplen ∧ s.assetRead (f.map + 2 * i) 2 = c ∧ ∀ j < i, s.assetRead (f.map + 2 * j) 2 ≠ c)) ∧
    (f.index s c = none ↔ ∀ i < f.maplen, s.assetRead (f.map + 2 * i) 2 ≠ c)

/-- R254 with R252, R253, R241: BITMAP, its encoding, its checks in order, its silent skips and its one blit. -/
def Obligations.BitmapDrawsItsFrame : Prop :=
  ∀ (desc : Word) (x y : Half) (index : Word) (s : State), s.quiet →
    encode (.bitmap desc x y index) = [0x11000000, desc, x ++ y, index] ∧
    (s.ready = true → exec (.bitmap desc x y index) s =
      .next (s.bitmapResult 0x11000000 desc x y index)) ∧
    (s.ready = false → exec (.bitmap desc x y index) s = .next (s.failed .uninit 0x11000000 0))

/-! ### Memory and the output port (20_memory.md) -/

/-- R53, R12: a multi-byte field has its most significant byte at the lowest address, and bit `k` is counted from the
most significant bit of its byte. -/
def Obligations.AssetReadsAreBigEndian : Prop :=
  ∀ (s : State) (a n : Nat),
    s.assetRead a n =
      ((List.range n).map fun j => (s.assetByte (a + j)).toNat * 256 ^ (n - 1 - j)).sum ∧
    ∀ k, s.assetBit a k = (s.assetByte (a + k / 8)).toNat.testBit (7 - k % 8)

/-- R52, R65: a byte the platform loads inside asset memory is what the memory holds from then on, every other byte as
before, in canonical form; the engine reads it where no command in the stream races for it (none does when the engine
was not busy and no earlier load raced), and otherwise, of every byte, the value of now or one that a racing load
replaced (log entry 10). No other step changes asset memory. Outside asset memory there is no byte: the load faults
(the model's choice, log entry 12). -/
def Obligations.OnlyThePlatformWritesAssets : Prop :=
  (∀ (s : State) (addr : Nat) (v : Byte) (rest : List PlatformInput),
    s.platform = { wait := 0, access := .loadAsset addr v } :: rest → Memory.wf s.assets = true →
    (addr < s.assetSize → ∃ t, step s = .next t ∧ Memory.wf t.assets = true ∧
      Memory.read t.assets addr = v ∧
      (∀ a, a ≠ addr → Memory.read t.assets a = Memory.read s.assets a) ∧
      (s.busy = false → (∀ r ∈ s.stale, r.addr ≠ addr) → t.assetByte addr = v) ∧
      (s.busy = true → { addr := addr, old := Memory.read s.assets addr, words := s.fifo.length } ∈ t.stale) ∧
      t.trace = s.trace ∧ t.platform = rest) ∧
    (s.assetSize ≤ addr → step s = .fault .assetOutside)) ∧
  (∀ (s : State) (a : Nat),
    ((∀ r ∈ s.stale, r.addr ≠ a) → s.assetByte a = Memory.read s.assets a) ∧
    (s.assetByte a = Memory.read s.assets a ∨ ∃ r ∈ s.stale, r.addr = a ∧ s.assetByte a = r.old)) ∧
  ∀ (s t : State), step s = .next t →
    (∀ addr v rest, s.platform ≠ { wait := 0, access := .loadAsset addr v } :: rest) →
    t.assets = s.assets

/-- R57: the wires of each event, a byte's bits from the most significant on, and the levels an event leaves. -/
def Obligations.WiresOfEachEvent : Prop :=
  (∀ c, (Event.cmd c).wire = [.csN false, .dc false, .shift c, .csN true]) ∧
  (∀ c d, (Event.cmdData c d).wire =
    .csN false :: .dc false :: .shift c :: .dc true :: (d.map WireAct.shift ++ [.csN true])) ∧
  (∀ d, (Event.data d).wire = .csN false :: .dc true :: (d.map WireAct.shift ++ [.csN true])) ∧
  (∀ l, (Event.pinRst l).wire = [.rstN l]) ∧ (∀ ms, (Event.wait ms).wire = []) ∧
  (∀ b k, k < 8 → (serialBits b)[k]? = some (b.getLsbD (7 - k))) ∧
  ∀ (p : Pins) (e : Event),
    p.after e =
      match e with
      | .cmd _ => { p with csN := true, dc := false }
      | .cmdData _ _ | .data _ => { p with csN := true, dc := true }
      | .pinRst l => { p with rstN := l }
      | .wait _ => p

/-- R58, R333: a port that never accepts leaves the engine where it is for ever: nothing is emitted, no word consumed,
and BUSY stays 1. -/
def Obligations.StalledPortHangs : Prop :=
  ∀ (s : State) (rest : List Hold) (n : Nat),
    s.host = [] → s.platform = [] → s.inFlight = true → s.phase = .exec → s.halted = false →
    s.port = .forever :: rest →
    steps n s = .next s ∧ s.status.getLsbD 0 = true

/-- R64 (c), (e), R58, R290: host reads that fall inside a command and holds of the port, at any times, change nothing
of what the command does; it ends in the state it would have ended in undisturbed. -/
def Obligations.InterferenceIsInvisible : Prop :=
  ∀ (i : Instr) (s t u : State), s.harmless → s.inFlight = false → s.srstPending = false →
    s.halted = false → varCount i ≤ s.fifo.length → exec i s.inside = .next u → exec i s = .next t →
    ∃ k t', steps k t = .next t' ∧ t'.todo = [] ∧ t'.inside = u

/-! ### The host's window (10_state.md, 20_memory.md) -/

/-- R36..R47: what a read of each offset returns. -/
def Obligations.RegisterReads : Prop :=
  ∀ (s : State),
    s.readReg 0x00 = 0 ∧ s.readReg 0x0C = 0 ∧
    (s.readReg 0x04).toNat =
      s.err.toNat * 256 + s.halted.toNat * 8 + s.ready.toNat * 4 +
        (decide (s.fifo.length = s.cfg.fifoDepth)).toNat * 2 +
        (decide ((s.phase = .exec ∨ s.fifo ≠ []) ∧ s.halted = false)).toNat ∧
    s.readReg 0x08 = s.result ∧
    (s.readReg 0x10).toNat = s.width.toNat * 65536 + s.height.toNat ∧
    (s.readReg 0x14).toNat = s.nativeW.toNat * 65536 + s.nativeH.toNat ∧
    (s.readReg 0x18).toNat = s.xstart.toNat * 65536 + s.ystart.toNat ∧
    (s.readReg 0x1C).toNat = s.rot.toNat ∧
    s.readReg 0x20 = s.errhdr ∧ s.readReg 0x24 = s.erraddr ∧ s.readReg 0x28 = 0x52424501 ∧
    ∀ off ∈ [0x2C, 0x30, 0x34, 0x38, 0x3C], s.readReg off = 0

/-- R61, R51: a read has no side effect but that its value is returned; a write to an offset other than CMD and CTRL is
ignored; an access that is not an aligned 32-bit one inside the window is refused. -/
def Obligations.HostAccessesOutsideCmdAndCtrl : Prop :=
  ∀ (s : State) (off : Nat) (bytes : Nat) (v : Word) (rest : List HostInput), s.platformDue = false →
    ((bytes = 4 ∧ off % 4 = 0 ∧ off < 64) →
      s.host = { wait := 0, access := .read bytes off } :: rest →
      step s = .next { s with host := rest, reads := s.reads ++ [(off, s.readReg off)] }) ∧
    ((bytes = 4 ∧ off % 4 = 0 ∧ off < 64 ∧ off ≠ 0x00 ∧ off ≠ 0x0C) →
      s.host = { wait := 0, access := .write bytes off v } :: rest → step s = .next { s with host := rest }) ∧
    (¬(bytes = 4 ∧ off % 4 = 0 ∧ off < 64) →
      (s.host = { wait := 0, access := .read bytes off } :: rest ∨
        s.host = { wait := 0, access := .write bytes off v } :: rest) →
      step s = .refused .hostAccess)

/-- R30, R36: a write to CMD appends its word where the FIFO has room, and has no step while the FIFO is full. R39,
R287: ERRCLR clears the error record at once and touches nothing else, not HALTED and not the command under way; a
CTRL write with neither bit set does nothing. -/
def Obligations.CmdWritesAndErrclr : Prop :=
  ∀ (s : State) (v : Word) (rest : List HostInput), s.platformDue = false →
    (s.host = { wait := 0, access := .write 4 0x00 v } :: rest →
      (s.fifo.length < s.cfg.fifoDepth → step s = .next { s with host := rest, fifo := s.fifo ++ [v] }) ∧
      (s.cfg.fifoDepth ≤ s.fifo.length → step s = engine s)) ∧
    (s.host = { wait := 0, access := .write 4 0x0C v } :: rest → v.getLsbD 1 = false →
      (v.getLsbD 0 = true → step s = .next { s with host := rest, err := 0, errhdr := 0, erraddr := 0 }) ∧
      (v.getLsbD 0 = false → step s = .next { s with host := rest }))

/-- R321 (1), (2), R39: on a boundary an SRST write acts at once. While an event is in progress it is pending, and the
ERRCLR of the same write acts at once all the same; when the port has accepted the event, it joins the trace, and then
the reset acts. What the reset leaves is said by `SoftResetValues`. -/
def Obligations.SoftResetActsAtTheBoundary : Prop :=
  ∀ (s : State) (v : Word) (rest : List HostInput), s.platformDue = false →
    s.host = { wait := 0, access := .write 4 0x0C v } :: rest → v.getLsbD 1 = true →
    (s.inFlight = false → step s = .next ({ s with host := rest } : State).softReset) ∧
    (s.inFlight = true → step s = .next
      { s with
        host := rest
        srstPending := true
        err := if v.getLsbD 0 then 0 else s.err
        errhdr := if v.getLsbD 0 then 0 else s.errhdr
        erraddr := if v.getLsbD 0 then 0 else s.erraddr }) ∧
    ∀ (e : Event) (acts : List Action) (p : State),
      p.inFlight = true → p.srstPending = true → p.todo = .emit e :: acts →
      p.port = [] ∨ (∃ holds, p.port = .ticks 0 :: holds) → p.envDue = false →
      step p = .next
        ({ p.emitAll [e] with inFlight := false, port := p.port.tail, todo := acts } : State).tick.softReset

/-- R48, R321 (3): what a soft reset leaves. -/
def Obligations.SoftResetValues : Prop :=
  ∀ (s t : State), s.softReset = t →
    (t.cp = 0 ∧ t.nativeW = 0 ∧ t.nativeH = 0 ∧ t.rot = 0 ∧ t.width = 0 ∧ t.height = 0 ∧ t.xstart = 0 ∧
      t.ystart = 0) ∧
    (t.ready = false ∧ t.halted = false ∧ t.err = 0 ∧ t.errhdr = 0 ∧ t.erraddr = 0 ∧ t.result = 0) ∧
    (t.fifo = [] ∧ t.phase = .idle ∧ t.srstPending = false) ∧
    t.pins = { csN := true, dc := true, rstN := true } ∧
    t.trace = s.trace ++ (if s.pins.rstN then [] else [.pinRst true]) ∧
    t.todo = [] ∧ t.pkt = [] ∧ t.inFlight = false ∧
    t.assets = s.assets ∧ t.cfg = s.cfg ∧ t.host = s.host ∧ t.platform = s.platform ∧ t.port = s.port

/-- R48, R320: the state right after reset, in every field the spec gives a value, and what a power-on reset of the
platform leaves when it is due: the same values, whatever the engine was doing, an event in progress included. -/
def Obligations.ResetValues : Prop :=
  (∀ (s t : State) (rest : List PlatformInput),
    s.platform = { wait := 0, access := .powerOn } :: rest → step s = .next t → t.isReset ∧ t.platform = rest) ∧
  (∀ (s : State) (rest : List PlatformInput),
    s.platform = { wait := 0, access := .powerOn } :: rest → ∃ t, step s = .next t) ∧
  State.reset.isReset

/-! ### Frames (10_state.md, 43_expand.md) -/

/-- No command, undisturbed or not, touches asset memory, the parameters, the record of the host's reads or a pending
soft reset, or the words of any packet but its own (R52, R7, R30, R39): of the FIFO it pops at most its characters or
payload, and the command pointer counts them (R21); the trace only grows (R284). -/
def Obligations.CommandsLeaveMemoryAlone : Prop :=
  ∀ (i : Instr) (s t : State), exec i s = .next t →
    t.assets = s.assets ∧ (∀ a, s.assetByte a = t.assetByte a) ∧ t.cfg = s.cfg ∧
      (∃ k, k ≤ varCount i ∧ t.fifo = s.fifo.drop k ∧
        t.cp = s.cp + BitVec.ofNat 32 k) ∧
      t.pkt = s.pkt ∧ t.reads = s.reads ∧ t.srstPending = s.srstPending ∧
      s.trace <+: t.trace

/-- Which commands write which registers, undisturbed or not (R22..R29, R124, R126, R175, R283, R285): INIT the whole
configuration, SETROT the rotation and the extent, SETORG the origin, RGB565 and TTWIDTH the result; an error already
recorded stays; only an illegal header halts; only a fill writes the transfer buffer. -/
def Obligations.RegistersAreWrittenByTheirCommands : Prop :=
  ∀ (i : Instr) (s t : State), exec i s = .next t →
    ((∀ v nw nh, i ≠ .init v nw nh) →
      (t.nativeW = s.nativeW ∧ t.nativeH = s.nativeH ∧ t.ready = s.ready) ∧
      ((∀ v, i ≠ .setrot v) → t.rot = s.rot ∧ t.width = s.width ∧ t.height = s.height) ∧
      ((∀ xs ys, i ≠ .setorg xs ys) → t.xstart = s.xstart ∧ t.ystart = s.ystart)) ∧
    ((∀ r g b, i ≠ .rgb565 r g b) → (∀ font chars, i ≠ .ttwidth font chars) → t.result = s.result) ∧
    (s.err ≠ 0 → t.err = s.err ∧ t.errhdr = s.errhdr ∧ t.erraddr = s.erraddr) ∧
    (illegalOpcode (opcode (headerOf i)) = false → t.halted = s.halted) ∧
    (opcode (headerOf i) ∉ [0x01, 0x04, 0x05, 0x06, 0x07, 0x08, 0x09, 0x0A, 0x0B, 0x0C] →
      t.tbuf = s.tbuf)

/-! ### The invariant -/

/-- Every step keeps the invariant `State.Inv`: the canonical form of asset memory and its bounds, the FIFO's bound, the
consistency of the error record, no WAIT of 0, chip select high between transactions, and the engine's own
bookkeeping. -/
def Obligations.EveryStepKeepsTheInvariant : Prop :=
  ∀ (s t : State), s.Inv → step s = .next t → t.Inv

/-- The state after reset meets the invariant. -/
def Obligations.ResetMeetsTheInvariant : Prop := State.reset.Inv

/-- No command stops the machine, and a step stops only at an access of the environment that is due: a load outside
asset memory, which faults (R52), or a host access that is not an aligned 32-bit one inside the window, which is refused
(R51; both stops are the model's, log entry 12). -/
def Obligations.CommandsNeverStopTheMachine : Prop :=
  (∀ (i : Instr) (s : State), ∃ t, exec i s = .next t) ∧
  (∀ (s : State), s.envDue = false → ∃ t, step s = .next t) ∧
  ∀ (s : State), (∃ t, step s = .next t) ∨
    (step s = .fault .assetOutside ∧ s.platformDue = true ∧
      ∃ n addr v rest, s.platform = { wait := n, access := .loadAsset addr v } :: rest ∧ s.assetSize ≤ addr) ∨
    (step s = .refused .hostAccess ∧ s.platformDue = false ∧ s.hostDue = true ∧
      ∃ n a bytes off rest, s.host = { wait := n, access := a } :: rest ∧
        (a = .read bytes off ∨ ∃ v, a = .write bytes off v) ∧ ¬(bytes = 4 ∧ off % 4 = 0 ∧ off < 64))

/-! ### The reference panel observer (20_memory.md R66) -/

/-- Under the reference observer an accepted FILLRECT inside the panel, its origin not wrapping, paints each pixel of
its rectangle once, row by row, at the coordinates offset by the origin (R66, R166, R163). -/
def Obligations.FilledRectangleIsPainted : Prop :=
  ∀ (x y w h color : Half) (s t : State), s.quiet → s.ready = true →
    0 ≤ x.toInt → 0 ≤ y.toInt → 0 < w.toNat → 0 < h.toNat →
    x.toInt + w.toNat ≤ s.width.toNat → y.toInt + h.toNat ≤ s.height.toNat →
    s.xstart.toNat + s.width.toNat ≤ 65535 → s.ystart.toNat + s.height.toNat ≤ 65535 →
    exec (.fillrect x y w h color) s = .next t →
    (Panel.ofTrace t.trace).writes = (Panel.ofTrace s.trace).writes ++
      (List.range h.toNat).flatMap fun (j : Nat) =>
        (List.range w.toNat).map fun (i : Nat) =>
          (((x.toInt + s.xstart.toNat + i).toNat, (y.toInt + s.ystart.toNat + j).toNat), color)

end
end

