-- ==== Sys2Proof/Laws/State.lean ====
section
/-! SUPPORT. One lemma per field for each update of the state, so that no proof unfolds a record update. -/

namespace Sys2Proof.Machine

/-! ### emit -/

@[simp] theorem State.emit_cfg (e : Event) (s : State) : (s.emit e).cfg = s.cfg := rfl
@[simp] theorem State.emit_cp (e : Event) (s : State) : (s.emit e).cp = s.cp := rfl
@[simp] theorem State.emit_nativeW (e : Event) (s : State) : (s.emit e).nativeW = s.nativeW := rfl
@[simp] theorem State.emit_nativeH (e : Event) (s : State) : (s.emit e).nativeH = s.nativeH := rfl
@[simp] theorem State.emit_rot (e : Event) (s : State) : (s.emit e).rot = s.rot := rfl
@[simp] theorem State.emit_width (e : Event) (s : State) : (s.emit e).width = s.width := rfl
@[simp] theorem State.emit_height (e : Event) (s : State) : (s.emit e).height = s.height := rfl
@[simp] theorem State.emit_xstart (e : Event) (s : State) : (s.emit e).xstart = s.xstart := rfl
@[simp] theorem State.emit_ystart (e : Event) (s : State) : (s.emit e).ystart = s.ystart := rfl
@[simp] theorem State.emit_ready (e : Event) (s : State) : (s.emit e).ready = s.ready := rfl
@[simp] theorem State.emit_halted (e : Event) (s : State) : (s.emit e).halted = s.halted := rfl
@[simp] theorem State.emit_err (e : Event) (s : State) : (s.emit e).err = s.err := rfl
@[simp] theorem State.emit_errhdr (e : Event) (s : State) : (s.emit e).errhdr = s.errhdr := rfl
@[simp] theorem State.emit_erraddr (e : Event) (s : State) : (s.emit e).erraddr = s.erraddr := rfl
@[simp] theorem State.emit_result (e : Event) (s : State) : (s.emit e).result = s.result := rfl
@[simp] theorem State.emit_fifo (e : Event) (s : State) : (s.emit e).fifo = s.fifo := rfl
@[simp] theorem State.emit_phase (e : Event) (s : State) : (s.emit e).phase = s.phase := rfl
@[simp] theorem State.emit_srstPending (e : Event) (s : State) : (s.emit e).srstPending = s.srstPending := rfl
@[simp] theorem State.emit_pins (e : Event) (s : State) : (s.emit e).pins = s.pins.after e := rfl
@[simp] theorem State.emit_tbuf (e : Event) (s : State) : (s.emit e).tbuf = s.tbuf := rfl
@[simp] theorem State.emit_trace (e : Event) (s : State) : (s.emit e).trace = s.trace ++ [e] := rfl
@[simp] theorem State.emit_assets (e : Event) (s : State) : (s.emit e).assets = s.assets := rfl
@[simp] theorem State.emit_pkt (e : Event) (s : State) : (s.emit e).pkt = s.pkt := rfl
@[simp] theorem State.emit_todo (e : Event) (s : State) : (s.emit e).todo = s.todo := rfl
@[simp] theorem State.emit_inFlight (e : Event) (s : State) : (s.emit e).inFlight = s.inFlight := rfl
@[simp] theorem State.emit_host (e : Event) (s : State) : (s.emit e).host = s.host := rfl
@[simp] theorem State.emit_platform (e : Event) (s : State) : (s.emit e).platform = s.platform := rfl
@[simp] theorem State.emit_port (e : Event) (s : State) : (s.emit e).port = s.port := rfl
@[simp] theorem State.emit_reads (e : Event) (s : State) : (s.emit e).reads = s.reads := rfl
@[simp] theorem State.emit_stale (e : Event) (s : State) : (s.emit e).stale = s.stale := rfl
@[simp] theorem State.emit_loads (e : Event) (s : State) : (s.emit e).loads = s.loads := rfl

/-! ### enter -/

@[simp] theorem State.enter_cfg (s : State) : s.enter.cfg = s.cfg := rfl
@[simp] theorem State.enter_cp (s : State) : s.enter.cp = s.cp := rfl
@[simp] theorem State.enter_nativeW (s : State) : s.enter.nativeW = s.nativeW := rfl
@[simp] theorem State.enter_nativeH (s : State) : s.enter.nativeH = s.nativeH := rfl
@[simp] theorem State.enter_rot (s : State) : s.enter.rot = s.rot := rfl
@[simp] theorem State.enter_width (s : State) : s.enter.width = s.width := rfl
@[simp] theorem State.enter_height (s : State) : s.enter.height = s.height := rfl
@[simp] theorem State.enter_xstart (s : State) : s.enter.xstart = s.xstart := rfl
@[simp] theorem State.enter_ystart (s : State) : s.enter.ystart = s.ystart := rfl
@[simp] theorem State.enter_ready (s : State) : s.enter.ready = s.ready := rfl
@[simp] theorem State.enter_halted (s : State) : s.enter.halted = s.halted := rfl
@[simp] theorem State.enter_err (s : State) : s.enter.err = s.err := rfl
@[simp] theorem State.enter_errhdr (s : State) : s.enter.errhdr = s.errhdr := rfl
@[simp] theorem State.enter_erraddr (s : State) : s.enter.erraddr = s.erraddr := rfl
@[simp] theorem State.enter_result (s : State) : s.enter.result = s.result := rfl
@[simp] theorem State.enter_fifo (s : State) : s.enter.fifo = s.fifo := rfl
@[simp] theorem State.enter_phase (s : State) : s.enter.phase = Phase.exec := rfl
@[simp] theorem State.enter_srstPending (s : State) : s.enter.srstPending = s.srstPending := rfl
@[simp] theorem State.enter_pins (s : State) : s.enter.pins = s.pins := rfl
@[simp] theorem State.enter_tbuf (s : State) : s.enter.tbuf = s.tbuf := rfl
@[simp] theorem State.enter_trace (s : State) : s.enter.trace = s.trace := rfl
@[simp] theorem State.enter_assets (s : State) : s.enter.assets = s.assets := rfl
@[simp] theorem State.enter_pkt (s : State) : s.enter.pkt = s.pkt := rfl
@[simp] theorem State.enter_todo (s : State) : s.enter.todo = s.todo := rfl
@[simp] theorem State.enter_inFlight (s : State) : s.enter.inFlight = s.inFlight := rfl
@[simp] theorem State.enter_host (s : State) : s.enter.host = s.host := rfl
@[simp] theorem State.enter_platform (s : State) : s.enter.platform = s.platform := rfl
@[simp] theorem State.enter_port (s : State) : s.enter.port = s.port := rfl
@[simp] theorem State.enter_reads (s : State) : s.enter.reads = s.reads := rfl
@[simp] theorem State.enter_stale (s : State) : s.enter.stale = s.stale := rfl
@[simp] theorem State.enter_loads (s : State) : s.enter.loads = s.loads := rfl

/-! ### emitAll -/

@[simp] theorem State.emitAll_cfg (evs : List Event) (s : State) : (s.emitAll evs).cfg = s.cfg := rfl
@[simp] theorem State.emitAll_cp (evs : List Event) (s : State) : (s.emitAll evs).cp = s.cp := rfl
@[simp] theorem State.emitAll_nativeW (evs : List Event) (s : State) : (s.emitAll evs).nativeW = s.nativeW := rfl
@[simp] theorem State.emitAll_nativeH (evs : List Event) (s : State) : (s.emitAll evs).nativeH = s.nativeH := rfl
@[simp] theorem State.emitAll_rot (evs : List Event) (s : State) : (s.emitAll evs).rot = s.rot := rfl
@[simp] theorem State.emitAll_width (evs : List Event) (s : State) : (s.emitAll evs).width = s.width := rfl
@[simp] theorem State.emitAll_height (evs : List Event) (s : State) : (s.emitAll evs).height = s.height := rfl
@[simp] theorem State.emitAll_xstart (evs : List Event) (s : State) : (s.emitAll evs).xstart = s.xstart := rfl
@[simp] theorem State.emitAll_ystart (evs : List Event) (s : State) : (s.emitAll evs).ystart = s.ystart := rfl
@[simp] theorem State.emitAll_ready (evs : List Event) (s : State) : (s.emitAll evs).ready = s.ready := rfl
@[simp] theorem State.emitAll_halted (evs : List Event) (s : State) : (s.emitAll evs).halted = s.halted := rfl
@[simp] theorem State.emitAll_err (evs : List Event) (s : State) : (s.emitAll evs).err = s.err := rfl
@[simp] theorem State.emitAll_errhdr (evs : List Event) (s : State) : (s.emitAll evs).errhdr = s.errhdr := rfl
@[simp] theorem State.emitAll_erraddr (evs : List Event) (s : State) : (s.emitAll evs).erraddr = s.erraddr := rfl
@[simp] theorem State.emitAll_result (evs : List Event) (s : State) : (s.emitAll evs).result = s.result := rfl
@[simp] theorem State.emitAll_fifo (evs : List Event) (s : State) : (s.emitAll evs).fifo = s.fifo := rfl
@[simp] theorem State.emitAll_phase (evs : List Event) (s : State) : (s.emitAll evs).phase = s.phase := rfl
@[simp] theorem State.emitAll_srstPending (evs : List Event) (s : State) :
    (s.emitAll evs).srstPending = s.srstPending := rfl
@[simp] theorem State.emitAll_pins (evs : List Event) (s : State) :
    (s.emitAll evs).pins = evs.foldl Pins.after s.pins := rfl
@[simp] theorem State.emitAll_tbuf (evs : List Event) (s : State) : (s.emitAll evs).tbuf = s.tbuf := rfl
@[simp] theorem State.emitAll_trace (evs : List Event) (s : State) : (s.emitAll evs).trace = s.trace ++ evs := rfl
@[simp] theorem State.emitAll_assets (evs : List Event) (s : State) : (s.emitAll evs).assets = s.assets := rfl
@[simp] theorem State.emitAll_pkt (evs : List Event) (s : State) : (s.emitAll evs).pkt = s.pkt := rfl
@[simp] theorem State.emitAll_todo (evs : List Event) (s : State) : (s.emitAll evs).todo = s.todo := rfl
@[simp] theorem State.emitAll_inFlight (evs : List Event) (s : State) : (s.emitAll evs).inFlight = s.inFlight := rfl
@[simp] theorem State.emitAll_host (evs : List Event) (s : State) : (s.emitAll evs).host = s.host := rfl
@[simp] theorem State.emitAll_platform (evs : List Event) (s : State) : (s.emitAll evs).platform = s.platform := rfl
@[simp] theorem State.emitAll_port (evs : List Event) (s : State) : (s.emitAll evs).port = s.port := rfl
@[simp] theorem State.emitAll_reads (evs : List Event) (s : State) : (s.emitAll evs).reads = s.reads := rfl
@[simp] theorem State.emitAll_stale (evs : List Event) (s : State) : (s.emitAll evs).stale = s.stale := rfl
@[simp] theorem State.emitAll_loads (evs : List Event) (s : State) : (s.emitAll evs).loads = s.loads := rfl

/-! ### endCommand -/

@[simp] theorem State.endCommand_cfg (s : State) : (s.endCommand).cfg = s.cfg := rfl
@[simp] theorem State.endCommand_cp (s : State) : (s.endCommand).cp = s.cp := rfl
@[simp] theorem State.endCommand_nativeW (s : State) : (s.endCommand).nativeW = s.nativeW := rfl
@[simp] theorem State.endCommand_nativeH (s : State) : (s.endCommand).nativeH = s.nativeH := rfl
@[simp] theorem State.endCommand_rot (s : State) : (s.endCommand).rot = s.rot := rfl
@[simp] theorem State.endCommand_width (s : State) : (s.endCommand).width = s.width := rfl
@[simp] theorem State.endCommand_height (s : State) : (s.endCommand).height = s.height := rfl
@[simp] theorem State.endCommand_xstart (s : State) : (s.endCommand).xstart = s.xstart := rfl
@[simp] theorem State.endCommand_ystart (s : State) : (s.endCommand).ystart = s.ystart := rfl
@[simp] theorem State.endCommand_ready (s : State) : (s.endCommand).ready = s.ready := rfl
@[simp] theorem State.endCommand_halted (s : State) : (s.endCommand).halted = s.halted := rfl
@[simp] theorem State.endCommand_err (s : State) : (s.endCommand).err = s.err := rfl
@[simp] theorem State.endCommand_errhdr (s : State) : (s.endCommand).errhdr = s.errhdr := rfl
@[simp] theorem State.endCommand_erraddr (s : State) : (s.endCommand).erraddr = s.erraddr := rfl
@[simp] theorem State.endCommand_result (s : State) : (s.endCommand).result = s.result := rfl
@[simp] theorem State.endCommand_fifo (s : State) : (s.endCommand).fifo = s.fifo := rfl
@[simp] theorem State.endCommand_phase (s : State) : (s.endCommand).phase = .idle := rfl
@[simp] theorem State.endCommand_srstPending (s : State) : (s.endCommand).srstPending = s.srstPending := rfl
@[simp] theorem State.endCommand_pins (s : State) : (s.endCommand).pins = s.pins := rfl
@[simp] theorem State.endCommand_tbuf (s : State) : (s.endCommand).tbuf = s.tbuf := rfl
@[simp] theorem State.endCommand_trace (s : State) : (s.endCommand).trace = s.trace := rfl
@[simp] theorem State.endCommand_assets (s : State) : (s.endCommand).assets = s.assets := rfl
@[simp] theorem State.endCommand_pkt (s : State) : (s.endCommand).pkt = s.pkt := rfl
@[simp] theorem State.endCommand_todo (s : State) : (s.endCommand).todo = [] := rfl
@[simp] theorem State.endCommand_inFlight (s : State) : (s.endCommand).inFlight = s.inFlight := rfl
@[simp] theorem State.endCommand_host (s : State) : (s.endCommand).host = s.host := rfl
@[simp] theorem State.endCommand_platform (s : State) : (s.endCommand).platform = s.platform := rfl
@[simp] theorem State.endCommand_port (s : State) : (s.endCommand).port = s.port := rfl
@[simp] theorem State.endCommand_reads (s : State) : (s.endCommand).reads = s.reads := rfl
@[simp] theorem State.endCommand_stale (s : State) : (s.endCommand).stale = s.stale := rfl
@[simp] theorem State.endCommand_loads (s : State) : (s.endCommand).loads = s.loads := rfl

/-! ### tick -/

@[simp] theorem State.tick_cfg (s : State) : (s.tick).cfg = s.cfg := rfl
@[simp] theorem State.tick_cp (s : State) : (s.tick).cp = s.cp := rfl
@[simp] theorem State.tick_nativeW (s : State) : (s.tick).nativeW = s.nativeW := rfl
@[simp] theorem State.tick_nativeH (s : State) : (s.tick).nativeH = s.nativeH := rfl
@[simp] theorem State.tick_rot (s : State) : (s.tick).rot = s.rot := rfl
@[simp] theorem State.tick_width (s : State) : (s.tick).width = s.width := rfl
@[simp] theorem State.tick_height (s : State) : (s.tick).height = s.height := rfl
@[simp] theorem State.tick_xstart (s : State) : (s.tick).xstart = s.xstart := rfl
@[simp] theorem State.tick_ystart (s : State) : (s.tick).ystart = s.ystart := rfl
@[simp] theorem State.tick_ready (s : State) : (s.tick).ready = s.ready := rfl
@[simp] theorem State.tick_halted (s : State) : (s.tick).halted = s.halted := rfl
@[simp] theorem State.tick_err (s : State) : (s.tick).err = s.err := rfl
@[simp] theorem State.tick_errhdr (s : State) : (s.tick).errhdr = s.errhdr := rfl
@[simp] theorem State.tick_erraddr (s : State) : (s.tick).erraddr = s.erraddr := rfl
@[simp] theorem State.tick_result (s : State) : (s.tick).result = s.result := rfl
@[simp] theorem State.tick_fifo (s : State) : (s.tick).fifo = s.fifo := rfl
@[simp] theorem State.tick_phase (s : State) : (s.tick).phase = s.phase := rfl
@[simp] theorem State.tick_srstPending (s : State) : (s.tick).srstPending = s.srstPending := rfl
@[simp] theorem State.tick_pins (s : State) : (s.tick).pins = s.pins := rfl
@[simp] theorem State.tick_tbuf (s : State) : (s.tick).tbuf = s.tbuf := rfl
@[simp] theorem State.tick_trace (s : State) : (s.tick).trace = s.trace := rfl
@[simp] theorem State.tick_assets (s : State) : (s.tick).assets = s.assets := rfl
@[simp] theorem State.tick_pkt (s : State) : (s.tick).pkt = s.pkt := rfl
@[simp] theorem State.tick_todo (s : State) : (s.tick).todo = s.todo := rfl
@[simp] theorem State.tick_inFlight (s : State) : (s.tick).inFlight = s.inFlight := rfl
@[simp] theorem State.tick_port (s : State) : (s.tick).port = s.port := rfl
@[simp] theorem State.tick_reads (s : State) : (s.tick).reads = s.reads := rfl
@[simp] theorem State.tick_stale (s : State) : (s.tick).stale = s.stale := rfl
@[simp] theorem State.tick_loads (s : State) : (s.tick).loads = s.loads := rfl

/-! ### pop -/

@[simp] theorem State.pop_cfg (n : Nat) (s : State) : (s.pop n).cfg = s.cfg := rfl
@[simp] theorem State.pop_cp (n : Nat) (s : State) : (s.pop n).cp = s.cp + BitVec.ofNat 32 n := rfl
@[simp] theorem State.pop_nativeW (n : Nat) (s : State) : (s.pop n).nativeW = s.nativeW := rfl
@[simp] theorem State.pop_nativeH (n : Nat) (s : State) : (s.pop n).nativeH = s.nativeH := rfl
@[simp] theorem State.pop_rot (n : Nat) (s : State) : (s.pop n).rot = s.rot := rfl
@[simp] theorem State.pop_width (n : Nat) (s : State) : (s.pop n).width = s.width := rfl
@[simp] theorem State.pop_height (n : Nat) (s : State) : (s.pop n).height = s.height := rfl
@[simp] theorem State.pop_xstart (n : Nat) (s : State) : (s.pop n).xstart = s.xstart := rfl
@[simp] theorem State.pop_ystart (n : Nat) (s : State) : (s.pop n).ystart = s.ystart := rfl
@[simp] theorem State.pop_ready (n : Nat) (s : State) : (s.pop n).ready = s.ready := rfl
@[simp] theorem State.pop_halted (n : Nat) (s : State) : (s.pop n).halted = s.halted := rfl
@[simp] theorem State.pop_err (n : Nat) (s : State) : (s.pop n).err = s.err := rfl
@[simp] theorem State.pop_errhdr (n : Nat) (s : State) : (s.pop n).errhdr = s.errhdr := rfl
@[simp] theorem State.pop_erraddr (n : Nat) (s : State) : (s.pop n).erraddr = s.erraddr := rfl
@[simp] theorem State.pop_result (n : Nat) (s : State) : (s.pop n).result = s.result := rfl
@[simp] theorem State.pop_fifo (n : Nat) (s : State) : (s.pop n).fifo = s.fifo.drop n := rfl
@[simp] theorem State.pop_phase (n : Nat) (s : State) : (s.pop n).phase = s.phase := rfl
@[simp] theorem State.pop_srstPending (n : Nat) (s : State) : (s.pop n).srstPending = s.srstPending := rfl
@[simp] theorem State.pop_pins (n : Nat) (s : State) : (s.pop n).pins = s.pins := rfl
@[simp] theorem State.pop_tbuf (n : Nat) (s : State) : (s.pop n).tbuf = s.tbuf := rfl
@[simp] theorem State.pop_trace (n : Nat) (s : State) : (s.pop n).trace = s.trace := rfl
@[simp] theorem State.pop_assets (n : Nat) (s : State) : (s.pop n).assets = s.assets := rfl
@[simp] theorem State.pop_pkt (n : Nat) (s : State) : (s.pop n).pkt = s.pkt := rfl
@[simp] theorem State.pop_todo (n : Nat) (s : State) : (s.pop n).todo = s.todo := rfl
@[simp] theorem State.pop_inFlight (n : Nat) (s : State) : (s.pop n).inFlight = s.inFlight := rfl
@[simp] theorem State.pop_host (n : Nat) (s : State) : (s.pop n).host = s.host := rfl
@[simp] theorem State.pop_platform (n : Nat) (s : State) : (s.pop n).platform = s.platform := rfl
@[simp] theorem State.pop_port (n : Nat) (s : State) : (s.pop n).port = s.port := rfl
@[simp] theorem State.pop_reads (n : Nat) (s : State) : (s.pop n).reads = s.reads := rfl
@[simp] theorem State.pop_stale (n : Nat) (s : State) :
    (s.pop n).stale = s.stale.map fun t => { t with words := t.words - n } := rfl
@[simp] theorem State.pop_loads (n : Nat) (s : State) : (s.pop n).loads = s.loads := rfl

/-! ### loadAsset -/

@[simp] theorem State.loadAsset_cfg (a : Nat) (v : Byte) (s : State) : (s.loadAsset a v).cfg = s.cfg := rfl
@[simp] theorem State.loadAsset_cp (a : Nat) (v : Byte) (s : State) : (s.loadAsset a v).cp = s.cp := rfl
@[simp] theorem State.loadAsset_nativeW (a : Nat) (v : Byte) (s : State) : (s.loadAsset a v).nativeW = s.nativeW := rfl
@[simp] theorem State.loadAsset_nativeH (a : Nat) (v : Byte) (s : State) : (s.loadAsset a v).nativeH = s.nativeH := rfl
@[simp] theorem State.loadAsset_rot (a : Nat) (v : Byte) (s : State) : (s.loadAsset a v).rot = s.rot := rfl
@[simp] theorem State.loadAsset_width (a : Nat) (v : Byte) (s : State) : (s.loadAsset a v).width = s.width := rfl
@[simp] theorem State.loadAsset_height (a : Nat) (v : Byte) (s : State) : (s.loadAsset a v).height = s.height := rfl
@[simp] theorem State.loadAsset_xstart (a : Nat) (v : Byte) (s : State) : (s.loadAsset a v).xstart = s.xstart := rfl
@[simp] theorem State.loadAsset_ystart (a : Nat) (v : Byte) (s : State) : (s.loadAsset a v).ystart = s.ystart := rfl
@[simp] theorem State.loadAsset_ready (a : Nat) (v : Byte) (s : State) : (s.loadAsset a v).ready = s.ready := rfl
@[simp] theorem State.loadAsset_halted (a : Nat) (v : Byte) (s : State) : (s.loadAsset a v).halted = s.halted := rfl
@[simp] theorem State.loadAsset_err (a : Nat) (v : Byte) (s : State) : (s.loadAsset a v).err = s.err := rfl
@[simp] theorem State.loadAsset_errhdr (a : Nat) (v : Byte) (s : State) : (s.loadAsset a v).errhdr = s.errhdr := rfl
@[simp] theorem State.loadAsset_erraddr (a : Nat) (v : Byte) (s : State) : (s.loadAsset a v).erraddr = s.erraddr := rfl
@[simp] theorem State.loadAsset_result (a : Nat) (v : Byte) (s : State) : (s.loadAsset a v).result = s.result := rfl
@[simp] theorem State.loadAsset_fifo (a : Nat) (v : Byte) (s : State) : (s.loadAsset a v).fifo = s.fifo := rfl
@[simp] theorem State.loadAsset_phase (a : Nat) (v : Byte) (s : State) : (s.loadAsset a v).phase = s.phase := rfl
@[simp] theorem State.loadAsset_srstPending (a : Nat) (v : Byte) (s : State) :
    (s.loadAsset a v).srstPending = s.srstPending := rfl
@[simp] theorem State.loadAsset_pins (a : Nat) (v : Byte) (s : State) : (s.loadAsset a v).pins = s.pins := rfl
@[simp] theorem State.loadAsset_tbuf (a : Nat) (v : Byte) (s : State) : (s.loadAsset a v).tbuf = s.tbuf := rfl
@[simp] theorem State.loadAsset_trace (a : Nat) (v : Byte) (s : State) : (s.loadAsset a v).trace = s.trace := rfl
@[simp] theorem State.loadAsset_assets (a : Nat) (v : Byte) (s : State) :
    (s.loadAsset a v).assets = Memory.write s.assets a v := rfl
@[simp] theorem State.loadAsset_pkt (a : Nat) (v : Byte) (s : State) : (s.loadAsset a v).pkt = s.pkt := rfl
@[simp] theorem State.loadAsset_todo (a : Nat) (v : Byte) (s : State) : (s.loadAsset a v).todo = s.todo := rfl
@[simp] theorem State.loadAsset_inFlight (a : Nat) (v : Byte) (s : State) :
    (s.loadAsset a v).inFlight = s.inFlight := rfl
@[simp] theorem State.loadAsset_host (a : Nat) (v : Byte) (s : State) : (s.loadAsset a v).host = s.host := rfl
@[simp] theorem State.loadAsset_platform (a : Nat) (v : Byte) (s : State) :
    (s.loadAsset a v).platform = s.platform := rfl
@[simp] theorem State.loadAsset_port (a : Nat) (v : Byte) (s : State) : (s.loadAsset a v).port = s.port := rfl
@[simp] theorem State.loadAsset_reads (a : Nat) (v : Byte) (s : State) : (s.loadAsset a v).reads = s.reads := rfl
@[simp] theorem State.loadAsset_loads (a : Nat) (v : Byte) (s : State) : (s.loadAsset a v).loads = s.loads + 1 := rfl

/-! ### softReset -/

@[simp] theorem State.softReset_cfg (s : State) : s.softReset.cfg = s.cfg := rfl
@[simp] theorem State.softReset_cp (s : State) : s.softReset.cp = 0 := rfl
@[simp] theorem State.softReset_nativeW (s : State) : s.softReset.nativeW = 0 := rfl
@[simp] theorem State.softReset_nativeH (s : State) : s.softReset.nativeH = 0 := rfl
@[simp] theorem State.softReset_rot (s : State) : s.softReset.rot = 0 := rfl
@[simp] theorem State.softReset_width (s : State) : s.softReset.width = 0 := rfl
@[simp] theorem State.softReset_height (s : State) : s.softReset.height = 0 := rfl
@[simp] theorem State.softReset_xstart (s : State) : s.softReset.xstart = 0 := rfl
@[simp] theorem State.softReset_ystart (s : State) : s.softReset.ystart = 0 := rfl
@[simp] theorem State.softReset_ready (s : State) : s.softReset.ready = false := rfl
@[simp] theorem State.softReset_halted (s : State) : s.softReset.halted = false := rfl
@[simp] theorem State.softReset_err (s : State) : s.softReset.err = 0 := rfl
@[simp] theorem State.softReset_errhdr (s : State) : s.softReset.errhdr = 0 := rfl
@[simp] theorem State.softReset_erraddr (s : State) : s.softReset.erraddr = 0 := rfl
@[simp] theorem State.softReset_result (s : State) : s.softReset.result = 0 := rfl
@[simp] theorem State.softReset_fifo (s : State) : s.softReset.fifo = [] := rfl
@[simp] theorem State.softReset_phase (s : State) : s.softReset.phase = .idle := rfl
@[simp] theorem State.softReset_srstPending (s : State) : s.softReset.srstPending = false := rfl
@[simp] theorem State.softReset_pins (s : State) : s.softReset.pins = { csN := true, dc := true, rstN := true } := rfl
@[simp] theorem State.softReset_tbuf (s : State) : s.softReset.tbuf = Vector.replicate 1024 0 := rfl
@[simp] theorem State.softReset_trace (s : State) :
    s.softReset.trace = if s.pins.rstN then s.trace else s.trace ++ [.pinRst true] := rfl
@[simp] theorem State.softReset_assets (s : State) : s.softReset.assets = s.assets := rfl
@[simp] theorem State.softReset_pkt (s : State) : s.softReset.pkt = [] := rfl
@[simp] theorem State.softReset_todo (s : State) : s.softReset.todo = [] := rfl
@[simp] theorem State.softReset_inFlight (s : State) : s.softReset.inFlight = false := rfl
@[simp] theorem State.softReset_host (s : State) : s.softReset.host = s.host := rfl
@[simp] theorem State.softReset_platform (s : State) : s.softReset.platform = s.platform := rfl
@[simp] theorem State.softReset_port (s : State) : s.softReset.port = s.port := rfl
@[simp] theorem State.softReset_reads (s : State) : s.softReset.reads = s.reads := rfl
@[simp] theorem State.softReset_stale (s : State) : s.softReset.stale = [] := rfl
@[simp] theorem State.softReset_loads (s : State) : s.softReset.loads = s.loads := rfl

/-! ### powerOn -/

@[simp] theorem State.powerOn_cfg (s : State) : s.powerOn.cfg = s.cfg := rfl
@[simp] theorem State.powerOn_cp (s : State) : s.powerOn.cp = 0 := rfl
@[simp] theorem State.powerOn_nativeW (s : State) : s.powerOn.nativeW = 0 := rfl
@[simp] theorem State.powerOn_nativeH (s : State) : s.powerOn.nativeH = 0 := rfl
@[simp] theorem State.powerOn_rot (s : State) : s.powerOn.rot = 0 := rfl
@[simp] theorem State.powerOn_width (s : State) : s.powerOn.width = 0 := rfl
@[simp] theorem State.powerOn_height (s : State) : s.powerOn.height = 0 := rfl
@[simp] theorem State.powerOn_xstart (s : State) : s.powerOn.xstart = 0 := rfl
@[simp] theorem State.powerOn_ystart (s : State) : s.powerOn.ystart = 0 := rfl
@[simp] theorem State.powerOn_ready (s : State) : s.powerOn.ready = false := rfl
@[simp] theorem State.powerOn_halted (s : State) : s.powerOn.halted = false := rfl
@[simp] theorem State.powerOn_err (s : State) : s.powerOn.err = 0 := rfl
@[simp] theorem State.powerOn_errhdr (s : State) : s.powerOn.errhdr = 0 := rfl
@[simp] theorem State.powerOn_erraddr (s : State) : s.powerOn.erraddr = 0 := rfl
@[simp] theorem State.powerOn_result (s : State) : s.powerOn.result = 0 := rfl
@[simp] theorem State.powerOn_fifo (s : State) : s.powerOn.fifo = [] := rfl
@[simp] theorem State.powerOn_phase (s : State) : s.powerOn.phase = .idle := rfl
@[simp] theorem State.powerOn_srstPending (s : State) : s.powerOn.srstPending = false := rfl
@[simp] theorem State.powerOn_pins (s : State) : s.powerOn.pins = { csN := true, dc := true, rstN := true } := rfl
@[simp] theorem State.powerOn_tbuf (s : State) : s.powerOn.tbuf = Vector.replicate 1024 0 := rfl
@[simp] theorem State.powerOn_trace (s : State) : s.powerOn.trace = [] := rfl
@[simp] theorem State.powerOn_assets (s : State) : s.powerOn.assets = s.assets := rfl
@[simp] theorem State.powerOn_pkt (s : State) : s.powerOn.pkt = [] := rfl
@[simp] theorem State.powerOn_todo (s : State) : s.powerOn.todo = [] := rfl
@[simp] theorem State.powerOn_inFlight (s : State) : s.powerOn.inFlight = false := rfl
@[simp] theorem State.powerOn_host (s : State) : s.powerOn.host = s.host := rfl
@[simp] theorem State.powerOn_platform (s : State) : s.powerOn.platform = s.platform := rfl
@[simp] theorem State.powerOn_port (s : State) : s.powerOn.port = if s.inFlight then s.port.tail else s.port := rfl
@[simp] theorem State.powerOn_reads (s : State) : s.powerOn.reads = s.reads := rfl
@[simp] theorem State.powerOn_stale (s : State) : s.powerOn.stale = [] := rfl
@[simp] theorem State.powerOn_loads (s : State) : s.powerOn.loads = s.loads := rfl

end Sys2Proof.Machine
end

