-- ==== Sys2Proof/Laws/Memory.lean ====
section
/-! SUPPORT. Asset memory: a read after a write, and the canonical form, which every memory operation keeps. -/

namespace Sys2Proof.Machine

/-- Reading where a byte was just stored gives it. -/
theorem Memory.read_write_same (m : Memory) (x : Nat) (v : Byte)
    (hm : m.Pairwise fun c d => c.1 < d.1) : Memory.read (Memory.write m x v) x = v := by
  induction m with
  | nil =>
    simp only [Memory.write]
    split
    · rename_i h; rw [h]; rfl
    · simp [Memory.read]
  | cons c rest ih =>
    obtain ⟨a, b⟩ := c
    have above : ∀ (r : Memory), (∀ d ∈ r, x < d.1) → Memory.read r x = 0 := by
      intro r hr
      induction r with
      | nil => rfl
      | cons d r ihr =>
        have hd := hr d (by simp)
        simp only [Memory.read]
        rw [if_neg (by omega)]
        exact ihr fun d hd => hr d (by simp [hd])
    rw [List.pairwise_cons] at hm
    simp only [Memory.write]
    split
    · rename_i hxa
      split
      · rename_i hv
        rw [hv]
        exact above _ (by
          intro d hd
          rcases List.mem_cons.1 hd with rfl | hd
          · exact hxa
          · have := hm.1 d hd; omega)
      · simp [Memory.read]
    · split
      · rename_i hxa
        split
        · rename_i hv
          rw [hv]
          exact above _ (by intro d hd; have := hm.1 d hd; omega)
        · simp [Memory.read, hxa]
      · simp only [Memory.read]
        rw [if_neg (by omega)]
        exact ih hm.2

/-- Reading anywhere else gives what it gave before. -/
theorem Memory.read_write_other (m : Memory) (x y : Nat) (v : Byte) (h : y ≠ x)
    (hm : m.Pairwise fun c d => c.1 < d.1) : Memory.read (Memory.write m x v) y = Memory.read m y := by
  induction m with
  | nil =>
    simp only [Memory.write]
    split
    · rfl
    · simp [Memory.read, Ne.symm h]
  | cons c rest ih =>
    obtain ⟨a, b⟩ := c
    rw [List.pairwise_cons] at hm
    simp only [Memory.write]
    split
    · split
      · rfl
      · simp [Memory.read, Ne.symm h]
    · split
      · rename_i hxa
        have hay : a ≠ y := by omega
        split <;> simp [Memory.read, hay]
      · simp only [Memory.read]
        split
        · rfl
        · exact ih hm.2

/-- Every byte listed after a store was listed before or is the stored one, which is not 0x00. -/
theorem Memory.mem_write {m : Memory} {x : Nat} {v : Byte} {c : Host.Cell}
    (hc : c ∈ Memory.write m x v) : c ∈ m ∨ (c = (x, v) ∧ v ≠ 0) := by
  induction m with
  | nil =>
    simp only [Memory.write] at hc
    split at hc
    · exact absurd hc (List.not_mem_nil)
    · exact .inr ⟨List.mem_singleton.1 hc, ‹_›⟩
  | cons d rest ih =>
    obtain ⟨a, b⟩ := d
    simp only [Memory.write] at hc
    split at hc
    · split at hc
      · exact .inl hc
      · rename_i hv
        rcases List.mem_cons.1 hc with rfl | hc
        · exact .inr ⟨rfl, hv⟩
        · exact .inl hc
    · split at hc
      · rename_i hxa
        split at hc
        · exact .inl (List.mem_cons_of_mem _ hc)
        · rename_i hv
          rcases List.mem_cons.1 hc with rfl | hc
          · exact .inr ⟨by rw [hxa], hv⟩
          · exact .inl (List.mem_cons_of_mem _ hc)
      · rcases List.mem_cons.1 hc with rfl | hc
        · exact .inl (List.mem_cons_self ..)
        · rcases ih hc with h | h
          · exact .inl (List.mem_cons_of_mem _ h)
          · exact .inr h

/-- A store keeps the addresses strictly rising. -/
theorem Memory.write_pairwise (m : Memory) (x : Nat) (v : Byte)
    (hm : m.Pairwise fun c d => c.1 < d.1) :
    (Memory.write m x v).Pairwise fun c d => c.1 < d.1 := by
  induction m with
  | nil =>
    simp only [Memory.write]
    split <;> simp
  | cons d rest ih =>
    obtain ⟨a, b⟩ := d
    have hm' := hm
    rw [List.pairwise_cons] at hm
    simp only [Memory.write]
    split
    · rename_i hxa
      split
      · exact hm'
      · refine List.pairwise_cons.2 ⟨?_, hm'⟩
        intro d hd
        rcases List.mem_cons.1 hd with rfl | hd
        · exact hxa
        · have := hm.1 d hd; simp only at this ⊢; omega
    · split
      · split
        · exact hm.2
        · exact List.pairwise_cons.2 ⟨hm.1, hm.2⟩
      · refine List.pairwise_cons.2 ⟨?_, ih hm.2⟩
        intro d hd
        rcases Memory.mem_write hd with hd | ⟨rfl, -⟩
        · exact hm.1 d hd
        · simp only; omega

/-- A store keeps the canonical form. -/
theorem Memory.write_wf (m : Memory) (x : Nat) (v : Byte) (hm : Memory.wf m = true) :
    Memory.wf (Memory.write m x v) = true := by
  simp only [Memory.wf, Bool.and_eq_true, decide_eq_true_eq, List.all_eq_true, bne_iff_ne] at hm ⊢
  refine ⟨Memory.write_pairwise m x v hm.1, fun c hc => ?_⟩
  rcases Memory.mem_write hc with hc | ⟨rfl, hv⟩
  · exact hm.2 c hc
  · exact hv

/-- The memory after reset has the canonical form. -/
theorem State.reset_assets_wf : Memory.wf State.reset.assets = true := rfl

/-- Where no byte is racing, the engine reads asset memory. -/
theorem State.assetByte_of_no_race (s : State) (h : s.stale = []) (a : Nat) :
    s.assetByte a = Memory.read s.assets a := by
  simp [State.assetByte, h]

/-- What the engine reads of asset memory depends on its bytes, the loads and the racing bytes, their words apart. -/
theorem State.assetByte_congr {s t : State} (ha : s.assets = t.assets) (hl : s.loads = t.loads)
    (hs : (s.stale.map fun r => (r.addr, r.old)) = t.stale.map fun r => (r.addr, r.old)) :
    s.assetByte = t.assetByte := by
  funext a
  have h : ∀ l : List Stale, (l.filterMap fun r => if r.addr = a then some r.old else none) =
      (l.map fun r => (r.addr, r.old)).filterMap fun p => if p.1 = a then some p.2 else none := fun l => by
    rw [List.filterMap_map]; rfl
  simp only [State.assetByte, h, hs, ha, hl]

/-- What `AssetRead` reads depends on the bytes alone. -/
theorem State.assetRead_congr {s t : State} (h : s.assetByte = t.assetByte) :
    s.assetRead = t.assetRead := by
  funext a n
  simp [State.assetRead, h]

end Sys2Proof.Machine
end

