-- ==== Sys2Proof/Laws/Drain.lean ====
section
/-! SUPPORT. What `drain` can do, said once: in a quiet environment it is the actions one after the other; in any
environment it keeps what every action and every change of the control fields keeps. -/

namespace Sys2Proof.Machine

/-! ### Quiet environments -/

/-- With nothing to come of the environment, a tick changes nothing. -/
theorem State.tick_of_quiet {s : State} (hh : s.host = []) (hp : s.platform = []) : s.tick = s := by
  cases s
  simp only at hh hp
  subst hh hp
  rfl

/-- With nothing to come of the environment, nothing is due. -/
theorem State.envDue_of_quiet {s : State} (hh : s.host = []) (hp : s.platform = []) :
    s.envDue = false := by
  simp [State.envDue, State.hostDue, State.platformDue, hh, hp]

/-- Recording an error touches nothing of the environment. -/
theorem State.record_env (e : ErrKind) (hdr : Word) (addr : Nat) (s : State) :
    (s.record e hdr addr).host = s.host ∧ (s.record e hdr addr).platform = s.platform ∧
      (s.record e hdr addr).port = s.port := by
  unfold State.record
  split <;> exact ⟨rfl, rfl, rfl⟩

/-- Events, one after the other, are their list at once. -/
theorem State.foldl_emit (evs : List Event) (s : State) :
    evs.foldl (fun t e => t.emit e) s = s.emitAll evs := by
  induction evs generalizing s with
  | nil => cases s; simp [State.emitAll]
  | cons e evs ih => rw [List.foldl_cons, ih]; simp [State.emitAll, State.emit]

/-- A blit unit is its events. -/
theorem Action.apply_blit (window : List Event) (b : Blit) (s : State) :
    (Action.blit window b).apply s = s.emitAll (unitEvents window b s) := State.foldl_emit _ s

/-- An action leaves a quiet environment quiet. -/
theorem Action.apply_quiet {a : Action} {s : State} (h : s.quiet) : (a.apply s).quiet := by
  cases a with
  | halt hdr =>
    obtain ⟨h1, h2, h3⟩ := State.record_env .opcode hdr 0 s
    exact ⟨h1.trans h.1, h2.trans h.2.1, h3.trans h.2.2⟩
  | blit window b => rw [Action.apply_blit]; exact h
  | _ => exact h

/-- All of some actions, one after the other. -/
def applyAll (acts : List Action) (s : State) : State := acts.foldl (fun s a => a.apply s) s

@[simp] theorem applyAll_nil (s : State) : applyAll [] s = s := rfl

@[simp] theorem applyAll_cons (a : Action) (acts : List Action) (s : State) :
    applyAll (a :: acts) s = applyAll acts (a.apply s) := rfl

theorem applyAll_append (acts more : List Action) (s : State) :
    applyAll (acts ++ more) s = applyAll more (applyAll acts s) := by
  simp [applyAll]

theorem applyAll_quiet (acts : List Action) {s : State} (h : s.quiet) : (applyAll acts s).quiet := by
  induction acts generalizing s with
  | nil => exact h
  | cons a acts ih => exact ih (Action.apply_quiet h)

/-- Sending events before some actions is performing them as actions before those. -/
theorem State.sendAll_eq_drain (k : TextRun → State → State) (evs : List Event) (rest : List Action) :
    State.sendAll evs rest (drain k rest) = drain k (evs.map .emit ++ rest) := by
  induction evs with
  | nil => rfl
  | cons e evs ih =>
    funext s
    simp only [State.sendAll, ih, List.map_cons, List.cons_append, drain]

/-- Nothing of the environment is due: the unfolding of `drain` at its first action. A blit unit's pixels are read, and
its events are then actions like any other. -/
theorem drain_cons_free (k : TextRun → State → State) (a : Action) (rest : List Action) {s : State}
    (h : s.envDue = false) :
    drain k (a :: rest) s =
      (match a with
      | .emit e => s.offer e (a :: rest) (drain k rest)
      | .blit window b => drain k ((unitEvents window b s).map .emit ++ rest) s
      | .raise e hdr addr words => s.raise e hdr addr words
      | .skip m => skipWords m s
      | .payload _ _ => { s with todo := a :: rest }
      | .text r => k r s
      | _ => drain k rest (a.apply s).tick) := by
  cases a <;> simp only [drain, h, Bool.false_eq_true, if_false, State.sendAll_eq_drain]

/-- An access is due: everything waits for the next step. -/
theorem drain_cons_due (k : TextRun → State → State) (a : Action) (rest : List Action) {s : State}
    (h : s.envDue = true) : drain k (a :: rest) s = { s with todo := a :: rest } := by
  cases a <;> simp only [drain, h, if_true]

/-- In a quiet environment the port accepts an event at once. -/
theorem State.offer_quiet (e : Event) (acts : List Action) (go : State → State) {s : State} (h : s.quiet) :
    s.offer e acts go = go (s.emit e) := by
  rw [State.offer, h.2.2]
  exact congrArg go (State.tick_of_quiet h.1 h.2.1)

/-- Events in a quiet environment. -/
theorem drain_emits_quiet (k : TextRun → State → State) (evs : List Event) (rest : List Action) {s : State}
    (h : s.quiet) : drain k (evs.map .emit ++ rest) s = drain k rest (evs.foldl (fun t e => t.emit e) s) := by
  induction evs generalizing s with
  | nil => rfl
  | cons e evs ih =>
    rw [List.map_cons, List.cons_append, drain_cons_free k _ _ (State.envDue_of_quiet h.1 h.2.1), List.foldl_cons]
    exact (State.offer_quiet e _ _ h).trans (ih h)

/-- One simple action in a quiet environment. -/
theorem drain_cons_quiet (k : TextRun → State → State) (a : Action) (rest : List Action) {s : State}
    (h : s.quiet) (ha : a.simple = true) :
    drain k (a :: rest) s = drain k rest (a.apply s) := by
  have hq : (a.apply s).quiet := Action.apply_quiet h
  have ht : (a.apply s).tick = a.apply s := State.tick_of_quiet hq.1 hq.2.1
  rw [drain_cons_free k _ _ (State.envDue_of_quiet h.1 h.2.1)]
  cases a with
  | emit e => exact State.offer_quiet e _ _ h
  | blit window b => exact drain_emits_quiet k _ rest h
  | raise => cases ha
  | skip => cases ha
  | payload => cases ha
  | text => cases ha
  | _ => simp only [ht]

/-- Simple actions in a quiet environment. -/
theorem drain_append_quiet (k : TextRun → State → State) (acts rest : List Action) {s : State}
    (h : s.quiet) (ha : ∀ a ∈ acts, a.simple = true) :
    drain k (acts ++ rest) s = drain k rest (applyAll acts s) := by
  induction acts generalizing s with
  | nil => rfl
  | cons a acts ih =>
    rw [List.cons_append, drain_cons_quiet k a _ h (ha a (by simp)), applyAll_cons]
    exact ih (Action.apply_quiet h) fun b hb => ha b (by simp [hb])

/-- A command whose actions are all simple runs to its end in a quiet environment. -/
theorem drain_quiet (k : TextRun → State → State) (acts : List Action) {s : State} (h : s.quiet)
    (ha : ∀ a ∈ acts, a.simple = true) : drain k acts s = (applyAll acts s).endCommand := by
  have := drain_append_quiet k acts [] h ha
  rwa [List.append_nil] at this

/-! ### Words -/

theorem State.tookWords_zero {rest : List Word} {s : State} (h : s.fifo = rest) : s.tookWords 0 rest = s := by
  cases s
  simp only at h
  subst h
  simp [State.tookWords]

theorem State.tookWords_add (m n : Nat) (mid rest : List Word) (s : State) :
    (s.tookWords m mid).tookWords n rest = s.tookWords (m + n) rest := by
  simp [State.tookWords, Nat.sub_add_eq, BitVec.add_assoc, BitVec.ofNat_add, Function.comp_def]

/-- Popping is taking words. -/
theorem State.pop_eq_tookWords {n : Nat} {rest : List Word} {s : State} (h : s.fifo.drop n = rest) :
    s.pop n = s.tookWords n rest := by
  simp [State.pop, State.tookWords, h]

/-- Words of a packet, one after the other. -/
theorem State.tookVar_add (m n : Nat) (s : State) : (s.tookVar m).tookVar n = s.tookVar (m + n) := by
  simp only [State.tookVar, State.tookWords_add]
  simp [State.tookWords, List.drop_drop]

/-- Taking no word changes nothing. -/
@[simp] theorem State.tookVar_zero (s : State) : s.tookVar 0 = s := State.tookWords_zero rfl

/-- Popping one word. -/
theorem State.pop_one (s : State) : s.pop 1 = s.tookVar 1 := State.pop_eq_tookWords rfl

/-- Several pops. -/
theorem applyAll_pops (n : Nat) (s : State) : applyAll (List.replicate n .pop) s = s.tookVar n := by
  induction n generalizing s with
  | zero => simp
  | succ n ih =>
    rw [List.replicate_succ, applyAll_cons, ih, Action.apply, State.pop_one, State.tookVar_add, Nat.add_comm]

/-- Skipping in a quiet environment: the words that are there, and the rest waits. -/
theorem skipWords_quiet (m : Nat) {s : State} (hh : s.host = []) (hp : s.platform = []) :
    skipWords m s =
      { s.tookVar (min m s.fifo.length) with
        todo := if min m s.fifo.length = m then [] else [.skip (m - min m s.fifo.length)]
        phase := if min m s.fifo.length = m then .idle else s.phase } := by
  induction m generalizing s with
  | zero => simp [skipWords, State.endCommand]
  | succ m ih =>
    rw [skipWords, State.envDue_of_quiet hh hp, Bool.false_or]
    cases hf : s.fifo with
    | nil => cases s; simp only at hf; subst hf; simp
    | cons w rest =>
      rw [List.isEmpty_cons, if_neg (by simp),
        show (s.pop 1).tick = s.pop 1 from State.tick_of_quiet hh hp, ih (s := s.pop 1) hh hp]
      have hl : (s.pop 1).fifo.length = rest.length := by simp [hf]
      have hm : min (m + 1) (w :: rest).length = min m rest.length + 1 := by simp
      rw [hl, hm, State.pop_one, State.tookVar_add, Nat.add_comm 1]
      simp only [Nat.add_left_inj, Nat.add_sub_add_right]
      rfl

/-- Skipping words that are all there. -/
theorem skipWords_all {m : Nat} {s : State} (hh : s.host = []) (hp : s.platform = []) (hm : m ≤ s.fifo.length) :
    skipWords m s = (s.tookVar m).endCommand := by
  rw [skipWords_quiet m hh hp, Nat.min_eq_left hm]
  simp [State.endCommand]

/-- Recording and popping touch different fields. -/
theorem State.record_tookWords (e : ErrKind) (hdr : Word) (addr n : Nat) (rest : List Word) (s : State) :
    (s.tookWords n rest).record e hdr addr = (s.record e hdr addr).tookWords n rest := by
  unfold State.record
  by_cases h : s.err = 0
  · rw [if_pos (show (s.tookWords n rest).err = 0 from h), if_pos h]; rfl
  · rw [if_neg (show ¬(s.tookWords n rest).err = 0 from h), if_neg h]

/-- Recording leaves the FIFO. -/
@[simp] theorem State.record_fifo (e : ErrKind) (hdr : Word) (addr : Nat) (s : State) :
    (s.record e hdr addr).fifo = s.fifo := by
  unfold State.record
  split <;> rfl

/-- A raise in a quiet environment, the words it skips being there (60_exceptions.md R284). -/
theorem State.raise_quiet (e : ErrKind) (hdr : Word) (addr m : Nat) {s : State} (h : s.quiet)
    (hm : m ≤ s.fifo.length) : s.raise e hdr addr m = (s.tookVar m).failed e hdr addr := by
  obtain ⟨h1, h2, -⟩ := State.record_env e hdr addr s
  have ht : (s.record e hdr addr).tick = s.record e hdr addr :=
    State.tick_of_quiet (h1.trans h.1) (h2.trans h.2.1)
  rw [State.raise, ht, skipWords_all (h1.trans h.1) (h2.trans h.2.1) (by simpa using hm), State.failed]
  simp only [State.tookVar, State.record_tookWords, State.record_fifo]

/-- A raise in a quiet environment is what `drain` does with it. -/
theorem drain_raise_quiet (k : TextRun → State → State) (e : ErrKind) (hdr : Word) (addr m : Nat)
    (rest : List Action) {s : State} (h : s.quiet) (hm : m ≤ s.fifo.length) :
    drain k (.raise e hdr addr m :: rest) s = (s.tookVar m).failed e hdr addr := by
  rw [drain_cons_free k _ _ (State.envDue_of_quiet h.1 h.2.1)]
  exact State.raise_quiet e hdr addr m h hm

/-- A text command goes on in a quiet environment. -/
theorem drain_text_quiet (k : TextRun → State → State) (r : TextRun) (rest : List Action)
    {s : State} (h : s.quiet) : drain k (.text r :: rest) s = k r s := by
  rw [drain_cons_free k _ _ (State.envDue_of_quiet h.1 h.2.1)]

/-! ### Errors -/

theorem State.record_enter (e : ErrKind) (hdr : Word) (addr : Nat) (s : State) :
    s.enter.record e hdr addr = (s.record e hdr addr).enter := by
  unfold State.record
  by_cases h : s.err = 0
  · rw [if_pos (show s.enter.err = 0 from h), if_pos h]; rfl
  · rw [if_neg (show ¬s.enter.err = 0 from h), if_neg h]

@[simp] theorem State.endCommand_enter (s : State) : s.enter.endCommand = s.endCommand := rfl

/-- A failed command leaves EXEC, so entering it before makes no difference. -/
theorem State.failed_enter (e : ErrKind) (hdr : Word) (addr : Nat) (s : State) :
    s.enter.failed e hdr addr = s.failed e hdr addr := by
  simp [State.failed, State.record_enter]

/-! ### Events -/

/-- Events, one after the other, are their list at once. -/
theorem applyAll_emits (evs : List Event) (s : State) :
    applyAll (evs.map .emit) s = s.emitAll evs := by
  induction evs generalizing s with
  | nil => cases s; simp [State.emitAll]
  | cons e evs ih =>
    rw [List.map_cons, applyAll_cons, ih]
    simp [State.emitAll, Action.apply, State.emit]

/-- Popping changes nothing of what the engine reads. -/
@[simp] theorem State.assetByte_pop (n : Nat) (s : State) : (s.pop n).assetByte = s.assetByte :=
  State.assetByte_congr rfl rfl (by simp [Function.comp_def])

@[simp] theorem State.assetByte_tookWords (n : Nat) (rest : List Word) (s : State) :
    (s.tookWords n rest).assetByte = s.assetByte :=
  State.assetByte_congr rfl rfl (by simp [State.tookWords, Function.comp_def])

/-- The pixels of a blit depend on the bytes the engine reads. -/
theorem Blit.bytes_congr {s t : State} (h : s.assetByte = t.assetByte) (b : Blit) : b.bytes s = b.bytes t := by
  have hb : s.assetBit = t.assetBit := by funext a k; simp [State.assetBit, h]
  have hr : s.assetRead = t.assetRead := by funext a n; simp [State.assetRead, h]
  cases b <;> simp [Blit.bytes, stripData, vglyphData, Bmp.frameData, Bmp.pixelIndex, hb, hr]

/-- So do the events of a unit. -/
theorem unitEvents_congr {s t : State} (h : s.assetByte = t.assetByte) (window : List Event) (b : Blit) :
    unitEvents window b s = unitEvents window b t := by
  rw [unitEvents, unitEvents, Blit.bytes_congr h]

/-- The events that an action is, where it is nothing else. -/
def Action.events (s : State) : Action → List Event
  | .emit e => [e]
  | .blit window b => unitEvents window b s
  | _ => []

/-- An action that is events and nothing else. -/
def Action.isOut : Action → Bool
  | .emit _ | .blit _ _ => true
  | _ => false

/-- Actions that are events, one after the other, are the list of their events at once. -/
theorem applyAll_events (acts : List Action) (s : State) (h : ∀ a ∈ acts, a.isOut = true) :
    applyAll acts s = s.emitAll (acts.flatMap (·.events s)) := by
  induction acts generalizing s with
  | nil => cases s; simp [State.emitAll]
  | cons a acts ih =>
    have ha : a.apply s = s.emitAll (a.events s) := by
      have ho := h a (by simp)
      cases a with
      | emit e => rfl
      | blit window b => exact Action.apply_blit window b s
      | _ => cases ho
    have hc : ∀ evs, (acts.flatMap fun b : Action => b.events (s.emitAll evs)) = acts.flatMap (·.events s) :=
      fun _ => rfl
    rw [applyAll_cons, ha, ih _ fun b hb => h b (by simp [hb]), hc]
    simp [State.emitAll]

@[simp] theorem State.emitAll_nil (s : State) : s.emitAll [] = s := by
  cases s; simp [State.emitAll]

theorem State.emitAll_append (evs more : List Event) (s : State) :
    s.emitAll (evs ++ more) = (s.emitAll evs).emitAll more := by
  simp [State.emitAll]

/-! ### Any environment -/

/-- A property that no change of the control fields and no pop touches. -/
structure CtrlClosed (P : State → Prop) : Prop where
  todo : ∀ s l, P s → P { s with todo := l }
  phase : ∀ s p, P s → P { s with phase := p }
  flight : ∀ s b p, P s → P { s with inFlight := b, pins := p }
  port : ∀ s l, P s → P { s with port := l }
  env : ∀ s h p, P s → P { s with host := h, platform := p }
  pop : ∀ s, P s → P (s.pop 1)

theorem CtrlClosed.tick {P : State → Prop} (h : CtrlClosed P) {s : State} (hs : P s) : P s.tick :=
  h.env s _ _ hs

theorem CtrlClosed.endCommand {P : State → Prop} (h : CtrlClosed P) {s : State} (hs : P s) :
    P s.endCommand := h.phase { s with todo := [] } .idle (h.todo s [] hs)

theorem CtrlClosed.skipWords {P : State → Prop} (h : CtrlClosed P) (m : Nat) {s : State} (hs : P s) :
    P (skipWords m s) := by
  induction m generalizing s with
  | zero => exact h.endCommand hs
  | succ m ih =>
    unfold Machine.skipWords
    split
    · exact h.todo s _ hs
    · exact ih (h.tick (h.pop s hs))

theorem CtrlClosed.raise {P : State → Prop} (h : CtrlClosed P) {e : ErrKind} {hdr : Word}
    {addr m : Nat} {s : State} (hs : P (s.record e hdr addr)) : P (s.raise e hdr addr m) :=
  h.skipWords m (h.tick hs)

theorem CtrlClosed.offer {P : State → Prop} (h : CtrlClosed P) {e : Event} {acts : List Action}
    {go : State → State} (he : ∀ s, P s → P (s.emit e)) (hg : ∀ s, P s → P (go s)) {s : State} (hs : P s) :
    P (s.offer e acts go) := by
  unfold State.offer
  split
  · exact hg _ (h.tick (he s hs))
  · exact hg _ (h.tick (he _ (h.port s _ hs)))
  · exact h.tick (h.flight { s with todo := acts } true (s.pins.during e) (h.todo s acts hs))

/-- What every action of a list keeps, and every change of the control fields, `drain` keeps. -/
theorem drain_preserves {P : State → Prop} (hc : CtrlClosed P) {k : TextRun → State → State}
    (acts : List Action) (hk : ∀ r s, .text r ∈ acts → P s → P (k r s))
    (he : ∀ e s, P s → P (s.emit e))
    (ha : ∀ a ∈ acts, ∀ s, P s → P (a.apply s))
    (hr : ∀ e hdr addr m, Action.raise e hdr addr m ∈ acts → ∀ s, P s → P (s.record e hdr addr))
    {s : State} (hs : P s) : P (drain k acts s) := by
  induction acts generalizing s with
  | nil => exact hc.endCommand hs
  | cons a rest ih =>
    have ih' : ∀ t : State, P t → P (drain k rest t) := fun t ht =>
      ih (fun r s hb => hk r s (by simp [hb])) (fun b hb => ha b (by simp [hb]))
        (fun e hdr addr m hb => hr e hdr addr m (by simp [hb])) ht
    have ha' : ∀ t, P t → P (a.apply t) := ha a (by simp)
    by_cases hd : s.envDue = true
    · rw [drain_cons_due k a rest hd]
      exact hc.todo s (a :: rest) hs
    · rw [drain_cons_free k a rest (by simpa using hd)]
      cases a with
      | emit e => exact hc.offer (he e) ih' hs
      | blit window b =>
        have emits : ∀ (evs : List Event) (t : State), P t → P (drain k (evs.map .emit ++ rest) t) := by
          intro evs
          induction evs with
          | nil => exact ih'
          | cons e evs ihe =>
            intro t ht
            by_cases hd : t.envDue = true
            · rw [List.map_cons, List.cons_append, drain_cons_due k _ _ hd]
              exact hc.todo t _ ht
            · rw [List.map_cons, List.cons_append, drain_cons_free k _ _ (by simpa using hd)]
              exact hc.offer (he e) ihe ht
        exact emits _ s hs
      | raise e hdr addr m => exact hc.raise (hr e hdr addr m (by simp) s hs)
      | skip m => exact hc.skipWords m hs
      | payload got m => exact hc.todo s (.payload got m :: rest) hs
      | text r => exact hk r s (by simp) hs
      | _ => exact ih' _ (hc.tick (ha' s hs))

end Sys2Proof.Machine
end

