-- ==== Sys2Proof/Laws/Blit.lean ====
section
/-! SUPPORT. The window and the fill as events: what the actions of `windowActs` and `fillActs` come to, said once. -/

namespace Sys2Proof.Machine

/-! ### Bytes -/

/-- `be16` in numbers. -/
theorem be16_eq (v : Half) : be16 v = bytesOfNat16 v.toNat := by
  have hv := v.isLt
  simp only [be16, bytesOfNat16, List.cons.injEq, and_true]
  constructor <;> apply BitVec.eq_of_toNat_eq <;>
    simp [BitVec.extractLsb'_toNat, Nat.shiftRight_eq_div_pow]

/-- A sent coordinate in numbers (R163). -/
theorem be16_sentCoord (v : Int) (origin : Half) :
    be16 (sentCoord v origin) = bytesOfNat16 (sentNat v origin) := by
  rw [be16_eq]
  simp [sentCoord, sentNat, BitVec.toNat_ofInt]

/-- `rep` of a colour is a run of pixels. -/
theorem rep_be16 (color : Half) (n : Nat) : rep (be16 color) n = pixelRun color n := by
  simp [rep, pixelRun, be16_eq]

/-! ### The window (R161) -/

/-- The window check is the inequality of R161. -/
theorem windowAccepted_iff (s : State) (x0 y0 x1 y1 : Int) :
    windowAccepted s.geom x0 y0 x1 y1 = true ↔ s.accepts x0 y0 x1 y1 := by
  rw [windowAccepted, decide_eq_true_iff]
  simp only [State.accepts, State.geom]
  tauto

/-- The window's events in numbers (R161). -/
theorem windowOut_eq (s : State) (x0 y0 x1 y1 : Int) : windowOut s.geom x0 y0 x1 y1 = s.windowEvents x0 y0 x1 y1 := by
  unfold windowOut State.windowEvents
  by_cases h : s.accepts x0 y0 x1 y1
  · rw [if_pos ((windowAccepted_iff s x0 y0 x1 y1).2 h), if_pos h]
    simp [be16pair, be16_sentCoord, State.geom]
  · rw [if_neg (fun hw => h ((windowAccepted_iff s x0 y0 x1 y1).1 hw)), if_neg h]

/-- The window's actions are its events. -/
theorem windowActs_eq (s : State) (x0 y0 x1 y1 : Int) :
    windowActs s.geom x0 y0 x1 y1 = (s.windowEvents x0 y0 x1 y1).map .emit := by
  rw [windowActs, windowOut_eq]

/-- What a window sends depends on the extent and the origin alone. -/
theorem State.windowEvents_congr {s t : State} (h : s.geom = t.geom) : s.windowEvents = t.windowEvents := by
  simp only [State.geom, Geometry.mk.injEq] at h
  obtain ⟨h1, h2, h3, h4⟩ := h
  funext x0 y0 x1 y1
  simp [State.windowEvents, State.accepts, h1, h2, h3, h4]

/-! ### The fill (R166) -/

/-- The data transactions of a fill are events. -/
theorem fillData_eq (count : Nat) (color : Half) :
    fillData count color =
      (List.replicate (count / 1024) (Event.data (pixelRun color 1024)) ++
        (if count % 1024 = 0 then [] else [Event.data (pixelRun color (count % 1024))])).map .emit := by
  unfold fillData
  split <;> simp_all [dataAct, rep_be16]

/-- Every action of a fill is one that `drain` performs and goes on. -/
theorem fillActs_simple (g : Geometry) (x y w h : Int) (color : Half) :
    ∀ a ∈ fillActs g x y w h color, a.simple = true := by
  intro a ha
  simp only [fillActs, windowActs, fillData, List.mem_append] at ha
  rcases ha with (ha | ha) | (ha | ha)
  · obtain ⟨e, -, rfl⟩ := List.mem_map.1 ha
    rfl
  · split at ha
    · simp at ha
    · simp only [List.mem_singleton] at ha; subst ha; rfl
  · rw [(List.mem_replicate.1 ha).2]; rfl
  · split at ha
    · simp at ha
    · simp only [List.mem_singleton] at ha; subst ha; rfl

/-- A fill in a quiet environment: its events and the transfer buffer (R166, R175). -/
theorem applyAll_fillActs (s : State) (x y : Int) (w h : Nat) (color : Half) :
    applyAll (fillActs s.geom x y w h color) s =
      { s.emitAll (s.fillEvents x y w h color) with tbuf := tbufAfter color (w * h) s.tbuf } := by
  have hn : ((w : Int) * h).toNat = w * h := by rw [← Nat.cast_mul, Int.toNat_natCast]
  rw [fillActs, hn, windowActs_eq, fillData_eq, applyAll_append, applyAll_append, applyAll_emits,
    applyAll_emits]
  by_cases h0 : w * h = 0
  · simp [h0, State.fillEvents, tbufAfter, State.emitAll]
  · simp [h0, State.fillEvents, tbufAfter, State.emitAll, Action.apply]

/-- What a fill emits depends on the extent and the origin alone. -/
theorem State.fillEvents_congr {s t : State} (h : s.geom = t.geom) : s.fillEvents = t.fillEvents := by
  funext x y w h' color
  simp [State.fillEvents, State.windowEvents_congr h]

/-! ### Several fills (42_raster.md R200) -/

/-- A fill by its arguments. -/
abbrev FillArgs := Int × Int × Nat × Nat

/-- The actions of fills of one colour, one after the other. -/
def fillsActs (g : Geometry) (color : Half) (l : List FillArgs) : List Action :=
  l.flatMap fun a => fillActs g a.1 a.2.1 a.2.2.1 a.2.2.2 color

/-- Their events. -/
def State.fillsEvents (s : State) (color : Half) (l : List FillArgs) : List Event :=
  l.flatMap fun a => s.fillEvents a.1 a.2.1 a.2.2.1 a.2.2.2 color

/-- What fills emit depends on the extent and the origin alone. -/
theorem State.fillsEvents_congr {s t : State} (h : s.geom = t.geom) : s.fillsEvents = t.fillsEvents := by
  funext color l
  simp [State.fillsEvents, State.fillEvents_congr h]

theorem fillsActs_simple (g : Geometry) (color : Half) (l : List FillArgs) :
    ∀ a ∈ fillsActs g color l, a.simple = true := by
  intro a ha
  obtain ⟨b, -, hb⟩ := List.mem_flatMap.1 ha
  exact fillActs_simple _ _ _ _ _ _ a hb

/-- Fills of at least one pixel each, in a quiet environment; only the geometry of `s` enters. -/
theorem applyAll_fillsActs (s : State) (color : Half) (l : List FillArgs)
    (hl : ∀ a ∈ l, a.2.2.1 * a.2.2.2 ≠ 0) (t : State) (ht : t.geom = s.geom) :
    applyAll (fillsActs s.geom color l) t =
      { t.emitAll (s.fillsEvents color l) with
        tbuf := if l = [] then t.tbuf else Vector.replicate 1024 color } := by
  induction l generalizing t with
  | nil => cases t; simp [fillsActs, State.fillsEvents, State.emitAll]
  | cons a l ih =>
    have ha := hl a (by simp)
    have hc : s.fillsEvents color (a :: l) =
      s.fillEvents a.1 a.2.1 a.2.2.1 a.2.2.2 color ++ s.fillsEvents color l := by
      simp [State.fillsEvents]
    have h1 := applyAll_fillActs t a.1 a.2.1 a.2.2.1 a.2.2.2 color
    rw [ht, State.fillEvents_congr ht] at h1
    have hf : fillsActs s.geom color (a :: l) =
      fillActs s.geom a.1 a.2.1 a.2.2.1 a.2.2.2 color ++ fillsActs s.geom color l := by
      simp [fillsActs]
    rw [hf, applyAll_append, h1]
    refine (ih (fun b hb => hl b (by simp [hb]))
      { t.emitAll (s.fillEvents a.1 a.2.1 a.2.2.1 a.2.2.2 color) with
        tbuf := tbufAfter color (a.2.2.1 * a.2.2.2) t.tbuf } ht).trans ?_
    rw [hc]
    cases l with
    | nil => simp [State.emitAll, tbufAfter, ha]
    | cons b l => simp [State.emitAll]

/-- A command that is fills of at least one pixel each, in a quiet environment. -/
theorem start_fillsActs (color : Half) (l : List FillArgs) {s : State} (hq : s.quiet) (hne : l ≠ [])
    (hl : ∀ a ∈ l, a.2.2.1 * a.2.2.2 ≠ 0) :
    s.start (fillsActs s.geom color l) = s.drawn (s.fillsEvents color l) (Vector.replicate 1024 color) := by
  rw [State.start, drain_quiet _ _ (s := s.enter) hq (fillsActs_simple _ _ _),
    applyAll_fillsActs s color l hl s.enter rfl]
  simp [hne, State.drawn, State.endCommand, State.emitAll]

/-- A command that is one fill, in a quiet environment. -/
theorem start_fillActs (x y : Int) (w h : Nat) (color : Half) {s : State} (hq : s.quiet) :
    s.start (fillActs s.geom x y w h color) =
      s.drawn (s.fillEvents x y w h color) (tbufAfter color (w * h) s.tbuf) := by
  have h1 := applyAll_fillActs s.enter x y w h color
  rw [show s.enter.geom = s.geom from rfl, State.fillEvents_congr (show s.enter.geom = s.geom from rfl)] at h1
  rw [State.start, drain_quiet _ _ (s := s.enter) hq (fillActs_simple _ _ _ _ _ _), h1]
  simp [State.drawn, State.endCommand, State.emitAll]

/-- A command whose actions are events, in a quiet environment. -/
theorem start_emits (evs : List Event) {s : State} (hq : s.quiet) :
    s.start (evs.map .emit) = s.drawn evs s.tbuf := by
  rw [State.start, drain_quiet _ _ (s := s.enter) hq
    (by intro a ha; obtain ⟨e, -, rfl⟩ := List.mem_map.1 ha; rfl), applyAll_emits]
  rfl

/-- A command that requires READY, READY set. -/
theorem requireReady_of_ready {hdr : Word} {words : Nat} {acts : List Action} {s : State} (h : s.ready = true) :
    requireReady hdr words acts s = acts := by
  simp [requireReady, h]

/-- A command that requires READY, READY clear, in a quiet environment (60_exceptions.md R282). -/
theorem drain_requireReady_unready {k : TextRun → State → State} {hdr : Word} {words : Nat} {acts : List Action}
    {s : State} (hq : s.quiet) (h : s.ready = false) (hw : words ≤ s.fifo.length) :
    drain k (requireReady hdr words acts s) s.enter = (s.tookVar words).failed .uninit hdr 0 := by
  rw [requireReady, if_neg (by simp [h]), drain_raise_quiet _ _ _ _ _ _ (s := s.enter) hq hw,
    ← State.failed_enter _ _ _ (s.tookVar words)]
  rfl

end Sys2Proof.Machine
end

