-- ==== Sys2Proof/Laws/Fields.lean ====
section
/-! SUPPORT. The fields of the words that the encoder builds: what each selection of 30_encoding.md reads back. -/

namespace Sys2Proof

/-- The bits of a word built from two halves. -/
theorem word2_getLsbD (a b : Half) (i : Nat) :
    (word2 a b).getLsbD i = if i < 16 then b.getLsbD i else a.getLsbD (i - 16) := by
  have h := BitVec.getLsbD_append (x := a) (y := b) (i := i)
  rw [show (word2 a b).getLsbD i = _ from h]

/-- The bits of a word built from four bytes. -/
theorem word4_getLsbD (a b c d : Byte) (i : Nat) :
    (word4 a b c d).getLsbD i =
      if i < 8 then d.getLsbD i else if i < 16 then c.getLsbD (i - 8)
      else if i < 24 then b.getLsbD (i - 16) else a.getLsbD (i - 24) := by
  have h1 : word4 a b c d = word2 (a ++ b : Half) (c ++ d : Half) := rfl
  have h2 : ∀ (x y : Byte) (j : Nat),
      (x ++ y : Half).getLsbD j = if j < 8 then y.getLsbD j else x.getLsbD (j - 8) := by
    intro x y j
    have h := BitVec.getLsbD_append (x := x) (y := y) (i := j)
    simpa [Bool.cond_decide] using h
  rw [h1, word2_getLsbD, h2, h2]
  by_cases h8 : i < 8
  · simp [h8, show i < 16 by omega]
  · by_cases h16 : i < 16
    · simp [h8, h16]
    · by_cases h24 : i < 24
      · simp [h8, h16, h24, show i - 16 < 8 by omega]
      · simp [h8, h16, h24, show ¬i - 16 < 8 by omega, show i - 16 - 8 = i - 24 by omega]

/-- The bits of a header (R81). -/
theorem header_getLsbD (opc : Byte) (arg : BitVec 24) (i : Nat) :
    (header opc arg).getLsbD i = if i < 24 then arg.getLsbD i else opc.getLsbD (i - 24) := by
  have h := BitVec.getLsbD_append (x := opc) (y := arg) (i := i)
  rw [show (header opc arg).getLsbD i = _ from h]

/-- The bits of a 16-bit argument (R95, R98). -/
theorem arg16_getLsbD (v : Half) (i : Nat) : (arg16 v).getLsbD i = v.getLsbD i := by
  have h := BitVec.getLsbD_append (x := (0 : Byte)) (y := v) (i := i)
  rw [show (arg16 v).getLsbD i = _ from h]
  by_cases hi : i < 16
  · simp [hi]
  · simp [hi, BitVec.getLsbD_of_ge v i (by omega)]

/-- Two words with the same bits are the same. -/
theorem eq_of_bits {n : Nat} {x y : BitVec n} (h : ∀ i, i < n → x.getLsbD i = y.getLsbD i) : x = y :=
  BitVec.eq_of_getLsbD_eq h

@[simp] theorem hi16_word2 (a b : Half) : hi16 (word2 a b) = a :=
  eq_of_bits fun i hi => by simp [hi16, word2_getLsbD, hi]

@[simp] theorem lo16_word2 (a b : Half) : lo16 (word2 a b) = b :=
  eq_of_bits fun i hi => by simp [lo16, word2_getLsbD, hi]

@[simp] theorem word2_hi16_lo16 (w : Word) : word2 (hi16 w) (lo16 w) = w :=
  eq_of_bits fun i hi => by
    rw [word2_getLsbD]
    split
    · simp [lo16, *]
    · simp [hi16, show i - 16 < 16 by omega, show 16 + (i - 16) = i by omega]

@[simp] theorem opcOf_header (opc : Byte) (arg : BitVec 24) : opcOf (header opc arg) = opc :=
  eq_of_bits fun i hi => by simp [opcOf, header_getLsbD, hi]

@[simp] theorem argOf_header (opc : Byte) (arg : BitVec 24) : argOf (header opc arg) = arg :=
  eq_of_bits fun i hi => by simp [argOf, header_getLsbD, hi]

@[simp] theorem header_opcOf_argOf (h : Word) : header (opcOf h) (argOf h) = h :=
  eq_of_bits fun i hi => by
    rw [header_getLsbD]
    split
    · simp [argOf, *]
    · simp [opcOf, show i - 24 < 8 by omega, show 24 + (i - 24) = i by omega]

@[simp] theorem opcode_header (opc : Byte) (arg : BitVec 24) : opcode (header opc arg) = opc.toNat := by
  simp [opcode]

/-- Bits 15..0 of a header are those of its argument (R81). -/
theorem lo16_eq_argOf (h : Word) : lo16 h = (argOf h).extractLsb' 0 16 :=
  eq_of_bits fun i hi => by simp [lo16, argOf, hi]

@[simp] theorem lo16_header_arg16 (opc : Byte) (v : Half) : lo16 (header opc (arg16 v)) = v :=
  eq_of_bits fun i hi => by
    rw [lo16, BitVec.getLsbD_extractLsb', Nat.zero_add, header_getLsbD, arg16_getLsbD]
    simp [hi, show i < 24 by omega]

@[simp] theorem on_header (opc : Byte) (on : Bool) : (header opc (argOn on)).getLsbD 0 = on := by
  rw [header_getLsbD]; cases on <;> rfl

@[simp] theorem on_header_getElem (opc : Byte) (on : Bool) : (header opc (argOn on))[0] = on := by
  have h := on_header opc on
  rwa [BitVec.getLsbD_eq_getElem (by omega)] at h

@[simp] theorem reserved_arg16 (v : Half) : (arg16 v).extractLsb' 16 8 = 0 :=
  eq_of_bits fun i hi => by simp [arg16_getLsbD]

@[simp] theorem reserved_argOn (on : Bool) : (argOn on).extractLsb' 1 23 = 0 := by
  cases on <;> rfl

/-- An argument without reserved bits is its 16-bit field (R95, R98). -/
theorem arg16_lo16 (h : Word) (hr : (argOf h).extractLsb' 16 8 = 0) : arg16 (lo16 h) = argOf h :=
  eq_of_bits fun i hi => by
    rw [arg16_getLsbD]
    by_cases h16 : i < 16
    · simp [lo16, argOf, h16, hi]
    · have := congrArg (fun v => v.getLsbD (i - 16)) hr
      simp only [BitVec.getLsbD_extractLsb', show i - 16 < 8 by omega, decide_true, Bool.true_and,
        show 16 + (i - 16) = i by omega] at this
      rw [this, BitVec.getLsbD_of_ge _ _ (by omega)]
      simp

/-- An argument without reserved bits is its `ON` bit (R96). -/
theorem argOn_getLsbD (h : Word) (hr : (argOf h).extractLsb' 1 23 = 0) : argOn (h.getLsbD 0) = argOf h :=
  eq_of_bits fun i hi => by
    have h0 := BitVec.getLsbD_append (x := (0 : BitVec 23)) (y := BitVec.ofBool (h.getLsbD 0)) (i := i)
    rw [show (argOn (h.getLsbD 0)).getLsbD i = _ from h0]
    by_cases h1 : i < 1
    · obtain rfl : i = 0 := by omega
      simp [argOf]
    · have := congrArg (fun v => v.getLsbD (i - 1)) hr
      simp only [BitVec.getLsbD_extractLsb', show i - 1 < 23 by omega, decide_true, Bool.true_and,
        show 1 + (i - 1) = i by omega] at this
      rw [this]
      simp [h1]

/-! ### Characters and payload bytes (R93, R94) -/

/-- The words of a string are half as many as its characters, rounded up (R93). -/
theorem charWords_length : ∀ l : List Half, (charWords l).length = (l.length + 1) / 2
  | [] => rfl
  | [_] => by simp [charWords]
  | _ :: _ :: rest => by
    simp only [charWords, List.length_cons, charWords_length rest]
    omega

/-- The words of a payload are a quarter as many as its bytes, rounded up (R94). -/
theorem dataWords_length : ∀ l : List Byte, (dataWords l).length = (l.length + 3) / 4
  | [] => rfl
  | [_] => by simp [dataWords]
  | [_, _] => by simp [dataWords]
  | [_, _, _] => by simp [dataWords]
  | _ :: _ :: _ :: _ :: rest => by
    simp only [dataWords, List.length_cons, dataWords_length rest]
    omega

@[simp] theorem charsOfWord_word2 (a b : Half) : charsOfWord (word2 a b) = [a, b] := by
  simp [charsOfWord]

@[simp] theorem bytesOfWord_word4 (a b c d : Byte) : bytesOfWord (word4 a b c d) = [a, b, c, d] := by
  simp only [bytesOfWord, List.cons.injEq, and_true]
  refine ⟨?_, ?_, ?_, ?_⟩ <;> refine eq_of_bits fun i hi => ?_ <;>
    simp [word4_getLsbD, hi, show ¬(8 + i < 8) by omega, show 8 + i < 16 by omega,
      show ¬(16 + i < 8) by omega, show ¬(16 + i < 16) by omega, show 16 + i < 24 by omega,
      show ¬(24 + i < 8) by omega, show ¬(24 + i < 16) by omega, show ¬(24 + i < 24) by omega]

/-- The characters of the words of a string are the string and its padding (R93, R102). -/
theorem charsOf_charWords : ∀ l : List Half, ((charWords l).flatMap charsOfWord).take l.length = l
  | [] => rfl
  | [a] => by simp [charWords]
  | a :: b :: rest => by
    simp only [charWords, List.flatMap_cons, charsOfWord_word2, List.length_cons]
    simp [charsOf_charWords rest]

/-- The bytes of the words of a payload are the payload and its padding (R94, R102). -/
theorem bytesOf_dataWords : ∀ l : List Byte, ((dataWords l).flatMap bytesOfWord).take l.length = l
  | [] => rfl
  | [a] => by simp [dataWords]
  | [a, b] => by simp [dataWords]
  | [a, b, c] => by simp [dataWords]
  | a :: b :: c :: d :: rest => by
    simp only [dataWords, List.flatMap_cons, bytesOfWord_word4, List.length_cons]
    simp [bytesOf_dataWords rest]

end Sys2Proof
end

