-- ==== Sys2Proof/Laws/Decode.lean ====
section
/-! SUPPORT. What the decoder answers, said once for the legal and once for the illegal headers. -/

namespace Sys2Proof

/-- The opcode is the header's most significant byte (R81). -/
theorem opcode_eq (h : Word) : opcode h = h.toNat / 16777216 := by
  have := h.isLt
  simp [opcode, opcOf, BitVec.extractLsb'_toNat, Nat.shiftRight_eq_div_pow]
  omega

theorem illegalOpcode_eq_true {opc : Nat} : illegalOpcode opc = true ↔ opc = 0 ∨ 0x18 ≤ opc := by
  simp [illegalOpcode]

theorem illegalOpcode_eq_false {opc : Nat} : illegalOpcode opc = false ↔ 1 ≤ opc ∧ opc ≤ 0x17 := by
  simp [illegalOpcode]; omega

/-- An illegal header is read alone (R100). -/
theorem decode_illegal (h : Word) (t : List Word) (ho : opcode h = 0 ∨ 0x18 ≤ opcode h) :
    decode (h :: t) = .ok (illegalInstr h, t) := by
  simp [decode, illegalOpcode_eq_true.2 ho]

/-- A whole packet of a legal header without reserved bits is read as its command (R82, R99, R101). -/
theorem decode_packet (h : Word) (fixed var rest : List Word)
    (hleg : illegalOpcode (opcode h) = false) (hf : fixed.length = fixedWords (opcode h))
    (hr : reservedBitSet h fixed = false) (hv : var.length = varWords h) :
    decode (h :: (fixed ++ (var ++ rest))) = .ok (buildInstr h fixed var, rest) := by
  simp [decode, hleg, ← hf, hr, ← hv]

/-- The number that a concatenation is. -/
theorem toNat_append {n m : Nat} (hi : BitVec m) (lo : BitVec n) :
    (hi ++ lo).toNat = hi.toNat * 2 ^ n + lo.toNat := by
  rw [BitVec.toNat_append, Nat.shiftLeft_eq, Nat.mul_comm, ← Nat.two_pow_add_eq_or_of_lt lo.isLt]

/-- The low part of a concatenation. -/
theorem extractLsb'_append_low {n m : Nat} (hi : BitVec m) (lo : BitVec n) :
    BitVec.extractLsb' 0 n (hi ++ lo) = lo :=
  eq_of_bits fun i hi' => by simp [BitVec.getLsbD_append, hi']

end Sys2Proof
end

