-- ==== Sys2Proof/Laws/Engine.lean ====
section
/-! SUPPORT. The engine's cycle: how words are consumed, and what a step is in each of the engine's situations. -/

namespace Sys2Proof.Machine

/-! ### The fixed part of a packet -/

@[simp] theorem State.newHeader_fifo (s : State) : s.newHeader.fifo = s.fifo := by
  unfold State.newHeader; split <;> rfl

@[simp] theorem State.takeWord_fifo (s : State) : s.takeWord.fifo = s.fifo.drop 1 := by
  simp [State.takeWord]

@[simp] theorem State.takeWord_pkt (s : State) : s.takeWord.pkt = s.pkt ++ s.fifo.take 1 := rfl

/-- Popping a word of the fixed part changes nothing of what the engine can see. -/
@[simp] theorem State.takeWord_stream (s : State) : s.takeWord.stream = s.stream := by
  rw [State.stream, State.takeWord_fifo, State.takeWord_pkt, List.append_assoc, List.take_append_drop]
  rfl

/-- Where the words are after some pops. -/
theorem State.takeWord_iterate (n : Nat) (s : State) :
    (State.takeWord^[n] s).pkt = s.pkt ++ s.fifo.take n ∧ (State.takeWord^[n] s).fifo = s.fifo.drop n ∧
      (State.takeWord^[n] s).stream = s.stream := by
  induction n generalizing s with
  | zero => simp
  | succ n ih =>
    obtain ⟨h1, h2, h3⟩ := ih s.takeWord
    rw [Function.iterate_succ_apply, h1, h2, h3]
    refine ⟨?_, ?_, State.takeWord_stream s⟩
    · rw [State.takeWord_pkt, State.takeWord_fifo, List.append_assoc]
      cases s.fifo <;> simp
    · rw [State.takeWord_fifo, List.drop_drop, Nat.add_comm]

/-- With the words there and nothing due, gathering is popping. -/
theorem State.gather_free (n : Nat) {s : State} (hn : n ≤ s.fifo.length)
    (he : ∀ k < n, (State.takeWord^[k] s).envDue = false) : s.gather n = State.takeWord^[n] s := by
  induction n generalizing s with
  | zero => rfl
  | succ n ih =>
    have h0 : s.envDue = false := he 0 (by omega)
    have hf : s.fifo.isEmpty = false := by cases hf : s.fifo <;> simp_all
    rw [State.gather, h0, hf, Function.iterate_succ_apply]
    simp only [Bool.false_eq_true, if_false]
    refine ih (by simp; omega) fun k hk => ?_
    have := he (k + 1) (by omega)
    rwa [Function.iterate_succ_apply] at this

/-- A new header touches the record of racing bytes alone. -/
theorem State.newHeader_eq (s : State) :
    s.newHeader =
      { s with stale := if s.pkt = [] then s.stale.filter fun t => decide (0 < t.words) else s.stale } := by
  unfold State.newHeader
  split <;> rfl

/-- Popping one word in a quiet environment. -/
theorem State.takeWord_quiet {s : State} (hq : s.quiet) :
    s.takeWord = { s.newHeader.pop 1 with pkt := s.pkt ++ s.fifo.take 1, phase := .exec } := by
  rw [State.takeWord, State.newHeader_eq]
  exact State.tick_of_quiet hq.1 hq.2.1

/-- Popping words in a quiet environment: they are taken at once. -/
theorem State.takeWord_iterate_quiet (n : Nat) {s : State} (hq : s.quiet) (hn : n < s.fifo.length) :
    State.takeWord^[n + 1] s =
      { s.newHeader.pop (n + 1) with pkt := s.pkt ++ s.fifo.take (n + 1), phase := .exec } := by
  induction n generalizing s with
  | zero => exact State.takeWord_quiet hq
  | succ n ih =>
    have hq' : s.takeWord.quiet := by
      rw [State.takeWord_quiet hq, State.newHeader_eq]
      exact hq
    cases hf : s.fifo with
    | nil => simp [hf] at hn
    | cons w rest =>
      rw [Function.iterate_succ_apply, ih hq' (by simp; omega), State.takeWord_quiet hq]
      simp only [State.newHeader_eq, State.pop, hf]
      simp [Function.comp_def, BitVec.add_assoc, BitVec.ofNat_add, Nat.sub_sub, Nat.add_comm]
      rw [show 1 + (n + 1) = (n + 1) + 1 by omega]
      exact ⟨rfl, rfl⟩

/-- The packet's fixed part, taken between two packets in a quiet environment. -/
theorem State.takeWord_iterate_tookPacket {n : Nat} {s : State} (hq : s.quiet) (hp : s.pkt = [])
    (h0 : 0 < n) (hn : n ≤ s.fifo.length) :
    ({ State.takeWord^[n] s with pkt := [] } : State) = s.tookPacket n (s.fifo.drop n) := by
  obtain ⟨m, rfl⟩ : ∃ m, n = m + 1 := ⟨n - 1, by omega⟩
  rw [State.takeWord_iterate_quiet m hq (by omega), State.newHeader_eq]
  simp [State.pop, State.tookPacket, hp]

/-- The words that a packet lacks, from the header it starts with. -/
theorem State.lacking_eq {s : State} {h : Word} {t : List Word} (hs : s.stream = h :: t) :
    s.lacking = fixedPart h - s.pkt.length := by
  simp [State.lacking, hs]

/-- What the decoder accepts holds its packet's fixed part. -/
theorem fixedPart_le {h : Word} {t : List Word} {r : Except DecodeReject (Instr × List Word)}
    (hd : decode (h :: t) = r) (hr : r ≠ .error .needFixed) : fixedPart h ≤ t.length + 1 := by
  subst hd
  unfold fixedPart
  simp only [decode] at hr
  split
  · omega
  · rw [if_neg ‹_›] at hr
    split at hr
    · exact absurd rfl hr
    · omega

/-- A packet whose fixed part is there: the engine pops it, and where nothing falls due meanwhile decides the packet
(R282). -/
theorem fetch_eq {s : State} {h : Word} {t : List Word} (hs : s.stream = h :: t)
    (hp : s.pkt.length ≤ fixedPart h) (hd : decode s.stream ≠ .error .needFixed)
    (he : ∀ k ≤ fixedPart h - s.pkt.length, (State.takeWord^[k] s).envDue = false) :
    fetch s = decidePacket (State.takeWord^[fixedPart h - s.pkt.length] s) := by
  have hl : fixedPart h - s.pkt.length ≤ s.fifo.length := by
    have := fixedPart_le (h := h) (t := t) rfl (by rwa [← hs])
    have hlen : s.pkt.length + s.fifo.length = t.length + 1 := by
      rw [← List.length_append]; exact (congrArg List.length hs).trans (List.length_cons ..)
    omega
  obtain ⟨h1, -, h3⟩ := State.takeWord_iterate (fixedPart h - s.pkt.length) s
  have hlack : (State.takeWord^[fixedPart h - s.pkt.length] s).lacking = 0 := by
    rw [State.lacking_eq (h3.trans hs), h1, List.length_append, List.length_take, Nat.min_eq_left hl]
    omega
  simp only [fetch]
  rw [State.lacking_eq hs, State.gather_free _ hl fun k hk => he k (by omega), he _ (by omega), hlack]
  rfl

/-! ### Acceptance -/

/-- The event in progress is accepted: it joins the trace, and a pending soft reset acts, or the command goes on (R58,
70_reset_and_hazards.md R321). -/
theorem accept_eq {s : State} {e : Event} {acts : List Action} (ht : s.todo = .emit e :: acts) :
    s.accept =
      if s.srstPending then
        ({ s.emitAll [e] with inFlight := false, port := s.port.tail, todo := acts } : State).tick.softReset
      else runActs acts ({ s.emitAll [e] with inFlight := false, port := s.port.tail, todo := acts } : State).tick := by
  simp only [State.accept, ht]
  rfl

/-- A port with nothing left to hold accepts. -/
theorem held_eq_accept {s : State} (h : s.port = [] ∨ ∃ holds, s.port = .ticks 0 :: holds) : s.held = s.accept := by
  rcases h with h | ⟨holds, h⟩ <;> simp [State.held, h]

/-! ### Steps -/

/-- With nothing due, a step is a move of the engine. -/
theorem step_eq_engine {s : State} (h : s.envDue = false) : step s = engine s := by
  simp [step, h]

/-- An idle engine that is not halted takes the next packet. -/
theorem engine_eq_fetch {s : State} (hf : s.inFlight = false) (hh : s.halted = false) (ht : s.todo = []) :
    engine s = fetch s := by
  simp [engine, hf, hh, ht]

/-- One step, and then the others. -/
theorem steps_succ {s t : State} {n : Nat} (h : step s = .next t) : steps (n + 1) s = steps n t := by
  simp only [steps, h]

/-- Some steps, and then the others. -/
theorem steps_add {s t : State} {m n : Nat} (h : steps m s = .next t) : steps (m + n) s = steps n t := by
  induction m generalizing s with
  | zero => cases h; rw [Nat.zero_add]
  | succ m ih =>
    rw [Nat.add_right_comm]
    cases hstep : step s with
    | next u =>
      rw [steps_succ hstep] at h ⊢
      exact ih h
    | fault r => simp only [steps, hstep, reduceCtorEq] at h
    | refused r => simp only [steps, hstep, reduceCtorEq] at h


end Sys2Proof.Machine
end

