-- ==== Sys2Proof/Laws/Frame.lean ====
section
/-! SUPPORT. Frames in any environment: which kinds of action each shared operation consists of, and that the walk
over a string keeps what those keep. -/

namespace Sys2Proof.Machine

/-- A window is events. -/
theorem windowActs_emit {g : Geometry} {x0 y0 x1 y1 : Int} {a : Action} (h : a ∈ windowActs g x0 y0 x1 y1) :
    ∃ e, a = .emit e := by
  obtain ⟨e, -, rfl⟩ := List.mem_map.1 h
  exact ⟨e, rfl⟩

/-- A fill is events and the transfer buffer. -/
theorem fillActs_emit {g : Geometry} {x y w h : Int} {color : Half} {a : Action}
    (ha : a ∈ fillActs g x y w h color) : (∃ e, a = .emit e) ∨ a = .setTbuf color := by
  simp only [fillActs, fillData, List.mem_append] at ha
  rcases ha with (ha | ha) | (ha | ha)
  · exact .inl (windowActs_emit ha)
  · split at ha
    · exact absurd ha (List.not_mem_nil)
    · exact .inr (List.mem_singleton.1 ha)
  · exact .inl ⟨_, (List.mem_replicate.1 ha).2⟩
  · split at ha
    · exact absurd ha (List.not_mem_nil)
    · exact .inl ⟨_, List.mem_singleton.1 ha⟩

/-- A plot list is events and the transfer buffer. -/
theorem plotActs_emit {g : Geometry} {color : Half} {plots : List Plot} {a : Action}
    (h : a ∈ plotActs g color plots) : (∃ e, a = .emit e) ∨ a = .setTbuf color := by
  obtain ⟨p, -, hp⟩ := List.mem_flatMap.1 h
  cases p <;> exact fillActs_emit hp

/-- A delay is an event. -/
theorem waitActs_emit {n : Nat} {a : Action} (h : a ∈ waitActs n) : ∃ e, a = .emit e := by
  unfold waitActs at h
  split at h
  · exact absurd h (List.not_mem_nil)
  · exact ⟨_, List.mem_singleton.1 h⟩

/-- A vendor item is events. -/
theorem vendorActs_emit {v : VendorItem} {a : Action} (h : a ∈ vendorActs v) : ∃ e, a = .emit e := by
  cases v with
  | send c payload =>
    cases payload <;> exact ⟨_, List.mem_singleton.1 h⟩
  | delay ms => exact waitActs_emit h

/-- What a character does is blit units, or its region's error. -/
theorem charActs_units {s : State} {r : TextRun} {c : Half} {a : Action} (h : a ∈ (charActs s r c).1) :
    (∃ x0 y0 x1 y1 b, a = .blit (windowOut s.geom x0 y0 x1 y1) b) ∨
      ∃ addr, a = .raise .asset r.hdr addr r.wordsLeft := by
  unfold charActs at h
  split at h
  · split at h
    · exact absurd h (List.not_mem_nil)
    split at h
    · exact absurd h (List.not_mem_nil)
    split at h
    · exact .inr ⟨_, List.mem_singleton.1 h⟩
    · obtain ⟨p, -, rfl⟩ := List.mem_map.1 h
      exact .inl ⟨_, _, _, _, _, rfl⟩
  · split at h
    · exact absurd h (List.not_mem_nil)
    · simp only at h
      split at h
      · exact absurd h (List.not_mem_nil)
      split at h
      · exact .inr ⟨_, List.mem_singleton.1 h⟩
      · exact .inl ⟨_, _, _, _, _, List.mem_singleton.1 h⟩
  · split at h <;> exact absurd h (List.not_mem_nil)

/-- What events, a region's error and (for TTWIDTH) a new RESULT keep, the walk over a string keeps. -/
theorem runText_preserves {P : State → Prop} (hc : CtrlClosed P) (he : ∀ e s, P s → P (s.emit e))
    (hr : ∀ hdr addr s, P s → P (s.record .asset hdr addr)) (l : List Half) (r : TextRun)
    (hv : (∃ f, r.job = .measure f) → ∀ (v : Word) s, P s → P { s with result := v }) {s : State} (hs : P s) :
    P (runText l r s) := by
  have emits : ∀ (evs : List Event) (t : State), P t → P (evs.foldl (fun u e => u.emit e) t) := by
    intro evs
    induction evs with
    | nil => exact fun _ h => h
    | cons e evs ih => exact fun t h => ih _ (he e t h)
  induction l generalizing r s with
  | nil =>
    unfold runText
    split
    · refine drain_preserves hc _ (fun r s _ hs => hc.todo s [.text r] hs) he ?_ ?_ hs
      · intro a ha t ht
        unfold TextRun.finish at ha
        split at ha
        · rename_i f hj
          rw [List.mem_singleton.1 ha]
          exact hv ⟨f, hj⟩ _ t ht
        · exact absurd ha (List.not_mem_nil)
        · exact absurd ha (List.not_mem_nil)
      · intro e hdr addr m ha
        unfold TextRun.finish at ha
        split at ha
        · exact absurd (List.mem_singleton.1 ha) (by simp)
        · exact absurd ha (List.not_mem_nil)
        · exact absurd ha (List.not_mem_nil)
    · exact hc.todo s _ hs
  | cons c l ih =>
    have char : ∀ q : TextRun, q.job = r.job → ∀ t, P t → P (charStep c l (runText l) q t) := by
      intro q hq t ht
      refine drain_preserves hc _ ?_ he ?_ ?_ (hc.tick ht)
      · intro q' u hm hu
        rcases List.mem_append.1 hm with hm | hm
        · rcases charActs_units hm with ⟨_, _, _, _, _, h⟩ | ⟨a, h⟩ <;> cases h
        · cases List.mem_singleton.1 hm
          exact ih _ (by simpa [hq] using hv) hu
      · intro a ha u hu
        rcases List.mem_append.1 ha with ha | ha
        · rcases charActs_units ha with ⟨_, _, _, _, _, rfl⟩ | ⟨a, rfl⟩
          · exact emits _ u hu
          · exact hu
        · rw [List.mem_singleton.1 ha]; exact hu
      · intro e hdr addr m ha u hu
        rcases List.mem_append.1 ha with ha | ha
        · rcases charActs_units ha with ⟨_, _, _, _, _, h⟩ | ⟨a, h⟩ <;> cases h
          exact hr _ _ u hu
        · exact absurd (List.mem_singleton.1 ha) (by simp)
    unfold runText
    split
    · refine drain_preserves hc _ ?_ he ?_ (by simp) hs
      · intro q u hm hu
        simp only [List.mem_cons, reduceCtorEq, Action.text.injEq, List.not_mem_nil, or_false, false_or] at hm
        exact char q (by rw [hm]) u hu
      · intro a ha u hu
        simp only [List.mem_cons, List.not_mem_nil, or_false] at ha
        rcases ha with rfl | rfl
        · exact hc.pop u hu
        · exact hu
    · exact char r rfl s hs

end Sys2Proof.Machine
end

