-- ==== Sys2Proof/Laws/Host.lean ====
section
/-! SUPPORT. The register window in numbers (10_state.md R35..R47). -/

namespace Sys2Proof.Machine

/-- STATUS as a number (R37). -/
theorem State.status_toNat (s : State) :
    s.status.toNat = s.err.toNat * 256 + s.halted.toNat * 8 + s.ready.toNat * 4 + s.full.toNat * 2 +
      s.busy.toNat := by
  have h : s.status.toNat = ((((((0 : Half) ++ s.err) ++ (0 : BitVec 4)) ++ BitVec.ofBool s.halted) ++
    BitVec.ofBool s.ready) ++ BitVec.ofBool s.full ++ BitVec.ofBool s.busy).toNat := rfl
  rw [h]
  simp only [toNat_append, BitVec.toNat_ofBool]
  simp
  omega

/-- STATUS.BUSY is bit 0 (R37). -/
theorem State.status_busy (s : State) : s.status.getLsbD 0 = s.busy := by
  have := State.status_toNat s
  rw [BitVec.getLsbD, Nat.testBit_zero, this]
  cases s.busy <;> simp <;> omega

/-- STATUS.HALTED is bit 3 (R37). -/
theorem State.status_halted (s : State) : s.status.getLsbD 3 = s.halted := by
  have := State.status_toNat s
  rw [BitVec.getLsbD, Nat.testBit_eq_decide_div_mod_eq, this]
  cases s.busy <;> cases s.full <;> cases s.ready <;> cases s.halted <;> simp <;> omega

/-- A register of two halves as a number (R40..R42). -/
theorem halves_toNat (a b : Half) : (a ++ b : Word).toNat = a.toNat * 65536 + b.toNat :=
  toNat_append a b

end Sys2Proof.Machine
end

