-- ==== Sys2Proof/Laws/Invariant.lean ====
section
/-! SUPPORT. The invariant and the shared operations: what a command in the middle of its actions meets, and that
`drain` and the walk over a string end in a state with the invariant. -/

namespace Sys2Proof.Machine

/-- An action raises no address but for E_ASSET, and waits no 0 ms. -/
def Action.good (a : Action) : Prop := a.recordOk = true ∧ a.waitOk = true

/-- What holds while a command is between two of its actions. -/
structure Mid (s : State) : Prop where
  assets_wf : Memory.wf s.assets = true
  assets_inside : ∀ c ∈ s.assets, c.1 < s.assetSize
  fifo_bound : s.fifo.length ≤ s.cfg.fifoDepth
  record_ok : s.errorRecordOk
  trace_ok : ∀ e ∈ s.trace, e.ok = true
  cs : s.pins.csN = true
  pkt : s.pkt = []
  srst : s.srstPending = false
  flight : s.inFlight = false
  phase : s.phase = .exec

/-- A tick keeps it. -/
theorem Mid.tick {s : State} (h : Mid s) : Mid s.tick := { h with }

/-- Chip select is high after an event. -/
theorem Pins.after_csN (p : Pins) (e : Event) (h : p.csN = true ∨ e.isTxn = true) : (p.after e).csN = true := by
  cases e <;> simp_all [Pins.after, Event.wire, Pins.act, Event.isTxn]

/-- Recording keeps the error record consistent. -/
theorem State.record_ok (e : ErrKind) (hdr : Word) (a : Nat) (s : State) (h : s.errorRecordOk)
    (hg : a = 0 ∨ e = .asset) : (s.record e hdr a).errorRecordOk := by
  unfold State.record
  split
  · right
    refine ⟨show 1 ≤ e.code.toNat by cases e <;> decide, show e.code.toNat ≤ 6 by cases e <;> decide, ?_⟩
    intro hne
    rcases hg with rfl | rfl
    · exact absurd rfl hne
    · rfl
  · exact h

/-- Recording an error keeps it. -/
theorem Mid.record {e : ErrKind} {hdr : Word} {a : Nat} (hg : a = 0 ∨ e = .asset) {s : State} (h : Mid s) :
    Mid (s.record e hdr a) := by
  have hr := State.record_ok e hdr a s h.record_ok hg
  unfold State.record at hr ⊢
  split
  · rw [if_pos ‹_›] at hr; exact { h with record_ok := hr }
  · exact h

/-- An event keeps it. -/
theorem Mid.emit {e : Event} (he : e.ok = true) {s : State} (h : Mid s) : Mid (s.emit e) := by
  refine { h with trace_ok := ?_, cs := Pins.after_csN _ _ (.inl h.cs) }
  intro x hx
  rcases List.mem_append.1 hx with hx | hx
  · exact h.trace_ok x hx
  · rw [List.mem_singleton.1 hx]; exact he

/-- Events keep it. -/
theorem Mid.emits {evs : List Event} (he : ∀ e ∈ evs, e.ok = true) {s : State} (h : Mid s) :
    Mid (evs.foldl (fun t e => t.emit e) s) := by
  induction evs generalizing s with
  | nil => exact h
  | cons e evs ih => exact ih (fun x hx => he x (by simp [hx])) (h.emit (he e (by simp)))

/-- The events of a well-behaved unit. -/
theorem unitEvents_ok {window : List Event} {b : Blit} (hg : (Action.blit window b).good) (s : State) :
    ∀ e ∈ unitEvents window b s, e.ok = true := by
  intro e he
  rcases List.mem_append.1 he with he | he
  · exact List.all_eq_true.1 hg.2 e he
  · rw [List.mem_singleton.1 he]; rfl

/-- An action keeps it. -/
theorem Mid.apply {a : Action} (hg : a.good) {s : State} (h : Mid s) : Mid (a.apply s) := by
  cases a with
  | emit e => exact h.emit hg.2
  | blit window b => exact h.emits (unitEvents_ok hg s)
  | halt hdr => exact { h.record (e := .opcode) (hdr := hdr) (a := 0) (.inl rfl) with }
  | pop => exact { h with fifo_bound := (by have := h.fifo_bound; simp [Action.apply]; omega) }
  | _ => exact { h with }

/-! ### The set-up (10_state.md R24) -/

/-- Recording an error changes nothing of the set-up. -/
@[simp] theorem State.record_setup (e : ErrKind) (hdr : Word) (a : Nat) (s : State) :
    (s.record e hdr a).setup = s.setup := by
  unfold State.record; split <;> rfl

/-- What an action changes of the set-up. -/
theorem Action.apply_setup (a : Action) (s : State) : (a.apply s).setup = a.onSetup s.setup := by
  cases a with
  | halt hdr => exact State.record_setup .opcode hdr 0 s
  | blit window b => rw [Action.apply_blit]; rfl
  | _ => rfl

/-- An action that changes nothing of the set-up. -/
def Action.setupFree (a : Action) : Prop := ∀ p, a.onSetup p = p

theorem setupFree_emit (e : Event) : (Action.emit e).setupFree := fun _ => rfl
theorem setupFree_blit (window : List Event) (b : Blit) : (Action.blit window b).setupFree := fun _ => rfl
theorem setupFree_raise (e : ErrKind) (hdr : Word) (a m : Nat) : (Action.raise e hdr a m).setupFree := fun _ => rfl
theorem setupFree_text (r : TextRun) : (Action.text r).setupFree := fun _ => rfl

/-- The set-up after a simple action. -/
theorem setupOk_cons {a : Action} (ha : a.simple = true) (l : List Action) (p : Setup) :
    setupOk (a :: l) p = setupOk l (a.onSetup p) := by
  rw [setupOk, if_pos ha]

/-- The set-up after actions that change nothing of it. -/
theorem setupOk_append_free {l : List Action} (hl : ∀ a ∈ l, a.simple = true ∧ a.setupFree) (m : List Action)
    (p : Setup) : setupOk (l ++ m) p = setupOk m p := by
  induction l with
  | nil => rfl
  | cons a l ih =>
    rw [List.cons_append, setupOk_cons (hl a (by simp)).1, (hl a (by simp)).2, ih fun b hb => hl b (by simp [hb])]

/-- Actions that change nothing of the set-up keep it as R24 says. -/
theorem setupOk_of_free {l : List Action} (hl : ∀ a ∈ l, a.setupFree) {p : Setup} (hp : p.ok) : setupOk l p := by
  induction l with
  | nil => exact hp
  | cons a l ih =>
    rw [setupOk]
    split
    · rw [hl a (by simp)]; exact ih fun b hb => hl b (by simp [hb])
    · exact hp

/-! ### From the middle of a command to the invariant -/

/-- Where EXEC means that something is under way, BUSY = 0 and HALTED = 0 mean that nothing is. -/
theorem busy_clear_of {s : State} (hp : s.phase = .exec ↔ (s.pkt ≠ [] ∨ s.todo ≠ []))
    (hf : s.inFlight = true → s.todo ≠ []) :
    s.status.getLsbD 0 = false → s.status.getLsbD 3 = false →
      s.fifo = [] ∧ s.pkt = [] ∧ s.todo = [] ∧ s.inFlight = false := by
  rw [State.status_busy, State.status_halted]
  intro hb hh
  simp only [State.busy, hh, Bool.not_false, Bool.and_true, Bool.or_eq_false_iff, beq_eq_false_iff_ne,
    Bool.not_eq_false', List.isEmpty_iff] at hb
  have h := mt hp.2 hb.1
  simp only [ne_eq, not_or, not_not] at h
  refine ⟨hb.2, h.1, h.2, ?_⟩
  by_contra hi
  exact hf (by simpa using hi) h.2

/-- A command that stops between two actions leaves a state with the invariant. -/
theorem Mid.inv_todo {s : State} (h : Mid s) (l : List Action) (hl : ∀ a ∈ l, a.good) (hne : l ≠ [])
    (hs : setupOk l s.setup) : ({ s with todo := l } : State).Inv :=
  { assets_wf := h.assets_wf, assets_inside := h.assets_inside, fifo_bound := h.fifo_bound
    record_ok := h.record_ok
    todo_record_ok := fun a ha => (hl a ha).1
    trace_ok := h.trace_ok
    todo_wait_ok := fun a ha => (hl a ha).2
    cs_idle := fun _ => h.cs
    pkt_partial := fun a t hp => by have := h.pkt; simp_all
    todo_pkt := fun _ => h.pkt
    srst_pending := fun hs => by have := h.srst; simp_all
    phase_exec := by have := h.phase; simp_all
    in_flight := fun hs => by have := h.flight; simp_all
    setup_ok := hs
    busy_clear := busy_clear_of (by have := h.phase; simp_all) fun _ => hne }

/-- A command that ends leaves a state with the invariant. -/
theorem Mid.inv_end {s : State} (h : Mid s) (hs : s.setup.ok) : s.endCommand.Inv :=
  { assets_wf := h.assets_wf, assets_inside := h.assets_inside, fifo_bound := h.fifo_bound
    record_ok := h.record_ok
    todo_record_ok := by simp
    trace_ok := h.trace_ok
    todo_wait_ok := by simp
    cs_idle := fun _ => h.cs
    pkt_partial := fun a t hp => by have := h.pkt; simp_all
    todo_pkt := fun _ => h.pkt
    srst_pending := fun hs => by have := h.srst; simp_all
    phase_exec := by have := h.pkt; simp_all
    in_flight := fun hs => by have := h.flight; simp_all
    setup_ok := hs
    busy_clear := busy_clear_of (by have := h.pkt; simp_all) fun hs => by have := h.flight; simp_all }

/-- A tick keeps the invariant. -/
theorem State.Inv.tick {s : State} (h : s.Inv) : s.tick.Inv := { h with }

/-- Skipping words ends in a state with the invariant. -/
theorem skipWords_inv (m : Nat) {s : State} (h : Mid s) (hs : s.setup.ok) : (skipWords m s).Inv := by
  induction m generalizing s with
  | zero => exact h.inv_end hs
  | succ m ih =>
    rw [skipWords]
    split
    · exact h.inv_todo _ (by simp [Action.good, Action.recordOk, Action.waitOk]) (by simp) hs
    · exact ih (Mid.apply (a := .pop) ⟨rfl, rfl⟩ h).tick hs

/-- Events before some actions: each is accepted, or held with its action at the head of what is left. -/
theorem drain_emits_inv {k : TextRun → State → State} {evs : List Event} {rest : List Action}
    (hev : ∀ e ∈ evs, e.ok = true) (hrest : ∀ a ∈ rest, a.good)
    (hk : ∀ t, Mid t → setupOk rest t.setup → (drain k rest t).Inv) {s : State} (h : Mid s)
    (hs : setupOk rest s.setup) : (drain k (evs.map .emit ++ rest) s).Inv := by
  induction evs generalizing s with
  | nil => exact hk s h hs
  | cons e evs ih =>
    have he := hev e (by simp)
    have hgood : ∀ a ∈ (e :: evs).map .emit ++ rest, a.good := by
      intro a ha
      rcases List.mem_append.1 ha with ha | ha
      · obtain ⟨x, hx, rfl⟩ := List.mem_map.1 ha
        exact ⟨rfl, hev x hx⟩
      · exact hrest a ha
    have hset : setupOk ((e :: evs).map .emit ++ rest) s.setup := by
      rw [setupOk_append_free]
      · exact hs
      · intro a ha
        obtain ⟨x, -, rfl⟩ := List.mem_map.1 ha
        exact ⟨rfl, setupFree_emit x⟩
    have hi := h.inv_todo _ hgood (by simp) hset
    have ih' : ∀ {t : State}, Mid t → setupOk rest t.setup → (drain k (evs.map .emit ++ rest) t).Inv :=
      fun ht hst => ih (fun x hx => hev x (by simp [hx])) ht hst
    rw [List.map_cons, List.cons_append] at hi ⊢
    by_cases hd : s.envDue = true
    · rw [drain_cons_due k _ _ hd]; exact hi
    · rw [drain_cons_free k _ _ (by simpa using hd)]
      simp only [State.offer]
      split
      · exact ih' (h.emit he).tick hs
      · rename_i holds _
        exact ih' (Mid.emit he (s := { s with port := holds }) { h with }).tick hs
      · exact State.Inv.tick { hi with
          cs_idle := fun hh => by simp at hh
          srst_pending := fun _ => rfl
          in_flight := fun _ => ⟨e, _, rfl, by cases e <;> simp [Event.isTxn, Pins.during, h.cs]⟩
          busy_clear := busy_clear_of hi.phase_exec fun _ => by simp }

/-- `drain` ends in a state with the invariant. -/
theorem drain_inv {k : TextRun → State → State} (acts : List Action)
    (hk : ∀ r s, .text r ∈ acts → Mid s → s.setup.ok → (k r s).Inv)
    (ha : ∀ a ∈ acts, a.good) {s : State} (h : Mid s) (hs : setupOk acts s.setup) : (drain k acts s).Inv := by
  induction acts generalizing s with
  | nil => exact h.inv_end hs
  | cons a rest ih =>
    have hga := ha a (by simp)
    have hrest : ∀ b ∈ rest, b.good := fun b hb => ha b (by simp [hb])
    have ih' : ∀ t : State, Mid t → setupOk rest t.setup → (drain k rest t).Inv := fun t ht hst =>
      ih (fun r s hb => hk r s (by simp [hb])) hrest ht hst
    have hs' := hs
    rw [setupOk] at hs'
    by_cases hd : s.envDue = true
    · rw [drain_cons_due k a rest hd]; exact h.inv_todo _ ha (by simp) hs
    · have hsa : a.simple = true → setupOk rest (a.apply s).tick.setup := fun hsim => by
        rw [if_pos hsim] at hs'
        rw [show (a.apply s).tick.setup = (a.apply s).setup from rfl, Action.apply_setup]
        exact hs'
      cases a with
      | emit e =>
        exact drain_emits_inv (evs := [e]) (fun x hx => by rw [List.mem_singleton.1 hx]; exact hga.2) hrest ih' h hs'
      | blit window b =>
        rw [drain_cons_free k _ rest (by simpa using hd)]
        exact drain_emits_inv (unitEvents_ok hga s) hrest ih' h hs'
      | raise e hdr addr m =>
        rw [drain_cons_free k _ rest (by simpa using hd)]
        exact skipWords_inv m (h.record (by simpa [Action.recordOk] using hga.1)).tick
          (by rw [show (s.record e hdr addr).tick.setup = (s.record e hdr addr).setup from rfl, State.record_setup]
              simpa [Action.simple] using hs')
      | skip m =>
        rw [drain_cons_free k _ rest (by simpa using hd)]
        exact skipWords_inv m h (by simpa [Action.simple] using hs')
      | payload got m =>
        rw [drain_cons_free k _ rest (by simpa using hd)]
        exact h.inv_todo _ ha (by simp) hs
      | text r =>
        rw [drain_cons_free k _ rest (by simpa using hd)]
        exact hk r s (by simp) h (by simpa [Action.simple] using hs')
      | _ =>
        rw [drain_cons_free k _ rest (by simpa using hd)]
        exact ih' _ (Mid.apply hga h).tick (hsa rfl)

/-- An event that waits no 0 ms is well behaved. -/
theorem good_emit {e : Event} (h : e.ok = true) : (Action.emit e).good := by
  exact ⟨rfl, h⟩

/-- The events of a window are no delays. -/
theorem windowOut_ok (g : Geometry) (x0 y0 x1 y1 : Int) : ∀ e ∈ windowOut g x0 y0 x1 y1, e.ok = true := by
  intro e he
  unfold windowOut at he
  split at he
  · simp only [List.mem_cons, List.not_mem_nil, or_false] at he
    rcases he with rfl | rfl | rfl <;> rfl
  · exact absurd he List.not_mem_nil

/-- A window is well behaved. -/
theorem windowActs_good (g : Geometry) (x0 y0 x1 y1 : Int) : ∀ a ∈ windowActs g x0 y0 x1 y1, a.good := by
  intro a ha
  obtain ⟨e, he, rfl⟩ := List.mem_map.1 ha
  exact good_emit (windowOut_ok g x0 y0 x1 y1 e he)

/-- What a character does is well behaved. -/
theorem charActs_good (s : State) (r : TextRun) (c : Half) : ∀ a ∈ (charActs s r c).1, a.good := by
  intro a ha
  rcases charActs_units ha with ⟨x0, y0, x1, y1, b, rfl⟩ | ⟨x, rfl⟩
  · exact ⟨rfl, List.all_eq_true.2 (windowOut_ok _ _ _ _ _)⟩
  · simp [Action.good, Action.recordOk, Action.waitOk]

/-- What a character does changes nothing of the set-up. -/
theorem charActs_setupFree {s : State} {r : TextRun} {c : Half} {a : Action} (h : a ∈ (charActs s r c).1) :
    a.setupFree := by
  rcases charActs_units h with ⟨_, _, _, _, _, rfl⟩ | ⟨x, rfl⟩ <;> exact fun _ => rfl

/-- A text command put off leaves a state with the invariant. -/
theorem laterText_inv (r : TextRun) (s : State) (h : Mid s) (hs : s.setup.ok) : (laterText r s).Inv :=
  h.inv_todo _ (by simp [Action.good, Action.recordOk, Action.waitOk]) (by simp) hs

/-- The walk over a string ends in a state with the invariant. -/
theorem runText_inv (l : List Half) (r : TextRun) (s : State) (h : Mid s) (hs : s.setup.ok) : (runText l r s).Inv := by
  induction l generalizing r s with
  | nil =>
    unfold runText
    split
    · refine drain_inv _ (fun r s _ => laterText_inv r s) ?_ h (setupOk_of_free ?_ hs)
      · unfold TextRun.finish; split <;> simp [Action.good, Action.recordOk, Action.waitOk]
      · intro a ha
        unfold TextRun.finish at ha
        split at ha
        · rw [List.mem_singleton.1 ha]; exact fun _ => rfl
        · exact absurd ha List.not_mem_nil
        · exact absurd ha List.not_mem_nil
    · exact h.inv_todo _ (by simp [Action.good, Action.recordOk, Action.waitOk]) (by simp) hs
  | cons c l ih =>
    have char : ∀ q t, Mid t → t.setup.ok → (charStep c l (runText l) q t).Inv := by
      intro q t ht hst
      refine drain_inv _ (fun r s _ => ih r s) ?_ ht.tick (setupOk_of_free ?_ hst)
      · intro a ha
        rcases List.mem_append.1 ha with ha | ha
        · exact charActs_good _ _ _ a ha
        · rw [List.mem_singleton.1 ha]; exact ⟨rfl, rfl⟩
      · intro a ha
        rcases List.mem_append.1 ha with ha | ha
        · exact charActs_setupFree ha
        · rw [List.mem_singleton.1 ha]; exact setupFree_text _
    unfold runText
    split
    · exact drain_inv _ (fun q t _ => char q t) (by simp [Action.good, Action.recordOk, Action.waitOk]) h hs
    · exact char r s h hs

/-- Any actions that are well behaved end in a state with the invariant. -/
theorem runActs_inv (acts : List Action) (ha : ∀ a ∈ acts, a.good) {s : State} (h : Mid s)
    (hs : setupOk acts s.setup) : (runActs acts s).Inv :=
  drain_inv acts (fun r s _ => runText_inv r.chs r s) ha h hs

/-- A raise with an address only for E_ASSET is well behaved. -/
theorem good_raise {e : ErrKind} {hdr : Word} {a m : Nat} (h : a = 0 ∨ e = .asset) :
    (Action.raise e hdr a m).good := by
  rcases h with rfl | rfl <;> simp [Action.good, Action.recordOk, Action.waitOk]

/-- A command that requires READY is well behaved when its actions are. -/
theorem requireReady_good {hdr : Word} {words : Nat} {acts : List Action} {s : State} (h : ∀ a ∈ acts, a.good) :
    ∀ a ∈ requireReady hdr words acts s, a.good := by
  unfold requireReady; split
  · exact h
  · simp only [List.mem_singleton]; rintro a rfl; exact good_raise (.inl rfl)

/-- A fill is well behaved. -/
theorem fillActs_good (g : Geometry) (x y w h : Int) (color : Half) : ∀ a ∈ fillActs g x y w h color, a.good := by
  intro a ha
  simp only [fillActs, fillData, List.mem_append] at ha
  rcases ha with (ha | ha) | (ha | ha)
  · exact windowActs_good _ _ _ _ _ a ha
  · split at ha
    · simp at ha
    · rw [List.mem_singleton.1 ha]; simp [Action.good, Action.recordOk, Action.waitOk]
  · rw [(List.mem_replicate.1 ha).2]; exact good_emit rfl
  · split at ha
    · simp at ha
    · rw [List.mem_singleton.1 ha]; exact good_emit rfl

/-- A plot list is well behaved. -/
theorem plotActs_good (g : Geometry) (color : Half) (l : List Plot) : ∀ a ∈ plotActs g color l, a.good := by
  intro a ha
  obtain ⟨p, -, hp⟩ := List.mem_flatMap.1 ha
  cases p <;> exact fillActs_good _ _ _ _ _ _ a hp

/-- A delay is well behaved. -/
theorem waitActs_good (n : Nat) : ∀ a ∈ waitActs n, a.good := by
  intro a ha
  unfold waitActs at ha
  split at ha
  · simp at ha
  · rw [List.mem_singleton.1 ha]; refine good_emit ?_; simp [Event.ok]; omega

/-- A command that requires READY keeps the set-up as R24 says when its actions do. -/
theorem requireReady_setupOk {hdr : Word} {words : Nat} {acts : List Action} {s : State} {p : Setup} (hp : p.ok)
    (h : setupOk acts p) : setupOk (requireReady hdr words acts s) p := by
  unfold requireReady; split
  · exact h
  · exact hp

/-- ROTATE leaves the extent of its rotation code (R124, R125). -/
theorem rotateActs_setupOk (cfg : Config) (v : Half) (p : Setup) (rest : List Action)
    (h : ∀ q : Setup, q.fits → setupOk rest q) : setupOk (rotateActs cfg v p.nativeW p.nativeH ++ rest) p := by
  rw [rotateActs, List.cons_append, setupOk_cons rfl, List.cons_append, setupOk_cons rfl, List.cons_append,
    setupOk_cons rfl]
  refine h _ ?_
  have hr : (rotOf v).getLsbD 0 = decide ((rotOf v).toNat % 2 = 1) := by
    rw [BitVec.getLsbD, Nat.testBit_zero]
  show ((rotOf v).toNat % 2 = 0 → (extentOf (rotOf v) p.nativeW p.nativeH).1 = p.nativeW ∧
      (extentOf (rotOf v) p.nativeW p.nativeH).2 = p.nativeH) ∧
    ((rotOf v).toNat % 2 = 1 → (extentOf (rotOf v) p.nativeW p.nativeH).1 = p.nativeH ∧
      (extentOf (rotOf v) p.nativeW p.nativeH).2 = p.nativeW)
  rw [extentOf, hr]
  constructor <;> intro hm <;> simp [hm]

/-- Popping a word of a packet that is not decided keeps the invariant. -/
theorem State.Inv.takeWord {s : State} {h : Word} {t : List Word} (hi : s.Inv) (hf : s.inFlight = false)
    (ht : s.todo = []) (hs : s.stream = h :: t) (hne : s.fifo ≠ []) (hl : s.pkt.length < fixedPart h) :
    s.takeWord.Inv := by
  have hpkt : s.pkt ++ s.fifo.take 1 ≠ [] := by
    cases hfi : s.fifo with
    | nil => exact absurd hfi hne
    | cons w rest => simp
  have hphase : s.takeWord.phase = .exec ↔ (s.takeWord.pkt ≠ [] ∨ s.takeWord.todo ≠ []) :=
    ⟨fun _ => .inl hpkt, fun _ => rfl⟩
  rw [State.takeWord, State.newHeader_eq] at hphase ⊢
  refine State.Inv.tick {
    assets_wf := hi.assets_wf
    assets_inside := hi.assets_inside
    fifo_bound := by have := hi.fifo_bound; simp [State.pop]; omega
    record_ok := hi.record_ok
    todo_record_ok := hi.todo_record_ok
    trace_ok := hi.trace_ok
    todo_wait_ok := hi.todo_wait_ok
    cs_idle := hi.cs_idle
    pkt_partial := ?_
    todo_pkt := fun h => absurd ht h
    srst_pending := hi.srst_pending
    phase_exec := hphase
    in_flight := fun h => absurd (show s.inFlight = true from h) (by simp [hf])
    setup_ok := hi.setup_ok
    busy_clear := busy_clear_of hphase fun h => absurd (show s.inFlight = true from h) (by simp [hf]) }
  intro h' t' hp
  simp only at hp ⊢
  have hst : (h' :: t') ++ s.fifo.drop 1 = h :: t := by
    rw [← hp, List.append_assoc, List.take_append_drop]; exact hs
  rw [List.cons_append, List.cons.injEq] at hst
  rw [hst.1, List.length_append]
  have : (s.fifo.take 1).length ≤ 1 := by simp
  omega

/-- Gathering the fixed part of a packet keeps the invariant, and changes nothing of what the engine can see. -/
theorem State.Inv.gather {s : State} (hi : s.Inv) (hf : s.inFlight = false) (ht : s.todo = []) (hh : s.halted = false)
    (n : Nat) (hn : ∀ h t, s.stream = h :: t → s.pkt.length + n ≤ fixedPart h) :
    (s.gather n).Inv ∧ (s.gather n).inFlight = false ∧ (s.gather n).todo = [] ∧ (s.gather n).stream = s.stream := by
  induction n generalizing s with
  | zero => exact ⟨hi, hf, ht, rfl⟩
  | succ n ih =>
    rw [State.gather]
    split
    · exact ⟨hi, hf, ht, rfl⟩
    split
    · exact ⟨hi.tick, hf, ht, rfl⟩
    · rename_i hne
      have hne' : s.fifo ≠ [] := by simpa using hne
      have hkeep : s.takeWord.inFlight = s.inFlight ∧ s.takeWord.todo = s.todo ∧ s.takeWord.halted = s.halted := by
        rw [State.takeWord, State.newHeader_eq]; exact ⟨rfl, rfl, rfl⟩
      cases hs : s.stream with
      | nil => simp [State.stream, hne'] at hs
      | cons h t =>
        have hl := hn h t hs
        have := ih (hi.takeWord hf ht hs hne' (by omega)) (hkeep.1.trans hf) (hkeep.2.1.trans ht)
          (hkeep.2.2.trans hh) fun h' t' hs' => by
            rw [State.takeWord_stream, hs, List.cons.injEq] at hs'
            rw [State.takeWord_pkt, List.length_append, ← hs'.1]
            have : (s.fifo.take 1).length ≤ 1 := by simp
            omega
        rw [State.takeWord_stream, hs] at this
        exact this

/-- A decided packet leaves the engine between two actions. -/
theorem State.Inv.mid {s : State} (hi : s.Inv) (hf : s.inFlight = false) :
    Mid ({ s with pkt := [] } : State).enter where
  assets_wf := hi.assets_wf
  assets_inside := hi.assets_inside
  fifo_bound := hi.fifo_bound
  record_ok := hi.record_ok
  trace_ok := hi.trace_ok
  cs := hi.cs_idle hf
  pkt := rfl
  srst := by
    by_contra hs
    exact absurd (hi.srst_pending (Bool.not_eq_false _ ▸ hs)) (by simp [hf])
  flight := hf
  phase := rfl

end Sys2Proof.Machine
end

