-- ==== Sys2Proof/Laws/PerInstr.lean ====
section
/-! SUPPORT. What holds of every command as syntax, one lemma per constructor: its header lies in its row of the opcode
table, and its packet is as long as the header says. -/

namespace Sys2Proof.Laws

/-- The first and the last opcode of the command's row of the opcode table (30_encoding.md R82, R100). -/
def rowOpcodes : Instr → Nat × Nat
  | .init .. => (0x01, 0x01)
  | .setwin .. => (0x02, 0x02)
  | .wrpix .. => (0x03, 0x03)
  | .fillrect .. => (0x04, 0x04)
  | .pixel .. => (0x05, 0x05)
  | .hline .. => (0x06, 0x06)
  | .vline .. => (0x07, 0x07)
  | .line .. => (0x08, 0x08)
  | .circle .. => (0x09, 0x09)
  | .fcircle .. => (0x0A, 0x0A)
  | .tri .. => (0x0B, 0x0B)
  | .ftri .. => (0x0C, 0x0C)
  | .text8 .. => (0x0D, 0x0D)
  | .text16 .. => (0x0E, 0x0E)
  | .tttext .. => (0x0F, 0x0F)
  | .ttwidth .. => (0x10, 0x10)
  | .bitmap .. => (0x11, 0x11)
  | .setrot .. => (0x12, 0x12)
  | .setorg .. => (0x13, 0x13)
  | .sleep .. => (0x14, 0x14)
  | .invert .. => (0x15, 0x15)
  | .display .. => (0x16, 0x16)
  | .rgb565 .. => (0x17, 0x17)
  | .illegal00 .. => (0x00, 0x00)
  | .illegal18 .. => (0x18, 0x1F)
  | .illegal20 .. => (0x20, 0x3F)
  | .illegal40 .. => (0x40, 0x7F)
  | .illegal80 .. => (0x80, 0xFF)

/-- A well-formed command's header has an opcode of its row, and its packet has the length of R99. -/
def HeaderRow.Statement (i : Instr) : Prop :=
  i.wf = true →
    ((rowOpcodes i).1 ≤ opcode (headerOf i) ∧ opcode (headerOf i) ≤ (rowOpcodes i).2) ∧
      (encode i).length = plen (headerOf i)

/-- The length of a packet whose counted words are as many as its header says. -/
theorem plen_header {opc : Byte} {arg : BitVec 24} (h1 : 1 ≤ opc.toNat) (h2 : opc.toNat ≤ 0x17) :
    plen (header opc arg) = 1 + fixedWords opc.toNat + varWords (header opc arg) := by
  simp [plen, illegalOpcode_eq_false.2 ⟨h1, h2⟩]

/-- The counted words of a text command. -/
theorem varWords_chars {opc : Byte} {chars : List Half} (hk : argKind opc.toNat = .nchars)
    (hw : chars.length < 65536) :
    varWords (header opc (arg16 (BitVec.ofNat 16 chars.length))) = (chars.length + 1) / 2 := by
  simp [varWords, hk, Nat.mod_eq_of_lt hw]

/-- The counted words of WRPIX. -/
theorem varWords_bytes {payload : List Byte} (hw : payload.length < 16777216) :
    varWords (header 0x03 (BitVec.ofNat 24 payload.length)) = (payload.length + 3) / 4 := by
  have hk : argKind (opcode (header 0x03 (BitVec.ofNat 24 payload.length))) = .nbytes := by
    rw [opcode_header]; rfl
  rw [varWords, hk]
  simp [Nat.mod_eq_of_lt hw]

/-- The length of a packet without counted words. -/
theorem plen_plain {opc : Byte} {arg : BitVec 24} (h1 : 1 ≤ opc.toNat) (h2 : opc.toNat ≤ 0x17)
    (hk : argKind opc.toNat = .none ∨ argKind opc.toNat = .rot16 ∨ argKind opc.toNat = .on) :
    plen (header opc arg) = 1 + fixedWords opc.toNat := by
  rw [plen_header h1 h2, varWords, opcode_header]
  rcases hk with h | h | h <;> rw [h] <;> rfl

theorem HeaderRow.init (rot16 nw nh : Half) : HeaderRow.Statement (.init rot16 nw nh) := by
  intro _
  refine ⟨by simp [headerOf, encode, rowOpcodes], ?_⟩
  rw [headerOf, encode, List.headD_cons, plen_plain (by decide) (by decide) (by decide)]
  rfl

theorem HeaderRow.setwin (x0 y0 x1 y1 : Half) : HeaderRow.Statement (.setwin x0 y0 x1 y1) := by
  intro _
  refine ⟨by simp [headerOf, encode, rowOpcodes], ?_⟩
  rw [headerOf, encode, List.headD_cons, plen_plain (by decide) (by decide) (by decide)]
  rfl

theorem HeaderRow.wrpix (payload : List Byte) : HeaderRow.Statement (.wrpix payload) := by
  intro hw
  have hw' : payload.length < 16777216 := of_decide_eq_true hw
  refine ⟨by simp [headerOf, encode, rowOpcodes], ?_⟩
  rw [headerOf, encode, List.headD_cons, plen_header (by decide) (by decide), varWords_bytes hw']
  rw [show fixedWords (0x03 : Byte).toNat = 0 from rfl]
  simp only [List.length_cons, dataWords_length]
  omega

theorem HeaderRow.fillrect (x y w h color : Half) : HeaderRow.Statement (.fillrect x y w h color) := by
  intro _
  refine ⟨by simp [headerOf, encode, rowOpcodes], ?_⟩
  rw [headerOf, encode, List.headD_cons, plen_plain (by decide) (by decide) (by decide)]
  rfl

theorem HeaderRow.pixel (x y color : Half) : HeaderRow.Statement (.pixel x y color) := by
  intro _
  refine ⟨by simp [headerOf, encode, rowOpcodes], ?_⟩
  rw [headerOf, encode, List.headD_cons, plen_plain (by decide) (by decide) (by decide)]
  rfl

theorem HeaderRow.hline (x y w color : Half) : HeaderRow.Statement (.hline x y w color) := by
  intro _
  refine ⟨by simp [headerOf, encode, rowOpcodes], ?_⟩
  rw [headerOf, encode, List.headD_cons, plen_plain (by decide) (by decide) (by decide)]
  rfl

theorem HeaderRow.vline (x y h color : Half) : HeaderRow.Statement (.vline x y h color) := by
  intro _
  refine ⟨by simp [headerOf, encode, rowOpcodes], ?_⟩
  rw [headerOf, encode, List.headD_cons, plen_plain (by decide) (by decide) (by decide)]
  rfl

theorem HeaderRow.line (x0 y0 x1 y1 color : Half) : HeaderRow.Statement (.line x0 y0 x1 y1 color) := by
  intro _
  refine ⟨by simp [headerOf, encode, rowOpcodes], ?_⟩
  rw [headerOf, encode, List.headD_cons, plen_plain (by decide) (by decide) (by decide)]
  rfl

theorem HeaderRow.circle (x0 y0 r color : Half) : HeaderRow.Statement (.circle x0 y0 r color) := by
  intro _
  refine ⟨by simp [headerOf, encode, rowOpcodes], ?_⟩
  rw [headerOf, encode, List.headD_cons, plen_plain (by decide) (by decide) (by decide)]
  rfl

theorem HeaderRow.fcircle (x0 y0 r color : Half) : HeaderRow.Statement (.fcircle x0 y0 r color) := by
  intro _
  refine ⟨by simp [headerOf, encode, rowOpcodes], ?_⟩
  rw [headerOf, encode, List.headD_cons, plen_plain (by decide) (by decide) (by decide)]
  rfl

theorem HeaderRow.tri (x0 y0 x1 y1 x2 y2 color : Half) : HeaderRow.Statement (.tri x0 y0 x1 y1 x2 y2 color) := by
  intro _
  refine ⟨by simp [headerOf, encode, rowOpcodes], ?_⟩
  rw [headerOf, encode, List.headD_cons, plen_plain (by decide) (by decide) (by decide)]
  rfl

theorem HeaderRow.ftri (x0 y0 x1 y1 x2 y2 color : Half) : HeaderRow.Statement (.ftri x0 y0 x1 y1 x2 y2 color) := by
  intro _
  refine ⟨by simp [headerOf, encode, rowOpcodes], ?_⟩
  rw [headerOf, encode, List.headD_cons, plen_plain (by decide) (by decide) (by decide)]
  rfl

theorem HeaderRow.text8 (font : Word) (x y fg bg : Half) (chars : List Half) :
    HeaderRow.Statement (.text8 font x y fg bg chars) := by
  intro hw
  have hw' : chars.length < 65536 := of_decide_eq_true hw
  refine ⟨by simp [headerOf, encode, rowOpcodes], ?_⟩
  rw [headerOf, encode, List.headD_cons, plen_header (by decide) (by decide), varWords_chars rfl hw']
  rw [show fixedWords (0x0D : Byte).toNat = 3 from rfl]
  simp only [List.length_cons, charWords_length]
  omega

theorem HeaderRow.text16 (font : Word) (x y fg bg : Half) (chars : List Half) :
    HeaderRow.Statement (.text16 font x y fg bg chars) := by
  intro hw
  have hw' : chars.length < 65536 := of_decide_eq_true hw
  refine ⟨by simp [headerOf, encode, rowOpcodes], ?_⟩
  rw [headerOf, encode, List.headD_cons, plen_header (by decide) (by decide), varWords_chars rfl hw']
  rw [show fixedWords (0x0E : Byte).toNat = 3 from rfl]
  simp only [List.length_cons, charWords_length]
  omega

theorem HeaderRow.tttext (font : Word) (x y fg bg : Half) (chars : List Half) :
    HeaderRow.Statement (.tttext font x y fg bg chars) := by
  intro hw
  have hw' : chars.length < 65536 := of_decide_eq_true hw
  refine ⟨by simp [headerOf, encode, rowOpcodes], ?_⟩
  rw [headerOf, encode, List.headD_cons, plen_header (by decide) (by decide), varWords_chars rfl hw']
  rw [show fixedWords (0x0F : Byte).toNat = 3 from rfl]
  simp only [List.length_cons, charWords_length]
  omega

theorem HeaderRow.ttwidth (font : Word) (chars : List Half) : HeaderRow.Statement (.ttwidth font chars) := by
  intro hw
  have hw' : chars.length < 65536 := of_decide_eq_true hw
  refine ⟨by simp [headerOf, encode, rowOpcodes], ?_⟩
  rw [headerOf, encode, List.headD_cons, plen_header (by decide) (by decide), varWords_chars rfl hw']
  rw [show fixedWords (0x10 : Byte).toNat = 1 from rfl]
  simp only [List.length_cons, charWords_length]
  omega

theorem HeaderRow.bitmap (desc : Word) (x y : Half) (index : Word) :
    HeaderRow.Statement (.bitmap desc x y index) := by
  intro _
  refine ⟨by simp [headerOf, encode, rowOpcodes], ?_⟩
  rw [headerOf, encode, List.headD_cons, plen_plain (by decide) (by decide) (by decide)]
  rfl

theorem HeaderRow.setrot (rot16 : Half) : HeaderRow.Statement (.setrot rot16) := by
  intro _
  refine ⟨by simp [headerOf, encode, rowOpcodes], ?_⟩
  rw [headerOf, encode, List.headD_cons, plen_plain (by decide) (by decide) (by decide)]
  rfl

theorem HeaderRow.setorg (xs ys : Half) : HeaderRow.Statement (.setorg xs ys) := by
  intro _
  refine ⟨by simp [headerOf, encode, rowOpcodes], ?_⟩
  rw [headerOf, encode, List.headD_cons, plen_plain (by decide) (by decide) (by decide)]
  rfl

theorem HeaderRow.sleep (on : Bool) : HeaderRow.Statement (.sleep on) := by
  intro _
  refine ⟨by simp [headerOf, encode, rowOpcodes], ?_⟩
  rw [headerOf, encode, List.headD_cons, plen_plain (by decide) (by decide) (by decide)]
  rfl

theorem HeaderRow.invert (on : Bool) : HeaderRow.Statement (.invert on) := by
  intro _
  refine ⟨by simp [headerOf, encode, rowOpcodes], ?_⟩
  rw [headerOf, encode, List.headD_cons, plen_plain (by decide) (by decide) (by decide)]
  rfl

theorem HeaderRow.display (on : Bool) : HeaderRow.Statement (.display on) := by
  intro _
  refine ⟨by simp [headerOf, encode, rowOpcodes], ?_⟩
  rw [headerOf, encode, List.headD_cons, plen_plain (by decide) (by decide) (by decide)]
  rfl

theorem HeaderRow.rgb565 (r g b : Byte) : HeaderRow.Statement (.rgb565 r g b) := by
  intro _
  refine ⟨by simp [headerOf, encode, rowOpcodes], ?_⟩
  rw [headerOf, encode, List.headD_cons, plen_plain (by decide) (by decide) (by decide)]
  rfl

theorem HeaderRow.illegal00 (low : BitVec 24) : HeaderRow.Statement (.illegal00 low) := by
  intro _
  have hl := low.isLt
  have ho : opcode (headerOf (.illegal00 low)) = (0 * 2 ^ 24 + low.toNat) / 16777216 := by
    rw [headerOf, encode, List.headD_cons, opcode_eq, toNat_append]
    rfl
  have hr : 0x00 ≤ opcode (headerOf (.illegal00 low)) ∧ opcode (headerOf (.illegal00 low)) ≤ 0x00 := by
    rw [ho]
    omega
  refine ⟨hr, ?_⟩
  rw [plen, illegalOpcode_eq_true.2 (by omega)]
  rfl

theorem HeaderRow.illegal18 (low : BitVec 27) : HeaderRow.Statement (.illegal18 low) := by
  intro _
  have hl := low.isLt
  have ho : opcode (headerOf (.illegal18 low)) = (3 * 2 ^ 27 + low.toNat) / 16777216 := by
    rw [headerOf, encode, List.headD_cons, opcode_eq, toNat_append]
    rfl
  have hr : 0x18 ≤ opcode (headerOf (.illegal18 low)) ∧ opcode (headerOf (.illegal18 low)) ≤ 0x1F := by
    rw [ho]
    omega
  refine ⟨hr, ?_⟩
  rw [plen, illegalOpcode_eq_true.2 (by omega)]
  rfl

theorem HeaderRow.illegal20 (low : BitVec 29) : HeaderRow.Statement (.illegal20 low) := by
  intro _
  have hl := low.isLt
  have ho : opcode (headerOf (.illegal20 low)) = (1 * 2 ^ 29 + low.toNat) / 16777216 := by
    rw [headerOf, encode, List.headD_cons, opcode_eq, toNat_append]
    rfl
  have hr : 0x20 ≤ opcode (headerOf (.illegal20 low)) ∧ opcode (headerOf (.illegal20 low)) ≤ 0x3F := by
    rw [ho]
    omega
  refine ⟨hr, ?_⟩
  rw [plen, illegalOpcode_eq_true.2 (by omega)]
  rfl

theorem HeaderRow.illegal40 (low : BitVec 30) : HeaderRow.Statement (.illegal40 low) := by
  intro _
  have hl := low.isLt
  have ho : opcode (headerOf (.illegal40 low)) = (1 * 2 ^ 30 + low.toNat) / 16777216 := by
    rw [headerOf, encode, List.headD_cons, opcode_eq, toNat_append]
    rfl
  have hr : 0x40 ≤ opcode (headerOf (.illegal40 low)) ∧ opcode (headerOf (.illegal40 low)) ≤ 0x7F := by
    rw [ho]
    omega
  refine ⟨hr, ?_⟩
  rw [plen, illegalOpcode_eq_true.2 (by omega)]
  rfl

theorem HeaderRow.illegal80 (low : BitVec 31) : HeaderRow.Statement (.illegal80 low) := by
  intro _
  have hl := low.isLt
  have ho : opcode (headerOf (.illegal80 low)) = (1 * 2 ^ 31 + low.toNat) / 16777216 := by
    rw [headerOf, encode, List.headD_cons, opcode_eq, toNat_append]
    rfl
  have hr : 0x80 ≤ opcode (headerOf (.illegal80 low)) ∧ opcode (headerOf (.illegal80 low)) ≤ 0xFF := by
    rw [ho]
    omega
  refine ⟨hr, ?_⟩
  rw [plen, illegalOpcode_eq_true.2 (by omega)]
  rfl

end Sys2Proof.Laws
end

