-- ==== Sys2Proof/Laws/Raster.lean ====
section
/-! SUPPORT. The loops of the raster engines in closed form, each said once, and plot lists as fills. -/

namespace Sys2Proof.Machine

/-! ### Plot lists as fills (42_raster.md R200, 41_window_blit.md R167) -/

/-- A plot as the arguments of its fill; a length below 0 counts as 0. -/
def Plot.args : Plot → FillArgs
  | .pixel x y => (x, y, 1, 1)
  | .hspan x y w => (x, y, w.toNat, 1)
  | .vspan x y h => (x, y, 1, h.toNat)

/-- The plot's length is not negative. -/
def Plot.sized : Plot → Prop
  | .pixel _ _ => True
  | .hspan _ _ w => 1 ≤ w
  | .vspan _ _ h => 1 ≤ h

/-- A plot list of lengths at least 1 is its fills. -/
theorem plotActs_eq_fillsActs (g : Geometry) (color : Half) (plots : List Plot)
    (h : ∀ p ∈ plots, p.sized) : plotActs g color plots = fillsActs g color (plots.map Plot.args) := by
  unfold plotActs fillsActs
  rw [List.flatMap_map]
  refine List.flatMap_congr fun p hp => ?_
  have hs := h p hp
  cases p with
  | pixel x y => rfl
  | hspan x y w => simp only [Plot.sized] at hs; simp [Plot.acts, Plot.args, Int.toNat_of_nonneg (show 0 ≤ w by omega)]
  | vspan x y w => simp only [Plot.sized] at hs; simp [Plot.acts, Plot.args, Int.toNat_of_nonneg (show 0 ≤ w by omega)]

/-- The fill of a plot of length at least 1 has pixels. -/
theorem Plot.args_ne_zero {p : Plot} (h : p.sized) : p.args.2.2.1 * p.args.2.2.2 ≠ 0 := by
  cases p <;> simp only [Plot.sized] at h <;> simp [Plot.args] <;> omega

/-- A command that is a plot list of lengths at least 1, in a quiet environment. -/
theorem start_plotActs (color : Half) (plots : List Plot) {s : State} (hq : s.quiet) (hne : plots ≠ [])
    (h : ∀ p ∈ plots, p.sized) :
    s.start (plotActs s.geom color plots) =
      s.drawn (s.fillsEvents color (plots.map Plot.args)) (Vector.replicate 1024 color) := by
  rw [plotActs_eq_fillsActs _ _ _ h, start_fillsActs color _ hq (by simpa using hne)]
  intro a ha
  obtain ⟨p, hp, rfl⟩ := List.mem_map.1 ha
  exact Plot.args_ne_zero (h p hp)

/-! ### LINE (R201) -/

/-- The line loop in closed form: after `k` steps the minor coordinate has moved as often as the error term has gone
below 0. -/
theorem lineLoop_eq (steep : Bool) (dx dy ystep : Int) (n : Nat) (x y err : Int) (h0 : 0 ≤ err)
    (h1 : err < dx) (h2 : 0 ≤ dy) (h3 : dy ≤ dx) :
    lineLoop steep dx dy ystep n x y err =
      (List.range n).map fun (k : Nat) =>
        if steep then Plot.pixel (y + ystep * ((k * dy + (dx - 1 - err)) / dx)) (x + k)
        else Plot.pixel (x + k) (y + ystep * ((k * dy + (dx - 1 - err)) / dx)) := by
  induction n generalizing x y err with
  | zero => rfl
  | succ n ih =>
    have hd : (dx - 1 - err) / dx = 0 := Int.ediv_eq_zero_of_lt (by omega) (by omega)
    rw [lineLoop, List.range_succ_eq_map, List.map_cons, List.map_map]
    congr 1
    · simp [hd]
    · split
      · rw [ih (x + 1) (y + ystep) (err - dy + dx) (by omega) (by omega)]
        refine List.map_congr_left fun k _ => ?_
        have hk : ((k : Int) + 1) * dy + (dx - 1 - err) = (k * dy + (dx - 1 - (err - dy + dx))) + 1 * dx := by
          ring
        simp only [Function.comp, Nat.succ_eq_add_one, Nat.cast_add, Nat.cast_one]
        rw [hk, Int.add_mul_ediv_right _ _ (by omega)]
        simp only [mul_add, mul_one, add_assoc, add_comm]
        simp only [add_left_comm]
      · rw [ih (x + 1) y (err - dy) (by omega) (by omega)]
        refine List.map_congr_left fun k _ => ?_
        have hk : ((k : Int) + 1) * dy + (dx - 1 - err) = k * dy + (dx - 1 - (err - dy)) := by ring
        simp only [Function.comp, Nat.succ_eq_add_one, Nat.cast_add, Nat.cast_one]
        rw [hk]
        simp only [add_comm, add_left_comm]

/-- LINE's plot list is its pixels (R201). -/
theorem linePlots_eq (x0 y0 x1 y1 : Int) :
    linePlots x0 y0 x1 y1 = (linePixels x0 y0 x1 y1).map fun p => .pixel p.1 p.2 := by
  have hfrom : ∀ (steep : Bool) (a b c d : Int), a ≤ c → (d - b).natAbs ≤ (c - a).natAbs →
      lineFrom steep a b c d = (List.range ((c - a).natAbs + 1)).map fun (k : Nat) =>
        if steep then Plot.pixel (b + (if b < d then 1 else -1) * lineMinor (c - a).natAbs (d - b).natAbs k) (a + k)
        else Plot.pixel (a + k) (b + (if b < d then 1 else -1) * lineMinor (c - a).natAbs (d - b).natAbs k) := by
    intro steep a b c d hac hle
    have hn : (c - a + 1).toNat = (c - a).natAbs + 1 := by omega
    have hc : c - a = ((c - a).natAbs : Int) := by omega
    unfold lineFrom
    rw [hn]
    by_cases h0 : (c - a).natAbs = 0
    · have hd : (d - b).natAbs = 0 := by omega
      simp [h0, hd, lineLoop, lineMinor]
    · rw [lineLoop_eq]
      · refine List.map_congr_left fun k _ => ?_
        have hm : ((k : Int) * ((d - b).natAbs : Int) + (c - a - 1 - (c - a).fdiv 2)) / (c - a) =
            (lineMinor (c - a).natAbs (d - b).natAbs k : Int) := by
          unfold lineMinor
          generalize (c - a).natAbs = m at *
          rw [hc, Int.fdiv_eq_ediv_of_nonneg _ (by omega)]
          have : (m : Int) - 1 - (m : Int) / 2 = ((m - 1 - m / 2 : Nat) : Int) := by omega
          rw [this]
          push_cast
          rfl
        rw [hm]
      · rw [Int.fdiv_eq_ediv_of_nonneg _ (by omega)]; omega
      · rw [Int.fdiv_eq_ediv_of_nonneg _ (by omega)]; omega
      · omega
      · omega
  unfold linePlots linePixels lineOrdered
  by_cases hs : (x1 - x0).natAbs < (y1 - y0).natAbs
  · rw [if_pos hs, if_neg (Nat.not_le.2 hs)]
    by_cases ho : y1 < y0
    · rw [if_pos ho, if_pos ho, hfrom _ _ _ _ _ (by omega) (by omega)]; simp [steepPixels, Function.comp_def]
    · rw [if_neg ho, if_neg ho, hfrom _ _ _ _ _ (by omega) (by omega)]; simp [steepPixels, Function.comp_def]
  · rw [if_neg hs, if_pos (Nat.not_lt.1 hs)]
    by_cases ho : x1 < x0
    · rw [if_pos ho, if_pos ho, hfrom _ _ _ _ _ (by omega) (by omega)]; simp [shallowPixels, Function.comp_def]
    · rw [if_neg ho, if_neg ho, hfrom _ _ _ _ _ (by omega) (by omega)]; simp [shallowPixels, Function.comp_def]

/-- A line has at least one pixel. -/
theorem linePixels_ne_nil (x0 y0 x1 y1 : Int) : linePixels x0 y0 x1 y1 ≠ [] := by
  unfold linePixels shallowPixels steepPixels
  repeat' split
  all_goals simp

/-- Pixels as fills. -/
theorem start_pixels (color : Half) (pts : List (Int × Int)) {s : State} (hq : s.quiet) (hne : pts ≠ []) :
    s.start (plotActs s.geom color (pts.map fun p => .pixel p.1 p.2)) =
      s.drawn (s.pixelEvents color pts) (Vector.replicate 1024 color) := by
  rw [start_plotActs color _ hq (by simpa using hne)
    (by intro p hp; obtain ⟨q, -, rfl⟩ := List.mem_map.1 hp; trivial)]
  simp [State.fillsEvents, State.pixelEvents, List.flatMap_map, Plot.args]

/-! ### CIRCLE and FCIRCLE (R202, R203) -/

/-- Each pass of the midpoint loop moves one column on. -/
theorem circlePoint_fst (r k : Nat) : (circlePoint r k).1 = k := by
  induction k with
  | zero => rfl
  | succ k ih => simp [circlePoint, ih]

/-- The height of a point is at most the radius. -/
theorem circlePoint_snd_le (r k : Nat) : (circlePoint r k).2 ≤ r := by
  induction k with
  | zero => exact Int.le_refl _
  | succ k ih => simp only [circlePoint]; split <;> omega

/-- The midpoint loop from a point of the circle on: `f` is the distance of the next column's point from the circle. -/
theorem circleLoop_eq (r m : Nat) : ∀ (fuel k : Nat), m ≤ fuel →
    (∀ j < m, (circlePoint r (k + j)).1 < (circlePoint r (k + j)).2) →
    ((circlePoint r (k + m)).2 ≤ (circlePoint r (k + m)).1) →
    circleLoop fuel (((circlePoint r k).1 + 1) ^ 2 + (circlePoint r k).2 ^ 2 - (circlePoint r k).2 - (r : Int) ^ 2)
      (2 * (circlePoint r k).1 + 1) (-2 * (circlePoint r k).2) (circlePoint r k).1 (circlePoint r k).2 =
      (List.range m).map fun j => circlePoint r (k + j + 1) := by
  induction m with
  | zero =>
    intro fuel k _ _ h
    cases fuel with
    | zero => rfl
    | succ f => rw [circleLoop, if_neg (by simpa using h)]; rfl
  | succ m ih =>
    intro fuel k hf hlt hend
    obtain ⟨f, rfl⟩ : ∃ f, fuel = f + 1 := ⟨fuel - 1, by omega⟩
    have h0 := hlt 0 (by omega)
    rw [Nat.add_zero] at h0
    rw [circleLoop, if_pos h0, List.range_succ_eq_map, List.map_cons, List.map_map]
    have hnext := ih f (k + 1) (by omega) (fun j hj => by
      have := hlt (j + 1) (by omega)
      rwa [show k + 1 + j = k + (j + 1) by omega]) (by rwa [show k + 1 + m = k + (m + 1) by omega])
    have e : circlePoint r (k + 1) = ((circlePoint r k).1 + 1,
      if (r : Int) ^ 2 ≤ ((circlePoint r k).1 + 1) ^ 2 + (circlePoint r k).2 ^ 2 - (circlePoint r k).2
        then (circlePoint r k).2 - 1 else (circlePoint r k).2) := rfl
    rw [e] at hnext
    generalize circlePoint r k = p at *
    obtain ⟨x, y⟩ := p
    simp only at hnext h0 ⊢
    congr 1
    · simp only [Nat.add_zero, e]
      congr 1
      by_cases hc : (r : Int) ^ 2 ≤ (x + 1) ^ 2 + y ^ 2 - y
      · rw [if_pos hc, if_pos (by omega)]
      · rw [if_neg hc, if_neg (by omega)]
    · refine Eq.trans ?_ (hnext.trans ?_)
      · by_cases hc : (r : Int) ^ 2 ≤ (x + 1) ^ 2 + y ^ 2 - y
        · simp only [if_pos hc, if_pos (show 0 ≤ (x + 1) ^ 2 + y ^ 2 - y - (r : Int) ^ 2 by omega)]
          congr 1 <;> ring
        · simp only [if_neg hc, if_neg (show ¬0 ≤ (x + 1) ^ 2 + y ^ 2 - y - (r : Int) ^ 2 by omega)]
          congr 1 <;> ring
      · refine List.map_congr_left fun j _ => ?_
        simp only [Function.comp, Nat.succ_eq_add_one]
        congr 1
        omega

/-- The passes of the midpoint loop (R202). -/
theorem circlePasses_eq {r n : Nat} (h : circleRuns r n) :
    circlePasses r = (List.range n).map fun k => circlePoint r (k + 1) := by
  have hn : n ≤ r := by
    cases n with
    | zero => omega
    | succ n =>
      have := h.1 n (by omega)
      have := circlePoint_snd_le r n
      rw [circlePoint_fst] at *
      omega
  have := circleLoop_eq r n r 0 hn (by simpa using h.1) (by simpa using h.2)
  simp only [Nat.zero_add] at this
  rw [← this]
  unfold circlePasses
  simp only [circlePoint]
  congr 1
  ring

/-- The midpoint loop ends, after at most as many passes as the radius says. -/
theorem circleRuns_exists (r : Nat) : ∃ n, n ≤ r ∧ circleRuns r n := by
  have h : ∃ n, (circlePoint r n).2 ≤ (circlePoint r n).1 :=
    ⟨r, by rw [circlePoint_fst]; exact circlePoint_snd_le r r⟩
  classical
  refine ⟨Nat.find h, Nat.find_min' h ?_, fun k hk => ?_, Nat.find_spec h⟩
  · rw [circlePoint_fst]; exact circlePoint_snd_le r r
  · exact Int.not_le.1 (Nat.find_min h hk)

/-- CIRCLE's plot list is its pixels (R202). -/
theorem circlePlots_eq {x0 y0 : Int} {r n : Nat} (h : circleRuns r n) :
    circlePlots x0 y0 r = (circlePixels x0 y0 r n).map fun p => .pixel p.1 p.2 := by
  simp only [circlePlots, circlePasses_eq h, circlePixels, List.map_append, List.map_flatMap, List.flatMap_map]
  simp [octants, eightPoints]

/-- No point of the octant lies below the centre. -/
theorem circlePoint_snd_nonneg {r n : Nat} (h : circleRuns r n) : ∀ k ≤ n, 0 ≤ (circlePoint r k).2 := by
  intro k hk
  cases k with
  | zero => simp [circlePoint]
  | succ k =>
    have := h.1 k (by omega)
    rw [circlePoint_fst] at this
    simp only [circlePoint]
    split <;> omega

/-- FCIRCLE's plot list is its spans (R203). -/
theorem fcirclePlots_eq {x0 y0 : Int} {r n : Nat} (h : circleRuns r n) :
    fcirclePlots x0 y0 r = (circleSpans x0 y0 r n).map fun v => .vspan v.1 v.2.1 v.2.2 := by
  simp only [fcirclePlots, circlePasses_eq h, circleSpans, List.map_cons, List.map_flatMap, List.flatMap_map]
  congr 1
  refine List.flatMap_congr fun k hk => ?_
  have hk := List.mem_range.1 hk
  have h1 := circlePoint_snd_nonneg h (k + 1) (by omega)
  have h2 := circlePoint_fst r (k + 1)
  simp only [passSpans, List.map_nil]
  rw [Int.toNat_of_nonneg (by omega), Int.toNat_of_nonneg (by omega)]

/-- Every span of a filled circle has a pixel. -/
theorem circleSpans_pos {x0 y0 : Int} {r n : Nat} (h : circleRuns r n) : ∀ v ∈ circleSpans x0 y0 r n, 1 ≤ v.2.2 := by
  intro v hv
  simp only [circleSpans, List.mem_cons, List.mem_flatMap, List.mem_range, List.not_mem_nil, or_false] at hv
  rcases hv with rfl | ⟨k, hk, hv⟩
  · simp
  · have h1 := circlePoint_snd_nonneg h (k + 1) (by omega)
    have h2 := circlePoint_fst r (k + 1)
    rcases hv with rfl | rfl | rfl | rfl <;> simp only <;> omega

/-! ### FTRI (R205) -/

/-- A loop of R205 in closed form. -/
theorem rowLoop_eq (xa dxa dya xb dxb dyb : Int) (n : Nat) (sa sb y : Int) :
    rowLoop xa dxa dya xb dxb dyb n sa sb y = (List.range n).map fun (k : Nat) =>
      rowSpan (xa + Int.fdiv (sa + k * dxa) dya) (xb + Int.fdiv (sb + k * dxb) dyb) (y + k) := by
  induction n generalizing sa sb y with
  | zero => rfl
  | succ n ih =>
    rw [rowLoop, ih, List.range_succ_eq_map, List.map_cons, List.map_map]
    congr 1
    · simp
    · refine List.map_congr_left fun k _ => ?_
      simp only [Function.comp, Nat.succ_eq_add_one, Nat.cast_add, Nat.cast_one]
      rw [show sa + dxa + k * dxa = sa + (k + 1) * dxa by ring, show sb + dxb + k * dxb = sb + (k + 1) * dxb by ring,
        show y + 1 + k = y + (k + 1) by ring]

/-- A row's span by its ends. -/
theorem rowSpan_eq (a b y : Int) : rowSpan a b y = .hspan (min a b) y (((a - b).natAbs + 1 : Nat)) := by
  unfold rowSpan
  split <;> congr 1 <;> omega

/-- The rows of a triangle sorted by row (R205). -/
theorem ftriSorted_eq (p q r : Int × Int) (h1 : p.2 ≤ q.2) (h2 : q.2 ≤ r.2) :
    ftriSorted p q r = (triangleSpans p q r).map fun h => .hspan h.1 h.2.1 h.2.2 := by
  obtain ⟨x0, y0⟩ := p
  obtain ⟨x1, y1⟩ := q
  obtain ⟨x2, y2⟩ := r
  simp only at h1 h2
  unfold ftriSorted triangleSpans
  simp only
  by_cases h : y0 = y2
  · rw [if_pos h, if_pos h]
    simp only [List.map_cons, List.map_nil, List.cons.injEq, and_true]
    congr 1
    omega
  · rw [if_neg h, if_neg h, List.map_map]
    generalize hu : ((if y1 = y2 then y1 else y1 - 1) - y0 + 1).toNat = u
    have hu' : (u : Int) = if y1 = y2 then y1 - y0 + 1 else y1 - y0 := by split at hu <;> rw [← hu] <;> split <;> omega
    obtain ⟨m, hm⟩ : ∃ m : Nat, (y2 - (y0 + u) + 1).toNat = m := ⟨_, rfl⟩
    have hm' : (m : Int) = if y1 = y2 then 0 else y2 - y1 + 1 := by rw [← hm, hu']; split <;> omega
    have ht : (y2 - y0 + 1).toNat = u + m := by
      have : ((u + m : Nat) : Int) = y2 - y0 + 1 := by push_cast; rw [hu', hm']; split <;> omega
      omega
    rw [hm, ht, List.range_add, List.map_append, List.map_map, rowLoop_eq, rowLoop_eq]
    congr 1
    · refine List.map_congr_left fun k hk => ?_
      have hk := List.mem_range.1 hk
      have hlt : y0 + k < y1 ∨ y1 = y2 := by
        by_cases he : y1 = y2 <;> [exact .inr he; (left; rw [if_neg he] at hu'; omega)]
      have hp : 0 ≤ y1 - y0 := by omega
      rw [rowSpan_eq]
      simp only [Function.comp, shortEdgeAt, if_pos hlt, edgeAt]
      rw [Int.fdiv_eq_ediv_of_nonneg _ hp, Int.fdiv_eq_ediv_of_nonneg _ (by omega)]
      simp only [zero_add, add_sub_cancel_left, mul_comm (k : Int)]
    · refine List.map_congr_left fun k hk => ?_
      have hk := List.mem_range.1 hk
      have he : y1 ≠ y2 := by intro he; rw [if_pos he] at hm'; omega
      rw [if_neg he] at hu' hm'
      have hlt : ¬(y0 + ((u + k : Nat) : Int) < y1 ∨ y1 = y2) := by push_cast; omega
      rw [rowSpan_eq]
      simp only [Function.comp, shortEdgeAt, if_neg hlt, edgeAt]
      rw [Int.fdiv_eq_ediv_of_nonneg _ (by omega), Int.fdiv_eq_ediv_of_nonneg _ (by omega)]
      push_cast
      rw [show (x2 - x1) * (y0 + (u : Int) - y1) + k * (x2 - x1) = (x2 - x1) * (y0 + (u + k) - y1) by ring,
        show (x2 - x0) * (y0 + (u : Int) - y0) + k * (x2 - x0) = (x2 - x0) * (y0 + (u + k) - y0) by ring,
        show y0 + (u : Int) + k = y0 + (u + k) by ring]

/-- FTRI's plot list is its spans (R205). -/
theorem ftriPlots_eq (x0 y0 x1 y1 x2 y2 : Int) :
    ftriPlots x0 y0 x1 y1 x2 y2 =
      (ftriSpans (x0, y0) (x1, y1) (x2, y2)).map fun h => .hspan h.1 h.2.1 h.2.2 := by
  unfold ftriPlots ftriSpans
  have key : ∀ a b c : Int × Int, sortRows (x0, y0) (x1, y1) (x2, y2) = (a, b, c) →
    (byRow (byRow (x0, y0) (x1, y1)).1 (byRow (byRow (x0, y0) (x1, y1)).2 (x2, y2)).1).1 = a ∧
    (byRow (byRow (x0, y0) (x1, y1)).1 (byRow (byRow (x0, y0) (x1, y1)).2 (x2, y2)).1).2 = b ∧
    (byRow (byRow (x0, y0) (x1, y1)).2 (x2, y2)).2 = c ∧ a.2 ≤ b.2 ∧ b.2 ≤ c.2 := by
    intro a b c h
    unfold sortRows at h
    simp only at h
    by_cases h1 : y1 < y0 <;> by_cases h2 : y2 < y0 <;> by_cases h3 : y2 < y1 <;>
      simp only [h1, h2, h3, if_true, if_false, Prod.mk.injEq] at h <;> obtain ⟨rfl, rfl, rfl⟩ := h <;>
      simp only [byRow, h1, h2, h3, if_true, if_false] <;>
        first | omega | (simp only [true_and]; omega) | (rw [if_neg (by omega)]; simp only [true_and]; omega)
  obtain ⟨k1, k2, k3, k4, k5⟩ := key _ _ _ rfl
  simp only
  rw [k1, k2, k3]
  exact ftriSorted_eq _ _ _ k4 k5
end Sys2Proof.Machine
end

