-- ==== Sys2Proof/Laws/Text.lean ====
section
/-! SUPPORT. The expander in closed form (43_expand.md): rasters as runs of bits, and the walk over a string as the
events of its characters, each said once. -/

namespace Sys2Proof.Machine

/-! ### Rasters -/

/-- Rows of equal length, one after the other, are one run. -/
theorem flatMap_range_mul {α : Type} (a b : Nat) (g : Nat → List α) :
    ((List.range a).flatMap fun j => (List.range b).flatMap fun i => g (j * b + i)) =
      (List.range (a * b)).flatMap g := by
  induction a with
  | zero => simp
  | succ a ih =>
    rw [List.range_succ, List.flatMap_append, ih, Nat.succ_mul, List.range_add, List.flatMap_append,
      List.flatMap_map]
    simp

/-- A pixel of a raster in numbers. -/
theorem pixelBytes_eq (fg bg : Half) (set : Bool) :
    pixelBytes fg bg set = bytesOfNat16 (if set then fg else bg).toNat := by
  simp [pixelBytes, be16_eq]

/-- A strip of a bitmap-font glyph is a run of `8 * WIDTH` bits (R243). -/
theorem stripData_eq (s : State) (f : Font1) (base p : Nat) (fg bg : Half) :
    stripData s f base p fg bg = s.rasterBytes base (8 * p * f.width) (8 * f.width) fg bg := by
  simp only [stripData, State.rasterBytes, pixelBytes_eq]
  rw [← flatMap_range_mul]
  simp only [Nat.add_mul, Nat.add_assoc]

/-- A variable-width glyph is a run of bits (R249). -/
theorem vglyphData_eq (s : State) (f : FontV) (w o : Nat) (fg bg : Half) :
    vglyphData s f w o fg bg = s.rasterBytes f.bits o (w * f.height) fg bg := by
  simp only [vglyphData, State.rasterBytes, pixelBytes_eq]
  rw [Nat.mul_comm w, ← flatMap_range_mul]
  simp only [Nat.add_assoc]

/-- A glyph's units come to its events (R243). -/
theorem glyphActs_events (s : State) (f : Font1) (c : Half) (x y : Int) (fg bg : Half) :
    (∀ a ∈ glyphActs s f (glyphAddr f c) x y fg bg, a.isOut = true) ∧
      (glyphActs s f (glyphAddr f c) x y fg bg).flatMap (·.events s) = s.glyphEvents f c x y fg bg := by
  refine ⟨fun a ha => ?_, ?_⟩
  · obtain ⟨p, -, rfl⟩ := List.mem_map.1 ha
    rfl
  · simp only [glyphActs, State.glyphEvents, List.flatMap_map, Action.events, unitEvents, windowOut_eq, Blit.bytes,
      stripData_eq]

/-- A variable-width glyph's unit comes to its events (R249). -/
theorem vglyphActs_events (s : State) (f : FontV) (w o : Nat) (x y : Int) (fg bg : Half) :
    (∀ a ∈ vglyphActs s f w o x y fg bg, a.isOut = true) ∧
      (vglyphActs s f w o x y fg bg).flatMap (·.events s) =
        s.windowEvents x y (x + w - 1) (y + f.height - 1) ++
          [Event.data (s.rasterBytes f.bits o (w * f.height) fg bg)] := by
  simp [vglyphActs, Action.isOut, Action.events, unitEvents, windowOut_eq, Blit.bytes, vglyphData_eq]

/-- The region check as an inequality (00_scope.md R12). -/
theorem assetCheck_iff (s : State) (a n : Nat) : s.assetCheck a n = true ↔ s.inAssets a n := by
  simp [State.assetCheck]

/-- The fit check as inequalities (R241). -/
theorem fits_iff (s : State) (x y : Int) (w h : Nat) :
    fits s.geom x y w h = true ↔
      (0 ≤ x ∧ 0 ≤ y ∧ x + w ≤ s.width.toNat ∧ y + h ≤ s.height.toNat) := by
  rw [fits, decide_eq_true_iff]
  rfl

/-! ### What a string depends on -/

/-- Two states with the same extent, origin, parameters and readable asset bytes. -/
def State.sameView (s t : State) : Prop := s.geom = t.geom ∧ s.cfg = t.cfg ∧ s.assetByte = t.assetByte

/-- Events change nothing of the view. -/
theorem State.sameView_emitAll (evs : List Event) (s : State) : (s.emitAll evs).sameView s := ⟨rfl, rfl, rfl⟩

/-- Words of a packet change nothing of the view. -/
theorem State.sameView_tookVar (n : Nat) (s : State) : (s.tookVar n).sameView s :=
  ⟨rfl, rfl, State.assetByte_tookWords ..⟩

/-- Bits are read alike. -/
theorem State.sameView.assetBit {s t : State} (h : s.sameView t) : s.assetBit = t.assetBit := by
  funext a k; simp [State.assetBit, h.2.2]

/-- Rasters are read alike. -/
theorem State.sameView.rasterBytes {s t : State} (h : s.sameView t) : s.rasterBytes = t.rasterBytes := by
  funext a o n fg bg; simp [State.rasterBytes, h.assetBit]

/-- Glyphs are drawn alike. -/
theorem State.sameView.glyphEvents {s t : State} (h : s.sameView t) : s.glyphEvents = t.glyphEvents := by
  funext f c x y fg bg
  simp [State.glyphEvents, State.windowEvents_congr h.1, h.rasterBytes]

/-- Bitmap-font strings are drawn alike. -/
theorem State.sameView.stringRun {s t : State} (h : s.sameView t) (f : Font1) (y : Int) (fg bg : Half) :
    s.stringRun f y fg bg = t.stringRun f y fg bg := by
  have hw : s.width = t.width := congrArg Geometry.width h.1
  have hh : s.height = t.height := congrArg Geometry.height h.1
  have ha : s.assetSize = t.assetSize := by simp [State.assetSize, h.2.1]
  funext pen l
  induction l generalizing pen with
  | nil => rfl
  | cons c l ih => simp only [State.stringRun, State.draws, State.inAssets, hw, hh, ha, ih, h.glyphEvents]

/-- Characters are looked up alike. -/
theorem State.sameView.index {s t : State} (h : s.sameView t) (f : FontV) : f.index s = f.index t := by
  funext c; simp [FontV.index, State.assetRead_congr h.2.2]

/-- Variable-width strings are drawn alike. -/
theorem State.sameView.vstringRun {s t : State} (h : s.sameView t) (f : FontV) (y : Int) (fg bg : Half) :
    s.vstringRun f y fg bg = t.vstringRun f y fg bg := by
  have ha : s.assetSize = t.assetSize := by simp [State.assetSize, h.2.1]
  have hr := State.assetRead_congr h.2.2
  funext pen l
  induction l generalizing pen with
  | nil => rfl
  | cons c l ih =>
    simp only [State.vstringRun, State.inAssets, h.index, hr, ha, ih, State.windowEvents_congr h.1, h.rasterBytes]

/-! ### The walk -/

/-- What a string comes to, when a character at a pen position emits some events and moves the pen, or fails: the
events, and where the pen is in the end, or the address that failed. -/
def walkRun (out : Int → Half → Except Nat (List Event × Int)) : Int → List Half → List Event × Except Nat Int
  | pen, [] => ([], .ok pen)
  | pen, c :: rest =>
    match out pen c with
    | .error a => ([], .error a)
    | .ok (evs, pen') => (evs ++ (walkRun out pen' rest).1, (walkRun out pen' rest).2)

/-- The words of known characters that are still to be popped. -/
def wordsToPop (chars popped : Nat) : Nat := (chars - popped + 1) / 2

/-- What a string leaves of the machine: its events, then what follows the last character, or the error. -/
def afterWalk (r : TextRun) (run : List Event × Except Nat Int) (s : State) : State :=
  match run.2 with
  | .ok pen => drain laterText ({ r with pen := pen }.finish) (s.emitAll run.1)
  | .error a => (s.emitAll run.1).failed .asset r.hdr a

/-- `out` is what the characters of a run do, whatever has been emitted and popped before. -/
def DoesChar (r : TextRun) (s : State) (out : Int → Half → Except Nat (List Event × Int)) : Prop :=
  ∀ (t : State) (q : TextRun) (c : Half), t.sameView s → q.job = r.job → q.hdr = r.hdr → q.y = r.y → q.fg = r.fg →
    q.bg = r.bg →
    match out q.pen c with
    | .ok (evs, pen) =>
      ((∀ a ∈ (charActs t q c).1, a.isOut = true) ∧ (charActs t q c).1.flatMap (·.events t) = evs) ∧
        (charActs t q c).2 = pen
    | .error a => (charActs t q c).1 = q.assetError a

/-- Actions that are events are simple. -/
theorem simple_of_isOut {a : Action} (h : a.isOut = true) : a.simple = true := by
  cases a <;> simp_all [Action.isOut, Action.simple]

/-- What follows the last character depends on the job and the pen. -/
theorem TextRun.finish_congr {r q : TextRun} (hj : r.job = q.job) (hp : r.pen = q.pen) : r.finish = q.finish := by
  simp [TextRun.finish, hj, hp]

/-- A string, all of whose characters are known and whose words are in the FIFO, in a quiet environment: it is the
events of its characters, and its words are popped (R244, R250, R251). -/
theorem runText_walk {out : Int → Half → Except Nat (List Event × Int)} (l : List Half) (r : TextRun) {s : State}
    (ho : DoesChar r s out) (hl : r.chs = l) (hm : r.more = 0) (hq : s.quiet)
    (hw : wordsToPop l.length r.popped ≤ s.fifo.length) :
    runText l r s = afterWalk r (walkRun out r.pen l) (s.tookVar (wordsToPop l.length r.popped)) := by
  induction l generalizing r s with
  | nil =>
    have h0 : wordsToPop 0 r.popped = 0 := by simp [wordsToPop]
    rw [runText, if_pos hm, List.length_nil, h0, State.tookVar_zero]
    simp [walkRun, afterWalk]
  | cons c l ih =>
    have step : ∀ (q : TextRun) (t : State), 0 < q.popped → DoesChar q t out → q.chs = c :: l → q.more = 0 → t.quiet →
        wordsToPop (l.length + 1) q.popped ≤ t.fifo.length →
        charStep c l (runText l) q t =
          afterWalk q (walkRun out q.pen (c :: l)) (t.tookVar (wordsToPop (l.length + 1) q.popped)) := by
      intro q t hp hoq hlq hmq hqt hwt
      have hn : wordsToPop l.length (q.popped - 1) = wordsToPop (l.length + 1) q.popped := by
        simp only [wordsToPop]; congr 2; omega
      have hc := hoq t q c ⟨rfl, rfl, rfl⟩ rfl rfl rfl rfl rfl
      rw [charStep, State.tick_of_quiet hqt.1 hqt.2.1]
      simp only [walkRun]
      cases hout : out q.pen c with
      | error a =>
        rw [hout] at hc
        simp only at hc ⊢
        rw [hc, TextRun.assetError, List.singleton_append, TextRun.wordsLeft, hlq, hmq, List.length_cons,
          Nat.add_zero]
        refine (drain_raise_quiet _ _ _ _ _ _ hqt hwt).trans ?_
        simp [afterWalk, wordsToPop]
      | ok p =>
        obtain ⟨evs, pen⟩ := p
        rw [hout] at hc
        simp only at hc ⊢
        have hs : ∀ a ∈ (charActs t q c).1, a.simple = true := fun a ha => simple_of_isOut (hc.1.1 a ha)
        rw [hc.2, drain_append_quiet _ _ _ hqt hs, applyAll_events _ t hc.1.1, hc.1.2,
          drain_cons_free _ _ _ (State.envDue_of_quiet (s := t.emitAll evs) hqt.1 hqt.2.1)]
        have h := ih { q with pen := pen, chs := l, popped := q.popped - 1 } (s := t.emitAll evs)
          (fun u q' c' hv => hoq u q' c' (by exact hv)) rfl hmq hqt (by rw [hn]; exact hwt)
        refine h.trans ?_
        simp only [hn, afterWalk]
        cases (walkRun out pen l).2 with
        | error a => simp [State.tookWords, State.emitAll]
        | ok pen' =>
          simp only
          rw [TextRun.finish_congr (r := { q with pen := pen', chs := l, popped := q.popped - 1 })
            (q := { q with pen := pen' }) rfl rfl]
          simp [State.tookWords, State.emitAll]
    rw [runText]
    split
    · rename_i hp0
      have hq1 : (s.pop 1).quiet := hq
      have hn : wordsToPop (l.length + 1) r.popped = 1 + wordsToPop (l.length + 1) 2 := by
        simp only [hp0, wordsToPop]; omega
      rw [List.length_cons] at hw ⊢
      rw [drain_cons_quiet _ .pop _ hq rfl,
        drain_cons_free _ _ _ (State.envDue_of_quiet (s := Action.apply .pop s) hq.1 hq.2.1)]
      refine (step { r with popped := 2 } (s.pop 1) (by simp)
        (fun t q' c' hv => ho t q' c' ⟨hv.1, hv.2.1, hv.2.2.trans (State.assetByte_pop 1 s)⟩) hl hm hq1
        (by rw [State.pop_fifo, List.length_drop]; show wordsToPop (l.length + 1) 2 ≤ _; omega)).trans ?_
      rw [State.pop_one, State.tookVar_add, hn]
      rfl
    · exact step r s (by omega) ho hl hm hq hw

/-- What a character of a bitmap-font string does (R244, R246). -/
def bitmapChar (s : State) (f : Font1) (r : TextRun) (pen : Int) (c : Half) : Except Nat (List Event × Int) :=
  if s.draws f r.y pen c then
    if s.inAssets (glyphAddr f c) (glyphBytes f) then .ok (s.glyphEvents f c pen r.y r.fg r.bg, pen + f.width)
    else .error (glyphAddr f c)
  else .ok ([], pen)

/-- What a character of a variable-width string does (R249, R250). -/
def variableChar (s : State) (f : FontV) (r : TextRun) (pen : Int) (c : Half) : Except Nat (List Event × Int) :=
  match f.index s c.toNat with
  | none => .ok ([], pen)
  | some i =>
    let w := s.assetRead (f.widths + i) 1
    let o := s.assetRead (f.offsets + f.offw * i) f.offw
    if w = 0 then .ok ([], pen)
    else if s.inAssets (glyphRegion f w o).1 (glyphRegion f w o).2 then
      .ok (s.windowEvents pen r.y (pen + w - 1) (r.y + f.height - 1) ++
        [.data (s.rasterBytes f.bits o (w * f.height) r.fg r.bg)], pen + w)
    else .error (glyphRegion f w o).1

/-- A bitmap-font string is such a walk (R244, R246). -/
theorem doesChar_bitmapFont {f : Font1} {r : TextRun} (s : State) (hj : r.job = .bitmapFont f) :
    DoesChar r s (bitmapChar s f r) := by
  intro t q c hv hqj hh hy hf hb
  unfold bitmapChar
  have hw : t.width = s.width := congrArg Geometry.width hv.1
  have hht : t.height = s.height := congrArg Geometry.height hv.1
  have ha : t.assetSize = s.assetSize := by simp [State.assetSize, hv.2.1]
  have e1 : f.glyphAt c.toNat = glyphAddr f c := rfl
  have e2 : f.glyphSize = glyphBytes f := rfl
  simp only [charActs, hqj, hj, e1, e2, hy, hf, hb]
  by_cases hd : f.first ≤ c.toNat ∧ c.toNat < f.last
  · by_cases hfit : 0 ≤ q.pen ∧ 0 ≤ r.y ∧ q.pen + f.width ≤ s.width.toNat ∧ r.y + f.height ≤ s.height.toNat
    · have hf' : fits t.geom q.pen r.y f.width f.height = true := by rw [fits_iff, hw, hht]; exact hfit
      rw [if_pos (show s.draws f r.y q.pen c from ⟨hd, hfit⟩)]
      by_cases hc : s.inAssets (glyphAddr f c) (glyphBytes f)
      · have hc' : t.assetCheck (glyphAddr f c) (glyphBytes f) = true := by
          rw [assetCheck_iff, State.inAssets, ha]; exact hc
        simp only [if_pos hc, hd, hf', hc', Bool.not_true, Bool.false_eq_true, if_false, not_true_eq_false, and_self]
        exact ⟨hv.glyphEvents ▸ glyphActs_events t f c q.pen r.y r.fg r.bg, trivial⟩
      · have hc' : t.assetCheck (glyphAddr f c) (glyphBytes f) = false := by
          rw [← Bool.not_eq_true, assetCheck_iff, State.inAssets, ha]; exact hc
        simp only [if_neg hc, hd, hf', hc', Bool.not_true, Bool.not_false, Bool.false_eq_true, if_false, if_true,
          not_true_eq_false, and_self]
    · have hf' : fits t.geom q.pen r.y f.width f.height = false := by
        rw [← Bool.not_eq_true, fits_iff, hw, hht]; exact hfit
      rw [if_neg (show ¬s.draws f r.y q.pen c from fun h => hfit h.2)]
      simp only [hd, hf', Bool.not_false, if_true, not_true_eq_false, and_self, if_false]
      exact ⟨⟨by simp, rfl⟩, trivial⟩
  · rw [if_neg (show ¬s.draws f r.y q.pen c from fun h => hd h.1)]
    simp only [hd, not_false_eq_true, if_true]
    exact ⟨⟨by simp, rfl⟩, trivial⟩

/-- A variable-width string is such a walk (R249, R250). -/
theorem doesChar_variableFont {f : FontV} {r : TextRun} (s : State) (hj : r.job = .variableFont f) :
    DoesChar r s (variableChar s f r) := by
  intro t q c hv hqj hh hy hf hb
  unfold variableChar
  have ha : t.assetSize = s.assetSize := by simp [State.assetSize, hv.2.1]
  have hr := State.assetRead_congr hv.2.2
  simp only [charActs, hqj, hj, hy, hf, hb, hv.index, FontV.widthAt, FontV.offsetAt, hr]
  cases f.index s c.toNat with
  | none => exact ⟨⟨by simp, rfl⟩, rfl⟩
  | some i =>
    simp only
    generalize s.assetRead (f.widths + i) 1 = w
    generalize s.assetRead (f.offsets + f.offw * i) f.offw = o
    by_cases h0 : w = 0
    · simp only [h0, if_true]; exact ⟨⟨by simp, rfl⟩, trivial⟩
    · simp only [if_neg h0]
      by_cases hc : s.inAssets (glyphRegion f w o).1 (glyphRegion f w o).2
      · have hc' : t.assetCheck (f.bits + o / 8) ((o + w * f.height + 7) / 8 - o / 8) = true := by
          rw [assetCheck_iff, State.inAssets, ha]; exact hc
        simp only [if_pos hc, hc', Bool.not_true, Bool.false_eq_true, if_false]
        have he := vglyphActs_events t f w o q.pen r.y r.fg r.bg
        rw [State.windowEvents_congr hv.1, hv.rasterBytes] at he
        exact ⟨he, trivial⟩
      · have hc' : t.assetCheck (f.bits + o / 8) ((o + w * f.height + 7) / 8 - o / 8) = false := by
          rw [← Bool.not_eq_true, assetCheck_iff, State.inAssets, ha]; exact hc
        simp only [if_neg hc, hc', Bool.not_false, if_true]
        rfl

/-- A measured string is such a walk (R251). -/
theorem doesChar_measure {f : FontV} {r : TextRun} (s : State) (hj : r.job = .measure f) :
    DoesChar r s fun pen c => .ok ([], pen + (s.advance f c : Nat)) := by
  intro t q c hv hqj _ _ _ _
  have hr := State.assetRead_congr hv.2.2
  simp only [charActs, hqj, hj, hv.index, FontV.widthAt, hr, State.advance]
  cases f.index s c.toNat <;> simp

/-- What a string leaves of the machine. -/
def afterRun (s : State) (hdr : Word) (run : List Event × Option Nat) : State :=
  match run.2 with
  | none => (s.emitAll run.1).endCommand
  | some a => (s.emitAll run.1).failed .asset hdr a

/-- The address that ended a walk, if one did. -/
def walkError : Except Nat Int → Option Nat
  | .ok _ => none
  | .error a => some a

/-- A string that only draws: nothing follows its last character. -/
theorem afterWalk_drawn {r : TextRun} (h : ∀ q : TextRun, q.job = r.job → q.finish = [])
    (run : List Event × Except Nat Int) (s : State) :
    afterWalk r run s = afterRun s r.hdr (run.1, walkError run.2) := by
  unfold afterWalk afterRun walkError
  cases run.2 with
  | ok pen => simp only; rw [h { r with pen := pen } rfl]; rfl
  | error a => rfl

/-- The walk of a bitmap-font string is `stringRun`. -/
theorem walkRun_bitmapChar (s : State) (f : Font1) (r : TextRun) (pen : Int) (l : List Half) :
    ((walkRun (bitmapChar s f r) pen l).1, walkError (walkRun (bitmapChar s f r) pen l).2) =
      s.stringRun f r.y r.fg r.bg pen l := by
  induction l generalizing pen with
  | nil => rfl
  | cons c l ih =>
    rw [walkRun, State.stringRun]
    by_cases hd : s.draws f r.y pen c
    · by_cases hc : s.inAssets (glyphAddr f c) (glyphBytes f)
      · have h : bitmapChar s f r pen c = .ok (s.glyphEvents f c pen r.y r.fg r.bg, pen + f.width) := by
          rw [bitmapChar, if_pos hd, if_pos hc]
        rw [h, if_pos hd, if_pos hc, ← ih]
      · have h : bitmapChar s f r pen c = .error (glyphAddr f c) := by rw [bitmapChar, if_pos hd, if_neg hc]
        rw [h, if_pos hd, if_neg hc]
        rfl
    · have h : bitmapChar s f r pen c = .ok ([], pen) := by rw [bitmapChar, if_neg hd]
      rw [h, if_neg hd, ← ih]
      rfl

/-- The walk of a variable-width string is `vstringRun`. -/
theorem walkRun_variableChar (s : State) (f : FontV) (r : TextRun) (pen : Int) (l : List Half) :
    ((walkRun (variableChar s f r) pen l).1, walkError (walkRun (variableChar s f r) pen l).2) =
      s.vstringRun f r.y r.fg r.bg pen l := by
  induction l generalizing pen with
  | nil => rfl
  | cons c l ih =>
    rw [walkRun, State.vstringRun, variableChar]
    cases f.index s c.toNat with
    | none => rw [← ih]; rfl
    | some i =>
      simp only
      generalize s.assetRead (f.widths + i) 1 = w
      generalize s.assetRead (f.offsets + f.offw * i) f.offw = o
      by_cases h0 : w = 0
      · rw [if_pos h0, if_pos h0, ← ih]; rfl
      · rw [if_neg h0, if_neg h0]
        by_cases hc : s.inAssets (glyphRegion f w o).1 (glyphRegion f w o).2
        · rw [if_pos hc, if_pos hc, ← ih]
        · rw [if_neg hc, if_neg hc]; rfl

/-- A bitmap-font string in a quiet environment (R244, R246). -/
theorem runText_bitmapFont (f : Font1) (l : List Half) (r : TextRun) (hj : r.job = .bitmapFont f) (hl : r.chs = l)
    (hm : r.more = 0) {s : State} (h : s.quiet) (hw : wordsToPop l.length r.popped ≤ s.fifo.length) :
    runText l r s =
      afterRun (s.tookVar (wordsToPop l.length r.popped)) r.hdr (s.stringRun f r.y r.fg r.bg r.pen l) := by
  rw [runText_walk l r (doesChar_bitmapFont s hj) hl hm h hw,
    afterWalk_drawn (fun q hq => by rw [TextRun.finish, hq, hj]), walkRun_bitmapChar]

/-- A variable-width string in a quiet environment (R249, R250). -/
theorem runText_variableFont (f : FontV) (l : List Half) (r : TextRun) (hj : r.job = .variableFont f) (hl : r.chs = l)
    (hm : r.more = 0) {s : State} (h : s.quiet) (hw : wordsToPop l.length r.popped ≤ s.fifo.length) :
    runText l r s =
      afterRun (s.tookVar (wordsToPop l.length r.popped)) r.hdr (s.vstringRun f r.y r.fg r.bg r.pen l) := by
  rw [runText_walk l r (doesChar_variableFont s hj) hl hm h hw,
    afterWalk_drawn (fun q hq => by rw [TextRun.finish, hq, hj]), walkRun_variableChar]

/-- A variable-width string in two parts: when the first draws to its end, the second goes on where the widths of the
first have moved the pen (R250, R251). -/
theorem State.vstringRun_append (s : State) (f : FontV) (y : Int) (fg bg : Half) (l m : List Half) (pen : Int)
    (h : (s.vstringRun f y fg bg pen l).2 = none) :
    s.vstringRun f y fg bg pen (l ++ m) =
      ((s.vstringRun f y fg bg pen l).1 ++ (s.vstringRun f y fg bg (pen + s.measure f l) m).1,
        (s.vstringRun f y fg bg (pen + s.measure f l) m).2) := by
  induction l generalizing pen with
  | nil => simp [State.vstringRun, State.measure]
  | cons c l ih =>
    have hm : s.measure f (c :: l) = s.advance f c + s.measure f l := by simp [State.measure]
    rw [hm]
    unfold State.vstringRun at h
    rw [List.cons_append]
    conv_lhs => unfold State.vstringRun
    conv_rhs => rw [State.vstringRun]
    cases hi : f.index s c.toNat with
    | none =>
      simp only [hi] at h ⊢
      rw [ih _ h]
      simp [State.advance, hi]
    | some i =>
      simp only [hi] at h ⊢
      have ha : s.advance f c = s.assetRead (f.widths + i) 1 := by simp [State.advance, hi]
      rw [ha]
      by_cases h0 : s.assetRead (f.widths + i) 1 = 0
      · simp only [if_pos h0] at h ⊢
        rw [ih _ h, h0]
        simp
      · simp only [if_neg h0] at h ⊢
        split at h
        · rename_i hc
          rw [if_pos hc, if_pos hc]
          simp only at h
          rw [ih _ h]
          simp [Int.add_assoc]
        · exact absurd h (by simp)

/-- A measured string in a quiet environment (R251). -/
theorem runText_measure (f : FontV) (l : List Half) (r : TextRun) (hj : r.job = .measure f) (hl : r.chs = l)
    (hm : r.more = 0) {s : State} (h : s.quiet) (hw : wordsToPop l.length r.popped ≤ s.fifo.length) :
    runText l r s =
      { s.tookVar (wordsToPop l.length r.popped) with
        result := BitVec.ofInt 32 (r.pen + s.measure f l), todo := [], phase := .idle } := by
  rw [runText_walk l r (doesChar_measure s hj) hl hm h hw]
  have hq : (s.tookVar (wordsToPop l.length r.popped)).quiet := h
  revert hq
  generalize s.tookVar (wordsToPop l.length r.popped) = t
  intro hq
  have key : ∀ pen : Int, walkRun (fun pen c => .ok ([], pen + (s.advance f c : Nat))) pen l =
      ([], .ok (pen + (s.measure f l : Nat))) := by
    clear hl hw
    induction l with
    | nil => intro pen; simp [walkRun, State.measure]
    | cons c l ih => intro pen; simp [walkRun, ih, State.measure, Int.add_assoc]
  rw [key, afterWalk]
  simp only [TextRun.finish, hj, State.emitAll_nil]
  rw [drain_quiet _ _ hq (by simp [Action.simple])]
  simp [Action.apply, State.endCommand]

/-! ### Numbers from bytes and bits -/

/-- Digits, the most significant first, as a sum. -/
theorem foldl_digits (b : Nat) (l : List Nat) (acc : Nat) :
    l.foldl (fun acc d => acc * b + d) acc =
      acc * b ^ l.length + ((List.range l.length).map fun j => l.getD j 0 * b ^ (l.length - 1 - j)).sum := by
  induction l generalizing acc with
  | nil => simp
  | cons d l ih =>
    rw [List.foldl_cons, ih, List.length_cons, List.range_succ_eq_map, List.map_cons, List.map_map, List.sum_cons]
    have hm : ((List.range l.length).map
        ((fun j => (d :: l).getD j 0 * b ^ (l.length + 1 - 1 - j)) ∘ Nat.succ)) =
        (List.range l.length).map fun j => l.getD j 0 * b ^ (l.length - 1 - j) := by
      refine List.map_congr_left fun j _ => ?_
      simp only [Function.comp, Nat.succ_eq_add_one, List.getD_cons_succ]
      congr 2
      omega
    rw [hm]
    simp only [List.getD_cons_zero, Nat.add_sub_cancel, Nat.sub_zero]
    rw [Nat.pow_succ]
    ring

/-- `AssetRead` as a sum (20_memory.md R53). -/
theorem assetRead_eq_sum (s : State) (a n : Nat) :
    s.assetRead a n = ((List.range n).map fun j => (s.assetByte (a + j)).toNat * 256 ^ (n - 1 - j)).sum := by
  have h := foldl_digits 256 ((List.range n).map fun k => (s.assetByte (a + k)).toNat) 0
  rw [List.foldl_map, Nat.zero_mul, Nat.zero_add, List.length_map, List.length_range] at h
  rw [State.assetRead, beNat, List.foldl_map, h]
  congr 1
  refine List.map_congr_left fun j hj => ?_
  rw [List.getD_eq_getElem?_getD, List.getElem?_map, List.getElem?_range (List.mem_range.1 hj)]
  rfl

/-- A palette index as a sum (R253). -/
theorem pixelIndex_eq_sum (s : State) (b : Bmp) (index k : Nat) :
    b.pixelIndex s (b.frameBit index) k = s.paletteIndex b index k := by
  have h := foldl_digits 2
    ((List.range b.bpp).map fun t => (s.assetBit b.bits (b.frameBit index + k * b.bpp + t)).toNat) 0
  rw [List.foldl_map, Nat.zero_mul, Nat.zero_add, List.length_map, List.length_range] at h
  unfold Bmp.pixelIndex State.paletteIndex
  simp only [Nat.mul_comm 2]
  rw [h]
  congr 1
  refine List.map_congr_left fun j hj => ?_
  rw [List.getD_eq_getElem?_getD, List.getElem?_map, List.getElem?_range (List.mem_range.1 hj)]
  rfl

/-- A field of `n` bytes is below `256 ^ n`. -/
theorem assetRead_lt (s : State) (a n : Nat) : s.assetRead a n < 256 ^ n := by
  have key : ∀ (l : List Byte) (acc : Nat),
      l.foldl (fun acc b => acc * 256 + b.toNat) acc < (acc + 1) * 256 ^ l.length := by
    intro l
    induction l with
    | nil => simp
    | cons d l ih =>
      intro acc
      refine Nat.lt_of_lt_of_le (ih _) ?_
      rw [List.length_cons, Nat.pow_succ, Nat.mul_comm (256 ^ l.length), ← Nat.mul_assoc]
      refine Nat.mul_le_mul_right _ ?_
      have := d.isLt
      show acc * 256 + d.toNat + 1 ≤ (acc + 1) * 256
      omega
  have := key ((List.range n).map fun k => s.assetByte (a + k)) 0
  simpa [State.assetRead, beNat] using this

/-- A frame's pixels (R254). -/
theorem frameData_eq (s : State) (b : Bmp) (index : Nat) : b.frameData s index = s.frameBytes b index := by
  unfold Bmp.frameData State.frameBytes
  simp only [be16_eq, pixelIndex_eq_sum]
  refine List.flatMap_congr fun k _ => ?_
  rw [BitVec.toNat_ofNat, Nat.mod_eq_of_lt (show _ < 2 ^ 16 from assetRead_lt s _ 2)]

/-! ### Descriptors and headers -/

/-- A region check that fails, as an inequality. -/
theorem assetCheck_eq_false {s : State} {a n : Nat} (hn : n ≠ 0) :
    s.assetCheck a n = false ↔ s.assetSize < a + n := by
  rw [← Bool.not_eq_true, assetCheck_iff]
  simp [hn]

/-- Reading a FONT1 descriptor (R242, R244). -/
theorem readFont1_eq (s : State) (wexp a : Nat) :
    readFont1 s wexp a =
      if s.assetSize < a + 12 then .error (.asset, a)
      else if ¬s.font1Valid wexp a then .error (.desc, 0) else .ok (s.font1 a) := by
  unfold readFont1
  by_cases h1 : s.assetSize < a + 12
  · simp only [(assetCheck_eq_false (by decide)).2 h1, Bool.not_false, if_true, if_pos h1]
  · have hc : s.assetCheck a 12 = true := by
      by_contra hc; exact h1 ((assetCheck_eq_false (by decide)).1 (by simpa using hc))
    simp only [hc, Bool.not_true, Bool.false_eq_true, if_false, if_neg h1]
    unfold State.font1Valid
    by_cases h2 : s.assetRead (a + 4) 1 = wexp
    · by_cases h3 : s.assetRead (a + 5) 1 = 0
      · simp [h2, h3]
      · by_cases h4 : s.assetRead (a + 5) 1 % 8 = 0
        · by_cases h5 : s.assetRead (a + 6) 2 = 0
          · simp [h2, h3, h4, h5, State.font1]
          · simp [h2, h3, h4, h5]
        · simp [h2, h3, h4]
    · simp [h2]

/-- Reading a FONTV descriptor and checking its tables (R247, R251). -/
theorem readFontV_eq (s : State) (withOffsets : Bool) (a : Nat) :
    readFontV s withOffsets a =
      if s.assetSize < a + 20 then .error (.asset, a)
      else if ¬s.fontVValid a then .error (.desc, 0)
      else
        match s.missingTable (s.fontV a) withOffsets with
        | some t => .error (.asset, t)
        | none => .ok (s.fontV a) := by
  unfold readFontV
  by_cases h1 : s.assetSize < a + 20
  · simp only [(assetCheck_eq_false (by decide)).2 h1, Bool.not_false, if_true, if_pos h1]
  · have hc : s.assetCheck a 20 = true := by
      by_contra hc; exact h1 ((assetCheck_eq_false (by decide)).1 (by simpa using hc))
    simp only [hc, Bool.not_true, Bool.false_eq_true, if_false, if_neg h1]
    have hf : fontVAt s a = s.fontV a := rfl
    have table : ∀ b n, (!s.assetCheck b n) = true ↔ ¬s.inAssets b n := fun b n => by
      rw [Bool.not_eq_true', ← Bool.not_eq_true, assetCheck_iff]
    by_cases h2 : s.fontVValid a
    · have h3 : ¬(s.fontV a).height = 0 := h2.1
      have h4 : ¬((s.fontV a).offw < 1 ∨ 3 < (s.fontV a).offw) := by
        have h5 : 1 ≤ (s.fontV a).offw ∧ (s.fontV a).offw ≤ 3 := h2.2
        omega
      rw [hf, if_neg h3, if_neg h4, if_neg (show ¬¬s.fontVValid a from not_not.2 h2)]
      unfold State.missingTable
      by_cases t1 : s.inAssets (s.fontV a).map (2 * (s.fontV a).maplen)
      · rw [if_neg (fun h => (table _ _).1 h t1), if_neg (not_not.2 t1)]
        by_cases t2 : s.inAssets (s.fontV a).widths (s.fontV a).maplen
        · rw [if_neg (fun h => (table _ _).1 h t2), if_neg (not_not.2 t2)]
          have t3 : (withOffsets && !s.assetCheck (s.fontV a).offsets ((s.fontV a).offw * (s.fontV a).maplen)) = true ↔
              withOffsets = true ∧ ¬s.inAssets (s.fontV a).offsets ((s.fontV a).offw * (s.fontV a).maplen) := by
            rw [Bool.and_eq_true, table]
          by_cases t4 : withOffsets = true ∧ ¬s.inAssets (s.fontV a).offsets ((s.fontV a).offw * (s.fontV a).maplen)
          · rw [if_pos (t3.2 t4), if_pos t4]
          · rw [if_neg (fun h => t4 (t3.1 h)), if_neg t4]
        · rw [if_pos ((table _ _).2 t2), if_pos t2]
      · rw [if_pos ((table _ _).2 t1), if_pos t1]
    · rw [hf, if_pos h2]
      by_cases h3 : (s.fontV a).height = 0
      · rw [if_pos h3]
      · rw [if_neg h3, if_pos]
        by_contra h4
        have h5 : 1 ≤ (s.fontV a).offw ∧ (s.fontV a).offw ≤ 3 := by omega
        exact h2 ⟨h3, h5⟩

/-- What a string leaves, the state having entered EXEC. -/
theorem afterRun_enter (s : State) (hdr : Word) (run : List Event × Option Nat) :
    afterRun s.enter hdr run = s.afterText hdr run := by
  unfold afterRun State.afterText
  cases run.2 with
  | none => rfl
  | some a => exact State.failed_enter .asset hdr a (s.emitAll run.1)

/-- Entering EXEC changes nothing of the view. -/
theorem State.sameView_enter (s : State) : s.enter.sameView s := ⟨rfl, rfl, rfl⟩

/-- A header with a 16-bit field, in numbers (30_encoding.md R81). -/
theorem header_arg16_eq (opc : Byte) (n : Nat) (hn : n < 65536) :
    header opc (arg16 (BitVec.ofNat 16 n)) = BitVec.ofNat 32 (opc.toNat * 16777216 + n) := by
  have h := opc.isLt
  apply BitVec.eq_of_toNat_eq
  rw [header, arg16, toNat_append, toNat_append]
  simp only [show (0 : Byte).toNat = 0 from rfl, BitVec.toNat_ofNat]
  omega

end Sys2Proof.Machine
end

