-- ==== Sys2Proof/Tests/Slice0.lean ====
section
/-! SUPPORT. Our own tests. Every expected value is copied or worked out by hand from the spec (95_test_vectors.md, and
the rule a comment names); the configuration and the asset image are its section 2 and 43_expand.md R255. After the
tests stand the witnesses: for each obligation with hypotheses, a state and operands that meet them. -/

namespace Sys2Proof.Tests

open Sys2Proof Sys2Proof.Machine

/-! ### Well-formedness: an ill-formed term for each check -/

/-- One payload byte more than NBYTES can count. -/
theorem test_wf_refuses_long_payload (l : List Byte) (h : l.length = 16777216) : (Instr.wrpix l).wf = false :=
  decide_eq_false (by omega)

/-- One character more than NCHARS can count. -/
theorem test_wf_refuses_long_strings (l : List Half) (h : l.length = 65536) :
    (Instr.text8 0 0 0 0 0 l).wf = false ∧ (Instr.text16 0 0 0 0 0 l).wf = false ∧
      (Instr.tttext 0 0 0 0 0 l).wf = false ∧ (Instr.ttwidth 0 l).wf = false :=
  ⟨decide_eq_false (by omega), decide_eq_false (by omega), decide_eq_false (by omega), decide_eq_false (by omega)⟩

/-- Such terms there are. -/
theorem test_wf_ill_formed_terms :
    ∃ (p : List Byte) (l : List Half), p.length = 16777216 ∧ l.length = 65536 ∧
      (Instr.wrpix p).wf = false ∧ (Instr.text8 0 0 0 0 0 l).wf = false ∧ (Instr.text16 0 0 0 0 0 l).wf = false ∧
      (Instr.tttext 0 0 0 0 0 l).wf = false ∧ (Instr.ttwidth 0 l).wf = false := by
  obtain ⟨p, hp⟩ : ∃ p : List Byte, p.length = 16777216 := ⟨List.replicate 16777216 0, List.length_replicate⟩
  obtain ⟨l, hl⟩ : ∃ l : List Half, l.length = 65536 := ⟨List.replicate 65536 0, List.length_replicate⟩
  exact ⟨p, l, hp, hl, test_wf_refuses_long_payload p hp, test_wf_refuses_long_strings l hl⟩

theorem test_wf_accepts_the_longest (p : List Byte) (l : List Half) (hp : p.length = 16777215)
    (hl : l.length = 65535) : (Instr.wrpix p).wf = true ∧ (Instr.ttwidth 0 l).wf = true :=
  ⟨decide_eq_true (by omega), decide_eq_true (by omega)⟩

/-! ### Decoding: words written out from 30_encoding.md (vectors E-1, E-2, E-3) -/

theorem test_decode_init : decode [0x01000001, 0x014001E0] = .ok (.init 1 320 480, []) := by decide
theorem test_decode_setwin :
    decode [0x02000000, 0x00010002, 0x012C0190] = .ok (.setwin 1 2 300 400, []) := by decide
theorem test_decode_wrpix :
    decode [0x03000005, 0x01020304, 0x05FFFFFF] = .ok (.wrpix [1, 2, 3, 4, 5], []) := by decide
theorem test_decode_fillrect :
    decode [0x04000000, 0x000A0014, 0x001E0028, 0x0000F800] = .ok (.fillrect 10 20 30 40 0xF800, []) := by decide
theorem test_decode_pixel :
    decode [0x05000000, 0xFFFFFFFE, 0x0000001F] = .ok (.pixel (-1) (-2) 0x1F, []) := by decide
theorem test_decode_hline :
    decode [0x06000000, 0x00070009, 0x00000003, 0x0000FFFF] = .ok (.hline 7 9 3 0xFFFF, []) := by decide
theorem test_decode_vline :
    decode [0x07000000, 0x00050001, 0x00000002, 0x000007E0] = .ok (.vline 5 1 2 0x07E0, []) := by decide
theorem test_decode_line :
    decode [0x08000000, 0x00000003, 0x00050002, 0x0000FFFF] = .ok (.line 0 3 5 2 0xFFFF, []) := by decide
theorem test_decode_circle :
    decode [0x09000000, 0x000A000B, 0x00000002, 0x0000F800] = .ok (.circle 10 11 2 0xF800, []) := by decide
theorem test_decode_fcircle :
    decode [0x0A000000, 0x000A000B, 0x00000001, 0x0000F800] = .ok (.fcircle 10 11 1 0xF800, []) := by decide
theorem test_decode_tri :
    decode [0x0B000000, 0x00010002, 0x00030004, 0x00050006, 0x0000FFFF] = .ok (.tri 1 2 3 4 5 6 0xFFFF, []) := by
  decide
theorem test_decode_ftri :
    decode [0x0C000000, 0x00010002, 0x00030004, 0x00050006, 0x0000FFFF] = .ok (.ftri 1 2 3 4 5 6 0xFFFF, []) := by
  decide
theorem test_decode_text8 :
    decode [0x0D000003, 0x00000040, 0x00010002, 0xFFFF0003, 0x0041005A, 0x0042FFFF] =
      .ok (.text8 0x40 1 2 0xFFFF 3 [0x41, 0x5A, 0x42], []) := by decide
theorem test_decode_text16 :
    decode [0x0E000001, 0x00000080, 0x00000000, 0xFFFF0000, 0x00300000, 0x12000000] =
      .ok (.text16 0x80 0 0 0xFFFF 0 [0x30], [0x12000000]) := by decide
theorem test_decode_tttext :
    decode [0x0F000002, 0x00000040, 0x000A0014, 0xFFFF0000, 0x00610062] =
      .ok (.tttext 0x40 10 20 0xFFFF 0 [0x61, 0x62], []) := by decide
theorem test_decode_ttwidth :
    decode [0x10000003, 0x00000040, 0x00610062, 0x00630000] =
      .ok (.ttwidth 0x40 [0x61, 0x62, 0x63], []) := by decide
theorem test_decode_bitmap :
    decode [0x11000000, 0x00000060, 0x00050006, 0x00000001] = .ok (.bitmap 0x60 5 6 1, []) := by decide
theorem test_decode_setrot : decode [0x1200000B] = .ok (.setrot 11, []) := by decide
theorem test_decode_setorg : decode [0x13000000, 0x00010050] = .ok (.setorg 1 80, []) := by decide
theorem test_decode_sleep :
    decode [0x14000001] = .ok (.sleep true, []) ∧ decode [0x14000000] = .ok (.sleep false, []) := by decide
theorem test_decode_invert :
    decode [0x15000001] = .ok (.invert true, []) ∧ decode [0x15000000] = .ok (.invert false, []) := by decide
theorem test_decode_display :
    decode [0x16000001] = .ok (.display true, []) ∧ decode [0x16000000] = .ok (.display false, []) := by decide
theorem test_decode_rgb565 :
    decode [0x17000000, 0x00FF8040] = .ok (.rgb565 0xFF 0x80 0x40, []) := by decide
theorem test_decode_illegal :
    decode [0x00000000] = .ok (.illegal00 0, []) ∧ decode [0x18000000] = .ok (.illegal18 0, []) ∧
      decode [0x1F000007] = .ok (.illegal18 0x7000007, []) ∧ decode [0x20000001] = .ok (.illegal20 1, []) ∧
      decode [0x7FFFFFFF] = .ok (.illegal40 0x3FFFFFFF, []) ∧
      decode [0xFF123456] = .ok (.illegal80 0x7F123456, []) := by decide
theorem test_decode_rejects_by_name :
    decode [0x12010000] = .error .reserved ∧ decode [0x14000002] = .error .reserved ∧
      decode [0x05000000, 0x00000000, 0x00010000] = .error .reserved ∧
      decode [0x17000000, 0x01FF8040] = .error .reserved ∧
      decode [0x05000000, 0x00000000] = .error .needFixed ∧
      decode [0x03000003] = .error .needVar := by decide
theorem test_plen :
    plen 0x03000000 = 1 ∧ plen 0x03000003 = 2 ∧ plen 0x03FFFFFF = 4194305 ∧ plen 0x0D000000 = 4 ∧
      plen 0x0D00FFFF = 32772 ∧ plen 0x10000000 = 2 ∧ plen 0x0D010003 = 6 ∧ plen 0x1200FFFF = 1 := by decide
theorem test_decodeTableWord :
    decodeTableWord 32 0x05000000 = some (.pixel 0 0 0) ∧
      decodeTableWord 64 0x00FF804017000000 = some (.rgb565 0xFF 0x80 0x40) ∧
      decodeTableWord 32 0x12010000 = none := by decide

/-! ### One step: the test configuration, the image of R255, start state S0 -/

/-- 95_test_vectors.md section 2. -/
def cfg0 : Config where
  assetSize := 0xB0
  fifoDepthLess1 := 15
  madctl := #v[0x48, 0x28, 0x88, 0xE8, 0xC8, 0x68, 0x08, 0xA8]
  colmod16bpp := 0x55
  vendorInit := []
  tRst := #v[0, 0, 0, 0]
  tSwreset := 0
  tSlpout := 0
  tSettle := 0
  spiMode := 0
  spiHzLess1 := 0
  windowBase := 0
  assetBase := 0

/-- Bytes from an address on, those of 0x00 not listed. -/
def bytesAt (a : Nat) (l : List Nat) : Memory :=
  (l.zipIdx a).filterMap fun b => if b.1 = 0 then none else some (b.2, BitVec.ofNat 8 b.1)

/-- 43_expand.md R255. -/
def image : Memory :=
  bytesAt 0x00 [0x00, 0x41, 0x00, 0x43, 8, 8, 0, 0, 0, 0, 0, 0x0C] ++
  bytesAt 0x0C [0x18, 0x24, 0x42, 0x7E, 0x42, 0x42, 0x42, 0] ++
  bytesAt 0x14 [0x7C, 0x42, 0x7C, 0x42, 0x42, 0x42, 0x7C, 0] ++
  bytesAt 0x40 [2, 1, 0, 2, 0, 0, 0, 0x54, 0, 0, 0, 0x58, 0, 0, 0, 0x5A, 0, 0, 0, 0x5C] ++
  bytesAt 0x54 [0, 0x61, 0, 0x62, 1, 3, 0, 2, 0xAB] ++
  bytesAt 0x60 [0, 2, 0, 2, 2, 0, 0, 2, 0, 0, 0, 0x70, 0, 0, 0, 0x78] ++
  bytesAt 0x70 [0, 0, 0xF8, 0, 0x07, 0xE0, 0, 0x1F, 0x1B, 0xE4] ++
  bytesAt 0x80 [0, 0x30, 0, 0x31, 0x10, 0x10, 0, 0, 0, 0, 0, 0x8C] ++
  bytesAt 0x8C (0xFF :: 0xFF :: (List.replicate 14 [0x80, 0x01]).flatten ++ [0xFF, 0xFF])

/-- Power-on reset in the test configuration, the image loaded. -/
def boot : State := { State.reset with cfg := cfg0, assets := image }

/-- S0: after `INIT [320, 480], #0`, its events not shown. -/
def s0 : State := { boot with ready := true, nativeW := 320, nativeH := 480, width := 320, height := 480 }

/-- The state after one step, where there is one. -/
def after (words : List Word) (s : State) : State :=
  match step { s with fifo := words } with
  | .next t => t
  | _ => s

/-- The events of one step. -/
def trace (words : List Word) (s : State) : List Event := (after words s).trace

/-- A colour 0xFFFF pixel for each true, 0x0000 for each false. -/
def mono (l : List Nat) : List Byte := l.flatMap fun b => if b = 1 then [0xFF, 0xFF] else [0, 0]

/-- How many data bytes each event has. -/
def dataLengths (l : List Event) : List Nat :=
  l.map fun e => match e with
    | .cmdData _ d => d.length
    | .data d => d.length
    | _ => 0

/-- P-2. -/
theorem test_init : trace [0x01000001, 0x00040002] boot =
    [.pinRst false, .pinRst true, .pinRst false, .pinRst true, .cmd 0x01, .cmd 0x11, .cmdData 0x3A [0x55],
      .cmdData 0x36 [0x28], .cmdData 0x2A [0, 0, 0, 1], .cmdData 0x2B [0, 0, 0, 3], .cmd 0x2C,
      .data (mono [0, 0, 0, 0, 0, 0, 0, 0])] ∧
    (after [0x01000001, 0x00040002] boot).readReg 0x10 = 0x00020004 ∧
    (after [0x01000001, 0x00040002] boot).readReg 0x04 = 0x00000004 := by decide

/-- P-4, the delays and the vendor list, up to the window. -/
theorem test_init_delays : (trace [0x01000000, 0x00020001]
    { boot with
      cfg := { cfg0 with
        tRst := #v[1, 0, 5, 120], tSwreset := 150, tSlpout := 120, tSettle := 50
        vendorInit := [.send 0xF0 (some [0xC3]), .delay 10, .send 0x13 none] } }).take 17 =
    [.pinRst false, .wait 1, .pinRst true, .pinRst false, .wait 5, .pinRst true, .wait 120, .cmd 0x01, .wait 150,
      .cmd 0x11, .wait 120, .cmdData 0x3A [0x55], .cmdData 0x36 [0x48], .cmdData 0xF0 [0xC3], .wait 10, .cmd 0x13,
      .wait 50] := by decide

/-- S2: the end equal to the extent is accepted. -/
theorem test_setwin : trace [0x02000000, 0x00000000, 0x014001E0] s0 =
    [.cmdData 0x2A [0, 0, 0x01, 0x40], .cmdData 0x2B [0, 0, 0x01, 0xE0], .cmd 0x2C] := by decide

/-- S2: one past it is not; nor is a start past the end. -/
theorem test_setwin_dropped : trace [0x02000000, 0x00000000, 0x01410000] s0 = [] ∧
    trace [0x02000000, 0x00000005, 0x00000004] s0 = [] := by decide

/-- W-4. -/
theorem test_wrpix : trace [0x03000005, 0x01020304, 0x05FFFFFF] s0 = [.data [1, 2, 3, 4, 5]] ∧
    trace [0x03000000] s0 = [.data []] := by decide

/-- W-2: one full chunk and 32 pixels. -/
theorem test_fillrect : dataLengths (trace [0x04000000, 0x00000000, 0x00200021, 0x0000F800] s0) =
    [4, 4, 0, 2048, 64] := by decide +kernel

/-- W-2: a dropped window and all its pixels. -/
theorem test_fillrect_dropped : trace [0x04000000, 0xFFFBFFFB, 0x00020002, 0x00001234] s0 =
    [.data [0x12, 0x34, 0x12, 0x34, 0x12, 0x34, 0x12, 0x34]] := by decide

/-- W-3. -/
theorem test_pixel : trace [0x05000000, 0x014001E0, 0x0000ABCD] s0 =
    [.cmdData 0x2A [0x01, 0x40, 0x01, 0x40], .cmdData 0x2B [0x01, 0xE0, 0x01, 0xE0], .cmd 0x2C,
      .data [0xAB, 0xCD]] := by decide

/-- P-6: the origin is added after the check, modulo 2^16 (R163). -/
theorem test_pixel_origin : trace [0x05000000, 0x00010000, 0x0000FFFF] { s0 with xstart := 0xFFFF, ystart := 80 } =
    [.cmdData 0x2A [0, 0, 0, 0], .cmdData 0x2B [0, 0x50, 0, 0x50], .cmd 0x2C, .data [0xFF, 0xFF]] := by decide

/-- W-3. -/
theorem test_hline : trace [0x06000000, 0x013E0000, 0x00000003, 0x000007E0] s0 =
    [.cmdData 0x2A [0x01, 0x3E, 0x01, 0x40], .cmdData 0x2B [0, 0, 0, 0], .cmd 0x2C,
      .data [0x07, 0xE0, 0x07, 0xE0, 0x07, 0xE0]] ∧
    trace [0x06000000, 0x00000000, 0x00000000, 0x0000FFFF] s0 = [] := by decide

/-- W-3. -/
theorem test_vline : trace [0x07000000, 0x00050001, 0x00000002, 0x000007E0] s0 =
    [.cmdData 0x2A [0, 5, 0, 5], .cmdData 0x2B [0, 1, 0, 2], .cmd 0x2C, .data [0x07, 0xE0, 0x07, 0xE0]] := by decide

/-- R-1: an off-panel pixel sends its data alone. -/
theorem test_line : trace [0x08000000, 0xFFFF0000, 0x00000000, 0x0000F800] s0 =
    [.data [0xF8, 0], .cmdData 0x2A [0, 0, 0, 0], .cmdData 0x2B [0, 0, 0, 0], .cmd 0x2C, .data [0xF8, 0]] := by decide

/-- S4 and R-1: steep, and falling. -/
theorem test_line_plots :
    linePlots 0 0 2 5 = [.pixel 0 0, .pixel 0 1, .pixel 1 2, .pixel 1 3, .pixel 2 4, .pixel 2 5] ∧
    linePlots 0 3 6 0 = [.pixel 0 3, .pixel 1 3, .pixel 2 2, .pixel 3 2, .pixel 4 1, .pixel 5 1, .pixel 6 0] := by
  decide

/-- S5, radius 3. -/
theorem test_circle_plots : circlePlots 10 10 3 =
    [.pixel 10 13, .pixel 10 7, .pixel 13 10, .pixel 7 10,
      .pixel 11 13, .pixel 9 13, .pixel 11 7, .pixel 9 7, .pixel 13 11, .pixel 7 11, .pixel 13 9, .pixel 7 9,
      .pixel 12 12, .pixel 8 12, .pixel 12 8, .pixel 8 8, .pixel 12 12, .pixel 8 12, .pixel 12 8, .pixel 8 8] := by
  decide

/-- S5, radius 0: four plots of the centre. -/
theorem test_circle : (trace [0x09000000, 0x000A000A, 0x00000000, 0x0000F800] s0).length = 16 := by decide

/-- R-3, radius 3. -/
theorem test_fcircle_plots : fcirclePlots 10 10 3 =
    [.vspan 10 7 7, .vspan 11 7 7, .vspan 13 9 3, .vspan 9 7 7, .vspan 7 9 3, .vspan 12 8 5, .vspan 12 8 5,
      .vspan 8 8 5, .vspan 8 8 5] := by decide

/-- R-3, radius 0. -/
theorem test_fcircle : trace [0x0A000000, 0x000A000A, 0x00000000, 0x0000F800] s0 =
    [.cmdData 0x2A [0, 10, 0, 10], .cmdData 0x2B [0, 10, 0, 10], .cmd 0x2C, .data [0xF8, 0]] := by decide

/-- R-4. -/
theorem test_tri_plots : triPlots 0 0 2 0 0 2 =
    [.pixel 0 0, .pixel 1 0, .pixel 2 0, .pixel 0 2, .pixel 1 1, .pixel 2 0, .pixel 0 0, .pixel 0 1,
      .pixel 0 2] := by decide

/-- R-4: a point, three times. -/
theorem test_tri : (trace [0x0B000000, 0x00010001, 0x00010001, 0x00010001, 0x0000FFFF] s0).length = 12 := by decide

/-- R-5: both loops, and floor division. -/
theorem test_ftri_plots :
    ftriPlots 0 0 4 2 1 4 = [.hspan 0 0 1, .hspan 0 1 3, .hspan 0 2 5, .hspan 0 3 3, .hspan 1 4 1] ∧
    ftriPlots 0 0 (-3) 2 3 4 = [.hspan 0 0 1, .hspan (-2) 1 3, .hspan (-3) 2 5, .hspan 0 3 3, .hspan 3 4 1] ∧
    ftriPlots 2 0 0 3 4 3 = [.hspan 2 0 1, .hspan 1 1 2, .hspan 0 2 4, .hspan 0 3 5] := by decide

/-- R-5: all on one row. -/
theorem test_ftri : trace [0x0C000000, 0x00030005, 0x00000005, 0x00070005, 0x0000FFFF] s0 =
    [.cmdData 0x2A [0, 0, 0, 7], .cmdData 0x2B [0, 5, 0, 5], .cmd 0x2C,
      .data (mono [1, 1, 1, 1, 1, 1, 1, 1])] := by decide

/-- R256 (a): 'Z' is skipped and the pen stays; the second glyph's window, and its first row. -/
theorem test_text8 :
    let t := trace [0x0D000003, 0x00000000, 0x00000000, 0xFFFF0000, 0x0041005A, 0x0042FFFF] s0
    t.length = 8 ∧ t[4]? = some (.cmdData 0x2A [0, 8, 0, 15]) ∧
      (t[7]?.map fun e => match e with | .data d => d.take 16 | _ => []) = some (mono [0, 1, 1, 1, 1, 1, 0, 0]) := by
  decide

/-- X-1: WIDTH 16 is no TEXT8 font; and a descriptor that does not fit asset memory. -/
theorem test_text8_errors :
    (after [0x0D000000, 0x00000080, 0x00000000, 0xFFFF0000] s0).err = 4 ∧
    (after [0x0D000000, 0x000000A8, 0x00000000, 0xFFFF0000] s0).err = 6 ∧
    (after [0x0D000000, 0x000000A8, 0x00000000, 0xFFFF0000] s0).erraddr = 0xA8 := by decide

/-- R256 (b): the second pass's window and the lengths. -/
theorem test_text16 :
    let t := trace [0x0E000001, 0x00000080, 0x00000000, 0xFFFF0000, 0x00300000] s0
    dataLengths t = [4, 4, 0, 256, 4, 4, 0, 256] ∧ t[5]? = some (.cmdData 0x2B [0, 8, 0, 15]) := by decide +kernel

/-- R256 (c). -/
theorem test_tttext : trace [0x0F000002, 0x00000040, 0x000A0014, 0xFFFF0000, 0x00610062] s0 =
    [.cmdData 0x2A [0, 10, 0, 10], .cmdData 0x2B [0, 20, 0, 21], .cmd 0x2C, .data (mono [1, 0]),
      .cmdData 0x2A [0, 11, 0, 13], .cmdData 0x2B [0, 20, 0, 21], .cmd 0x2C,
      .data (mono [1, 0, 1, 0, 1, 1])] := by decide

/-- X-2: at column 319 the second glyph's window is dropped and its data sent. -/
theorem test_tttext_edge : trace [0x0F000002, 0x00000040, 0x013F0000, 0xFFFF0000, 0x00610062] s0 =
    [.cmdData 0x2A [0x01, 0x3F, 0x01, 0x3F], .cmdData 0x2B [0, 0, 0, 1], .cmd 0x2C, .data (mono [1, 0]),
      .data (mono [1, 0, 1, 0, 1, 1])] := by decide

/-- X-2: READY is not required; an unmapped character adds nothing. -/
theorem test_ttwidth :
    (after [0x10000002, 0x00000040, 0x00620062] boot).result = 6 ∧
    (after [0x10000003, 0x00000040, 0x00610062, 0x00630000] s0).result = 4 := by decide

/-- R256 (e). -/
theorem test_bitmap : trace [0x11000000, 0x00000060, 0x00050005, 0x00000001] s0 =
    [.cmdData 0x2A [0, 5, 0, 6], .cmdData 0x2B [0, 5, 0, 6], .cmd 0x2C,
      .data [0, 0x1F, 0x07, 0xE0, 0xF8, 0, 0, 0]] := by decide

/-- X-3: the frame check comes before the bounds skip, which is silent. -/
theorem test_bitmap_checks :
    (after [0x11000000, 0x00000060, 0x013F0000, 0x00000005] s0).err = 5 ∧
    trace [0x11000000, 0x00000060, 0x013F01DE, 0x00000000] s0 = [] ∧
    (after [0x11000000, 0x00000060, 0x013F01DE, 0x00000000] s0).err = 0 := by decide

/-- S6. -/
theorem test_setrot : trace [0x1200000B] s0 = [.cmdData 0x36 [0xE8]] ∧
    (after [0x1200000B] s0).readReg 0x10 = 0x01E00140 ∧ (after [0x1200000B] s0).readReg 0x1C = 3 := by decide

/-- P-6. -/
theorem test_setorg : trace [0x13000000, 0x00000050] s0 = [] ∧
    (after [0x13000000, 0x00000050] s0).readReg 0x18 = 0x00000050 := by decide

/-- P-7. -/
theorem test_sleep : trace [0x14000001] s0 = [.cmd 0x10] ∧ trace [0x14000000] s0 = [.cmd 0x11] := by decide
theorem test_invert : trace [0x15000001] s0 = [.cmd 0x21] ∧ trace [0x15000000] s0 = [.cmd 0x20] := by decide
theorem test_display : trace [0x16000001] s0 = [.cmd 0x29] ∧ trace [0x16000000] s0 = [.cmd 0x28] := by decide

/-- P-8 and S1. -/
theorem test_rgb565 : (after [0x17000000, 0x00FF8040] boot).result = 0xFC08 ∧
    rgb565 0x12 0x34 0x56 = 0x11AA ∧ rgb565 7 3 7 = 0 ∧ rgb565 8 4 8 = 0x0821 := by decide

/-- Section 4.6: each illegal row records its header and halts. -/
theorem test_illegal :
    ([0x00000000, 0x18000000, 0x20000001, 0x7F000000, 0xFF123456] : List Word).map (fun w =>
      ((after [w] s0).readReg 0x04, (after [w] s0).errhdr)) =
    [(0x0000010C, 0x00000000), (0x0000010C, 0x18000000), (0x0000010C, 0x20000001), (0x0000010C, 0x7F000000),
      (0x0000010C, 0xFF123456)] := by decide

/-- Section 4.6: a reserved bit is checked before READY. -/
theorem test_reserved_before_ready :
    (after [0x05000000, 0x00000000, 0x0001F800] boot).err = 2 ∧
    (after [0x05000000, 0x00000000, 0x0000F800] boot).err = 3 := by decide

/-- The host's interface: the instruction of a table row is the first to run (log entry 13). -/
theorem test_withFetchWord :
    (match step (State.reset.withFetchWord 64 0x00FF804017000000) with
      | .next t => t.result
      | _ => 0) = 0xFC08 := by decide

/-- S-4: SRST while a fill's first data transaction is held: it completes and nothing else does. -/
theorem test_srst_in_fill :
    (match steps 4 { s0 with
        fifo := [0x04000000, 0x00000000, 0x00400020, 0x00001234, 0x05000000, 0, 0]
        host := [{ wait := 9, access := .write 4 0x0C 2 }]
        port := [.ticks 0, .ticks 0, .ticks 0, .ticks 1] } with
      | .next t => (dataLengths t.trace, t.ready, t.fifo)
      | _ => ([], true, [])) = ([4, 4, 0, 2048], false, []) := by decide +kernel

/-- R282: a held glyph leaves the string's last word in the FIFO; a rejected command has its words skipped singly. -/
theorem test_words_popped_as_needed :
    (match step { s0 with
        fifo := [0x0D000003, 0x00000000, 0x00000000, 0xFFFF0000, 0x0041005A, 0x0042FFFF], port := [.forever] } with
      | .next t => (t.fifo, t.cp - s0.cp, t.inFlight)
      | _ => ([], 0, false)) = ([0x0042FFFF], 5, true) ∧
    (match step { boot with
        fifo := [0x03000008, 1, 2], host := [{ wait := 3, access := .read 4 0x04 }] } with
      | .next t => (t.err, t.fifo, t.todo)
      | _ => (0, [], [])) = (3, [2], [.skip 1]) := by decide

/-- R243, R65: a byte loaded while the first pass of a glyph is held races for the second, whose pixels are still to be
read. -/
theorem test_load_between_passes :
    (match steps 4 { s0 with
        fifo := [0x0E000001, 0x00000080, 0x00000000, 0xFFFF0000, 0x00300000]
        port := List.replicate 3 (.ticks 0) ++ [.ticks 2]
        platform := [{ wait := 11, access := .loadAsset 0xA0 0xFF }] } with
      | .next t => (t.stale.map (·.addr), t.todo.map fun a => match a with | .blit _ _ => true | _ => false)
      | _ => ([], [])) = ([0xA0], [false, true, false]) := by decide +kernel

/-- R240 (D41): a byte loaded after a unit's first event is not in its data transaction; the row 18H of glyph 'A'. -/
theorem test_load_inside_a_unit :
    (match steps 5 { s0 with
        fifo := [0x0D000001, 0x00000000, 0x00000000, 0xFFFF0000, 0x00410000]
        port := [.ticks 0, .ticks 2]
        platform := [{ wait := 9, access := .loadAsset 0x0C 0xFF }] } with
      | .next t => (t.stale.map (·.addr), t.trace.length, ((t.trace.getLastD (.wait 0)).wire.drop 2).take 16)
      | _ => ([], 0, [])) =
    ([0x0C], 4, [0, 0, 0, 0, 0, 0, 0xFF, 0xFF, 0xFF, 0xFF, 0, 0, 0, 0, 0, 0].map .shift) := by decide +kernel

/-- The wires of one event (20_memory.md R57). -/
theorem test_wires : (Event.cmdData 0x36 [0x48]).wire =
    [.csN false, .dc false, .shift 0x36, .dc true, .shift 0x48, .csN true] ∧
    serialBits 0x81 = [true, false, false, false, false, false, false, true] := by decide

/-- The reference observer: a fill of two rows (20_memory.md R66). -/
theorem test_observer : (Panel.ofTrace (trace [0x04000000, 0x00030004, 0x00020002, 0x0000F800] s0)).writes =
    [((3, 4), 0xF800), ((4, 4), 0xF800), ((3, 5), 0xF800), ((4, 5), 0xF800)] := by decide

/-- Assembly lines of E-1. -/
theorem test_assemble :
    assemble ["PIXEL (-1, -2), #0x001F".toList, "BLIT (2, 3), [1, 2], 0xF8, 0x00, 0x07, 0xE0".toList,
        "TEXT8 @0x00, (0, 0), #0xFFFF, #0x0000, \"AZB\"".toList, "FILLRECT (0, 0), [4, 2], rgb(255, 0, 0)".toList] =
      some [0x05000000, 0xFFFFFFFE, 0x0000001F, 0x02000000, 0x00020003, 0x00020004, 0x03000004, 0xF80007E0,
        0x0D000003, 0x00000000, 0x00000000, 0xFFFF0000, 0x0041005A, 0x00420000,
        0x04000000, 0x00000000, 0x00040002, 0x0000F800] := by decide

/-! ### Witnesses: a state and operands that meet each obligation's hypotheses -/

theorem s0_quiet : s0.quiet := ⟨rfl, rfl, rfl⟩

theorem boot_quiet : boot.quiet := ⟨rfl, rfl, rfl⟩

/-- READY set and nothing interfering, the hypotheses of LinePlotsItsPixels, TriIsThreeLines, FtriFillsBetweenItsEdges,
CirclePlotsEightfold and FilledCircleIsVerticalSpans; and of the READY clauses of SetrotRotates, SetorgSetsTheOrigin,
SetwinIssuesTheWindow, FillrectFills, PixelIsAOnePixelFill, SpansAreOneRowOrColumn, TogglesSendOneCommand and
BitmapDrawsItsFrame. -/
theorem witness_quiet_and_ready : s0.quiet ∧ s0.ready = true := ⟨s0_quiet, rfl⟩

/-- READY clear and nothing interfering: the rejection clauses of the same, and InitBringsUpThePanel,
Rgb565SetsTheResult and IllegalHeadersHalt, which ask for quiet alone. -/
theorem witness_quiet_and_not_ready : boot.quiet ∧ boot.ready = false := ⟨boot_quiet, rfl⟩

/-- Two words in the FIFO: three characters, or eight bytes (BitmapTextDrawsItsGlyphs, VariableTextDrawsItsGlyphs,
TtwidthMeasures, WrpixSendsThePayload); and none for a string of no characters. -/
theorem witness_words_in_the_fifo :
    let s := { s0 with fifo := [0x0041005A, 0x0042FFFF] }
    s.quiet ∧ s.ready = true ∧ (([0x41, 0x5A, 0x42] : List Half).length < 65536 ∧
      (([0x41, 0x5A, 0x42] : List Half).length + 1) / 2 ≤ s.fifo.length ∧
      (([0, 0x41, 0, 0x5A, 0, 0x42, 0xFF, 0xFF] : List Byte).length + 3) / 4 ≤ s.fifo.length ∧
      (([] : List Half).length + 1) / 2 ≤ s0.fifo.length) := ⟨⟨rfl, rfl, rfl⟩, rfl, by decide⟩

theorem witness_DecodeOfEncodeIsTheCommand :
    (Instr.pixel (-1) 32767 0xFFFF).wf = true ∧ (Instr.text8 0xFFFFFFFF 0 0 0 0 []).wf = true ∧
      (Instr.wrpix [1, 2, 3]).wf = true := by decide

theorem witness_PacketLengthTable : (1 ≤ 0x01 ∧ 0x01 ≤ 0x17) ∧ (1 ≤ 0x17 ∧ 0x17 ≤ 0x17) := by decide

theorem witness_DecoderTakesExactlyThePacket :
    decode [0x1200FFFF, 0x12] = .ok (.setrot 0xFFFF, [0x12]) := by decide

/-- Reserved bit 16 of a header with no counted words and of one with two, and bit 16 of the last fixed word. -/
theorem witness_ReservedBitRejectsThePacket :
    (s0.quiet ∧ s0.betweenPackets) ∧
    ((([] : List Word).length + 1 = (reservedMasks (opcode 0x12010000)).length ∧
      ∃ p ∈ ([0x12010000] : List Word).zip (reservedMasks (opcode 0x12010000)), p.1 &&& p.2 ≠ 0) ∧
    (([0, 0, 0] : List Word).length + 1 = (reservedMasks (opcode 0x0D010003)).length ∧
      ∃ p ∈ ([0x0D010003, 0, 0, 0] : List Word).zip (reservedMasks (opcode 0x0D010003)), p.1 &&& p.2 ≠ 0) ∧
    (([0, 0x10000] : List Word).length + 1 = (reservedMasks (opcode 0x05000000)).length ∧
      ∃ p ∈ ([0x05000000, 0, 0x10000] : List Word).zip (reservedMasks (opcode 0x05000000)), p.1 &&& p.2 ≠ 0)) :=
  ⟨⟨s0_quiet, rfl, rfl, rfl, rfl⟩, by decide⟩

/-- More words to skip than are there, as many, and none there; and a register read that falls due after one. -/
theorem witness_SkippedWordsAreDiscarded :
    (let s := { s0 with todo := [.skip 3], fifo := [1, 2], phase := .exec }
     (s.host = [] ∧ s.platform = [] ∧ s.inFlight = false ∧ s.halted = false) ∧ 0 < 3 ∧ s.todo = [.skip 3] ∧
       2 = min 3 s.fifo.length ∧ 2 = min 2 s.fifo.length ∧ 0 = min 3 s0.fifo.length) ∧
    (let s := { s0 with
       todo := [.skip 2], fifo := [1, 2], phase := .exec, host := [{ wait := 1, access := .read 4 0x04 }] }
     (s.envDue = false ∧ s.inFlight = false ∧ s.halted = false) ∧ s.todo = [.skip (0 + 2)] ∧ s.fifo = 1 :: [2] ∧
       (s.tookWords 1 [2]).tick.envDue = true) := by decide

/-- The words of a packet in the FIFO; and one whose header has been popped, a read being due two ticks later. -/
theorem witness_StepRunsTheDecodedCommand :
    (let s := { s0 with fifo := [0x14000001, 7] }
     (s.inFlight = false ∧ s.halted = false ∧ s.todo = []) ∧ s.pkt ++ s.fifo = 0x14000001 :: [7] ∧
       s.pkt.length ≤ fixedPart 0x14000001 ∧ decode (s.pkt ++ s.fifo) = .ok (.sleep true, [7]) ∧ s.quiet ∧
       s.pkt = []) ∧
    (let s := { s0 with
       pkt := [0x05000000], fifo := [0x00030004, 0x0000001F], host := [{ wait := 3, access := .read 4 0x04 }] }
     s.pkt ++ s.fifo = 0x05000000 :: [0x00030004, 0x0000001F] ∧ s.pkt.length ≤ fixedPart 0x05000000 ∧
       decode (s.pkt ++ s.fifo) = .ok (.pixel 3 4 0x1F, []) ∧
       ∀ k ≤ fixedPart 0x05000000 - s.pkt.length, (State.takeWord^[k] s).envDue = false) := by
  refine ⟨⟨by decide, rfl, by decide, by decide, ⟨rfl, rfl, rfl⟩, rfl⟩, rfl, by decide, by decide, ?_⟩
  decide

theorem witness_EngineWaitsForFixedWords :
    s0.quiet ∧ (s0.inFlight = false ∧ s0.halted = false ∧ s0.todo = []) ∧
    decode ([] ++ ([] : List Word)) = .error .needFixed ∧
    decode ([0x05000000] ++ [0x00030004]) = .error .needFixed := ⟨s0_quiet, by decide⟩

/-- A text command in three batches, the last after the first characters have been drawn. -/
theorem witness_WordArrivalTimesDoNotMatter :
    (Instr.text8 0 0 0 0xFFFF 0 [0x41, 0x5A, 0x42]).wf = true ∧
    encode (.text8 0 0 0 0xFFFF 0 [0x41, 0x5A, 0x42]) =
      ([([0x0D000003, 0], 1), ([0, 0xFFFF0000, 0x0041005A], 2), ([0x00420000], 0)].map Prod.fst).flatten ∧
    s0.quiet ∧ s0.betweenPackets ∧ s0.fifo = [] ∧
    ∃ t, feed [([0x0D000003, 0], 1), ([0, 0xFFFF0000, 0x0041005A], 2), ([0x00420000], 0)] s0 = .next t :=
  ⟨by decide, by decide, s0_quiet, ⟨rfl, rfl, rfl, rfl⟩, rfl, _, rfl⟩

theorem witness_IllegalOpcodesDecodeAsIllegal :
    opcode 0x00FFFFFF = 0 ∧ 0x18 ≤ opcode 0x18000000 ∧ 0x18 ≤ opcode 0xFFFFFFFF := by decide

theorem witness_HaltedEngineDiscardsEveryWord :
    let s := { s0 with halted := true, fifo := [0x01000000, 0x00040002] }
    s.host = [] ∧ s.platform = [] ∧ s.inFlight = false ∧ s.halted = true ∧
      s.fifo = [0x01000000, 0x00040002] ++ [] := by decide

/-- Each of the three ways out of a halt is one. -/
theorem witness_HaltIsLeftOnlyByReset :
    (∃ t, step { s0 with halted := true, platform := [{ wait := 0, access := .powerOn }] } = .next t ∧
      t.halted = false) ∧
    (∃ t, step { s0 with halted := true, host := [{ wait := 0, access := .write 4 0x0C 2 }] } = .next t ∧
      t.halted = false) ∧
    (∃ t, step { s0 with
        halted := true, inFlight := true, srstPending := true, todo := [.emit (.cmd 0)], port := [.ticks 0] } =
      .next t ∧ t.halted = false) := ⟨⟨_, rfl, rfl⟩, ⟨_, rfl, rfl⟩, ⟨_, rfl, rfl⟩⟩

theorem witness_UninitialisedCommandsAreRejected :
    requiresReadyInstr (.pixel 0 0 0) = true ∧ varCount (.pixel 0 0 0) ≤ boot.fifo.length ∧
    requiresReadyInstr (.wrpix [1, 2, 3, 4, 5]) = true ∧
    (let s := { boot with fifo := [0x01020304, 0x05000000] }
     s.ready = false ∧ s.quiet ∧ varCount (.wrpix [1, 2, 3, 4, 5]) ≤ s.fifo.length) :=
  ⟨rfl, by decide, rfl, rfl, ⟨rfl, rfl, rfl⟩, by decide⟩

/-- Nothing recorded, and something recorded. -/
theorem witness_FirstErrorIsKept : s0.err = 0 ∧ ({ s0 with err := 6 } : State).err ≠ 0 := by decide

/-- The corner that is still inside the check, the pixel past it, and one below 0. -/
theorem witness_PixelEventCount :
    ((0 ≤ (320 : Half).toInt ∧ (320 : Half).toInt ≤ s0.width.toNat) ∧
      (0 ≤ (480 : Half).toInt ∧ (480 : Half).toInt ≤ s0.height.toNat)) ∧
    ¬((0 ≤ (321 : Half).toInt ∧ (321 : Half).toInt ≤ s0.width.toNat) ∧
      (0 ≤ (0 : Half).toInt ∧ (0 : Half).toInt ≤ s0.height.toNat)) ∧
    ¬((0 ≤ (-1 : Half).toInt ∧ (-1 : Half).toInt ≤ s0.width.toNat) ∧
      (0 ≤ (0 : Half).toInt ∧ (0 : Half).toInt ≤ s0.height.toNat)) ∧
    ∃ t, exec (.pixel 320 480 0xABCD) s0 = .next t := ⟨by decide, by decide, by decide, _, rfl⟩

/-- 1024 pixels and one; and none. -/
theorem witness_GearboxLaw :
    (1025 : Half).toNat * (1 : Half).toNat = 1024 * 1 + 1 ∧ (0 : Half).toNat * (5 : Half).toNat = 1024 * 0 + 0 ∧
    (1 < 1024 ∧ 0 < 1024) ∧ ∃ t, exec (.fillrect 0 0 1025 1 0x1234) s0 = .next t :=
  ⟨by decide, by decide, by decide, _, rfl⟩

/-- S5: radius 0, 1 and 3 end after 0, 1 and 2 passes. -/
theorem test_circleRuns : (circleRuns 0 0 ∧ circleRuns 1 1 ∧ circleRuns 3 2) ∧
    circlePasses 0 = [] ∧ circlePasses 1 = [(1, 0)] ∧ circlePasses 3 = [(1, 3), (2, 2)] := by
  unfold circleRuns
  decide

/-- "a" drawn, then "b"; the width of "a" is 1, and each has a word in the FIFO. -/
theorem witness_WidthIsThePenAdvance :
    let s := { s0 with fifo := [0x00610000, 0x00620000] }
    s.quiet ∧ s.ready = true ∧ s.err = 0 ∧ (([0x61] : List Half) ++ [0x62]).length < 65536 ∧
    (([0x61] : List Half).length + 1) / 2 + (([0x62] : List Half).length + 1) / 2 ≤ s.fifo.length ∧
    ∃ t u, exec (.tttext 0x40 10 20 0xFFFF 0 [0x61]) s = .next t ∧ t.err = 0 ∧
      exec (.ttwidth 0x40 [0x61]) s = .next u ∧ (11 : Half).toInt = (10 : Half).toInt + u.result.toNat :=
  ⟨⟨rfl, rfl, rfl⟩, rfl, rfl, by decide, by decide, _, _, rfl, by decide, rfl, by decide⟩

/-- The last byte of asset memory, and the one after it. -/
theorem witness_OnlyThePlatformWritesAssets :
    Memory.wf s0.assets = true ∧ 0xAF < s0.assetSize ∧ s0.assetSize ≤ 0xB0 ∧
    ({ s0 with platform := [{ wait := 0, access := .loadAsset 0xAF 7 }] } : State).platform =
      { wait := 0, access := .loadAsset 0xAF 7 } :: [] ∧
    (s0.busy = false ∧ ∀ r ∈ s0.stale, r.addr ≠ 0xAF) ∧
    ({ s0 with phase := .exec, todo := [.skip 1] } : State).busy = true ∧
    ∃ t, step { s0 with fifo := [0x14000001] } = .next t :=
  ⟨by decide, by decide, by decide, rfl, by decide, rfl, _, rfl⟩

theorem witness_StalledPortHangs :
    let s := { s0 with inFlight := true, phase := .exec, todo := [.emit (.cmd 0)], port := [.forever] }
    s.host = [] ∧ s.platform = [] ∧ s.inFlight = true ∧ s.phase = .exec ∧ s.halted = false ∧
      s.port = .forever :: [] := ⟨rfl, rfl, rfl, rfl, rfl, rfl⟩

/-- A STATUS read in the middle of a command whose second event the port holds. -/
theorem witness_InterferenceIsInvisible :
    let s : State := { s0 with host := [{ wait := 1, access := .read 4 0x04 }], port := [.ticks 0, .ticks 3] }
    s.harmless ∧ s.inFlight = false ∧ s.srstPending = false ∧ s.halted = false ∧
      varCount (.pixel 3 4 5) ≤ s.fifo.length ∧ (∃ u, exec (.pixel 3 4 5) s.inside = .next u) ∧
      ∃ t, exec (.pixel 3 4 5) s = .next t := by
  refine ⟨⟨?_, rfl, ?_⟩, rfl, rfl, rfl, Nat.le_refl _, ⟨_, rfl⟩, ⟨_, rfl⟩⟩
  · intro h hh
    rw [List.mem_singleton.1 hh]
    exact ⟨0x04, rfl, rfl⟩
  · intro p hp
    rcases List.mem_cons.1 hp with rfl | hp
    · exact ⟨0, rfl⟩
    · exact ⟨3, List.mem_singleton.1 hp⟩

/-- The last register, the first offset past the window, an odd offset and a short access; a read-only register. -/
theorem witness_HostAccessesOutsideCmdAndCtrl :
    s0.platformDue = false ∧ (4 = 4 ∧ 0x3C % 4 = 0 ∧ 0x3C < 64) ∧
    (4 = 4 ∧ 0x04 % 4 = 0 ∧ 0x04 < 64 ∧ 0x04 ≠ 0x00 ∧ 0x04 ≠ 0x0C) ∧
    ¬(4 = 4 ∧ 0x40 % 4 = 0 ∧ 0x40 < 64) ∧ ¬(4 = 4 ∧ 0x05 % 4 = 0 ∧ 0x05 < 64) ∧
    ¬(2 = 4 ∧ 0x04 % 4 = 0 ∧ 0x04 < 64) := by decide

/-- Fifteen words and sixteen in a FIFO of sixteen; a CTRL write with ERRCLR and one with neither bit. -/
theorem witness_CmdWritesAndErrclr :
    s0.platformDue = false ∧
    ({ s0 with fifo := List.replicate 15 0 } : State).fifo.length < s0.cfg.fifoDepth ∧
    s0.cfg.fifoDepth ≤ ({ s0 with fifo := List.replicate 16 0 } : State).fifo.length ∧
    ((1 : Word).getLsbD 1 = false ∧ (1 : Word).getLsbD 0 = true) ∧
    ((0xFFFFFFFC : Word).getLsbD 1 = false ∧ (0xFFFFFFFC : Word).getLsbD 0 = false) := by decide

/-- SRST with and without ERRCLR, on a boundary and in an event, and the event's acceptance. -/
theorem witness_SoftResetActsAtTheBoundary :
    (s0.platformDue = false ∧ (2 : Word).getLsbD 1 = true ∧ (3 : Word).getLsbD 1 = true ∧ s0.inFlight = false ∧
      ({ s0 with inFlight := true } : State).inFlight = true) ∧
    let p := { s0 with
      inFlight := true, srstPending := true, todo := [.emit (.pinRst false)], port := [.ticks 0] }
    p.inFlight = true ∧ p.srstPending = true ∧ p.todo = .emit (.pinRst false) :: [] ∧
      p.port = .ticks 0 :: [] ∧ p.envDue = false := ⟨⟨rfl, rfl, rfl, rfl, rfl⟩, rfl, rfl, rfl, rfl, rfl⟩

/-- A power-on reset that is due while the port holds an event. -/
theorem witness_ResetValues :
    let s : State := { s0 with
      platform := [{ wait := 0, access := .powerOn }], inFlight := true, todo := [.emit (.cmd 0)], port := [.forever] }
    s.platform = { wait := 0, access := .powerOn } :: [] ∧ ∃ t, step s = .next t := ⟨rfl, _, rfl⟩

/-- A command of each clause runs: neither INIT, SETROT nor SETORG; not RGB565 or TTWIDTH; no fill; an error there. -/
theorem witness_RegistersAreWrittenByTheirCommands :
    (∃ t, exec (.sleep true) { s0 with err := 3 } = .next t) ∧
    illegalOpcode (opcode (headerOf (.sleep true))) = false ∧
    opcode (headerOf (.sleep true)) ∉ [0x01, 0x04, 0x05, 0x06, 0x07, 0x08, 0x09, 0x0A, 0x0B, 0x0C] :=
  ⟨⟨_, rfl⟩, by decide, by decide⟩

theorem witness_CommandsLeaveMemoryAlone : ∃ t, exec (.ttwidth 0x40 [0x61]) s0 = .next t := ⟨_, rfl⟩

theorem witness_EveryStepKeepsTheInvariant :
    ({ s0 with fifo := [0x14000001] } : State).Inv ∧
      ∃ t, step { s0 with fifo := [0x14000001] } = .next t := by
  refine ⟨?_, ⟨_, rfl⟩⟩
  exact {
    assets_wf := by decide
    assets_inside := by decide
    fifo_bound := by decide
    record_ok := by decide
    todo_record_ok := by decide
    trace_ok := by decide
    todo_wait_ok := by decide
    cs_idle := fun _ => rfl
    pkt_partial := fun _ _ h => by cases h
    todo_pkt := fun _ => rfl
    srst_pending := by decide
    phase_exec := by decide
    in_flight := fun h => absurd h (by decide)
    setup_ok := fun _ => ⟨fun _ => ⟨rfl, rfl⟩, fun h => absurd h (by decide)⟩
    busy_clear := fun h => absurd h (by decide) }

/-- Nothing due; a due load at the first address past asset memory; due accesses past the window, not aligned, and of
16 bits; and the last of each that does land. -/
theorem witness_CommandsNeverStopTheMachine :
    let load (a : Nat) : State := { s0 with platform := [{ wait := 0, access := .loadAsset a 1 }] }
    let read (bytes off : Nat) : State := { s0 with host := [{ wait := 0, access := .read bytes off }] }
    s0.envDue = false ∧ step (load s0.assetSize) = .fault .assetOutside ∧
      (∃ t, step (load (s0.assetSize - 1)) = .next t) ∧
      step (read 4 64) = .refused .hostAccess ∧ step (read 4 2) = .refused .hostAccess ∧
      step (read 2 0) = .refused .hostAccess ∧ ∃ t, step (read 4 60) = .next t :=
  ⟨rfl, rfl, ⟨_, rfl⟩, rfl, rfl, rfl, _, rfl⟩

/-- The last two columns and rows of the panel, with the largest origin that does not wrap. -/
theorem witness_FilledRectangleIsPainted :
    let s : State := { s0 with xstart := 65215, ystart := 65055 }
    s.quiet ∧ s.ready = true ∧ 0 ≤ (318 : Half).toInt ∧ 0 ≤ (478 : Half).toInt ∧ 0 < (2 : Half).toNat ∧
      (318 : Half).toInt + (2 : Half).toNat ≤ s.width.toNat ∧
      (478 : Half).toInt + (2 : Half).toNat ≤ s.height.toNat ∧
      s.xstart.toNat + s.width.toNat ≤ 65535 ∧ s.ystart.toNat + s.height.toNat ≤ 65535 ∧
      ∃ t, exec (.fillrect 318 478 2 2 0xF800) s = .next t :=
  ⟨⟨rfl, rfl, rfl⟩, rfl, by decide, by decide, by decide, by decide, by decide, by decide, by decide, _, rfl⟩

end Sys2Proof.Tests
end

/-! What a command may touch (O55). Every shared operation of the commands is confined in one and the same way: it
leaves asset memory, the parameters, the words held back, the host's reads and a pending reset, adds to the trace, and
pops a bounded number of words that the command pointer counts. The bound is read off the list of actions. -/

namespace Sys2Proof.Machine

/-! ### The frame of a command -/

/-- From `s` to `t` at most `n` words have left the FIFO, counted by the command pointer (10_state.md R21), the trace
has grown, and nothing of what no command may touch has changed (R30, R39; 20_memory.md R52; 00_scope.md R7). -/
structure PopsAtMost (n : Nat) (s t : State) : Prop where
  assets : t.assets = s.assets
  bytes : ∀ a, s.assetByte a = t.assetByte a
  cfg : t.cfg = s.cfg
  words : ∃ k, k ≤ n ∧ t.fifo = s.fifo.drop k ∧ t.cp = s.cp + BitVec.ofNat 32 k
  pkt : t.pkt = s.pkt
  reads : t.reads = s.reads
  srst : t.srstPending = s.srstPending
  trace : s.trace <+: t.trace

theorem PopsAtMost.refl (n : Nat) (s : State) : PopsAtMost n s s where
  assets := rfl
  bytes _ := rfl
  cfg := rfl
  words := ⟨0, Nat.zero_le n, rfl, by simp⟩
  pkt := rfl
  reads := rfl
  srst := rfl
  trace := List.prefix_rfl

theorem PopsAtMost.mono {m n : Nat} {s t : State} (h : PopsAtMost m s t) (hmn : m ≤ n) : PopsAtMost n s t :=
  { h with words := h.words.imp fun _ hk => ⟨hk.1.trans hmn, hk.2⟩ }

theorem PopsAtMost.trans {m n : Nat} {s t u : State} (h₁ : PopsAtMost m s t) (h₂ : PopsAtMost n t u) :
    PopsAtMost (m + n) s u where
  assets := h₂.assets.trans h₁.assets
  bytes a := (h₁.bytes a).trans (h₂.bytes a)
  cfg := h₂.cfg.trans h₁.cfg
  words := by
    obtain ⟨k, hk, hfifo, hcp⟩ := h₁.words
    obtain ⟨l, hl, hfifo', hcp'⟩ := h₂.words
    refine ⟨k + l, Nat.add_le_add hk hl, ?_, ?_⟩
    · rw [hfifo', hfifo, List.drop_drop]
    · rw [hcp', hcp, BitVec.ofNat_add, BitVec.add_assoc]
  pkt := h₂.pkt.trans h₁.pkt
  reads := h₂.reads.trans h₁.reads
  srst := h₂.srst.trans h₁.srst
  trace := h₁.trace.trans h₂.trace

/-- What pops no word may come before. -/
theorem PopsAtMost.after {n : Nat} {s t u : State} (h₁ : PopsAtMost 0 s t) (h₂ : PopsAtMost n t u) :
    PopsAtMost n s u := by
  simpa using h₁.trans h₂

/-! ### The state's operations -/

theorem State.tick_popsAtMost (n : Nat) (s : State) : PopsAtMost n s s.tick := { PopsAtMost.refl n s with }

theorem State.enter_popsAtMost (n : Nat) (s : State) : PopsAtMost n s s.enter := { PopsAtMost.refl n s with }

theorem State.endCommand_popsAtMost (n : Nat) (s : State) : PopsAtMost n s s.endCommand :=
  { PopsAtMost.refl n s with }

/-- Leaving actions for a later step. -/
theorem State.todo_popsAtMost (n : Nat) (s : State) (acts : List Action) :
    PopsAtMost n s { s with todo := acts } := { PopsAtMost.refl n s with }

theorem State.port_popsAtMost (n : Nat) (s : State) (holds : List Hold) :
    PopsAtMost n s { s with port := holds } := { PopsAtMost.refl n s with }

theorem laterText_popsAtMost (n : Nat) (r : TextRun) (s : State) : PopsAtMost n s (laterText r s) :=
  s.todo_popsAtMost n [.text r]

theorem State.emit_popsAtMost (n : Nat) (e : Event) (s : State) : PopsAtMost n s (s.emit e) :=
  { PopsAtMost.refl n s with trace := List.prefix_append s.trace [e] }

theorem State.pop_popsAtMost (n : Nat) (s : State) : PopsAtMost n s (s.pop n) :=
  { PopsAtMost.refl n s with
    bytes := fun a => (congrFun (State.assetByte_pop n s) a).symm
    words := ⟨n, le_rfl, rfl, rfl⟩ }

theorem State.record_popsAtMost (n : Nat) (e : ErrKind) (hdr : Word) (addr : Nat) (s : State) :
    PopsAtMost n s (s.record e hdr addr) := by
  unfold State.record
  split
  · exact { PopsAtMost.refl n s with }
  · exact PopsAtMost.refl n s

theorem skipWords_popsAtMost (m : Nat) (s : State) : PopsAtMost m s (skipWords m s) := by
  induction m generalizing s with
  | zero => exact s.endCommand_popsAtMost 0
  | succ m ih =>
    rw [skipWords]
    split
    · exact s.todo_popsAtMost _ _
    · rw [Nat.add_comm]
      exact (s.pop_popsAtMost 1).trans (((s.pop 1).tick_popsAtMost 0).after (ih _))

theorem State.raise_popsAtMost (e : ErrKind) (hdr : Word) (addr m : Nat) (s : State) :
    PopsAtMost m s (s.raise e hdr addr m) :=
  (s.record_popsAtMost 0 e hdr addr).after ((State.tick_popsAtMost 0 _).after (skipWords_popsAtMost m _))

/-- An event that is accepted adds itself to what follows; one that is held leaves everything for later. -/
theorem State.offer_popsAtMost {n : Nat} {goOn : State → State} (hgo : ∀ t, PopsAtMost n t (goOn t)) (e : Event)
    (acts : List Action) (s : State) : PopsAtMost n s (s.offer e acts goOn) := by
  have accepted (u : State) : PopsAtMost n u (goOn (u.emit e).tick) :=
    (u.emit_popsAtMost 0 e).after ((State.tick_popsAtMost 0 _).after (hgo _))
  unfold State.offer
  split
  · exact accepted s
  · rename_i holds _
    exact (s.port_popsAtMost 0 holds).after (accepted _)
  · exact { PopsAtMost.refl n s with }

/-! ### How many words a list of actions may pop -/

/-- The words that an action may pop. -/
@[simp] def Action.mayPop : Action → Nat
  | .pop => 1
  | .raise _ _ _ m | .skip m => m
  | .text r => r.wordsLeft
  | _ => 0

/-- The words that `drain` may pop: it goes on after a simple action only, so an error or a text command counts
alone. -/
def wordBound : List Action → Nat
  | [] => 0
  | a :: rest => a.mayPop + if a.simple then wordBound rest else 0

@[simp] theorem wordBound_singleton (a : Action) : wordBound [a] = a.mayPop := by simp [wordBound]

/-- No action of the list pops a word. -/
def PopFree (acts : List Action) : Prop := ∀ a ∈ acts, a.mayPop = 0

@[simp] theorem popFree_nil : PopFree [] := fun _ h => absurd h List.not_mem_nil

@[simp] theorem popFree_cons (a : Action) (rest : List Action) :
    PopFree (a :: rest) ↔ a.mayPop = 0 ∧ PopFree rest := List.forall_mem_cons

@[simp] theorem popFree_append (acts more : List Action) :
    PopFree (acts ++ more) ↔ PopFree acts ∧ PopFree more := List.forall_mem_append

theorem wordBound_of_popFree {acts : List Action} (h : PopFree acts) : wordBound acts = 0 := by
  induction acts with
  | nil => rfl
  | cons a rest ih =>
    obtain ⟨ha, hrest⟩ := (popFree_cons a rest).1 h
    rw [wordBound, ha, ih hrest, ite_self]

/-- Pops count one each. -/
theorem wordBound_pops (n : Nat) (rest : List Action) :
    wordBound (List.replicate n .pop ++ rest) = n + wordBound rest := by
  induction n with
  | zero => simp
  | succ n ih =>
    have hpop : ∀ l, wordBound (.pop :: l) = 1 + wordBound l := fun _ => rfl
    rw [List.replicate_succ, List.cons_append, hpop, ih]
    omega

/-- Before other actions, actions of which none pops but one that ends the command: either these pop or the others. -/
theorem wordBound_append_le {n : Nat} {acts rest : List Action}
    (hacts : ∀ a ∈ acts, a.mayPop ≤ n ∧ (a.simple = true → a.mayPop = 0)) (hrest : wordBound rest ≤ n) :
    wordBound (acts ++ rest) ≤ n := by
  induction acts with
  | nil => exact hrest
  | cons a acts ih =>
    obtain ⟨hle, hzero⟩ := hacts a (by simp)
    rw [List.cons_append, wordBound]
    split
    · rw [hzero ‹_›, Nat.zero_add]
      exact ih fun b hb => hacts b (by simp [hb])
    · exact hle

/-- An action performed pops no more than it may. -/
theorem Action.apply_popsAtMost (a : Action) (s : State) : PopsAtMost a.mayPop s (a.apply s) := by
  cases a with
  | emit e => exact s.emit_popsAtMost 0 e
  | blit window b =>
    rw [Action.apply_blit]
    exact { PopsAtMost.refl 0 s with trace := List.prefix_append s.trace _ }
  | halt hdr => exact (s.record_popsAtMost 0 .opcode hdr 0).after { PopsAtMost.refl 0 _ with }
  | pop => exact s.pop_popsAtMost 1
  | _ => exact { PopsAtMost.refl _ s with }

/-- Events before some actions pop nothing of their own. -/
theorem drain_emits_popsAtMost {n : Nat} {k : TextRun → State → State} {rest : List Action}
    (hrest : ∀ t, PopsAtMost n t (drain k rest t)) (evs : List Event) (s : State) :
    PopsAtMost n s (drain k (evs.map .emit ++ rest) s) := by
  induction evs generalizing s with
  | nil => exact hrest s
  | cons e evs ih =>
    rw [List.map_cons, List.cons_append]
    by_cases hd : s.envDue = true
    · rw [drain_cons_due k _ _ hd]
      exact s.todo_popsAtMost n _
    · rw [drain_cons_free k _ _ (by simpa using hd)]
      exact State.offer_popsAtMost ih e _ s

/-- `drain` pops no more than the bound of its actions, when the text commands among them keep to theirs. -/
theorem drain_popsAtMost {k : TextRun → State → State} (acts : List Action)
    (hk : ∀ r, .text r ∈ acts → ∀ s, PopsAtMost r.wordsLeft s (k r s)) (s : State) :
    PopsAtMost (wordBound acts) s (drain k acts s) := by
  induction acts generalizing s with
  | nil => exact s.endCommand_popsAtMost 0
  | cons a rest ih =>
    have ih' := ih fun r hr => hk r (by simp [hr])
    by_cases hd : s.envDue = true
    · rw [drain_cons_due k a rest hd]
      exact s.todo_popsAtMost _ _
    · have performed (hbound : wordBound (a :: rest) = a.mayPop + wordBound rest) :
          PopsAtMost (wordBound (a :: rest)) s (drain k rest (a.apply s).tick) := by
        rw [hbound]
        exact (a.apply_popsAtMost s).trans ((State.tick_popsAtMost 0 _).after (ih' _))
      rw [drain_cons_free k a rest (by simpa using hd)]
      cases a with
      | emit e => simpa [wordBound, Action.simple] using State.offer_popsAtMost ih' e _ s
      | blit window b => simpa [wordBound, Action.simple] using drain_emits_popsAtMost ih' _ s
      | raise e hdr addr m => exact s.raise_popsAtMost e hdr addr m
      | skip m => exact skipWords_popsAtMost m s
      | payload got m => exact s.todo_popsAtMost _ _
      | text r => exact hk r (by simp) s
      | _ => exact performed rfl

/-! ### The walk over a string -/

/-- What a character does pops nothing, or is its region's error, which skips what is left of the packet. -/
theorem charActs_mayPop {s : State} {r : TextRun} {c : Half} {a : Action} (h : a ∈ (charActs s r c).1) :
    a.mayPop ≤ r.wordsLeft ∧ (a.simple = true → a.mayPop = 0) := by
  rcases charActs_units h with ⟨x0, y0, x1, y1, b, rfl⟩ | ⟨addr, rfl⟩
  · exact ⟨Nat.zero_le _, fun _ => rfl⟩
  · exact ⟨le_rfl, fun hs => Bool.noConfusion hs⟩

/-- A character whose word is popped already pops nothing: what is left is left to the rest of the string. -/
theorem charStep_popsAtMost {c : Half} {rest : List Half} {go : TextRun → State → State} {r : TextRun}
    (hchs : r.chs = c :: rest) (hmore : r.more = 0) (hpopped : r.popped ≠ 0)
    (hgo : ∀ q : TextRun, q.chs = rest → q.more = 0 → ∀ s, PopsAtMost q.wordsLeft s (go q s)) (s : State) :
    PopsAtMost r.wordsLeft s (charStep c rest go r s) := by
  have hleft (pen : Int) :
      TextRun.wordsLeft { r with pen := pen, chs := rest, popped := r.popped - 1 } = r.wordsLeft := by
    simp only [TextRun.wordsLeft, hchs, List.length_cons]
    congr 3
    omega
  refine (s.tick_popsAtMost 0).after ((drain_popsAtMost _ ?_ _).mono ?_)
  · intro q hq
    rcases List.mem_append.1 hq with hq | hq
    · rcases charActs_units hq with ⟨_, _, _, _, _, h⟩ | ⟨_, h⟩ <;> cases h
    · cases List.mem_singleton.1 hq
      exact hgo _ rfl hmore
  · exact wordBound_append_le (fun a ha => charActs_mayPop ha) (by simp [hleft])

/-- A text command whose characters are all known pops the words it had left. -/
theorem runText_popsAtMost (l : List Half) (r : TextRun) (hchs : r.chs = l) (hmore : r.more = 0) (s : State) :
    PopsAtMost r.wordsLeft s (runText l r s) := by
  induction l generalizing r s with
  | nil =>
    have hfinish : PopFree r.finish := by
      unfold TextRun.finish
      split <;> simp
    rw [runText, if_pos hmore]
    refine (drain_popsAtMost _ (fun q _ => laterText_popsAtMost _ q) s).mono ?_
    rw [wordBound_of_popFree hfinish]
    exact Nat.zero_le _
  | cons c rest ih =>
    have char (q : TextRun) (hq : q.chs = c :: rest) (hm : q.more = 0) (hp : q.popped ≠ 0) :=
      charStep_popsAtMost hq hm hp ih
    rw [runText]
    split
    · rename_i hpopped
      have hleft : r.wordsLeft = 1 + TextRun.wordsLeft { r with popped := 2 } := by
        simp only [TextRun.wordsLeft, hchs, hpopped, hmore, List.length_cons]
        omega
      refine (drain_popsAtMost _ ?_ s).mono hleft.ge
      intro q hq
      simp only [List.mem_cons, reduceCtorEq, Action.text.injEq, List.not_mem_nil, or_false, false_or] at hq
      subst hq
      exact char _ hchs hmore two_ne_zero
    · exact char r hchs hmore ‹_› s

/-! ### Commands -/

/-- A command that is no text command pops at most what its actions may. -/
theorem State.start_popsAtMost {n : Nat} {acts : List Action} (h : wordBound acts ≤ n) (s : State) :
    PopsAtMost n s (s.start acts) :=
  (s.enter_popsAtMost 0).after ((drain_popsAtMost acts (fun r _ => laterText_popsAtMost _ r) _).mono h)

/-- A text command whose characters are all known pops at most what its actions may. -/
theorem State.startText_popsAtMost {n : Nat} {acts : List Action} (h : wordBound acts ≤ n)
    (hmore : ∀ r, .text r ∈ acts → r.more = 0) (s : State) : PopsAtMost n s (s.startText acts) :=
  (s.enter_popsAtMost 0).after
    ((drain_popsAtMost acts (fun r hr => runText_popsAtMost r.chs r rfl (hmore r hr)) _).mono h)

/-- Without READY the command's counted words are skipped: no more than it may pop with READY. -/
theorem wordBound_requireReady {hdr : Word} {n : Nat} {acts : List Action} (s : State) (h : wordBound acts ≤ n) :
    wordBound (requireReady hdr n acts s) ≤ n := by
  unfold requireReady
  split
  · exact h
  · simp

/-- A command without characters or payload. -/
theorem State.startFree_popsAtMost {acts : List Action} (h : PopFree acts) (s : State) :
    PopsAtMost 0 s (s.start acts) := State.start_popsAtMost (wordBound_of_popFree h).le s

/-- A command that requires READY and has no characters or payload. -/
theorem State.startReady_popsAtMost {hdr : Word} {acts : List Action} (h : PopFree acts) (s : State) :
    PopsAtMost 0 s (s.start (requireReady hdr 0 acts s)) :=
  State.start_popsAtMost (wordBound_requireReady s (wordBound_of_popFree h).le) s

/-! ### The commands' actions -/

theorem mayPop_of_emit {a : Action} (h : ∃ e, a = .emit e) : a.mayPop = 0 := by
  obtain ⟨e, rfl⟩ := h
  rfl

theorem mayPop_of_emit_or_tbuf {a : Action} {color : Half} (h : (∃ e, a = .emit e) ∨ a = .setTbuf color) :
    a.mayPop = 0 := by
  rcases h with h | rfl
  · exact mayPop_of_emit h
  · rfl

theorem popFree_emit (e : Event) : PopFree [.emit e] := by simp

theorem popFree_windowActs {g : Geometry} {x0 y0 x1 y1 : Int} : PopFree (windowActs g x0 y0 x1 y1) :=
  fun _ h => mayPop_of_emit (windowActs_emit h)

@[simp] theorem popFree_fillActs {g : Geometry} {x y w h : Int} {color : Half} : PopFree (fillActs g x y w h color) :=
  fun _ h => mayPop_of_emit_or_tbuf (fillActs_emit h)

theorem popFree_plotActs {g : Geometry} {color : Half} {plots : List Plot} : PopFree (plotActs g color plots) :=
  fun _ h => mayPop_of_emit_or_tbuf (plotActs_emit h)

@[simp] theorem popFree_waitActs {ms : Nat} : PopFree (waitActs ms) :=
  fun _ h => mayPop_of_emit (waitActs_emit h)

@[simp] theorem popFree_vendorInit {items : List VendorItem} : PopFree (items.flatMap vendorActs) := fun _ h => by
  obtain ⟨v, -, hv⟩ := List.mem_flatMap.1 h
  exact mayPop_of_emit (vendorActs_emit hv)

@[simp] theorem popFree_rotateActs {cfg : Config} {rot16 nativeW nativeH : Half} :
    PopFree (rotateActs cfg rot16 nativeW nativeH) := by
  simp [rotateActs, cmdDataAct]

theorem popFree_initActs {cfg : Config} {rot16 nw nh : Half} : PopFree (initActs cfg rot16 nw nh) := by
  simp [initActs, pinAct, cmdAct, cmdDataAct]

/-- BITMAP is one blit, an error with no word to skip, or nothing. -/
theorem popFree_bitmapActs {s : State} {hdr : Word} {a index : Nat} {x y : Int} :
    PopFree (bitmapActs s hdr a index x y) := by
  unfold bitmapActs
  simp only
  repeat' split
  all_goals simp

theorem popFree_illegalActs {hdr : Word} : PopFree (illegalActs hdr) := by
  simp [illegalActs]

/-- WRPIX pops its payload's words, then sends it. -/
theorem wordBound_wrpix (payload : List Byte) (n : Nat) :
    wordBound (List.replicate n .pop ++ [dataAct payload]) = n := by
  simp [wordBound_pops, dataAct]

/-- What a text command of `n` known characters starts with: its descriptor's error, which skips all its words, or the
walk, with all of them to pop. -/
def StartsText (n : Nat) (acts : List Action) : Prop :=
  (∃ e hdr a, acts = [.raise e hdr a ((n + 1) / 2)]) ∨
    ∃ r : TextRun, acts = [.text r] ∧ r.more = 0 ∧ r.wordsLeft = (n + 1) / 2

theorem textBmActs_startsText (s : State) (hdr : Word) (wexp : Nat) (font : Word) (x y fg bg : Half)
    (chs : List Half) : StartsText chs.length (textBmActs s hdr wexp font x y fg bg chs 0) := by
  unfold textBmActs
  split
  · exact .inl ⟨_, _, _, rfl⟩
  · exact .inr ⟨_, rfl, rfl, rfl⟩

theorem ttTextActs_startsText (s : State) (hdr font : Word) (x y fg bg : Half) (chs : List Half) :
    StartsText chs.length (ttTextActs s hdr font x y fg bg chs 0) := by
  unfold ttTextActs
  split
  · exact .inl ⟨_, _, _, rfl⟩
  · exact .inr ⟨_, rfl, rfl, rfl⟩

theorem ttWidthActs_startsText (s : State) (hdr font : Word) (chs : List Half) :
    StartsText chs.length (ttWidthActs s hdr font chs 0) := by
  unfold ttWidthActs
  split
  · exact .inl ⟨_, _, _, rfl⟩
  · exact .inr ⟨_, rfl, rfl, rfl⟩

/-- Without READY its words are skipped too. -/
theorem StartsText.requireReady {n : Nat} {acts : List Action} (h : StartsText n acts) (hdr : Word) (s : State) :
    StartsText n (requireReady hdr ((n + 1) / 2) acts s) := by
  unfold Machine.requireReady
  split
  · exact h
  · exact .inl ⟨_, _, _, rfl⟩

theorem StartsText.popsAtMost {n : Nat} {acts : List Action} (h : StartsText n acts) (s : State) :
    PopsAtMost ((n + 1) / 2) s (s.startText acts) := by
  rcases h with ⟨e, hdr, a, rfl⟩ | ⟨r, rfl, hmore, hleft⟩
  · exact State.startText_popsAtMost (by simp) (by simp) s
  · exact State.startText_popsAtMost (by simp [hleft]) (by simpa using hmore) s

/-! ### The obligation -/

/-- Every command is confined to its own words. -/
theorem exec_popsAtMost {i : Instr} {s t : State} (h : exec i s = .next t) : PopsAtMost (varCount i) s t := by
  cases i <;> cases h
  case init => exact State.startFree_popsAtMost popFree_initActs s
  case setwin => exact State.startReady_popsAtMost popFree_windowActs s
  case wrpix payload => exact State.start_popsAtMost (wordBound_requireReady s (wordBound_wrpix payload _).le) s
  case fillrect | pixel | hline | vline => exact State.startReady_popsAtMost popFree_fillActs s
  case line | circle | fcircle | tri | ftri => exact State.startReady_popsAtMost popFree_plotActs s
  case text8 | text16 => exact ((textBmActs_startsText ..).requireReady _ s).popsAtMost s
  case tttext => exact ((ttTextActs_startsText ..).requireReady _ s).popsAtMost s
  case ttwidth => exact (ttWidthActs_startsText ..).popsAtMost s
  case bitmap => exact State.startReady_popsAtMost popFree_bitmapActs s
  case setrot => exact State.startReady_popsAtMost popFree_rotateActs s
  case setorg => exact State.startReady_popsAtMost (by simp) s
  case sleep | invert | display => exact State.startReady_popsAtMost (popFree_emit _) s
  case rgb565 => exact State.startFree_popsAtMost (by simp) s
  case illegal00 | illegal18 | illegal20 | illegal40 | illegal80 =>
    exact State.startFree_popsAtMost popFree_illegalActs s

/-- Settles O55: what each action keeps, and the words it may pop, add up along the actions of a command. -/
theorem commandsLeaveMemoryAlone : Obligations.CommandsLeaveMemoryAlone := by
  intro i s t h
  obtain ⟨assets, bytes, cfg, words, pkt, reads, srst, trace⟩ := exec_popsAtMost h
  exact ⟨assets, bytes, cfg, words, pkt, reads, srst, trace⟩

end Sys2Proof.Machine

/-! Every command as one list of actions. All that is said of every command below, whatever interferes, is read off
this list. -/

namespace Sys2Proof.Machine

/-! ### The actions of a command -/

/-- The actions of a command, READY apart. -/
def bodyActs (s : State) : Instr → List Action
  | .init rot16 nw nh => initActs s.cfg rot16 nw nh
  | .setwin x0 y0 x1 y1 => windowActs s.geom x0.toInt y0.toInt x1.toInt y1.toInt
  | .wrpix payload => List.replicate ((payload.length + 3) / 4) .pop ++ [dataAct payload]
  | .fillrect x y w h color => fillActs s.geom x.toInt y.toInt w.toNat h.toNat color
  | .pixel x y color => fillActs s.geom x.toInt y.toInt 1 1 color
  | .hline x y w color => fillActs s.geom x.toInt y.toInt w.toNat 1 color
  | .vline x y h color => fillActs s.geom x.toInt y.toInt 1 h.toNat color
  | .line x0 y0 x1 y1 color => plotActs s.geom color (linePlots x0.toInt y0.toInt x1.toInt y1.toInt)
  | .circle x0 y0 r color => plotActs s.geom color (circlePlots x0.toInt y0.toInt r.toNat)
  | .fcircle x0 y0 r color => plotActs s.geom color (fcirclePlots x0.toInt y0.toInt r.toNat)
  | .tri x0 y0 x1 y1 x2 y2 color =>
    plotActs s.geom color (triPlots x0.toInt y0.toInt x1.toInt y1.toInt x2.toInt y2.toInt)
  | .ftri x0 y0 x1 y1 x2 y2 color =>
    plotActs s.geom color (ftriPlots x0.toInt y0.toInt x1.toInt y1.toInt x2.toInt y2.toInt)
  | .text8 font x y fg bg chars =>
    textBmActs s (headerOf (.text8 font x y fg bg chars)) 8 font x y fg bg chars 0
  | .text16 font x y fg bg chars =>
    textBmActs s (headerOf (.text16 font x y fg bg chars)) 16 font x y fg bg chars 0
  | .tttext font x y fg bg chars => ttTextActs s (headerOf (.tttext font x y fg bg chars)) font x y fg bg chars 0
  | .ttwidth font chars => ttWidthActs s (headerOf (.ttwidth font chars)) font chars 0
  | .bitmap desc x y index =>
    bitmapActs s (headerOf (.bitmap desc x y index)) desc.toNat index.toNat x.toInt y.toInt
  | .setrot rot16 => rotateActs s.cfg rot16 s.nativeW s.nativeH
  | .setorg xs ys => [.setOrigin xs ys]
  | .sleep on => [cmdAct (if on then 0x10 else 0x11)]
  | .invert on => [cmdAct (if on then 0x21 else 0x20)]
  | .display on => [cmdAct (if on then 0x29 else 0x28)]
  | .rgb565 r g b => [.setResult ((rgb565 r g b).setWidth 32)]
  | .illegal00 low => illegalActs (headerOf (.illegal00 low))
  | .illegal18 low => illegalActs (headerOf (.illegal18 low))
  | .illegal20 low => illegalActs (headerOf (.illegal20 low))
  | .illegal40 low => illegalActs (headerOf (.illegal40 low))
  | .illegal80 low => illegalActs (headerOf (.illegal80 low))

/-- The actions of a command: its own, or the rejection of one that requires READY (60_exceptions.md R282 step 3). -/
def commandActs (i : Instr) (s : State) : List Action :=
  if requiresReadyInstr i then requireReady (headerOf i) (varCount i) (bodyActs s i) s else bodyActs s i

/-- How a command goes on when it meets a text action among its own: the four text commands walk the string. -/
def onText : Instr → TextRun → State → State
  | .text8 .. | .text16 .. | .tttext .. | .ttwidth .. => fun r => runText r.chs r
  | _ => laterText

/-- A command is its actions in order, from EXEC on. -/
theorem exec_eq_drain (i : Instr) (s : State) : exec i s = .next (drain (onText i) (commandActs i s) s.enter) := by
  cases i <;> rfl

/-- Every action of the list has a property. -/
def Every (P : Action → Prop) (acts : List Action) : Prop := ∀ a ∈ acts, P a

@[simp] theorem every_nil (P : Action → Prop) : Every P [] := fun _ h => absurd h List.not_mem_nil

@[simp] theorem every_cons (P : Action → Prop) (a : Action) (rest : List Action) :
    Every P (a :: rest) ↔ P a ∧ Every P rest := List.forall_mem_cons

@[simp] theorem every_append (P : Action → Prop) (acts more : List Action) :
    Every P (acts ++ more) ↔ Every P acts ∧ Every P more := List.forall_mem_append

/-- A text action goes on with the walk, or waits. -/
theorem onText_cases (i : Instr) : (onText i = fun r => runText r.chs r) ∨ onText i = laterText := by
  cases i with
  | text8 | text16 | tttext | ttwidth => exact .inl rfl
  | _ => exact .inr rfl

end Sys2Proof.Machine

/-! What a step is, said once: an act of the platform that is due, an access of the host that is due, or a move of the
engine (60_exceptions.md R290). -/

namespace Sys2Proof.Machine

/-! ### The three kinds of step -/

theorem step_platform {s : State} {p : PlatformInput} {rest : List PlatformInput} (hd : s.platformDue = true)
    (hp : s.platform = p :: rest) : step s = platformAccess p.access { s with platform := rest } := by
  simp [step, State.envDue, environment, hd, hp]

theorem step_host {s : State} {h : HostInput} {rest : List HostInput} (hp : s.platformDue = false)
    (hd : s.hostDue = true) (hh : s.host = h :: rest) : step s = access h.access { s with host := rest } := by
  simp [step, State.envDue, environment, hp, hd, hh]

/-- Every step is of one of the three kinds. -/
theorem step_cases (s : State) :
    (s.platformDue = true ∧ ∃ p rest, s.platform = p :: rest ∧
      step s = platformAccess p.access { s with platform := rest }) ∨
    (s.platformDue = false ∧ s.hostDue = true ∧ ∃ h rest, s.host = h :: rest ∧
      step s = access h.access { s with host := rest }) ∨
    (s.envDue = false ∧ step s = engine s) := by
  by_cases hp : s.platformDue = true
  · cases hl : s.platform with
    | nil => simp [State.platformDue, hl] at hp
    | cons p rest => exact .inl ⟨hp, p, rest, rfl, step_platform hp hl⟩
  · rw [Bool.not_eq_true] at hp
    by_cases hd : s.hostDue = true
    · cases hl : s.host with
      | nil => simp [State.hostDue, hl] at hd
      | cons h rest => exact .inr (.inl ⟨hp, hd, h, rest, rfl, step_host hp hd hl⟩)
    · have he : s.envDue = false := by simp [State.envDue, hp, hd]
      exact .inr (.inr ⟨he, step_eq_engine he⟩)

/-! ### Accesses -/

theorem windowAccess_iff {bytes off : Nat} :
    windowAccess bytes off = true ↔ bytes = 4 ∧ off % 4 = 0 ∧ off < 64 := by
  simp [windowAccess, and_assoc]

/-- An access that has a next state is a read that is recorded or a write inside the window (20_memory.md R51). -/
theorem access_next {a : HostAccess} {s t : State} (h : access a s = .next t) :
    (∃ off, a = .read 4 off ∧ t = { s with reads := s.reads ++ [(off, s.readReg off)] }) ∨
      ∃ off v, a = .write 4 off v ∧ t = s.writeReg off v := by
  cases a with
  | read bytes off =>
    rw [access] at h
    split at h
    · obtain ⟨rfl, -⟩ := windowAccess_iff.1 ‹_›
      cases h
      exact .inl ⟨off, rfl, rfl⟩
    · cases h
  | write bytes off v =>
    rw [access] at h
    split at h
    · obtain ⟨rfl, -⟩ := windowAccess_iff.1 ‹_›
      cases h
      exact .inr ⟨off, v, rfl, rfl⟩
    · cases h

/-- A register write appends to the FIFO, writes CTRL, or is ignored (10_state.md R36..R47). -/
theorem State.writeReg_cases (off : Nat) (v : Word) (s : State) :
    (off = 0x00 ∧ s.writeReg off v = { s with fifo := s.fifo ++ [v] }) ∨
      (off = 0x0C ∧ s.writeReg off v = s.writeCtrl v) ∨
      (off ≠ 0x00 ∧ off ≠ 0x0C ∧ s.writeReg off v = s) := by
  unfold State.writeReg
  split
  · exact .inl ⟨rfl, rfl⟩
  · exact .inr (.inl ⟨rfl, rfl⟩)
  · exact .inr (.inr ⟨‹_›, ‹_›, rfl⟩)

/-- A write to CTRL: ERRCLR, then SRST, which waits for the event in progress (R39, 70_reset_and_hazards.md R321). -/
theorem State.writeCtrl_eq (v : Word) (s : State) :
    s.writeCtrl v =
      if v.getLsbD 1 then
        if s.inFlight then { if v.getLsbD 0 then s.errclr else s with srstPending := true }
        else s.softReset
      else if v.getLsbD 0 then s.errclr else s := by
  unfold State.writeCtrl
  cases v.getLsbD 0 <;> rfl

/-- An act of the platform that has a next state is a load inside asset memory or a power-on. -/
theorem platformAccess_next {a : PlatformAccess} {s t : State} (h : platformAccess a s = .next t) :
    (∃ addr v, a = .loadAsset addr v ∧ addr < s.assetSize ∧ t = s.loadAsset addr v) ∨
      (a = .powerOn ∧ t = s.powerOn) := by
  cases a with
  | loadAsset addr v =>
    rw [platformAccess] at h
    split at h
    · cases h
      exact .inl ⟨addr, v, rfl, ‹_›, rfl⟩
    · cases h
  | powerOn => cases h; exact .inr ⟨rfl, rfl⟩

/-! ### Moves of the engine -/

theorem engine_held {s : State} (h : s.inFlight = true) : engine s = .next s.held := by
  simp [engine, h]

theorem engine_halted {s : State} (hf : s.inFlight = false) (hh : s.halted = true) : engine s = .next s.discard := by
  simp [engine, hf, hh]

theorem engine_resume {s : State} (hf : s.inFlight = false) (hh : s.halted = false) (ht : s.todo ≠ []) :
    engine s = .next (resume s) := by
  simp [engine, hf, hh, ht]

/-- The port goes on holding, or accepts (20_memory.md R58). -/
theorem State.held_cases (s : State) :
    s.held = s.tick ∨ (∃ holds, s.held = ({ s with port := holds } : State).tick) ∨
      ((s.port = [] ∨ ∃ holds, s.port = .ticks 0 :: holds) ∧ s.held = s.accept) := by
  unfold State.held
  split
  · exact .inl rfl
  · exact .inr (.inl ⟨_, rfl⟩)
  · exact .inr (.inr ⟨.inr ⟨_, ‹_›⟩, rfl⟩)
  · exact .inr (.inr ⟨.inl ‹_›, rfl⟩)

end Sys2Proof.Machine

/-! The invariant (O57). A command's actions are well behaved and leave the set-up as 10_state.md R24 says, so every
command keeps the invariant; so does what the engine, the host and the platform do. -/

namespace Sys2Proof.Machine

/-! ### Actions -/

/-- Some actions keep the invariant from a set-up on: each is well behaved, and after them the set-up is as R24 says. -/
structure ActsOk (p : Setup) (acts : List Action) : Prop where
  good : ∀ a ∈ acts, a.good
  setup : setupOk acts p

/-- An action that is well behaved and changes nothing of the set-up. -/
structure Action.tame (a : Action) : Prop where
  good : a.good
  free : a.setupFree

theorem actsOk_of_tame {p : Setup} {acts : List Action} (h : ∀ a ∈ acts, a.tame) (hp : p.ok) : ActsOk p acts :=
  ⟨fun a ha => (h a ha).good, setupOk_of_free (fun a ha => (h a ha).free) hp⟩

theorem tame_emit {e : Event} (h : e.ok = true) : (Action.emit e).tame := ⟨good_emit h, setupFree_emit e⟩

theorem tame_blit {window : List Event} {b : Blit} (h : ∀ e ∈ window, e.ok = true) : (Action.blit window b).tame :=
  ⟨⟨rfl, List.all_eq_true.2 h⟩, setupFree_blit window b⟩

theorem tame_raise {e : ErrKind} {hdr : Word} {a m : Nat} (h : a = 0 ∨ e = .asset) :
    (Action.raise e hdr a m).tame := ⟨good_raise h, setupFree_raise e hdr a m⟩

theorem tame_text (r : TextRun) : (Action.text r).tame := ⟨⟨rfl, rfl⟩, setupFree_text r⟩

/-- Actions that have no event, no error and no set-up to them. -/
theorem tame_of_plain {a : Action} (hr : a.recordOk = true) (hw : a.waitOk = true) (hf : a.setupFree) : a.tame :=
  ⟨⟨hr, hw⟩, hf⟩

/-- Events and the transfer buffer change nothing of the set-up. -/
theorem setupFree_of_emit_or_tbuf {a : Action} {color : Half} (h : (∃ e, a = .emit e) ∨ a = .setTbuf color) :
    a.setupFree := by
  rcases h with ⟨e, rfl⟩ | rfl <;> exact fun _ => rfl

theorem tame_windowActs {g : Geometry} {x0 y0 x1 y1 : Int} : ∀ a ∈ windowActs g x0 y0 x1 y1, a.tame := by
  intro a ha
  obtain ⟨e, he, rfl⟩ := List.mem_map.1 ha
  exact tame_emit (windowOut_ok _ _ _ _ _ e he)

theorem tame_fillActs {g : Geometry} {x y w h : Int} {color : Half} : ∀ a ∈ fillActs g x y w h color, a.tame :=
  fun a ha => ⟨fillActs_good _ _ _ _ _ _ a ha, setupFree_of_emit_or_tbuf (fillActs_emit ha)⟩

theorem tame_plotActs {g : Geometry} {color : Half} {l : List Plot} : ∀ a ∈ plotActs g color l, a.tame :=
  fun a ha => ⟨plotActs_good _ _ _ a ha, setupFree_of_emit_or_tbuf (plotActs_emit ha)⟩

theorem tame_waitActs {ms : Nat} : ∀ a ∈ waitActs ms, a.tame := by
  intro a ha
  obtain ⟨e, rfl⟩ := waitActs_emit ha
  exact ⟨waitActs_good ms _ ha, setupFree_emit e⟩

theorem tame_vendorActs {v : VendorItem} : ∀ a ∈ vendorActs v, a.tame := by
  cases v with
  | send c payload => cases payload <;> simpa [vendorActs, txnAct] using tame_emit rfl
  | delay ms => exact tame_waitActs

theorem tame_vendorInit {items : List VendorItem} : ∀ a ∈ items.flatMap vendorActs, a.tame := by
  intro a ha
  obtain ⟨v, -, hv⟩ := List.mem_flatMap.1 ha
  exact tame_vendorActs a hv

/-- WRPIX pops its words and sends its payload. -/
theorem tame_wrpix {payload : List Byte} {n : Nat} : ∀ a ∈ List.replicate n .pop ++ [dataAct payload], a.tame := by
  intro a ha
  rcases List.mem_append.1 ha with ha | ha
  · rw [(List.mem_replicate.1 ha).2]
    exact tame_of_plain rfl rfl fun _ => rfl
  · rw [List.mem_singleton.1 ha]
    exact tame_emit rfl

/-! ### Descriptors: an error with an address is E_ASSET (60_exceptions.md R283) -/

theorem readFont1_error {s : State} {wexp a x : Nat} {e : ErrKind} (h : readFont1 s wexp a = .error (e, x)) :
    x = 0 ∨ e = .asset := by
  rw [readFont1_eq] at h
  split at h
  · cases h; exact .inr rfl
  split at h
  · cases h; exact .inl rfl
  · cases h

theorem readFontV_error {s : State} {b : Bool} {a x : Nat} {e : ErrKind} (h : readFontV s b a = .error (e, x)) :
    x = 0 ∨ e = .asset := by
  rw [readFontV_eq] at h
  split at h
  · cases h; exact .inr rfl
  split at h
  · cases h; exact .inl rfl
  split at h
  · cases h; exact .inr rfl
  · cases h

theorem tame_textBmActs {s : State} {hdr font : Word} {wexp more : Nat} {x y fg bg : Half} {chs : List Half} :
    ∀ a ∈ textBmActs s hdr wexp font x y fg bg chs more, a.tame := by
  unfold textBmActs
  split
  · simpa using tame_raise (readFont1_error ‹_›)
  · simpa using tame_text _

theorem tame_ttTextActs {s : State} {hdr font : Word} {more : Nat} {x y fg bg : Half} {chs : List Half} :
    ∀ a ∈ ttTextActs s hdr font x y fg bg chs more, a.tame := by
  unfold ttTextActs
  split
  · simpa using tame_raise (readFontV_error ‹_›)
  · simpa using tame_text _

theorem tame_ttWidthActs {s : State} {hdr font : Word} {more : Nat} {chs : List Half} :
    ∀ a ∈ ttWidthActs s hdr font chs more, a.tame := by
  unfold ttWidthActs
  split
  · simpa using tame_raise (readFontV_error ‹_›)
  · simpa using tame_text _

/-- BITMAP is an error with an address for E_ASSET alone, one blit, or nothing. -/
theorem tame_bitmapActs {s : State} {hdr : Word} {d index : Nat} {x y : Int} :
    ∀ a ∈ bitmapActs s hdr d index x y, a.tame := by
  have none : ∀ a ∈ ([] : List Action), a.tame := fun _ h => absurd h List.not_mem_nil
  have raise {e : ErrKind} {addr m : Nat} (h : addr = 0 ∨ e = .asset) : ∀ a ∈ [Action.raise e hdr addr m], a.tame := by
    simpa using tame_raise h
  unfold bitmapActs
  simp only
  split
  · exact raise (.inr rfl)
  split
  · exact raise (.inl rfl)
  split
  · exact raise (.inl rfl)
  split
  · exact raise (.inl rfl)
  split
  · exact none
  split
  · exact none
  split
  · exact raise (.inr rfl)
  split
  · exact raise (.inr rfl)
  · simpa using tame_blit (windowOut_ok _ _ _ _ _)

/-! ### The two commands that change the set-up (40_panel_control.md R121, R124) -/

theorem rotateActs_good (cfg : Config) (v nw nh : Half) : ∀ a ∈ rotateActs cfg v nw nh, a.good := by
  simp [rotateActs, cmdDataAct, Action.good, Action.recordOk, Action.waitOk, Event.ok]

/-- SETROT leaves the extent of its rotation code. -/
theorem rotateActs_ok (s : State) (v : Half) : ActsOk s.setup (rotateActs s.cfg v s.nativeW s.nativeH) := by
  refine ⟨rotateActs_good _ _ _ _, ?_⟩
  rw [← List.append_nil (rotateActs _ _ _ _)]
  exact rotateActs_setupOk s.cfg v s.setup [] fun q hq _ => hq

theorem initActs_good (cfg : Config) (v nw nh : Half) : Every Action.good (initActs cfg v nw nh) := by
  have wait (ms : Nat) : Every Action.good (waitActs ms) := waitActs_good ms
  have vendor : Every Action.good (cfg.vendorInit.flatMap vendorActs) := fun a ha => (tame_vendorInit a ha).good
  have rotate : Every Action.good (rotateActs cfg v nw nh) := rotateActs_good cfg v nw nh
  have fill (g : Geometry) (x y w h : Int) (color : Half) : Every Action.good (fillActs g x y w h color) :=
    fillActs_good g x y w h color
  simp [initActs, wait, vendor, rotate, fill, pinAct, cmdAct, cmdDataAct, Action.good, Action.recordOk, Action.waitOk,
    Event.ok]

/-- Simple actions that change nothing of the set-up may come first. -/
theorem setupOk_skip {l : List Action} (hs : ∀ a ∈ l, a.simple = true) (hf : ∀ a ∈ l, a.tame) (m : List Action)
    (p : Setup) : setupOk (l ++ m) p = setupOk m p :=
  setupOk_append_free (fun a ha => ⟨hs a ha, (hf a ha).free⟩) m p

theorem simple_of_emit {a : Action} (h : ∃ e, a = .emit e) : a.simple = true := by
  obtain ⟨e, rfl⟩ := h
  rfl

theorem setupOk_waitActs (ms : Nat) (m : List Action) (p : Setup) : setupOk (waitActs ms ++ m) p = setupOk m p :=
  setupOk_skip (fun _ h => simple_of_emit (waitActs_emit h)) tame_waitActs m p

theorem setupOk_vendorInit (items : List VendorItem) (m : List Action) (p : Setup) :
    setupOk (items.flatMap vendorActs ++ m) p = setupOk m p := by
  refine setupOk_skip (fun a h => ?_) tame_vendorInit m p
  obtain ⟨v, -, hv⟩ := List.mem_flatMap.1 h
  exact simple_of_emit (vendorActs_emit hv)

theorem setupOk_fillActs (g : Geometry) (x y w h : Int) (color : Half) (m : List Action) (p : Setup) :
    setupOk (fillActs g x y w h color ++ m) p = setupOk m p :=
  setupOk_skip (fillActs_simple g x y w h color) tame_fillActs m p

/-- INIT sets the native size, the rotation and its extent, and READY last. -/
theorem initActs_ok (cfg : Config) (v nw nh : Half) (p : Setup) : ActsOk p (initActs cfg v nw nh) := by
  refine ⟨initActs_good cfg v nw nh, ?_⟩
  simp only [initActs, List.append_assoc, List.cons_append, List.nil_append]
  have rotate := rotateActs_setupOk cfg v { p with nativeW := nw, nativeH := nh }
  have emit (e : Event) (m : List Action) (q : Setup) : setupOk (.emit e :: m) q = setupOk m q := rfl
  rw [setupOk_cons rfl, setupOk_cons rfl]
  simp only [pinAct, cmdAct, cmdDataAct, emit, setupOk_waitActs]
  refine rotate _ fun q hq => ?_
  simp only [setupOk_vendorInit, setupOk_waitActs, setupOk_fillActs]
  exact fun _ => hq

/-! ### Commands -/

theorem bodyActs_ok (s : State) (i : Instr) (hs : s.setup.ok) : ActsOk s.setup (bodyActs s i) := by
  have plain {a : Action} (hr : a.recordOk = true) (hw : a.waitOk = true) (hf : a.setupFree) :
      ActsOk s.setup [a] := actsOk_of_tame (by simpa using tame_of_plain hr hw hf) hs
  cases i
  case init => exact initActs_ok _ _ _ _ _
  case setrot => exact rotateActs_ok s _
  case setwin => exact actsOk_of_tame tame_windowActs hs
  case wrpix => exact actsOk_of_tame tame_wrpix hs
  case fillrect | pixel | hline | vline => exact actsOk_of_tame tame_fillActs hs
  case line | circle | fcircle | tri | ftri => exact actsOk_of_tame tame_plotActs hs
  case text8 | text16 => rw [bodyActs]; exact actsOk_of_tame tame_textBmActs hs
  case tttext => rw [bodyActs]; exact actsOk_of_tame tame_ttTextActs hs
  case ttwidth => rw [bodyActs]; exact actsOk_of_tame tame_ttWidthActs hs
  case bitmap => exact actsOk_of_tame tame_bitmapActs hs
  case setorg | sleep | invert | display | rgb565 | illegal00 | illegal18 | illegal20 | illegal40 | illegal80 =>
    exact plain rfl rfl fun _ => rfl

theorem commandActs_ok (i : Instr) (s : State) (hs : s.setup.ok) : ActsOk s.setup (commandActs i s) := by
  have h := bodyActs_ok s i hs
  unfold commandActs
  split
  · exact ⟨requireReady_good h.good, requireReady_setupOk hs h.setup⟩
  · exact h

/-- A command that starts where no other is under way ends in a state with the invariant. -/
theorem exec_inv {i : Instr} {s t : State} (hm : Mid s.enter) (hs : s.setup.ok) (h : exec i s = .next t) : t.Inv := by
  have ok := commandActs_ok i s hs
  rw [exec_eq_drain] at h
  cases h
  refine drain_inv _ (fun r u _ hu hsu => ?_) ok.good hm ok.setup
  rcases onText_cases i with ht | ht <;> rw [ht]
  · exact runText_inv r.chs r u hu hsu
  · exact laterText_inv r u hu hsu

/-! ### The engine's cycle (60_exceptions.md R282) -/

/-- A command whose characters or payload are still to come. -/
theorem streamActs_tame (h : Word) (fixed : List Word) (s : State) : ∀ a ∈ streamActs h fixed s, a.tame := by
  unfold streamActs
  simp only
  split
  · simpa using tame_of_plain rfl rfl fun _ => rfl
  · exact tame_textBmActs
  · exact tame_textBmActs
  · exact tame_ttTextActs
  · exact tame_ttWidthActs
  · exact fun _ h => absurd h List.not_mem_nil

/-- The actions of a text or other command end in a state with the invariant. -/
theorem startText_inv {acts : List Action} {s : State} (ha : ∀ a ∈ acts, a.tame) (hm : Mid s.enter)
    (hs : s.setup.ok) : (s.startText acts).Inv :=
  runActs_inv acts (fun a h => (ha a h).good) hm (setupOk_of_free (fun a h => (ha a h).free) hs)

theorem decidePacket_inv {s t : State} (hi : s.Inv) (hf : s.inFlight = false) (ht : s.todo = [])
    (h : decidePacket s = .next t) : t.Inv := by
  have hm := hi.mid hf
  have hs : s.setup.ok := by simpa [ht, setupOk] using hi.setup_ok
  unfold decidePacket at h
  split at h
  · exact exec_inv hm hs h
  · cases h
    exact hi
  · cases h
    exact startText_inv (by simpa using tame_raise (.inl rfl)) hm hs
  · cases h
    unfold startStream
    split
    · exact startText_inv (by simpa using tame_raise (.inl rfl)) hm hs
    · exact startText_inv (streamActs_tame _ _ _) hm hs

theorem fetch_inv {s t : State} (hi : s.Inv) (hf : s.inFlight = false) (hh : s.halted = false) (ht : s.todo = [])
    (h : fetch s = .next t) : t.Inv := by
  have room : ∀ hd tl, s.stream = hd :: tl → s.pkt.length + s.lacking ≤ fixedPart hd := by
    intro hd tl hst
    have hle : s.pkt.length ≤ fixedPart hd := by
      cases hp : s.pkt with
      | nil => exact Nat.zero_le _
      | cons w rest =>
        rw [State.stream, hp, List.cons_append, List.cons.injEq] at hst
        exact hp ▸ hst.1 ▸ hi.pkt_partial w rest hp
    rw [State.lacking_eq hst]
    omega
  obtain ⟨hg, hgf, hgt, -⟩ := hi.gather hf ht hh s.lacking room
  simp only [fetch] at h
  split at h
  · cases h
    exact hg
  · exact decidePacket_inv hg hgf hgt h

/-- A command that is under way and not at the port is between two of its actions. -/
theorem State.Inv.mid_of_todo {s : State} (hi : s.Inv) (hf : s.inFlight = false) (ht : s.todo ≠ []) : Mid s :=
  { hi.mid hf with
    pkt := hi.todo_pkt ht
    phase := hi.phase_exec.2 (.inr ht) }

theorem State.Inv.todo_good {s : State} (hi : s.Inv) : ∀ a ∈ s.todo, a.good :=
  fun a ha => ⟨hi.todo_record_ok a ha, hi.todo_wait_ok a ha⟩

/-- A word of WRPIX's payload keeps the invariant. -/
theorem payloadWord_inv {s : State} {got : List Byte} {more : Nat} (hi : s.Inv) (hm : Mid s) (hs : s.setup.ok) :
    (s.payloadWord got more).Inv := by
  have popped : Mid (s.pop 1) := Mid.apply (a := .pop) ⟨rfl, rfl⟩ hm
  unfold State.payloadWord
  split
  · exact hi.tick
  · simp only
    split
    · exact runActs_inv _ (by simpa [dataAct] using good_emit rfl) popped.tick hs
    · exact (popped.inv_todo [.payload _ _] (by simp [Action.good, Action.recordOk, Action.waitOk]) (by simp)
        hs).tick

/-- A character word of a text command keeps the invariant. -/
theorem textWord_inv {s : State} {r : TextRun} (hi : s.Inv) (hm : Mid s) (hs : s.setup.ok) : (s.textWord r).Inv := by
  have text (q : TextRun) {u : State} (hu : Mid u) (hsu : u.setup.ok) : (runActs [.text q] u).Inv :=
    runActs_inv _ (by simpa using (tame_text q).good) hu hsu
  unfold State.textWord
  split
  · split
    · exact hi.tick
    · exact text _ (Mid.apply (a := .pop) ⟨rfl, rfl⟩ hm).tick hs
  · exact text _ hm hs

theorem resume_inv {s : State} (hi : s.Inv) (hf : s.inFlight = false) (ht : s.todo ≠ []) : (resume s).Inv := by
  have hm := hi.mid_of_todo hf ht
  have hset := hi.setup_ok
  unfold resume
  split
  · rename_i hto
    rw [hto] at hset
    split
    · exact hi.tick
    · exact skipWords_inv _ hm hset
  · rename_i hto
    rw [hto] at hset
    exact payloadWord_inv hi hm hset
  · rename_i hto
    rw [hto] at hset
    exact textWord_inv hi hm hset
  · exact runActs_inv _ hi.todo_good hm hset

/-- An event in progress belongs to a command. -/
theorem State.Inv.todo_of_inFlight {s : State} (hi : s.Inv) (hf : s.inFlight = true) : s.todo ≠ [] := by
  obtain ⟨e, rest, ht, -⟩ := hi.in_flight hf
  simp [ht]

/-- A halted engine discards a word (60_exceptions.md R285). -/
theorem discard_inv {s : State} (hi : s.Inv) : s.discard.Inv := by
  unfold State.discard
  split
  · exact hi.tick
  · refine State.Inv.tick { hi with fifo_bound := ?_, busy_clear := ?_ }
    · have := hi.fifo_bound
      simp
      omega
    · exact busy_clear_of hi.phase_exec hi.todo_of_inFlight

/-! ### Reset and the port (70_reset_and_hazards.md R320, R321; 20_memory.md R58) -/

theorem softReset_inv {s : State} (ha : Memory.wf s.assets = true) (hin : ∀ c ∈ s.assets, c.1 < s.assetSize)
    (htr : ∀ e ∈ s.trace, e.ok = true) : s.softReset.Inv where
  assets_wf := ha
  assets_inside := hin
  fifo_bound := Nat.zero_le _
  record_ok := .inl ⟨rfl, rfl, rfl⟩
  todo_record_ok := fun _ h => absurd h List.not_mem_nil
  trace_ok := by
    intro e he
    rw [State.softReset_trace] at he
    split at he
    · exact htr e he
    · rcases List.mem_append.1 he with he | he
      · exact htr e he
      · rw [List.mem_singleton.1 he]
        rfl
  todo_wait_ok := fun _ h => absurd h List.not_mem_nil
  cs_idle := fun _ => rfl
  pkt_partial := fun _ _ h => by cases h
  todo_pkt := fun _ => rfl
  srst_pending := fun h => by cases h
  phase_exec := by simp
  in_flight := fun h => by cases h
  setup_ok := fun h => by cases h
  busy_clear := fun _ _ => ⟨rfl, rfl, rfl, rfl⟩

theorem powerOn_inv {s : State} (ha : Memory.wf s.assets = true) (hin : ∀ c ∈ s.assets, c.1 < s.assetSize) :
    s.powerOn.Inv :=
  { softReset_inv (s := { s with trace := [], pins := State.reset.pins }) ha hin
      (fun _ h => absurd h List.not_mem_nil) with }

/-- The port accepts the event in progress: the command goes on, or a pending soft reset acts. -/
theorem accept_inv {s : State} (hi : s.Inv) (hf : s.inFlight = true) : s.accept.Inv := by
  obtain ⟨e, rest, ht, hcs⟩ := hi.in_flight hf
  have he : e.ok = true := hi.todo_wait_ok (.emit e) (by simp [ht])
  have htr : ∀ x ∈ s.trace ++ [e], x.ok = true := by
    intro x hx
    rcases List.mem_append.1 hx with hx | hx
    · exact hi.trace_ok x hx
    · rwa [List.mem_singleton.1 hx]
  have hto : s.todo ≠ [] := hi.todo_of_inFlight hf
  rw [accept_eq ht]
  split
  · exact softReset_inv hi.assets_wf hi.assets_inside htr
  · rename_i hsr
    refine runActs_inv rest (fun a ha => hi.todo_good a (by simp [ht, ha])) (Mid.tick ?_) ?_
    · exact {
        assets_wf := hi.assets_wf
        assets_inside := hi.assets_inside
        fifo_bound := hi.fifo_bound
        record_ok := hi.record_ok
        trace_ok := htr
        cs := Pins.after_csN s.pins e hcs
        pkt := hi.todo_pkt hto
        srst := by simpa using hsr
        flight := rfl
        phase := hi.phase_exec.2 (.inr hto) }
    · have hset := hi.setup_ok
      rw [ht, setupOk_cons rfl] at hset
      exact hset

theorem held_inv {s : State} (hi : s.Inv) (hf : s.inFlight = true) : s.held.Inv := by
  rcases s.held_cases with h | ⟨holds, h⟩ | ⟨-, h⟩ <;> rw [h]
  · exact hi.tick
  · exact State.Inv.tick { hi with }
  · exact accept_inv hi hf

theorem engine_inv {s t : State} (hi : s.Inv) (h : engine s = .next t) : t.Inv := by
  by_cases hf : s.inFlight = true
  · rw [engine_held hf] at h
    cases h
    exact held_inv hi hf
  rw [Bool.not_eq_true] at hf
  by_cases hh : s.halted = true
  · rw [engine_halted hf hh] at h
    cases h
    exact discard_inv hi
  rw [Bool.not_eq_true] at hh
  by_cases ht : s.todo = []
  · rw [engine_eq_fetch hf hh ht] at h
    exact fetch_inv hi hf hh ht h
  · rw [engine_resume hf hh ht] at h
    cases h
    exact resume_inv hi hf ht

/-! ### The environment -/

theorem loadAsset_inv {s : State} {addr : Nat} {v : Byte} (hi : s.Inv) (ha : addr < s.assetSize) :
    (s.loadAsset addr v).Inv :=
  { hi with
    assets_wf := Memory.write_wf _ _ _ hi.assets_wf
    assets_inside := fun c hc => by
      rcases Memory.mem_write hc with hc | ⟨rfl, -⟩
      · exact hi.assets_inside c hc
      · exact ha }

theorem errclr_inv {s : State} (hi : s.Inv) : s.errclr.Inv :=
  { hi with
    record_ok := .inl ⟨rfl, rfl, rfl⟩
    busy_clear := busy_clear_of hi.phase_exec hi.todo_of_inFlight }

theorem writeCtrl_inv {s : State} {v : Word} (hi : s.Inv) : (s.writeCtrl v).Inv := by
  rw [State.writeCtrl_eq]
  have cleared : (if v.getLsbD 0 then s.errclr else s).Inv ∧
      (if v.getLsbD 0 then s.errclr else s).inFlight = s.inFlight := by
    split
    · exact ⟨errclr_inv hi, rfl⟩
    · exact ⟨hi, rfl⟩
  obtain ⟨hc, hcf⟩ := cleared
  split
  · split
    · exact { hc with srst_pending := fun _ => hcf.trans ‹_› }
    · exact softReset_inv hi.assets_wf hi.assets_inside hi.trace_ok
  · exact hc

/-- A CMD write that is due finds room in the FIFO (10_state.md R30). -/
theorem cmdWrite_inv {s : State} {v : Word} (hi : s.Inv) (hroom : s.fifo.length < s.cfg.fifoDepth) :
    ({ s with fifo := s.fifo ++ [v] } : State).Inv :=
  { hi with
    fifo_bound := by simpa using hroom
    busy_clear := busy_clear_of hi.phase_exec hi.todo_of_inFlight }

/-- A host access that is due and is a CMD write is not blocked. -/
theorem room_of_hostDue {s : State} {h : HostInput} {rest : List HostInput} {v : Word} (hd : s.hostDue = true)
    (hh : s.host = h :: rest) (ha : h.access = .write 4 0 v) : s.fifo.length < s.cfg.fifoDepth := by
  have hnow : h.wait = 0 ∧ s.fifo.length < s.cfg.fifoDepth := by
    simpa [State.hostDue, hh, ha, State.blocked] using hd
  exact hnow.2

theorem access_inv {s t : State} {a : HostAccess} (hi : s.Inv)
    (hroom : ∀ v, a = .write 4 0 v → s.fifo.length < s.cfg.fifoDepth) (h : access a s = .next t) : t.Inv := by
  rcases access_next h with ⟨off, -, rfl⟩ | ⟨off, v, rfl, rfl⟩
  · exact { hi with }
  · rcases s.writeReg_cases off v with ⟨rfl, hw⟩ | ⟨rfl, hw⟩ | ⟨-, -, hw⟩ <;> rw [hw]
    · exact cmdWrite_inv hi (hroom v rfl)
    · exact writeCtrl_inv hi
    · exact hi

/-- Settles O57: each kind of step keeps the invariant. -/
theorem everyStepKeepsTheInvariant : Obligations.EveryStepKeepsTheInvariant := by
  intro s t hi h
  rcases step_cases s with ⟨-, p, rest, -, hs⟩ | ⟨-, hd, a, rest, hh, hs⟩ | ⟨-, hs⟩ <;> rw [hs] at h
  · have hi' : ({ s with platform := rest } : State).Inv := { hi with }
    rcases platformAccess_next h with ⟨addr, v, -, ha, rfl⟩ | ⟨-, rfl⟩
    · exact loadAsset_inv hi' ha
    · exact powerOn_inv hi'.assets_wf hi'.assets_inside
  · have hi' : ({ s with host := rest } : State).Inv := { hi with }
    exact access_inv hi' (fun v ha => room_of_hostDue (s := s) hd hh ha) h
  · exact engine_inv hi h

/-- Settles O58: the reset state is what a power-on leaves of it. -/
theorem resetMeetsTheInvariant : Obligations.ResetMeetsTheInvariant :=
  powerOn_inv (s := State.reset) rfl fun _ h => absurd h List.not_mem_nil

end Sys2Proof.Machine

/-! What a command may write (O14, O56): its registers are read off its actions, whatever interferes. -/

namespace Sys2Proof.Machine

/-! ### Rejection before INIT (60_exceptions.md R282 step 3) -/

/-- Settles O14: the one action of such a command is its rejection, which skips its counted words. -/
theorem uninitialisedCommandsAreRejected : Obligations.UninitialisedCommandsAreRejected := by
  intro i s hreq hready hq hwords
  rw [exec_eq_drain, commandActs, if_pos hreq]
  exact congrArg _ (drain_requireReady_unready hq hready hwords)

/-! ### Who may perform which action -/

/-- The opcodes of the commands that fill, and so write the transfer buffer (R33, 41_window_blit.md R175). -/
def fillOpcodes : List Nat := [0x01, 0x04, 0x05, 0x06, 0x07, 0x08, 0x09, 0x0A, 0x0B, 0x0C]

/-- The commands among whose actions an action may be: a write of a register only in those that have the register to
write (10_state.md R22..R29, R33). -/
def Action.allowed (i : Instr) : Action → Prop
  | .setNative .. | .setReady => ∃ v nw nh, i = .init v nw nh
  | .setRot _ | .setExtent .. => (∃ v nw nh, i = .init v nw nh) ∨ ∃ v, i = .setrot v
  | .setOrigin .. => (∃ v nw nh, i = .init v nw nh) ∨ ∃ xs ys, i = .setorg xs ys
  | .setResult _ => (∃ r g b, i = .rgb565 r g b) ∨ ∃ font chars, i = .ttwidth font chars
  | .setTbuf _ => opcode (headerOf i) ∈ fillOpcodes
  | .halt _ => illegalOpcode (opcode (headerOf i)) = true
  | .text r => (∃ f, r.job = .measure f) → ∃ font chars, i = .ttwidth font chars
  | .emit _ | .blit .. | .pop | .raise .. | .skip _ | .payload .. => True

theorem allowed_of_emit {i : Instr} {a : Action} (h : ∃ e, a = .emit e) : a.allowed i := by
  obtain ⟨e, rfl⟩ := h
  trivial

theorem allowed_of_emit_or_tbuf {i : Instr} {a : Action} {color : Half} (hi : (Action.setTbuf color).allowed i)
    (h : (∃ e, a = .emit e) ∨ a = .setTbuf color) : a.allowed i := by
  rcases h with h | rfl
  · exact allowed_of_emit h
  · exact hi

theorem every_allowed_initActs (cfg : Config) (v nw nh : Half) :
    Every (Action.allowed (.init v nw nh)) (initActs cfg v nw nh) := by
  have wait (ms : Nat) : Every (Action.allowed (.init v nw nh)) (waitActs ms) := fun _ h =>
    allowed_of_emit (waitActs_emit h)
  have vendor : Every (Action.allowed (.init v nw nh)) (cfg.vendorInit.flatMap vendorActs) := fun a h => by
    obtain ⟨item, -, hv⟩ := List.mem_flatMap.1 h
    exact allowed_of_emit (vendorActs_emit hv)
  have fill (g : Geometry) (x y w h : Int) (color : Half) :
      Every (Action.allowed (.init v nw nh)) (fillActs g x y w h color) := fun _ ha =>
    allowed_of_emit_or_tbuf (by simp [Action.allowed, fillOpcodes, headerOf, encode]) (fillActs_emit ha)
  simp [initActs, rotateActs, wait, vendor, fill, pinAct, cmdAct, cmdDataAct, Action.allowed]

/-- A text command starts with an error or with its own job. -/
theorem every_allowed_textBmActs {i : Instr} {s : State} {hdr font : Word} {wexp more : Nat} {x y fg bg : Half}
    {chs : List Half} : Every (Action.allowed i) (textBmActs s hdr wexp font x y fg bg chs more) := by
  unfold textBmActs
  split <;> simp [Action.allowed]

theorem every_allowed_ttTextActs {i : Instr} {s : State} {hdr font : Word} {more : Nat} {x y fg bg : Half}
    {chs : List Half} : Every (Action.allowed i) (ttTextActs s hdr font x y fg bg chs more) := by
  unfold ttTextActs
  split <;> simp [Action.allowed]

theorem every_allowed_ttWidthActs {s : State} {hdr font : Word} {chs : List Half} {more : Nat} {i : Instr}
    (hi : ∃ font chars, i = .ttwidth font chars) : Every (Action.allowed i) (ttWidthActs s hdr font chs more) := by
  unfold ttWidthActs
  split
  · simp [Action.allowed]
  · simpa [Action.allowed] using hi

theorem every_allowed_bitmapActs {i : Instr} {s : State} {hdr : Word} {a index : Nat} {x y : Int} :
    Every (Action.allowed i) (bitmapActs s hdr a index x y) := by
  unfold bitmapActs
  simp only
  repeat' split
  all_goals simp [Action.allowed]

/-- A well-formed command's opcode is in its row; the rows of the illegal headers are illegal (30_encoding.md R100). -/
theorem illegalOpcode_of_row {i : Instr} (hs : Laws.HeaderRow.Statement i) (hw : i.wf = true)
    (hr : (Laws.rowOpcodes i).2 = 0 ∨ 0x18 ≤ (Laws.rowOpcodes i).1) :
    illegalOpcode (opcode (headerOf i)) = true := by
  obtain ⟨⟨hlo, hhi⟩, -⟩ := hs hw
  rw [illegalOpcode_eq_true]
  omega

theorem bodyActs_allowed (s : State) (i : Instr) : Every (Action.allowed i) (bodyActs s i) := by
  have illegal (hs : Laws.HeaderRow.Statement i) (hw : i.wf = true)
      (hr : (Laws.rowOpcodes i).2 = 0 ∨ 0x18 ≤ (Laws.rowOpcodes i).1) (hdr : Word) :
      Every (Action.allowed i) (illegalActs hdr) := by
    simpa [illegalActs, Action.allowed] using illegalOpcode_of_row hs hw hr
  have fills (h : opcode (headerOf i) ∈ fillOpcodes) {acts : List Action} {color : Half}
      (hacts : ∀ a ∈ acts, (∃ e, a = .emit e) ∨ a = .setTbuf color) : Every (Action.allowed i) acts :=
    fun a ha => allowed_of_emit_or_tbuf h (hacts a ha)
  cases i
  case init => exact every_allowed_initActs _ _ _ _
  case setwin => exact fun _ h => allowed_of_emit (windowActs_emit h)
  case wrpix =>
    rw [bodyActs, every_append]
    exact ⟨fun a ha => by rw [(List.mem_replicate.1 ha).2]; trivial, by simp [dataAct, Action.allowed]⟩
  case fillrect | pixel | hline | vline =>
    exact fills (by simp [fillOpcodes, headerOf, encode]) fun _ h => fillActs_emit h
  case line | circle | fcircle | tri | ftri =>
    exact fills (by simp [fillOpcodes, headerOf, encode]) fun _ h => plotActs_emit h
  case text8 | text16 => rw [bodyActs]; exact every_allowed_textBmActs
  case tttext => rw [bodyActs]; exact every_allowed_ttTextActs
  case ttwidth => rw [bodyActs]; exact every_allowed_ttWidthActs ⟨_, _, rfl⟩
  case bitmap => rw [bodyActs]; exact every_allowed_bitmapActs
  case setrot => simp [bodyActs, rotateActs, cmdDataAct, Action.allowed]
  case setorg | rgb565 => simp [bodyActs, Action.allowed]
  case sleep | invert | display => simp [bodyActs, cmdAct, Action.allowed]
  case illegal00 low => exact illegal (Laws.HeaderRow.illegal00 low) rfl (.inl rfl) _
  case illegal18 low => exact illegal (Laws.HeaderRow.illegal18 low) rfl (.inr (Nat.le_of_ble_eq_true rfl)) _
  case illegal20 low => exact illegal (Laws.HeaderRow.illegal20 low) rfl (.inr (Nat.le_of_ble_eq_true rfl)) _
  case illegal40 low => exact illegal (Laws.HeaderRow.illegal40 low) rfl (.inr (Nat.le_of_ble_eq_true rfl)) _
  case illegal80 low => exact illegal (Laws.HeaderRow.illegal80 low) rfl (.inr (Nat.le_of_ble_eq_true rfl)) _

theorem commandActs_allowed (i : Instr) (s : State) : Every (Action.allowed i) (commandActs i s) := by
  unfold commandActs requireReady
  split
  · split
    · exact bodyActs_allowed s i
    · simp [Action.allowed]
  · exact bodyActs_allowed s i

/-- A text action among a command's goes on with a walk that keeps what the command's actions keep. -/
theorem onText_preserves {P : State → Prop} (hc : CtrlClosed P) {i : Instr}
    (hr : ∀ e hdr addr s, P s → P (s.record e hdr addr))
    (ha : ∀ a : Action, a.allowed i → ∀ s, P s → P (a.apply s)) {r : TextRun} (hal : (Action.text r).allowed i)
    {s : State} (hs : P s) : P (onText i r s) := by
  rcases onText_cases i with ht | ht <;> rw [ht]
  · exact runText_preserves hc (fun e => ha (.emit e) trivial) (hr .asset) _ r
      (fun hj v => ha (.setResult v) (.inr (hal hj))) hs
  · exact hc.todo s [.text r] hs

/-- What recording an error and every action that a command may perform keep, the command keeps. -/
theorem exec_preserves {P : State → Prop} (hc : CtrlClosed P) {i : Instr} {s t : State}
    (hr : ∀ e hdr addr s, P s → P (s.record e hdr addr))
    (ha : ∀ a : Action, a.allowed i → ∀ s, P s → P (a.apply s)) (h : exec i s = .next t) (hs : P s) : P t := by
  have allowed := commandActs_allowed i s
  rw [exec_eq_drain] at h
  cases h
  exact drain_preserves hc _ (fun r u hm => onText_preserves hc hr ha (allowed _ hm)) (fun e => ha (.emit e) trivial)
    (fun a hm => ha a (allowed a hm)) (fun e hdr addr _ _ => hr e hdr addr) (hc.phase s .exec hs)

/-! ### Registers -/

/-- A part of the state that the control of a command, its words, its events and its errors leave alone. -/
structure Register {α : Type} (f : State → α) : Prop where
  todo : ∀ s l, f { s with todo := l } = f s
  phase : ∀ s p, f { s with phase := p } = f s
  flight : ∀ s b p, f { s with inFlight := b, pins := p } = f s
  port : ∀ s l, f { s with port := l } = f s
  env : ∀ s h p, f { s with host := h, platform := p } = f s
  pop : ∀ s, f (s.pop 1) = f s
  emit : ∀ s evs, f (s.emitAll evs) = f s
  error : ∀ s c w a, f { s with err := c, errhdr := w, erraddr := a } = f s

theorem Register.ctrl {α : Type} {f : State → α} (hf : Register f) (v : α) : CtrlClosed fun s => f s = v where
  todo s l h := (hf.todo s l).trans h
  phase s p h := (hf.phase s p).trans h
  flight s b p h := (hf.flight s b p).trans h
  port s l h := (hf.port s l).trans h
  env s h p hs := (hf.env s h p).trans hs
  pop s h := (hf.pop s).trans h

theorem Register.record {α : Type} {f : State → α} (hf : Register f) (e : ErrKind) (hdr : Word) (addr : Nat)
    (s : State) : f (s.record e hdr addr) = f s := by
  unfold State.record
  split
  · exact hf.error s _ _ _
  · rfl

/-- A register keeps its value in a command none of whose own actions writes it. -/
theorem Register.exec_eq {α : Type} {f : State → α} (hf : Register f) {i : Instr} {s t : State}
    (hw : ∀ a : Action, a.isOut = false → a.allowed i → ∀ u, f (a.apply u) = f u) (h : exec i s = .next t) :
    f t = f s := by
  refine exec_preserves (P := fun u => f u = f s) (hf.ctrl _)
    (fun e hdr addr u hu => (hf.record e hdr addr u).trans hu) (fun a ha u hu => ?_) h rfl
  cases ho : a.isOut with
  | false => exact (hw a ho ha u).trans hu
  | true =>
    cases a with
    | emit e => exact (hf.emit u [e]).trans hu
    | blit window b => rw [Action.apply_blit]; exact (hf.emit u _).trans hu
    | _ => cases ho

theorem register_setup : Register fun s => (s.nativeW, s.nativeH, s.ready) := by constructor <;> intros <;> rfl

theorem register_rotation : Register fun s => (s.rot, s.width, s.height) := by constructor <;> intros <;> rfl

theorem register_origin : Register fun s => (s.xstart, s.ystart) := by constructor <;> intros <;> rfl

theorem register_result : Register State.result := by constructor <;> intros <;> rfl

theorem register_halted : Register State.halted := by constructor <;> intros <;> rfl

theorem register_tbuf : Register State.tbuf := by constructor <;> intros <;> rfl

section
variable {i : Instr} {s t : State}

theorem exec_setup (h : exec i s = .next t) (hi : ∀ v nw nh, i ≠ .init v nw nh) :
    t.nativeW = s.nativeW ∧ t.nativeH = s.nativeH ∧ t.ready = s.ready := by
  have := register_setup.exec_eq (fun a ho ha u => ?_) h
  · simpa using this
  cases a with
  | setNative | setReady => obtain ⟨v, nw, nh, rfl⟩ := ha; exact absurd rfl (hi v nw nh)
  | halt hdr => exact register_setup.record .opcode hdr 0 u
  | emit | blit => cases ho
  | _ => rfl

theorem exec_rotation (h : exec i s = .next t) (hi : ∀ v nw nh, i ≠ .init v nw nh) (hr : ∀ v, i ≠ .setrot v) :
    t.rot = s.rot ∧ t.width = s.width ∧ t.height = s.height := by
  have := register_rotation.exec_eq (fun a ho ha u => ?_) h
  · simpa using this
  cases a with
  | setRot | setExtent =>
    rcases ha with ⟨v, nw, nh, rfl⟩ | ⟨v, rfl⟩
    · exact absurd rfl (hi v nw nh)
    · exact absurd rfl (hr v)
  | halt hdr => exact register_rotation.record .opcode hdr 0 u
  | emit | blit => cases ho
  | _ => rfl

theorem exec_origin (h : exec i s = .next t) (hi : ∀ v nw nh, i ≠ .init v nw nh) (ho : ∀ xs ys, i ≠ .setorg xs ys) :
    t.xstart = s.xstart ∧ t.ystart = s.ystart := by
  have := register_origin.exec_eq (fun a hout ha u => ?_) h
  · simpa using this
  cases a with
  | setOrigin =>
    rcases ha with ⟨v, nw, nh, rfl⟩ | ⟨xs, ys, rfl⟩
    · exact absurd rfl (hi v nw nh)
    · exact absurd rfl (ho xs ys)
  | halt hdr => exact register_origin.record .opcode hdr 0 u
  | emit | blit => cases hout
  | _ => rfl

theorem exec_result (h : exec i s = .next t) (hr : ∀ r g b, i ≠ .rgb565 r g b)
    (ht : ∀ font chars, i ≠ .ttwidth font chars) : t.result = s.result := by
  refine register_result.exec_eq (fun a ho ha u => ?_) h
  cases a with
  | setResult =>
    rcases ha with ⟨r, g, b, rfl⟩ | ⟨font, chars, rfl⟩
    · exact absurd rfl (hr r g b)
    · exact absurd rfl (ht font chars)
  | halt hdr => exact register_result.record .opcode hdr 0 u
  | emit | blit => cases ho
  | _ => rfl

theorem exec_halted (h : exec i s = .next t) (hi : illegalOpcode (opcode (headerOf i)) = false) :
    t.halted = s.halted := by
  refine register_halted.exec_eq (fun a ho ha u => ?_) h
  cases a with
  | halt => exact absurd (hi.symm.trans ha) Bool.false_ne_true
  | emit | blit => cases ho
  | _ => rfl

theorem exec_tbuf (h : exec i s = .next t)
    (hi : opcode (headerOf i) ∉ fillOpcodes) : t.tbuf = s.tbuf := by
  refine register_tbuf.exec_eq (fun a ho ha u => ?_) h
  cases a with
  | setTbuf => exact absurd ha hi
  | halt hdr => exact register_tbuf.record .opcode hdr 0 u
  | emit | blit => cases ho
  | _ => rfl

/-! ### The error record (60_exceptions.md R283) -/

theorem State.record_of_err {s : State} (h : s.err ≠ 0) (e : ErrKind) (hdr : Word) (addr : Nat) :
    s.record e hdr addr = s := if_neg h

/-- The error that is recorded stays as it is. -/
def State.errorIs (c : Byte) (w a : Word) (s : State) : Prop := s.err = c ∧ s.errhdr = w ∧ s.erraddr = a

theorem errorIs_ctrl (c : Byte) (w a : Word) : CtrlClosed (State.errorIs c w a) := by
  constructor <;> intros <;> assumption

/-- An error already recorded stays through a command. -/
theorem exec_error (h : exec i s = .next t) (he : s.err ≠ 0) :
    t.err = s.err ∧ t.errhdr = s.errhdr ∧ t.erraddr = s.erraddr := by
  have record (e : ErrKind) (hdr : Word) (addr : Nat) (u : State) (hu : u.errorIs s.err s.errhdr s.erraddr) :
      u.record e hdr addr = u := State.record_of_err (hu.1 ▸ he) e hdr addr
  refine exec_preserves (errorIs_ctrl _ _ _) (fun e hdr addr u hu => (record e hdr addr u hu).symm ▸ hu)
    (fun a _ u hu => ?_) h ⟨rfl, rfl, rfl⟩
  cases a with
  | halt hdr => rw [Action.apply, record .opcode hdr 0 u hu]; exact hu
  | blit window b => rw [Action.apply_blit]; exact hu
  | _ => exact hu

end

/-- Settles O56: each register is kept by every action but those its commands alone have. -/
theorem registersAreWrittenByTheirCommands : Obligations.RegistersAreWrittenByTheirCommands := fun _ _ _ h =>
  ⟨fun hi => ⟨exec_setup h hi, exec_rotation h hi, exec_origin h hi⟩, exec_result h, exec_error h, exec_halted h,
    exec_tbuf h⟩

end Sys2Proof.Machine

/-! The engine's cycle: how it takes a packet (O7, O8), and what it does where it is halted or stalled (O12, O13,
O47). -/

namespace Sys2Proof.Machine

/-! ### Taking a packet (60_exceptions.md R282) -/

theorem State.takeWord_isQuiet {s : State} (hq : s.quiet) : s.takeWord.quiet := by
  rw [State.takeWord_quiet hq, State.newHeader_eq]
  exact hq

theorem State.takeWord_iterate_isQuiet (n : Nat) {s : State} (hq : s.quiet) : (State.takeWord^[n] s).quiet := by
  induction n generalizing s with
  | zero => exact hq
  | succ n ih =>
    rw [Function.iterate_succ_apply]
    exact ih (State.takeWord_isQuiet hq)

theorem fixedPart_pos (h : Word) : 0 < fixedPart h := by
  unfold fixedPart
  split <;> omega

/-- Settles O7: the fixed part is gathered, and the packet it decides is the one decoded. -/
theorem stepRunsTheDecodedCommand : Obligations.StepRunsTheDecodedCommand := by
  intro s h t i rest hf hh ht hs hp hd
  have runs (he : ∀ k ≤ fixedPart h - s.pkt.length, (State.takeWord^[k] s).envDue = false) :
      step s = exec i { State.takeWord^[fixedPart h - s.pkt.length] s with pkt := [] } := by
    obtain ⟨-, -, hst⟩ := State.takeWord_iterate (fixedPart h - s.pkt.length) s
    have hd' : decode s.stream = .ok (i, rest) := hd
    have hnow : s.envDue = false := he 0 (Nat.zero_le _)
    rw [step_eq_engine hnow, engine_eq_fetch hf hh ht, fetch_eq hs hp (by simp [hd']) he,
      decidePacket, hst, hd']
  refine ⟨runs, fun hq hpkt => ?_⟩
  have hle : fixedPart h ≤ s.fifo.length := by
    have hfifo : s.fifo = h :: t := by simpa [hpkt] using hs
    have hdec : decode (h :: t) = .ok (i, rest) := by rw [← hs]; exact hd
    rw [hfifo]
    exact fixedPart_le hdec (by simp)
  rw [← State.takeWord_iterate_tookPacket hq hpkt (fixedPart_pos h) hle]
  simpa [hpkt] using runs fun k _ =>
    State.envDue_of_quiet (State.takeWord_iterate_isQuiet k hq).1 (State.takeWord_iterate_isQuiet k hq).2.1

/-- A packet whose fixed words have not all arrived lacks more words than the FIFO holds. -/
theorem State.fifo_lt_lacking {s : State} (hd : decode s.stream = .error .needFixed) : s.fifo.length < s.lacking := by
  cases hs : s.stream with
  | nil =>
    have hfifo : s.fifo = [] := (List.append_eq_nil_iff.1 hs).2
    simp [State.lacking, hs, hfifo]
  | cons h t =>
    have hlen : s.pkt.length + s.fifo.length = t.length + 1 := by
      rw [← List.length_append]
      exact (congrArg List.length hs).trans (List.length_cons ..)
    have hshort : t.length + 1 < fixedPart h := by
      rw [hs, decode] at hd
      unfold fixedPart
      split at hd
      · cases hd
      split at hd
      · rw [if_neg ‹_›]
        omega
      split at hd
      · cases hd
      split at hd <;> cases hd
    rw [State.lacking_eq hs]
    omega

/-- Gathering more words than are there, in a quiet environment: all of them are popped. -/
theorem State.gather_short {n : Nat} {s : State} (hq : s.quiet) (hn : s.fifo.length < n) :
    s.gather n = State.takeWord^[s.fifo.length] s := by
  obtain ⟨m, rfl⟩ : ∃ m, n = m + 1 := ⟨n - 1, by omega⟩
  induction m generalizing s with
  | zero =>
    have hfifo : s.fifo = [] := List.length_eq_zero_iff.1 (by omega)
    rw [State.gather, State.envDue_of_quiet hq.1 hq.2.1, hfifo]
    exact State.tick_of_quiet hq.1 hq.2.1
  | succ m ih =>
    rw [State.gather, State.envDue_of_quiet hq.1 hq.2.1]
    cases hfifo : s.fifo with
    | nil => exact State.tick_of_quiet hq.1 hq.2.1
    | cons w rest =>
      have hrest : s.takeWord.fifo = rest := by simp [hfifo]
      have hlt : rest.length < m + 1 := by simpa [hfifo] using hn
      have hgather := ih (State.takeWord_isQuiet hq) (by rwa [hrest])
      rw [hrest] at hgather
      exact hgather

/-- In a quiet environment the engine takes all there is of an incomplete fixed part. -/
theorem fetch_short {s : State} (hq : s.quiet) (hd : decode s.stream = .error .needFixed) :
    fetch s = .next (State.takeWord^[s.fifo.length] s) := by
  obtain ⟨-, hfifo, hst⟩ := State.takeWord_iterate s.fifo.length s
  have hlack := State.fifo_lt_lacking (s := State.takeWord^[s.fifo.length] s) (by rwa [hst])
  simp only [fetch]
  rw [State.gather_short hq (State.fifo_lt_lacking hd), if_pos]
  simp only [Bool.or_eq_true, bne_iff_ne]
  exact .inr (by omega)

/-- Settles O8: gathering stops at the end of the FIFO, and the packet still lacks words. -/
theorem engineWaitsForFixedWords : Obligations.EngineWaitsForFixedWords := by
  intro s hq hf hh ht hd
  have hstep : step s = .next (State.takeWord^[s.fifo.length] s) := by
    rw [step_eq_engine (State.envDue_of_quiet hq.1 hq.2.1), engine_eq_fetch hf hh ht, fetch_short hq hd]
  refine ⟨fun hfifo => by simpa [hfifo] using hstep, fun hfifo => ?_⟩
  obtain ⟨n, hn⟩ : ∃ n, s.fifo.length = n + 1 :=
    ⟨s.fifo.length - 1, by have := List.length_pos_iff.2 hfifo; omega⟩
  refine ⟨_, hstep, ?_⟩
  rw [hn, State.takeWord_iterate_quiet n hq (by omega), State.newHeader_eq]
  refine ⟨?_, ?_, rfl, rfl, rfl⟩
  · rw [← hn, List.take_length]
  · show s.fifo.drop (n + 1) = []
    rw [← hn, List.drop_length]

/-! ### A halted engine (60_exceptions.md R285) -/

/-- A halted engine, nothing of the environment to come, takes one word. -/
theorem step_halted {s : State} {w : Word} {rest : List Word} (hh : s.host = []) (hp : s.platform = [])
    (hf : s.inFlight = false) (hhalt : s.halted = true) (hfifo : s.fifo = w :: rest) :
    step s = .next (s.tookWords 1 rest) := by
  rw [step_eq_engine (State.envDue_of_quiet hh hp), engine_halted hf hhalt, State.discard, hfifo, if_neg (by simp),
    State.tick_of_quiet (s := s.pop 1) hh hp, State.pop_eq_tookWords (rest := rest) (by rw [hfifo]; rfl)]

theorem steps_halted (words : List Word) {s : State} {rest : List Word} (hh : s.host = []) (hp : s.platform = [])
    (hf : s.inFlight = false) (hhalt : s.halted = true) (hfifo : s.fifo = words ++ rest) :
    steps words.length s = .next (s.tookWords words.length rest) := by
  induction words generalizing s with
  | nil => exact congrArg _ (State.tookWords_zero hfifo).symm
  | cons w words ih =>
    rw [List.length_cons, steps_succ (step_halted hh hp hf hhalt hfifo)]
    refine (ih (s := s.tookWords 1 (words ++ rest)) hh hp hf hhalt rfl).trans ?_
    rw [State.tookWords_add, Nat.add_comm]

/-- Settles O12, by induction on the words. -/
theorem haltedEngineDiscardsEveryWord : Obligations.HaltedEngineDiscardsEveryWord := by
  intro s words rest hh hp hf hhalt hfifo
  refine ⟨steps_halted words hh hp hf hhalt hfifo, ?_, ?_⟩
  · rw [State.status_busy, State.busy, show (s.tookWords words.length rest).halted = true from hhalt]
    simp
  · rw [State.status_halted]
    exact hhalt

/-! ### How a halt is left (R285, 70_reset_and_hazards.md R320, R321) -/

/-- The engine's actions never leave a halt. -/
theorem runActs_halted (acts : List Action) {s : State} (h : s.halted = true) : (runActs acts s).halted = true := by
  have ctrl := register_halted.ctrl true
  have record (e : ErrKind) (hdr : Word) (addr : Nat) (u : State) (hu : u.halted = true) :
      (u.record e hdr addr).halted = true := (register_halted.record e hdr addr u).trans hu
  refine drain_preserves (P := fun u => u.halted = true) ctrl acts
    (fun r u _ hu => runText_preserves ctrl (fun _ _ hv => hv) (record .asset) r.chs r (fun _ _ _ hv => hv) hu)
    (fun _ _ hu => hu) (fun a _ u hu => ?_) (fun e hdr addr _ _ => record e hdr addr) h
  cases a with
  | halt => rfl
  | blit window b => rw [Action.apply_blit]; exact hu
  | _ => exact hu

theorem discard_halted {s : State} (h : s.halted = true) : s.discard.halted = true := by
  unfold State.discard
  split <;> exact h

/-- Where no event is in progress, nothing is accepted. -/
theorem accept_halted {s : State} (h : s.halted = true) (ht : ∀ e acts, s.todo ≠ .emit e :: acts) :
    s.accept.halted = true := by
  cases hto : s.todo with
  | nil => simpa [State.accept, hto] using h
  | cons a acts =>
    cases a with
    | emit e => exact absurd hto (ht e acts)
    | _ => simpa [State.accept, hto] using h

/-- A soft reset adds the release of the reset line, where it is low (70_reset_and_hazards.md R321 (3)). -/
theorem State.softReset_trace_append (s : State) :
    s.softReset.trace = s.trace ++ (if s.pins.rstN then [] else [.pinRst true]) := by
  rw [State.softReset_trace]
  split
  · exact (List.append_nil _).symm
  · rfl

/-- At the port a halt is left only where an event is accepted with a soft reset pending. -/
theorem held_leaves_halt {s : State} (h : s.halted = true) (ht : s.held.halted = false) :
    s.srstPending = true ∧ (s.port = [] ∨ ∃ holds, s.port = .ticks 0 :: holds) ∧
      ∃ e acts, s.todo = .emit e :: acts ∧
        s.held.trace = s.trace ++ [e] ++ (if (s.pins.after e).rstN then [] else [.pinRst true]) := by
  rcases s.held_cases with hs | ⟨holds, hs⟩ | ⟨hport, hs⟩ <;> rw [hs] at ht ⊢
  · exact absurd (h.symm.trans ht) (by simp)
  · exact absurd (h.symm.trans ht) (by simp)
  · by_cases hto : ∃ e acts, s.todo = .emit e :: acts
    · obtain ⟨e, acts, hto⟩ := hto
      rw [accept_eq hto] at ht ⊢
      split at ht
      · rename_i hsr
        refine ⟨hsr, hport, e, acts, hto, ?_⟩
        rw [if_pos hsr]
        exact State.softReset_trace_append _
      · exact absurd ((runActs_halted acts (by exact h)).symm.trans ht) (by simp)
    · exact absurd ((accept_halted h fun e acts hcons => hto ⟨e, acts, hcons⟩).symm.trans ht) (by simp)

/-- A write to CTRL leaves a halt only by SRST on a transaction boundary. -/
theorem writeCtrl_leaves_halt {s : State} {v : Word} (h : s.halted = true) (ht : (s.writeCtrl v).halted = false) :
    v.getLsbD 1 = true ∧ s.inFlight = false := by
  have cleared : (if v.getLsbD 0 then s.errclr else s).halted = true := by split <;> exact h
  rw [State.writeCtrl_eq] at ht
  split at ht
  · split at ht
    · exact absurd (cleared.symm.trans ht) (by simp)
    · exact ⟨‹_›, by simpa using ‹¬s.inFlight = true›⟩
  · exact absurd (cleared.symm.trans ht) (by simp)

/-- A host access leaves a halt only by SRST on a transaction boundary. -/
theorem access_leaves_halt {s t : State} {a : HostAccess} (ha : access a s = .next t) (h : s.halted = true)
    (ht : t.halted = false) : s.inFlight = false ∧ ∃ v, a = .write 4 0x0C v ∧ v.getLsbD 1 = true := by
  rcases access_next ha with ⟨off, -, rfl⟩ | ⟨off, v, rfl, rfl⟩
  · exact absurd (h.symm.trans ht) (by simp)
  · rcases s.writeReg_cases off v with ⟨rfl, hw⟩ | ⟨rfl, hw⟩ | ⟨-, -, hw⟩ <;> rw [hw] at ht
    · exact absurd (h.symm.trans ht) (by simp)
    · obtain ⟨hv, hf⟩ := writeCtrl_leaves_halt h ht
      exact ⟨hf, v, rfl, hv⟩
    · exact absurd (h.symm.trans ht) (by simp)

/-- Settles O13: the three kinds of step, one after the other. -/
theorem haltIsLeftOnlyByReset : Obligations.HaltIsLeftOnlyByReset := by
  intro s t hstep h ht
  rcases step_cases s with ⟨hd, p, rest, hp, hs⟩ | ⟨hpd, hd, a, rest, hh, hs⟩ | ⟨hd, hs⟩ <;> rw [hs] at hstep
  · rcases platformAccess_next hstep with ⟨addr, v, -, -, rfl⟩ | ⟨hpow, -⟩
    · exact absurd (h.symm.trans ht) (by simp)
    · exact .inl ⟨hd, p, rest, hp, hpow⟩
  · obtain ⟨hf, v, hacc, hv⟩ := access_leaves_halt hstep h ht
    exact .inr (.inl ⟨hpd, hd, hf, a, rest, v, hh, hacc, hv⟩)
  · by_cases hf : s.inFlight = true
    · rw [engine_held hf] at hstep
      cases hstep
      exact .inr (.inr ⟨hd, hf, held_leaves_halt h ht⟩)
    · rw [engine_halted (by simpa using hf) h] at hstep
      cases hstep
      exact absurd ((discard_halted h).symm.trans ht) (by simp)

/-! ### A stalled port (20_memory.md R58) -/

theorem step_stalled {s : State} {rest : List Hold} (hh : s.host = []) (hp : s.platform = []) (hf : s.inFlight = true)
    (hport : s.port = .forever :: rest) : step s = .next s := by
  rw [step_eq_engine (State.envDue_of_quiet hh hp), engine_held hf, State.held, hport]
  exact congrArg _ (State.tick_of_quiet hh hp)

/-- Settles O47: each step is a tick, which changes nothing where nothing of the environment is to come. -/
theorem stalledPortHangs : Obligations.StalledPortHangs := by
  intro s rest n hh hp hf hexec hhalt hport
  constructor
  · induction n with
    | zero => rfl
    | succ n ih => rw [steps_succ (step_stalled hh hp hf hport), ih]
  · rw [State.status_busy, State.busy, hexec, hhalt]
    rfl

end Sys2Proof.Machine

/-! The host's window and the resets (O15, O49 to O54). -/

namespace Sys2Proof.Machine

/-! ### The error record (60_exceptions.md R281, R283) -/

/-- Settles O15, error by error. -/
theorem firstErrorIsKept : Obligations.FirstErrorIsKept := by
  intro e h a s
  refine ⟨fun hs => ?_, fun hs => State.record_of_err hs e h a⟩
  have haddr : BitVec.ofNat 32 (a % 4294967296) = BitVec.ofNat 32 a := by
    apply BitVec.eq_of_toNat_eq
    simp
  rw [State.record, if_pos hs, haddr]
  cases e <;> rfl

/-! ### Reads (10_state.md R36..R47) -/

theorem State.full_eq (s : State) : s.full = decide (s.fifo.length = s.cfg.fifoDepth) := rfl

theorem State.busy_eq (s : State) :
    s.busy = decide ((s.phase = .exec ∨ s.fifo ≠ []) ∧ s.halted = false) := by
  rw [Bool.eq_iff_iff, decide_eq_true_iff]
  simp [State.busy]

/-- Settles O49: STATUS by its fields, the registers of two halves as numbers. -/
theorem registerReads : Obligations.RegisterReads := by
  intro s
  refine ⟨rfl, rfl, ?_, rfl, halves_toNat _ _, halves_toNat _ _, halves_toNat _ _, ?_, rfl, rfl, rfl, ?_⟩
  · rw [← State.full_eq, ← State.busy_eq]
    exact s.status_toNat
  · exact (toNat_append (0 : BitVec 29) s.rot).trans (by simp)
  · simp [State.readReg]

/-! ### Host accesses (R30, R35, R39; 20_memory.md R51, R61) -/

/-- An access that is not a CMD write is due when its time has come. -/
theorem hostDue_of_zero {s : State} {a : HostAccess} {rest : List HostInput} (hh : s.host = ⟨0, a⟩ :: rest)
    (ha : ∀ v, a ≠ .write 4 0 v) : s.hostDue = true := by
  have hb : s.blocked a = false := by
    unfold State.blocked
    split
    · exact absurd rfl (ha _)
    · rfl
  simp [State.hostDue, hh, hb]

/-- A CMD write is due when the FIFO has room (R30). -/
theorem hostDue_cmd {s : State} {v : Word} {rest : List HostInput} (hh : s.host = ⟨0, .write 4 0 v⟩ :: rest) :
    s.hostDue = decide (s.fifo.length < s.cfg.fifoDepth) := by
  rw [Bool.eq_iff_iff]
  simp [State.hostDue, hh, State.blocked]

theorem access_read {bytes off : Nat} (h : bytes = 4 ∧ off % 4 = 0 ∧ off < 64) (s : State) :
    access (.read bytes off) s = .next { s with reads := s.reads ++ [(off, s.readReg off)] } := by
  rw [access, if_pos (windowAccess_iff.2 h)]

theorem access_write {bytes off : Nat} (h : bytes = 4 ∧ off % 4 = 0 ∧ off < 64) (v : Word) (s : State) :
    access (.write bytes off v) s = .next (s.writeReg off v) := by
  rw [access, if_pos (windowAccess_iff.2 h)]

/-- What is not an aligned 32-bit access inside the window is refused. -/
theorem access_outside {a : HostAccess} {bytes off : Nat} {v : Word} (h : ¬(bytes = 4 ∧ off % 4 = 0 ∧ off < 64))
    (ha : a = .read bytes off ∨ a = .write bytes off v) (s : State) : access a s = .refused .hostAccess := by
  rcases ha with rfl | rfl <;> rw [access, if_neg (mt windowAccess_iff.1 h)]

theorem State.writeReg_ignored {off : Nat} (h0 : off ≠ 0x00) (hc : off ≠ 0x0C) (v : Word) (s : State) :
    s.writeReg off v = s := by
  rcases s.writeReg_cases off v with ⟨h, -⟩ | ⟨h, -⟩ | ⟨-, -, h⟩
  · exact absurd h h0
  · exact absurd h hc
  · exact h

/-- Settles O50: each access is due; it is a read, a write that is ignored, or outside the window. -/
theorem hostAccessesOutsideCmdAndCtrl : Obligations.HostAccessesOutsideCmdAndCtrl := by
  intro s off bytes v rest hp
  refine ⟨fun hw hh => ?_, fun ⟨hb, ho, hl, h0, hc⟩ hh => ?_, fun hw hh => ?_⟩
  · rw [step_host hp (hostDue_of_zero hh (by simp)) hh]
    exact access_read hw _
  · rw [step_host hp (hostDue_of_zero hh (by simp [h0])) hh]
    refine (access_write ⟨hb, ho, hl⟩ v _).trans ?_
    rw [State.writeReg_ignored h0 hc]
  · have notCmd : ¬(bytes = 4 ∧ off = 0) := fun ⟨hb, ho⟩ => hw ⟨hb, by simp [ho], by simp [ho]⟩
    rcases hh with hh | hh
    · rw [step_host hp (hostDue_of_zero hh (by simp)) hh]
      exact access_outside (v := v) hw (.inl rfl) _
    · rw [step_host hp (hostDue_of_zero hh fun w he => ?_) hh]
      · exact access_outside hw (.inr rfl) _
      · simp only [HostAccess.write.injEq] at he
        exact notCmd ⟨he.1, he.2.1⟩

/-- A CTRL write whose time has come. -/
theorem step_ctrl {s : State} {v : Word} {rest : List HostInput} (hp : s.platformDue = false)
    (hh : s.host = ⟨0, .write 4 0x0C v⟩ :: rest) :
    step s = .next (({ s with host := rest } : State).writeCtrl v) := by
  rw [step_host hp (hostDue_of_zero hh (by simp)) hh]
  exact access_write ⟨rfl, rfl, by omega⟩ v _

/-- Settles O51: a CMD write is due where the FIFO has room, a CTRL write in any case. -/
theorem cmdWritesAndErrclr : Obligations.CmdWritesAndErrclr := by
  intro s v rest hp
  refine ⟨fun hh => ⟨fun hroom => ?_, fun hfull => ?_⟩, fun hh h1 => ⟨fun h0 => ?_, fun h0 => ?_⟩⟩
  · rw [step_host hp (by simpa [hostDue_cmd hh] using hroom) hh]
    exact access_write ⟨rfl, rfl, by omega⟩ v _
  · refine step_eq_engine ?_
    rw [State.envDue, hp, hostDue_cmd hh]
    simpa using hfull
  · rw [step_ctrl hp hh, State.writeCtrl_eq, h1, h0]
    rfl
  · rw [step_ctrl hp hh, State.writeCtrl_eq, h1, h0]
    rfl

/-! ### Resets (70_reset_and_hazards.md R320, R321; R48) -/

/-- Settles O52: the write at a boundary and off it, then the acceptance that follows. -/
theorem softResetActsAtTheBoundary : Obligations.SoftResetActsAtTheBoundary := by
  intro s v rest hp hh h1
  refine ⟨fun hf => ?_, fun hf => ?_, fun e acts p hf hsr ht hport hd => ?_⟩
  · rw [step_ctrl hp hh, State.writeCtrl_eq, if_pos h1, if_neg (by simpa using hf)]
  · rw [step_ctrl hp hh, State.writeCtrl_eq, if_pos h1, if_pos hf]
    cases v.getLsbD 0 <;> rfl
  · rw [step_eq_engine hd, engine_held hf, held_eq_accept hport, accept_eq ht, if_pos hsr]

/-- Settles O53, field by field. -/
theorem softResetValues : Obligations.SoftResetValues := by
  rintro s t rfl
  exact ⟨⟨rfl, rfl, rfl, rfl, rfl, rfl, rfl, rfl⟩, ⟨rfl, rfl, rfl, rfl, rfl, rfl⟩, ⟨rfl, rfl, rfl⟩, rfl,
    s.softReset_trace_append, rfl, rfl, rfl, rfl, rfl, rfl, rfl, rfl⟩

/-- What a power-on reset leaves is reset, whatever the state (R320). -/
theorem powerOn_isReset (s : State) : s.powerOn.isReset where
  registers := ⟨rfl, rfl, rfl, rfl, rfl, rfl, rfl, rfl⟩
  status := ⟨rfl, rfl, rfl, rfl, rfl, rfl⟩
  engine := ⟨rfl, rfl, rfl, rfl, rfl, rfl⟩
  port := ⟨rfl, rfl⟩

/-- A power-on whose time has come. -/
theorem step_powerOn {s : State} {rest : List PlatformInput} (hp : s.platform = ⟨0, .powerOn⟩ :: rest) :
    step s = .next ({ s with platform := rest } : State).powerOn :=
  step_platform (by simp [State.platformDue, hp]) hp

/-- Settles O54: the step is a power-on, and what a power-on leaves is reset. -/
theorem resetValues : Obligations.ResetValues := by
  refine ⟨fun s t rest hp h => ?_, fun s rest hp => ⟨_, step_powerOn hp⟩, powerOn_isReset State.reset⟩
  rw [step_powerOn hp] at h
  cases h
  exact ⟨powerOn_isReset _, rfl⟩

end Sys2Proof.Machine

/-! Asset memory and the wires (O44, O45, O46). -/

namespace Sys2Proof.Machine

/-! ### Numbers and bits of asset memory (20_memory.md R53) -/

/-- Settles O44: a number is the sum of its bytes, a bit of a byte is a bit of its number. -/
theorem assetReadsAreBigEndian : Obligations.AssetReadsAreBigEndian :=
  fun s a n => ⟨assetRead_eq_sum s a n, fun _ => rfl⟩

/-! ### The wires of an event (R57) -/

/-- Shifting bytes out changes no level. -/
theorem Pins.foldl_shift (p : Pins) (d : List Byte) : (d.map WireAct.shift).foldl Pins.act p = p := by
  induction d with
  | nil => rfl
  | cons b d ih => exact ih

/-- The levels that an event leaves. -/
theorem Pins.after_eq (p : Pins) (e : Event) :
    p.after e =
      match e with
      | .cmd _ => { p with csN := true, dc := false }
      | .cmdData _ _ | .data _ => { p with csN := true, dc := true }
      | .pinRst l => { p with rstN := l }
      | .wait _ => p := by
  cases e with
  | cmd | pinRst | wait => rfl
  | cmdData c d => simp [Pins.after, Event.wire, Pins.act, Pins.foldl_shift]
  | data d => simp [Pins.after, Event.wire, Pins.act, Pins.foldl_shift]

/-- The bits of a byte on the wire, by their position. -/
theorem serialBits_getElem? (b : Byte) {k : Nat} (hk : k < 8) : (serialBits b)[k]? = some (b.getLsbD (7 - k)) := by
  simp [serialBits, List.getElem?_range hk]

/-- Settles O46: the sequences are the model's, the levels those of `Pins.after_eq`. -/
theorem wiresOfEachEvent : Obligations.WiresOfEachEvent :=
  ⟨fun _ => rfl, fun _ _ => rfl, fun _ => rfl, fun _ => rfl, fun _ => rfl, fun b _ hk => serialBits_getElem? b hk,
    Pins.after_eq⟩

/-! ### What the engine reads of a byte (R65) -/

/-- Where no load races at an address, the engine reads the byte there. -/
theorem State.assetByte_of_no_race_at {s : State} {a : Nat} (h : ∀ r ∈ s.stale, r.addr ≠ a) :
    s.assetByte a = Memory.read s.assets a := by
  have holds : (s.stale.filterMap fun r => if r.addr = a then some r.old else none) = [] := by
    simpa [List.filterMap_eq_nil_iff] using h
  simp [State.assetByte, holds]

/-- Choosing from a list that begins with the default chooses one of its entries. -/
theorem getD_cons_mem {α : Type} (a : α) (l : List α) (k : Nat) : (a :: l).getD k a ∈ a :: l := by
  rw [List.getD_eq_getElem?_getD]
  cases h : (a :: l)[k]? with
  | none => exact List.mem_cons_self
  | some b => exact List.mem_of_getElem? h

/-- The engine reads the byte of now or one that a racing load at the address replaced. -/
theorem State.assetByte_cases (s : State) (a : Nat) :
    s.assetByte a = Memory.read s.assets a ∨ ∃ r ∈ s.stale, r.addr = a ∧ s.assetByte a = r.old := by
  by_cases hr : ∀ r ∈ s.stale, r.addr ≠ a
  · exact .inl (State.assetByte_of_no_race_at hr)
  have hmem : s.assetByte a ∈
      Memory.read s.assets a :: s.stale.filterMap fun r => if r.addr = a then some r.old else none := by
    unfold State.assetByte
    simp only
    split
    · exact List.mem_cons_self
    · exact getD_cons_mem _ _ _
  rcases List.mem_cons.1 hmem with h | h
  · exact .inl h
  · obtain ⟨r, hr, hb⟩ := List.mem_filterMap.1 h
    split at hb
    · exact .inr ⟨r, hr, ‹_›, (Option.some.inj hb).symm⟩
    · cases hb

/-! ### Who changes asset memory (R52) -/

theorem register_assets : Register State.assets := by constructor <;> intros <;> rfl

/-- No action of the engine changes asset memory. -/
theorem runActs_assets (acts : List Action) (s : State) : (runActs acts s).assets = s.assets := by
  have ctrl := register_assets.ctrl s.assets
  have record (e : ErrKind) (hdr : Word) (addr : Nat) (u : State) (hu : u.assets = s.assets) :
      (u.record e hdr addr).assets = s.assets := (register_assets.record e hdr addr u).trans hu
  refine drain_preserves (P := fun u => u.assets = s.assets) ctrl acts
    (fun r u _ hu => runText_preserves ctrl (fun _ _ hv => hv) (record .asset) r.chs r (fun _ _ _ hv => hv) hu)
    (fun _ _ hu => hu) (fun a _ u hu => ?_) (fun e hdr addr _ _ => record e hdr addr) rfl
  cases a with
  | halt hdr => exact record .opcode hdr 0 u hu
  | blit window b => rw [Action.apply_blit]; exact hu
  | _ => exact hu

theorem State.startText_assets (acts : List Action) (s : State) : (s.startText acts).assets = s.assets :=
  runActs_assets acts s.enter

theorem skipWords_assets (m : Nat) (s : State) : (skipWords m s).assets = s.assets :=
  (register_assets.ctrl s.assets).skipWords m rfl

theorem payloadWord_assets (got : List Byte) (more : Nat) (s : State) :
    (s.payloadWord got more).assets = s.assets := by
  unfold State.payloadWord
  split
  · rfl
  · simp only
    split
    · exact runActs_assets _ _
    · rfl

theorem textWord_assets (r : TextRun) (s : State) : (s.textWord r).assets = s.assets := by
  unfold State.textWord
  split
  · split
    · rfl
    · exact runActs_assets _ _
  · exact runActs_assets _ _

theorem resume_assets (s : State) : (resume s).assets = s.assets := by
  unfold resume
  split
  · split
    · rfl
    · exact skipWords_assets _ _
  · exact payloadWord_assets _ _ _
  · exact textWord_assets _ _
  · exact runActs_assets _ _

theorem State.takeWord_assets (s : State) : s.takeWord.assets = s.assets := by
  rw [State.takeWord, State.newHeader_eq]
  rfl

theorem State.gather_assets (n : Nat) (s : State) : (s.gather n).assets = s.assets := by
  induction n generalizing s with
  | zero => rfl
  | succ n ih =>
    rw [State.gather]
    split
    · rfl
    · split
      · rfl
      · exact (ih _).trans s.takeWord_assets

theorem exec_assets {i : Instr} {s t : State} (h : exec i s = .next t) : t.assets = s.assets :=
  (exec_popsAtMost h).assets

theorem decidePacket_assets {s t : State} (h : decidePacket s = .next t) : t.assets = s.assets := by
  unfold decidePacket at h
  split at h
  · exact (exec_assets h).trans rfl
  · cases h
    rfl
  · cases h
    exact (State.startText_assets _ _).trans rfl
  · cases h
    exact (State.startText_assets _ _).trans rfl

theorem fetch_assets {s t : State} (h : fetch s = .next t) : t.assets = s.assets := by
  simp only [fetch] at h
  split at h
  · cases h; exact s.gather_assets _
  · exact (decidePacket_assets h).trans (s.gather_assets _)

/-- Accepting an event changes no asset byte, also where a soft reset acts (log entry 4). -/
theorem accept_assets (s : State) : s.accept.assets = s.assets := by
  cases ht : s.todo with
  | nil => simp [State.accept, ht]
  | cons a acts =>
    cases a with
    | emit e =>
      rw [accept_eq ht]
      split
      · rfl
      · exact runActs_assets _ _
    | _ => simp [State.accept, ht]

theorem engine_assets {s t : State} (h : engine s = .next t) : t.assets = s.assets := by
  unfold engine at h
  split at h
  · cases h
    rcases s.held_cases with hs | ⟨holds, hs⟩ | ⟨-, hs⟩ <;> rw [hs]
    · rfl
    · rfl
    · exact accept_assets s
  split at h
  · cases h
    unfold State.discard
    split <;> rfl
  split at h
  · exact fetch_assets h
  · cases h; exact resume_assets s

theorem writeReg_assets (off : Nat) (v : Word) (s : State) : (s.writeReg off v).assets = s.assets := by
  rcases s.writeReg_cases off v with ⟨-, h⟩ | ⟨-, h⟩ | ⟨-, -, h⟩ <;> rw [h]
  rw [State.writeCtrl_eq]
  repeat' split
  all_goals rfl

/-- A step whose due act of the platform is no load leaves asset memory. -/
theorem step_assets {s t : State} (h : step s = .next t)
    (hl : ∀ addr v rest, s.platform ≠ { wait := 0, access := .loadAsset addr v } :: rest) : t.assets = s.assets := by
  rcases step_cases s with ⟨hd, p, rest, hp, hs⟩ | ⟨-, -, a, rest, -, hs⟩ | ⟨-, hs⟩ <;> rw [hs] at h
  · rcases platformAccess_next h with ⟨addr, v, ha, -, -⟩ | ⟨-, rfl⟩
    · obtain ⟨wait, access⟩ := p
      have hw : wait = 0 := by simpa [State.platformDue, hp] using hd
      subst hw ha
      exact absurd hp (hl addr v rest)
    · rfl
  · rcases access_next h with ⟨off, -, rfl⟩ | ⟨off, v, -, rfl⟩
    · rfl
    · exact writeReg_assets off v _
  · exact engine_assets h

/-! ### A load (R52, R65) -/

/-- A load of the platform whose time has come. -/
theorem step_load {s : State} {addr : Nat} {v : Byte} {rest : List PlatformInput}
    (hp : s.platform = { wait := 0, access := .loadAsset addr v } :: rest) :
    step s =
      if addr < s.assetSize then .next (({ s with platform := rest } : State).loadAsset addr v)
      else .fault .assetOutside :=
  step_platform (by simp [State.platformDue, hp]) hp

/-- While the engine is not busy, a loaded byte is no race (R65). -/
theorem State.loadAsset_stale_idle {s : State} (h : s.busy = false) (addr : Nat) (v : Byte) :
    (s.loadAsset addr v).stale = s.stale := by
  simp [State.loadAsset, h]

/-- While it is busy, the byte before is kept (R65). -/
theorem State.loadAsset_stale_busy {s : State} (h : s.busy = true) (addr : Nat) (v : Byte) :
    (s.loadAsset addr v).stale =
      { addr := addr, old := Memory.read s.assets addr, words := s.fifo.length } :: s.stale := by
  simp [State.loadAsset, h]

/-- The canonical form lists addresses by rising order. -/
theorem Memory.pairwise_of_wf {m : Memory} (h : Memory.wf m = true) : m.Pairwise fun c d => c.1 < d.1 := by
  simp only [Memory.wf, Bool.and_eq_true, decide_eq_true_eq] at h
  exact h.1

/-- Settles O45: the load, what is read, and every other step. -/
theorem onlyThePlatformWritesAssets : Obligations.OnlyThePlatformWritesAssets := by
  refine ⟨fun s addr v rest hp hwf => ⟨fun hin => ?_, fun hout => ?_⟩,
    fun s a => ⟨State.assetByte_of_no_race_at, s.assetByte_cases a⟩, fun s t h hl => step_assets h hl⟩
  · have hsorted := Memory.pairwise_of_wf hwf
    have hread : Memory.read (Memory.write s.assets addr v) addr = v := Memory.read_write_same _ _ _ hsorted
    refine ⟨({ s with platform := rest } : State).loadAsset addr v, by rw [step_load hp, if_pos hin],
      Memory.write_wf _ _ _ hwf, hread, fun a ha => Memory.read_write_other _ _ _ _ ha hsorted, fun hidle hrace => ?_,
      fun hbusy => ?_, rfl, rfl⟩
    · rw [State.assetByte_of_no_race_at (by rwa [State.loadAsset_stale_idle (by exact hidle)])]
      exact hread
    · rw [State.loadAsset_stale_busy (by exact hbusy)]
      exact List.mem_cons_self
  · rw [step_load hp, if_neg (by omega)]

end Sys2Proof.Machine

/-! The reference panel observer (O60): a window opens a rectangle, and pixel data fills it row by row. -/

namespace Sys2Proof.Machine

/-! ### Bytes and pixels (20_memory.md R59) -/

/-- Two bytes of a 16-bit number are the number. -/
theorem append_bytesOfNat16 {n : Nat} (hn : n < 65536) :
    (BitVec.ofNat 8 (n / 256) ++ BitVec.ofNat 8 n : Half) = BitVec.ofNat 16 n := by
  apply BitVec.eq_of_toNat_eq
  rw [toNat_append, BitVec.toNat_ofNat, BitVec.toNat_ofNat, BitVec.toNat_ofNat]
  omega

/-- A run of one colour is so many pixels of it. -/
theorem Panel.pixels_pixelRun (color : Half) (n : Nat) (p : Panel) :
    Panel.pixels (pixelRun color n) p = (Panel.put color)^[n] p := by
  induction n generalizing p with
  | zero => rfl
  | succ n ih =>
    have hrun : pixelRun color (n + 1) =
        BitVec.ofNat 8 (color.toNat / 256) :: BitVec.ofNat 8 color.toNat :: pixelRun color n := rfl
    rw [hrun, Panel.pixels, append_bytesOfNat16 color.isLt, BitVec.ofNat_toNat, BitVec.setWidth_eq,
      Function.iterate_succ_apply, ih]

@[simp] theorem Panel.put_writing (color : Half) (p : Panel) : (p.put color).writing = p.writing := by
  unfold Panel.put
  simp only
  split
  · rfl
  · split <;> rfl

@[simp] theorem Panel.iterate_put_writing (color : Half) (n : Nat) (p : Panel) :
    ((Panel.put color)^[n] p).writing = p.writing := by
  induction n generalizing p with
  | zero => rfl
  | succ n ih => rw [Function.iterate_succ_apply, ih, Panel.put_writing]

/-- Pixel data while the panel is writing. -/
theorem Panel.observe_pixelRun {p : Panel} (h : p.writing = true) (color : Half) (n : Nat) :
    p.observe (.data (pixelRun color n)) = (Panel.put color)^[n] p := by
  rw [Panel.observe, if_pos h, Panel.pixels_pixelRun]

/-- Several runs of equal length. -/
theorem Panel.observe_replicate {p : Panel} (h : p.writing = true) (color : Half) (m n : Nat) :
    (List.replicate m (.data (pixelRun color n))).foldl Panel.observe p = (Panel.put color)^[m * n] p := by
  induction m generalizing p with
  | zero => rw [Nat.zero_mul]; rfl
  | succ m ih =>
    rw [List.replicate_succ, List.foldl_cons, Panel.observe_pixelRun h, ih (by rwa [Panel.iterate_put_writing]),
      ← Function.iterate_add_apply, Nat.succ_mul]

/-! ### The window (R161) -/

/-- The panel with the window of these columns and rows open, at its first pixel. -/
def Panel.opened (x0 x1 y0 y1 : Nat) (p : Panel) : Panel :=
  { p with cs0 := x0, cs1 := x1, rs0 := y0, rs1 := y1, px := x0, py := y0, writing := true }

/-- What the observer makes of a window that is accepted and of which no coordinate wraps. -/
theorem Panel.observe_windowEvents {s : State} {x0 y0 x1 y1 : Int} (h : s.accepts x0 y0 x1 y1)
    (hx : s.xstart.toNat + s.width.toNat ≤ 65535) (hy : s.ystart.toNat + s.height.toNat ≤ 65535) (p : Panel) :
    (s.windowEvents x0 y0 x1 y1).foldl Panel.observe p =
      p.opened (x0 + s.xstart.toNat).toNat (x1 + s.xstart.toNat).toNat (y0 + s.ystart.toNat).toNat
        (y1 + s.ystart.toNat).toNat := by
  have sent {v : Int} {origin extent : Half} (h0 : 0 ≤ v) (h1 : v ≤ extent.toNat)
      (hw : origin.toNat + extent.toNat ≤ 65535) :
      sentNat v origin = (v + origin.toNat).toNat ∧ (v + origin.toNat).toNat < 65536 := by
    unfold sentNat
    omega
  have read {n : Nat} (hn : n < 65536) :
      (BitVec.ofNat 8 (n / 256) ++ BitVec.ofNat 8 n : Half).toNat = n := by
    rw [append_bytesOfNat16 hn, BitVec.toNat_ofNat, Nat.mod_eq_of_lt hn]
  obtain ⟨⟨hx0, hx01, hx1⟩, hy0, hy01, hy1⟩ := h
  obtain ⟨ex0, lx0⟩ := sent hx0 (hx01.trans hx1) hx
  obtain ⟨ex1, lx1⟩ := sent (hx0.trans hx01) hx1 hx
  obtain ⟨ey0, ly0⟩ := sent hy0 (hy01.trans hy1) hy
  obtain ⟨ey1, ly1⟩ := sent (hy0.trans hy01) hy1 hy
  rw [State.windowEvents, if_pos ⟨⟨hx0, hx01, hx1⟩, hy0, hy01, hy1⟩, ex0, ex1, ey0, ey1]
  simp [Panel.observe, Panel.command, bytesOfNat16, Panel.pixels, Panel.opened, read lx0, read lx1, read ly0, read ly1]

/-! ### Filling a window (R66) -/

/-- The `k`-th pixel of a rectangle `w` wide, row by row. -/
def rowMajor (x y w : Nat) (color : Half) (k : Nat) : (Nat × Nat) × Half := ((x + k % w, y + k / w), color)

/-- The position after a pixel that is not the last of its row, and after one that is. -/
theorem succ_mod_div {w k : Nat} (hw : 0 < w) :
    (k % w + 1 < w ∧ (k + 1) % w = k % w + 1 ∧ (k + 1) / w = k / w) ∨
      (k % w + 1 = w ∧ (k + 1) % w = 0 ∧ (k + 1) / w = k / w + 1) := by
  have hk := Nat.div_add_mod k w
  have hle : k % w + 1 ≤ w := Nat.mod_lt k hw
  rcases Nat.lt_or_eq_of_le hle with hlt | heq
  · have hsum : k + 1 = w * (k / w) + (k % w + 1) := by omega
    refine .inl ⟨hlt, ?_, ?_⟩
    · rw [hsum, Nat.mul_add_mod, Nat.mod_eq_of_lt hlt]
    · rw [hsum, Nat.mul_add_div hw, Nat.div_eq_of_lt hlt, Nat.add_zero]
  · have hsum : k + 1 = w * (k / w + 1) := by rw [Nat.mul_succ]; omega
    refine .inr ⟨heq, ?_, ?_⟩
    · rw [hsum, Nat.mul_mod_right]
    · rw [hsum, Nat.mul_div_cancel_left _ hw]

/-- After `k` pixels of an open window: they are written, row by row, and the write position is that of the next. -/
theorem Panel.iterate_put {x y w h : Nat} {color : Half} (hw : 0 < w) (p : Panel) {k : Nat} (hk : k < w * h) :
    (Panel.put color)^[k] (p.opened x (x + w - 1) y (y + h - 1)) =
      { p.opened x (x + w - 1) y (y + h - 1) with
        px := x + k % w
        py := y + k / w
        writes := p.writes ++ (List.range k).map (rowMajor x y w color) } := by
  induction k with
  | zero => simp [Panel.opened]
  | succ k ih =>
    have hrow : (k + 1) / w < h := Nat.div_lt_of_lt_mul hk
    rw [Function.iterate_succ_apply', ih (by omega), List.range_succ, List.map_append, List.map_singleton,
      ← List.append_assoc]
    rcases succ_mod_div (k := k) hw with ⟨hlt, hmod, hdiv⟩ | ⟨heq, hmod, hdiv⟩
    · have hcol : x + k % w + 1 ≤ x + w - 1 := by omega
      simp [Panel.put, Panel.opened, rowMajor, hcol, hmod, hdiv, ← Nat.add_assoc]
    · have hcol : ¬x + k % w + 1 ≤ x + w - 1 := by omega
      have hnext : y + k / w + 1 ≤ y + h - 1 := by omega
      simp [Panel.put, Panel.opened, rowMajor, hcol, hnext, hmod, hdiv, ← Nat.add_assoc]

/-- Filling an open window paints each of its pixels once, row by row. -/
theorem Panel.writes_iterate_put {x y w h : Nat} {color : Half} (hw : 0 < w) (hh : 0 < h) (p : Panel) :
    ((Panel.put color)^[w * h] (p.opened x (x + w - 1) y (y + h - 1))).writes =
      p.writes ++ (List.range (w * h)).map (rowMajor x y w color) := by
  obtain ⟨k, hk⟩ : ∃ k, w * h = k + 1 := ⟨w * h - 1, by have := Nat.mul_pos hw hh; omega⟩
  have hput (q : Panel) : (q.put color).writes = q.writes ++ [((q.px, q.py), color)] := by
    unfold Panel.put
    simp only
    split
    · rfl
    · split <;> rfl
  rw [hk, Function.iterate_succ_apply', hput, Panel.iterate_put hw p (by omega), List.range_succ, List.map_append,
    ← List.append_assoc]
  rfl

/-- The pixels of a rectangle, row by row. -/
theorem map_rowMajor {w : Nat} (hw : 0 < w) (x y h : Nat) (color : Half) :
    (List.range (w * h)).map (rowMajor x y w color) =
      (List.range h).flatMap fun j => (List.range w).map fun i => ((x + i, y + j), color) := by
  have hrows := flatMap_range_mul h w fun k => [rowMajor x y w color k]
  rw [← List.map_eq_flatMap, Nat.mul_comm] at hrows
  rw [← hrows]
  refine List.flatMap_congr fun j _ => ?_
  rw [← List.map_eq_flatMap]
  refine List.map_congr_left fun i hi => ?_
  have hlt := List.mem_range.1 hi
  rw [rowMajor, Nat.mul_comm j w, Nat.mul_add_mod, Nat.mod_eq_of_lt hlt, Nat.mul_add_div hw, Nat.div_eq_of_lt hlt,
    Nat.add_zero]

/-! ### FILLRECT (R166, R170, R171) -/

/-- The data of a fill, full buffers and the remainder, is one run of pixels to the observer (R170). -/
theorem Panel.observe_fillData {p : Panel} (h : p.writing = true) (color : Half) (n : Nat) :
    (List.replicate (n / 1024) (Event.data (pixelRun color 1024)) ++
      (if n % 1024 = 0 then [] else [Event.data (pixelRun color (n % 1024))])).foldl Panel.observe p =
      (Panel.put color)^[n] p := by
  have hn := Nat.mod_add_div' n 1024
  have hwriting := (Panel.iterate_put_writing color (n / 1024 * 1024) p).trans h
  rw [List.foldl_append, Panel.observe_replicate h]
  split
  · rw [List.foldl_nil, show n / 1024 * 1024 = n by omega]
  · rw [List.foldl_cons, List.foldl_nil, Panel.observe_pixelRun hwriting, ← Function.iterate_add_apply, hn]

/-- What FILLRECT leaves with READY set, in a quiet environment (R171). -/
theorem exec_fillrect {x y w h color : Half} {s : State} (hq : s.quiet) (hr : s.ready = true) :
    exec (.fillrect x y w h color) s =
      .next (s.drawn (s.fillEvents x.toInt y.toInt w.toNat h.toNat color)
        (tbufAfter color (w.toNat * h.toNat) s.tbuf)) := by
  rw [← start_fillActs x.toInt y.toInt w.toNat h.toNat color hq]
  exact congrArg (fun acts => Host.Outcome.next (s.start acts)) (requireReady_of_ready hr)

/-- Settles O60: the window opens the rectangle, and the data fills it. -/
theorem filledRectangleIsPainted : Obligations.FilledRectangleIsPainted := by
  intro x y w h color s t hq hr hx hy hw hh hxw hyh hox hoy ht
  rw [exec_fillrect hq hr] at ht
  cases ht
  have haccept : s.accepts x.toInt y.toInt (x.toInt + w.toNat - 1) (y.toInt + h.toNat - 1) := by
    refine ⟨⟨hx, ?_, ?_⟩, hy, ?_, ?_⟩ <;> omega
  have hx1 : (x.toInt + w.toNat - 1 + s.xstart.toNat).toNat = (x.toInt + s.xstart.toNat).toNat + w.toNat - 1 := by omega
  have hy1 : (y.toInt + h.toNat - 1 + s.ystart.toNat).toNat = (y.toInt + s.ystart.toNat).toNat + h.toNat - 1 := by omega
  have htrace (tbuf : Vector Half 1024) (evs : List Event) : (s.drawn evs tbuf).trace = s.trace ++ evs := rfl
  rw [htrace, Panel.ofTrace, List.foldl_append, State.fillEvents, List.append_assoc, List.foldl_append,
    Panel.observe_windowEvents haccept hox hoy, Panel.observe_fillData rfl, hx1, hy1, Panel.writes_iterate_put hw hh,
    map_rowMajor hw]
  refine congrArg _ (List.flatMap_congr fun j _ => List.map_congr_left fun i _ => ?_)
  rw [show (x.toInt + s.xstart.toNat).toNat + i = (x.toInt + s.xstart.toNat + i).toNat by omega,
    show (y.toInt + s.ystart.toNat).toNat + j = (y.toInt + s.ystart.toNat + j).toNat by omega]

end Sys2Proof.Machine

/-! A command under way is a list of actions and a state, whichever step it goes on in (O9, O48): the walk over a string
is unfolded into actions too, one character at a time, and what is proved of all such lists is proved by one
induction. -/

namespace Sys2Proof.Machine

/-! ### A command as `runActs` -/

/-- Only the texts among the actions ask how a text command goes on. -/
theorem drain_congr {k k' : TextRun → State → State} (acts : List Action) (h : ∀ r, .text r ∈ acts → k r = k' r) :
    drain k acts = drain k' acts := by
  induction acts with
  | nil => rfl
  | cons a rest ih =>
    have hrest := ih fun r hr => h r (List.mem_cons_of_mem a hr)
    funext s
    cases a with
    | text r => simp only [drain, h r List.mem_cons_self]
    | _ => simp only [drain, hrest]

/-- An action that neither waits for a word nor walks a string nor halts. -/
def Action.ordinary : Action → Prop
  | .payload .. | .skip _ | .text _ | .halt _ => False
  | _ => True

theorem ordinary_of_emit {a : Action} (h : ∃ e, a = .emit e) : a.ordinary := by
  obtain ⟨e, rfl⟩ := h
  trivial

theorem ordinary_of_emit_or_tbuf {a : Action} {color : Half} (h : (∃ e, a = .emit e) ∨ a = .setTbuf color) :
    a.ordinary := by
  rcases h with h | rfl
  · exact ordinary_of_emit h
  · trivial

theorem ordinary_initActs (cfg : Config) (v nw nh : Half) : Every Action.ordinary (initActs cfg v nw nh) := by
  have wait (ms : Nat) : Every Action.ordinary (waitActs ms) := fun _ h => ordinary_of_emit (waitActs_emit h)
  have vendor : Every Action.ordinary (cfg.vendorInit.flatMap vendorActs) := fun a h => by
    obtain ⟨item, -, hv⟩ := List.mem_flatMap.1 h
    exact ordinary_of_emit (vendorActs_emit hv)
  have fill (g : Geometry) (x y w h : Int) (color : Half) : Every Action.ordinary (fillActs g x y w h color) :=
    fun _ ha => ordinary_of_emit_or_tbuf (fillActs_emit ha)
  simp [initActs, rotateActs, wait, vendor, fill, pinAct, cmdAct, cmdDataAct, Action.ordinary]

theorem ordinary_bitmapActs {s : State} {hdr : Word} {a index : Nat} {x y : Int} :
    Every Action.ordinary (bitmapActs s hdr a index x y) := by
  unfold bitmapActs
  simp only
  repeat' split
  all_goals simp [Action.ordinary]

theorem ordinary_pops_data (payload : List Byte) (n : Nat) :
    Every Action.ordinary (List.replicate n .pop ++ [dataAct payload]) := by
  rw [every_append]
  exact ⟨fun a ha => by rw [(List.mem_replicate.1 ha).2]; trivial, by simp [dataAct, Action.ordinary]⟩

/-- The three kinds of list that a command's actions are: ordinary ones, one halt, or what a text command starts
with. -/
inductive CommandShape (i : Instr) (acts : List Action) : Prop
  | plain (h : Every Action.ordinary acts)
  | halt (hdr : Word) (h : acts = [.halt hdr])
  | text (n : Nat) (hwalk : onText i = fun r => runText r.chs r) (hn : varCount i = (n + 1) / 2)
      (h : StartsText n acts)

theorem bodyActs_shape (s : State) (i : Instr) : CommandShape i (bodyActs s i) := by
  cases i
  case init => exact .plain (ordinary_initActs _ _ _ _)
  case setwin => exact .plain fun _ h => ordinary_of_emit (windowActs_emit h)
  case wrpix => exact .plain (ordinary_pops_data _ _)
  case fillrect | pixel | hline | vline => exact .plain fun _ h => ordinary_of_emit_or_tbuf (fillActs_emit h)
  case line | circle | fcircle | tri | ftri => exact .plain fun _ h => ordinary_of_emit_or_tbuf (plotActs_emit h)
  case text8 | text16 => exact .text _ rfl rfl (textBmActs_startsText ..)
  case tttext => exact .text _ rfl rfl (ttTextActs_startsText ..)
  case ttwidth => exact .text _ rfl rfl (ttWidthActs_startsText ..)
  case bitmap => exact .plain ordinary_bitmapActs
  case setrot => exact .plain (by simp [bodyActs, rotateActs, cmdDataAct, Action.ordinary])
  case setorg | rgb565 => exact .plain (by simp [bodyActs, Action.ordinary])
  case sleep | invert | display => exact .plain (by simp [bodyActs, cmdAct, Action.ordinary])
  case illegal00 | illegal18 | illegal20 | illegal40 | illegal80 => exact .halt _ rfl

theorem commandActs_shape (i : Instr) (s : State) : CommandShape i (commandActs i s) := by
  unfold commandActs requireReady
  split
  · split
    · exact bodyActs_shape s i
    · exact .plain (by simp [Action.ordinary])
  · exact bodyActs_shape s i

/-- A text among a command's actions is that of a text command, all of whose characters are known. -/
theorem CommandShape.text_mem {i : Instr} {acts : List Action} (h : CommandShape i acts) {r : TextRun}
    (hr : .text r ∈ acts) : onText i = (fun r => runText r.chs r) ∧ r.more = 0 := by
  cases h with
  | plain h => exact (h _ hr).elim
  | halt hdr h => simp [h] at hr
  | text n hwalk hn h =>
    rcases h with ⟨e, hdr, a, rfl⟩ | ⟨q, rfl, hmore, -⟩
    · simp at hr
    · simp only [List.mem_singleton, Action.text.injEq] at hr
      exact ⟨hwalk, hr ▸ hmore⟩

/-- A command is its actions in order, from EXEC on, its walk over a string among them. -/
theorem exec_eq_runActs (i : Instr) (s : State) : exec i s = .next (runActs (commandActs i s) s.enter) := by
  rw [exec_eq_drain, runActs,
    drain_congr _ fun r hr => congrFun ((commandActs_shape i s).text_mem hr).1 r]

/-! ### The words of a command -/

theorem StartsText.wordBound_eq {n : Nat} {acts : List Action} (h : StartsText n acts) :
    wordBound acts = (n + 1) / 2 := by
  rcases h with ⟨e, hdr, a, rfl⟩ | ⟨r, rfl, -, hleft⟩
  · exact wordBound_singleton _
  · exact (wordBound_singleton _).trans hleft

theorem bodyActs_wordBound (s : State) (i : Instr) : wordBound (bodyActs s i) = varCount i := by
  cases i
  case init => exact wordBound_of_popFree popFree_initActs
  case setwin => exact wordBound_of_popFree popFree_windowActs
  case wrpix payload => exact wordBound_wrpix payload _
  case fillrect | pixel | hline | vline => exact wordBound_of_popFree popFree_fillActs
  case line | circle | fcircle | tri | ftri => exact wordBound_of_popFree popFree_plotActs
  case text8 | text16 => exact (textBmActs_startsText ..).wordBound_eq
  case tttext => exact (ttTextActs_startsText ..).wordBound_eq
  case ttwidth => exact (ttWidthActs_startsText ..).wordBound_eq
  case bitmap => exact wordBound_of_popFree popFree_bitmapActs
  case setrot => exact wordBound_of_popFree popFree_rotateActs
  case setorg | rgb565 => rfl
  case sleep | invert | display => exact wordBound_of_popFree (popFree_emit _)
  case illegal00 | illegal18 | illegal20 | illegal40 | illegal80 => exact wordBound_of_popFree popFree_illegalActs

/-- A command's actions pop its characters or payload. -/
theorem commandActs_wordBound (i : Instr) (s : State) : wordBound (commandActs i s) = varCount i := by
  unfold commandActs requireReady
  split
  · split
    · exact bodyActs_wordBound s i
    · exact wordBound_singleton _
  · exact bodyActs_wordBound s i

/-! ### Lists of actions whose words are known -/

/-- What the actions of a command, or of the rest of one, are like while no word of it is still to arrive: no payload,
a halt only as the last action, texts whose characters are known, no skipping of nothing. -/
def Orderly : List Action → Prop
  | [] => True
  | a :: rest =>
    (match a with
      | .payload .. => False
      | .halt _ => rest = []
      | .text r => r.more = 0
      | .skip m => 0 < m
      | _ => True) ∧ Orderly rest

theorem Orderly.tail {a : Action} {rest : List Action} (h : Orderly (a :: rest)) : Orderly rest := h.2

theorem Orderly.append {acts rest : List Action} (h : Every Action.ordinary acts) (hr : Orderly rest) :
    Orderly (acts ++ rest) := by
  induction acts with
  | nil => exact hr
  | cons a acts ih =>
    obtain ⟨ha, hacts⟩ := (every_cons _ a acts).1 h
    refine ⟨?_, ih hacts⟩
    cases a with
    | payload | skip | text | halt => exact ha.elim
    | _ => trivial

theorem orderly_singleton_text {r : TextRun} (h : r.more = 0) : Orderly [.text r] := ⟨h, trivial⟩

theorem orderly_commandActs (i : Instr) (s : State) : Orderly (commandActs i s) := by
  cases commandActs_shape i s with
  | plain h => simpa using Orderly.append h (rest := []) trivial
  | halt hdr h => exact h ▸ ⟨rfl, trivial⟩
  | text n hwalk hn h =>
    rcases h with ⟨e, hdr, a, h⟩ | ⟨r, h, hmore, -⟩
    · exact h ▸ ⟨trivial, trivial⟩
    · exact h ▸ orderly_singleton_text hmore

/-! ### The walk over a string, one character at a time -/

/-- A text run after its next character, the pen at `pen` and the characters `rest` left. -/
def TextRun.next (r : TextRun) (pen : Int) (rest : List Half) : TextRun :=
  { r with pen := pen, chs := rest, popped := r.popped - 1 }

/-- What a character does is ordinary. -/
theorem ordinary_charActs (s : State) (r : TextRun) (c : Half) : Every Action.ordinary (charActs s r c).1 := by
  intro a ha
  rcases charActs_units ha with ⟨_, _, _, _, _, rfl⟩ | ⟨_, rfl⟩ <;> trivial

/-- What follows the last character is ordinary. -/
theorem ordinary_finish (r : TextRun) : Every Action.ordinary r.finish := by
  unfold TextRun.finish
  split <;> simp [Action.ordinary]

theorem text_not_mem {acts : List Action} (h : Every Action.ordinary acts) (r : TextRun) : .text r ∉ acts :=
  fun hr => h _ hr

/-- After the last character the text command does what it still has to do. -/
theorem runText_finish {r : TextRun} (hc : r.chs = []) (hm : r.more = 0) (s : State) :
    runText r.chs r s = runActs r.finish s := by
  rw [hc, runText, if_pos hm, runActs,
    drain_congr _ fun q hq => absurd hq (text_not_mem (ordinary_finish r) q)]

/-- A character whose word is still in the FIFO has it popped first. -/
theorem runText_pop {r : TextRun} {c : Half} {rest : List Half} (hc : r.chs = c :: rest) (hp : r.popped = 0)
    (s : State) : runText r.chs r s = runActs [.pop, .text { r with popped := 2 }] s := by
  have hlist : runText r.chs r s = runText (c :: rest) r s := by rw [hc]
  rw [hlist, runText, if_pos hp, runActs]
  refine congrFun (drain_congr _ fun q hq => ?_) s
  simp only [List.mem_cons, reduceCtorEq, Action.text.injEq, List.not_mem_nil, or_false, false_or] at hq
  funext t
  simp only [hq, hc, runText, two_ne_zero, if_false]

/-- A character whose word is popped: what it does, and then the others. -/
theorem runText_char {r : TextRun} {c : Half} {rest : List Half} (hc : r.chs = c :: rest) (hp : r.popped ≠ 0)
    (s : State) :
    runText r.chs r s = runActs ((charActs s r c).1 ++ [.text (r.next (charActs s r c).2 rest)]) s.tick := by
  rw [hc, runText, if_neg hp, charStep, runActs]
  refine congrFun (drain_congr _ fun q hq => ?_) s.tick
  rcases List.mem_append.1 hq with hq | hq
  · exact absurd hq (text_not_mem (ordinary_charActs s r c) q)
  · simp only [List.mem_singleton, Action.text.injEq] at hq
    rw [hq]

/-- The words left to pop do not change with a character, when its word is popped. -/
theorem TextRun.wordsLeft_next {r : TextRun} {c : Half} {rest : List Half} (hc : r.chs = c :: rest)
    (hp : r.popped ≠ 0) (pen : Int) : (r.next pen rest).wordsLeft = r.wordsLeft := by
  simp only [TextRun.wordsLeft, TextRun.next, hc, List.length_cons]
  congr 3
  omega

/-- Before other actions, actions of which none pops but one that ends the command and pops as many as these. -/
theorem wordBound_append_eq {n : Nat} {acts rest : List Action}
    (hacts : ∀ a ∈ acts, a.mayPop = if a.simple then 0 else n) (hrest : wordBound rest = n) :
    wordBound (acts ++ rest) = n := by
  induction acts with
  | nil => exact hrest
  | cons a acts ih =>
    have ha := hacts a List.mem_cons_self
    rw [List.cons_append, wordBound, ih fun b hb => hacts b (List.mem_cons_of_mem a hb), ha]
    split <;> simp

/-- The words that a character and those after it pop are the words left. -/
theorem wordBound_charActs {s : State} {r : TextRun} {c : Half} {rest : List Half} (hc : r.chs = c :: rest)
    (hp : r.popped ≠ 0) (pen : Int) : wordBound ((charActs s r c).1 ++ [.text (r.next pen rest)]) = r.wordsLeft := by
  refine wordBound_append_eq (fun a ha => ?_) (by simp [TextRun.wordsLeft_next hc hp])
  rcases charActs_units ha with ⟨_, _, _, _, _, rfl⟩ | ⟨_, rfl⟩ <;> rfl

/-- Popping the next character's word leaves the others. -/
theorem TextRun.wordsLeft_pop {r : TextRun} {c : Half} {rest : List Half} (hc : r.chs = c :: rest)
    (hm : r.more = 0) (hp : r.popped = 0) : wordBound [.pop, .text { r with popped := 2 }] = r.wordsLeft := by
  simp only [wordBound, Action.mayPop, Action.simple, TextRun.wordsLeft, hc, hm, hp, List.length_cons, if_true]
  simp only [Bool.false_eq_true, if_false]
  omega

theorem popFree_finish (r : TextRun) : PopFree r.finish := by
  unfold TextRun.finish
  split <;> simp

/-! ### One action, nothing being due -/

section
variable {s : State} (h : s.envDue = false) (rest : List Action)
include h

theorem runActs_emit (e : Event) : runActs (.emit e :: rest) s = s.offer e (.emit e :: rest) (runActs rest) :=
  drain_cons_free _ _ _ h

theorem runActs_blit (window : List Event) (b : Blit) :
    runActs (.blit window b :: rest) s = runActs ((unitEvents window b s).map .emit ++ rest) s :=
  drain_cons_free _ _ _ h

theorem runActs_raise (e : ErrKind) (hdr : Word) (addr m : Nat) :
    runActs (.raise e hdr addr m :: rest) s = s.raise e hdr addr m :=
  drain_cons_free _ _ _ h

theorem runActs_skip (m : Nat) : runActs (.skip m :: rest) s = skipWords m s :=
  drain_cons_free _ _ _ h

theorem runActs_text (r : TextRun) : runActs (.text r :: rest) s = runText r.chs r s :=
  drain_cons_free _ _ _ h

/-- An action that `drain` goes on after and that is no event. -/
theorem runActs_simple {a : Action} (ha : a.simple = true) (ho : a.isOut = false) :
    runActs (a :: rest) s = runActs rest (a.apply s).tick := by
  have hcons := drain_cons_free (fun r => runText r.chs r) a rest h
  cases a with
  | emit | blit => cases ho
  | raise | skip | payload | text => cases ha
  | _ => exact hcons

end

/-! ### Induction along the actions -/

/-- To show something of every list of actions, whatever the state, it is enough to show it of the empty list, and of a
list from the lists that `drain` goes on with: the rest, a unit's events before the rest, or what a text unfolds to. -/
theorem actions_induction {P : List Action → State → Prop} (nil : ∀ s, P [] s)
    (simple : ∀ a rest s, a.simple = true → (∀ t, P rest t) →
      (∀ window b, a = .blit window b → ∀ (evs : List Event) t, P (evs.map .emit ++ rest) t) → P (a :: rest) s)
    (stop : ∀ a rest s, a.simple = false → (∀ r, a ≠ .text r) → P (a :: rest) s)
    (textFinish : ∀ r rest s, r.chs = [] → (∀ t, P r.finish t) → P (.text r :: rest) s)
    (textPop : ∀ r rest s c l, r.chs = c :: l → r.popped = 0 → (∀ t, P [.pop, .text { r with popped := 2 }] t) →
      P (.text r :: rest) s)
    (textChar : ∀ r rest s c l, r.chs = c :: l → r.popped ≠ 0 →
      (∀ u pen t, P ((charActs u r c).1 ++ [.text (r.next pen l)]) t) → P (.text r :: rest) s)
    (acts : List Action) (s : State) : P acts s := by
  have list (l : List Action) (htext : ∀ r, .text r ∈ l → ∀ rest t, P (.text r :: rest) t) : ∀ t, P l t := by
    induction l with
    | nil => exact nil
    | cons a rest ih =>
      have hrest := ih fun r hr => htext r (List.mem_cons_of_mem a hr)
      have emits (evs : List Event) : ∀ t, P (evs.map .emit ++ rest) t := by
        induction evs with
        | nil => exact hrest
        | cons e evs ihe => exact fun t => simple _ _ t rfl ihe fun _ _ h => nomatch h
      intro t
      by_cases ha : a.simple = true
      · exact simple a rest t ha hrest fun _ _ _ evs => emits evs
      · by_cases hr : ∃ r, a = .text r
        · obtain ⟨r, rfl⟩ := hr
          exact htext r List.mem_cons_self rest t
        · exact stop a rest t (by simpa using ha) fun r h => hr ⟨r, h⟩
  have text (l : List Half) : ∀ r : TextRun, r.chs = l → ∀ rest t, P (.text r :: rest) t := by
    induction l with
    | nil =>
      exact fun r hc rest t => textFinish r rest t hc
        (list _ fun q hq => absurd hq (text_not_mem (ordinary_finish r) q))
    | cons c l ih =>
      have char (r : TextRun) (hc : r.chs = c :: l) (hp : r.popped ≠ 0) (rest : List Action) (t : State) :
          P (.text r :: rest) t := by
        refine textChar r rest t c l hc hp fun u pen => list _ fun q hq => ?_
        rcases List.mem_append.1 hq with hq | hq
        · exact absurd hq (text_not_mem (ordinary_charActs u r c) q)
        · simp only [List.mem_singleton, Action.text.injEq] at hq
          exact ih q (by rw [hq]; rfl)
      intro r hc rest t
      by_cases hp : r.popped = 0
      · refine textPop r rest t c l hc hp (list _ fun q hq => ?_)
        simp only [List.mem_cons, reduceCtorEq, Action.text.injEq, List.not_mem_nil, or_false, false_or] at hq
        exact char q (by rw [hq]; exact hc) (by simp [hq])
      · exact char r hc hp rest t
  exact list acts (fun r _ => text r.chs r rfl) s

end Sys2Proof.Machine

/-! Interference (O48): a command in the middle of its actions, with reads of the host and holds of the port still to
come, ends in the state in which it would have ended undisturbed. Each read and each hold is used up, so the proof is an
induction on how many there are, and for the same number one along the actions. -/

namespace Sys2Proof.Machine

/-! ### The state without its environment -/

/-- The state without its environment, with these actions left: what it was interrupted with does not matter. -/
def State.shell (acts : List Action) (s : State) : State := { s.inside with todo := acts }

theorem State.shell_quiet (acts : List Action) (s : State) : (s.shell acts).quiet := ⟨rfl, rfl, rfl⟩

@[simp] theorem State.shell_fifo (acts : List Action) (s : State) : (s.shell acts).fifo = s.fifo := rfl

theorem State.shell_record (acts : List Action) (e : ErrKind) (hdr : Word) (addr : Nat) (s : State) :
    (s.record e hdr addr).shell acts = (s.shell acts).record e hdr addr := by
  unfold State.record
  by_cases h : s.err = 0
  · rw [if_pos h, if_pos (show (s.shell acts).err = 0 from h)]
    rfl
  · rw [if_neg h, if_neg (show ¬(s.shell acts).err = 0 from h)]

/-- What the engine reads does not depend on its environment. -/
theorem State.shell_sameView (acts : List Action) (s : State) : (s.shell acts).sameView s := ⟨rfl, rfl, rfl⟩

/-- An action does the same without the environment. -/
theorem State.shell_apply (acts : List Action) (a : Action) (s : State) :
    (a.apply s).shell acts = a.apply (s.shell acts) := by
  cases a with
  | blit window b =>
    rw [Action.apply_blit, Action.apply_blit, unitEvents_congr (s.shell_sameView acts).2.2]
    rfl
  | halt hdr =>
    have h := s.shell_record acts .opcode hdr 0
    exact congrArg (fun u : State => { u with halted := true }) h
  | _ => rfl

/-- Two states with the same view do the same with a character. -/
theorem charActs_congr {s t : State} (h : s.sameView t) (r : TextRun) (c : Half) : charActs s r c = charActs t r c := by
  obtain ⟨hgeom, hcfg, hbytes⟩ := h
  have hcheck : s.assetCheck = t.assetCheck := by
    funext a n
    rw [State.assetCheck, State.assetCheck, State.assetSize, State.assetSize, hcfg]
  have hread := State.assetRead_congr hbytes
  unfold charActs glyphActs vglyphActs FontV.index FontV.widthAt FontV.offsetAt
  rw [hgeom, hcheck, hread]

/-! ### What is left of the environment -/

/-- Nothing is in progress at the port or pending, and of reads and holds no more than `n` are to come. -/
structure Calm (n : Nat) (s : State) : Prop where
  harmless : s.harmless
  flight : s.inFlight = false
  srst : s.srstPending = false
  left : s.host.length + s.port.length ≤ n

theorem Calm.of_env {n : Nat} {s t : State} (h : Calm n s) (hh : t.host = s.host) (hp : t.platform = s.platform)
    (ho : t.port = s.port) (hf : t.inFlight = s.inFlight) (hs : t.srstPending = s.srstPending) : Calm n t where
  harmless := by
    obtain ⟨hhost, hplat, hport⟩ := h.harmless
    exact ⟨hh ▸ hhost, hp.trans hplat, ho ▸ hport⟩
  flight := hf.trans h.flight
  srst := hs.trans h.srst
  left := by rw [hh, ho]; exact h.left

/-- A tick lets the host wait less. -/
theorem State.tick_host_of_nil {s : State} (h : s.host = []) : s.tick.host = [] := by
  simp [State.tick, h]

theorem State.tick_host_of_cons {s : State} {x : HostInput} {rest : List HostInput} (h : s.host = x :: rest) :
    s.tick.host = { x with wait := x.wait - 1 } :: rest := by
  simp [State.tick, h]

theorem State.tick_host_length (s : State) : s.tick.host.length = s.host.length := by
  cases h : s.host with
  | nil => rw [State.tick_host_of_nil h]
  | cons x rest => rw [State.tick_host_of_cons h, List.length_cons, List.length_cons]

theorem State.harmless.tick {s : State} (h : s.harmless) : s.tick.harmless := by
  obtain ⟨hhost, hplat, hport⟩ := h
  refine ⟨fun x hx => ?_, by simp [State.tick, hplat], hport⟩
  cases hl : s.host with
  | nil => simp [State.tick_host_of_nil hl] at hx
  | cons y rest =>
    rw [hl] at hhost
    rw [State.tick_host_of_cons hl] at hx
    rcases List.mem_cons.1 hx with rfl | hx
    · exact hhost y List.mem_cons_self
    · exact hhost x (List.mem_cons_of_mem y hx)

theorem Calm.tick {n : Nat} {s : State} (h : Calm n s) : Calm n s.tick where
  harmless := h.harmless.tick
  flight := h.flight
  srst := h.srst
  left := by rw [State.tick_host_length]; exact h.left

theorem Calm.record {n : Nat} {s : State} (h : Calm n s) (e : ErrKind) (hdr : Word) (addr : Nat) :
    Calm n (s.record e hdr addr) := by
  unfold State.record
  split
  · exact h.of_env rfl rfl rfl rfl rfl
  · exact h

/-- No action touches the environment. -/
theorem Calm.apply {n : Nat} {s : State} (h : Calm n s) (a : Action) : Calm n (a.apply s) := by
  cases a with
  | blit window b => rw [Action.apply_blit]; exact h.of_env rfl rfl rfl rfl rfl
  | halt hdr => exact (h.record .opcode hdr 0).of_env rfl rfl rfl rfl rfl
  | _ => exact h.of_env rfl rfl rfl rfl rfl

/-- Where an access is due and only reads are to come, the step is a read. -/
theorem State.harmless.step_read {s : State} (h : s.harmless) (hd : s.envDue = true) :
    ∃ x rest reads, s.host = x :: rest ∧ step s = .next { s with host := rest, reads := reads } := by
  obtain ⟨hhost, hplat, -⟩ := h
  have hp : s.platformDue = false := by simp [State.platformDue, hplat]
  have hhd : s.hostDue = true := by simpa [State.envDue, hp] using hd
  cases hl : s.host with
  | nil => simp [State.hostDue, hl] at hhd
  | cons x rest =>
    obtain ⟨off, hx, hw⟩ := hhost x (by simp [hl])
    refine ⟨x, rest, s.reads ++ [(off, State.readReg { s with host := rest } off)], rfl,
      (step_host hp hhd hl).trans ?_⟩
    rw [hx, access, if_pos hw]

theorem State.harmless.after_read {s : State} {x : HostInput} {rest : List HostInput} (h : s.harmless)
    (hl : s.host = x :: rest) (reads : List (Nat × Word)) :
    State.harmless { s with host := rest, reads := reads } := by
  obtain ⟨hhost, hplat, hport⟩ := h
  exact ⟨fun y hy => hhost y (hl ▸ List.mem_cons_of_mem x hy), hplat, hport⟩

/-- After a read there is less to come. -/
theorem Calm.after_read {n : Nat} {s : State} {x : HostInput} {rest : List HostInput} (h : Calm n s)
    (hl : s.host = x :: rest) (reads : List (Nat × Word)) :
    Calm (n - 1) { s with host := rest, reads := reads } ∧ 0 < n := by
  obtain ⟨hharm, hf, hs, hn⟩ := h
  rw [hl, List.length_cons] at hn
  refine ⟨⟨hharm.after_read hl reads, hf, hs, ?_⟩, by omega⟩
  show rest.length + s.port.length ≤ n - 1
  omega

theorem Calm.mono {m n : Nat} {s : State} (h : Calm m s) (hmn : m ≤ n) : Calm n s :=
  { h with left := h.left.trans hmn }

/-! ### Coming to the end -/

/-- So many steps end with nothing left to do, in the state `u` but for the environment. -/
def State.reaches (s u : State) : Prop := ∃ k t, steps k s = .next t ∧ t.todo = [] ∧ t.inside = u

theorem State.reaches_of_step {s t u : State} (h : step s = .next t) (ht : t.reaches u) : s.reaches u := by
  obtain ⟨k, v, hk, hv⟩ := ht
  exact ⟨k + 1, v, (steps_succ h).trans hk, hv⟩

/-- Actions come to their end as they would undisturbed, when no more than `n` reads and holds are to come. -/
def Completes (n : Nat) (acts : List Action) (s : State) : Prop :=
  Orderly acts → wordBound acts ≤ s.fifo.length → Calm n s → (s.halted = false ∨ acts = []) →
    ∀ left, (runActs acts s).reaches (runActs acts (s.shell left))

/-- What is left of a command goes on as these actions, its words being there. -/
theorem resume_eq_runActs {s : State} (ho : Orderly s.todo) (hw : wordBound s.todo ≤ s.fifo.length)
    (he : s.envDue = false) : resume s = runActs s.todo s := by
  cases ht : s.todo with
  | nil => simp only [resume, ht]
  | cons a rest =>
    rw [ht] at ho hw
    cases a with
    | skip m =>
      have hpos : 0 < m := ho.1
      have hne : s.fifo ≠ [] := fun hf => by simp [wordBound, hf, Action.simple] at hw; omega
      simp only [resume, ht, if_neg hne]
      exact (runActs_skip he rest m).symm
    | payload => exact ho.1.elim
    | text r =>
      have hmore : r.more = 0 := ho.1
      simp only [resume, ht, State.textWord, hmore, Nat.lt_irrefl, and_false, if_false]
      exact (runActs_text he [] r).trans (runActs_text he rest r).symm
    | _ => simp only [resume, ht]

/-- A command that waits at some actions, nothing being due: the actions go on. -/
theorem resumed_reaches {n : Nat} (run : ∀ acts s, Completes n acts s) {s : State} (ht : s.todo ≠ [])
    (ho : Orderly s.todo) (hw : wordBound s.todo ≤ s.fifo.length) (hc : Calm n s) (hh : s.halted = false)
    (he : s.envDue = false) (left : List Action) : s.reaches (runActs s.todo (s.shell left)) := by
  refine State.reaches_of_step ((step_eq_engine he).trans (engine_resume hc.flight hh ht)) ?_
  rw [resume_eq_runActs ho hw he]
  exact run s.todo s ho hw hc (.inl hh) left

/-- A command that waits at some actions: the reads that are due happen, then the actions go on. -/
theorem pending_reaches {n : Nat} (run : ∀ acts s, Completes n acts s) (inputs : List HostInput) {s : State}
    (hin : s.host = inputs) (ht : s.todo ≠ []) (ho : Orderly s.todo) (hw : wordBound s.todo ≤ s.fifo.length)
    (hc : Calm n s) (hh : s.halted = false) (left : List Action) : s.reaches (runActs s.todo (s.shell left)) := by
  induction inputs generalizing s with
  | nil =>
    exact resumed_reaches run ht ho hw hc hh (State.envDue_of_quiet hin hc.harmless.2.1) left
  | cons x rest ih =>
    by_cases he : s.envDue = true
    · obtain ⟨y, rest', reads, hl, hstep⟩ := hc.harmless.step_read he
      obtain ⟨rfl, rfl⟩ : y = x ∧ rest' = rest := by simpa [hl] using hin
      have hc' := (hc.after_read hl reads).1
      exact State.reaches_of_step hstep (ih rfl ht ho hw (hc'.mono (Nat.sub_le n 1)) hh)
    · exact resumed_reaches run ht ho hw hc hh (by simpa using he) left

/-- Where an access is due, it is enough to know that the actions complete with fewer accesses to come. -/
theorem due_reaches {n : Nat} (run : ∀ m < n, ∀ acts s, Completes m acts s) {acts : List Action} {s : State}
    (hne : acts ≠ []) (ho : Orderly acts) (hw : wordBound acts ≤ s.fifo.length) (hc : Calm n s)
    (hh : s.halted = false) (he : s.envDue = true) (left : List Action) :
    ({ s with todo := acts } : State).reaches (runActs acts (s.shell left)) := by
  obtain ⟨x, rest, reads, hl, hstep⟩ := State.harmless.step_read (s := { s with todo := acts }) hc.harmless he
  obtain ⟨hc', hn⟩ := hc.after_read hl reads
  exact State.reaches_of_step hstep
    (pending_reaches (run (n - 1) (by omega)) rest
      (s := { s with todo := acts, host := rest, reads := reads }) rfl hne ho hw
      (hc'.of_env rfl rfl rfl rfl rfl) hh left)

/-! ### Held events (20_memory.md R58) -/

/-- An event leaves the levels that it would have left had it not been held before. -/
theorem Pins.after_during (p : Pins) (e : Event) : (p.during e).after e = p.after e := by
  rw [Pins.after_eq, Pins.after_eq]
  cases e <;> rfl

/-- A state whose port holds the event `e`, before the actions `rest`, and has `ticks` ticks to go. -/
structure Holding (n : Nat) (e : Event) (rest : List Action) (ticks : Nat) (holds : List Hold) (s : State) : Prop where
  harmless : s.harmless
  flight : s.inFlight = true
  srst : s.srstPending = false
  todo : s.todo = .emit e :: rest
  port : s.port = .ticks ticks :: holds
  left : s.host.length + holds.length ≤ n

/-- The event that the port held, as it is accepted. -/
def State.accepted (e : Event) (s : State) : State :=
  { s with inFlight := false, trace := s.trace ++ [e], pins := s.pins.after e }

theorem Holding.step_read {n : Nat} {e : Event} {rest : List Action} {ticks : Nat} {holds : List Hold} {s : State}
    (h : Holding n e rest ticks holds s) (hd : s.envDue = true) :
    ∃ x inputs reads, s.host = x :: inputs ∧ step s = .next { s with host := inputs, reads := reads } ∧
      Holding n e rest ticks holds { s with host := inputs, reads := reads } := by
  obtain ⟨x, inputs, reads, hl, hstep⟩ := h.harmless.step_read hd
  have hleft := h.left
  rw [hl, List.length_cons] at hleft
  exact ⟨x, inputs, reads, hl, hstep,
    { h with harmless := h.harmless.after_read hl reads, left := (by show inputs.length + _ ≤ n; omega) }⟩

/-- One tick of the hold passes. -/
theorem Holding.step_hold {n : Nat} {e : Event} {rest : List Action} {k : Nat} {holds : List Hold} {s : State}
    (h : Holding n e rest (k + 1) holds s) (he : s.envDue = false) :
    step s = .next ({ s with port := .ticks k :: holds } : State).tick ∧
      Holding n e rest k holds ({ s with port := .ticks k :: holds } : State).tick := by
  obtain ⟨⟨hhost, hplat, hport⟩, hflight, hsrst, htodo, hp, hleft⟩ := h
  have harmless : State.harmless { s with port := .ticks k :: holds } := by
    refine ⟨hhost, hplat, fun p hmem => ?_⟩
    rcases List.mem_cons.1 hmem with rfl | hmem
    · exact ⟨k, rfl⟩
    · exact hport p (hp ▸ List.mem_cons_of_mem _ hmem)
  refine ⟨?_, harmless.tick, hflight, hsrst, htodo, rfl, ?_⟩
  · rw [step_eq_engine he, engine_held hflight, State.held, hp]
  · rw [State.tick_host_length]
    exact hleft

/-- The port accepts the event it held. -/
theorem Holding.step_accept {n : Nat} {e : Event} {rest : List Action} {holds : List Hold} {s : State}
    (h : Holding n e rest 0 holds s) (he : s.envDue = false) :
    step s = .next (runActs rest ({ s.accepted e with port := holds, todo := rest } : State).tick) ∧
      Calm n ({ s.accepted e with port := holds, todo := rest } : State).tick := by
  obtain ⟨⟨hhost, hplat, hport⟩, hflight, hsrst, htodo, hp, hleft⟩ := h
  refine ⟨?_, Calm.tick ⟨⟨hhost, hplat, fun p hmem => ?_⟩, rfl, hsrst, hleft⟩⟩
  · rw [step_eq_engine he, engine_held hflight, held_eq_accept (.inr ⟨holds, hp⟩), accept_eq htodo, hsrst, hp]
    rfl
  · exact hport p (hp ▸ List.mem_cons_of_mem _ hmem)

/-- A held event is accepted in the end, and the actions after it go on. -/
theorem held_reaches {n : Nat} (run : ∀ acts s, Completes n acts s) {e : Event} {rest : List Action} {holds : List Hold}
    {ticks : Nat} {s : State} (hs : Holding n e rest ticks holds s) (ho : Orderly rest)
    (hw : wordBound rest ≤ s.fifo.length) (hh : s.halted = false) (left : List Action) :
    s.reaches (runActs rest ((s.shell left).accepted e)) := by
  induction hm : ticks + s.host.length using Nat.strong_induction_on generalizing ticks s with
  | _ m ih =>
    by_cases he : s.envDue = true
    · obtain ⟨x, inputs, reads, hl, hstep, hs'⟩ := hs.step_read he
      rw [hl, List.length_cons] at hm
      exact State.reaches_of_step hstep (ih (ticks + inputs.length) (by omega) hs' hw hh rfl)
    · rw [Bool.not_eq_true] at he
      cases ticks with
      | zero =>
        obtain ⟨hstep, hcalm⟩ := hs.step_accept he
        exact State.reaches_of_step hstep
          (run rest ({ s.accepted e with port := holds, todo := rest } : State).tick ho hw hcalm (.inl hh) left)
      | succ k =>
        obtain ⟨hstep, hs'⟩ := hs.step_hold he
        exact State.reaches_of_step hstep
          (ih (k + s.host.length) (by omega) hs' hw hh (by rw [State.tick_host_length]))

/-- An event that the port holds stays at the head of the command. -/
theorem State.offer_held {s : State} {k : Nat} {holds : List Hold} (h : s.port = .ticks (k + 1) :: holds) (e : Event)
    (acts : List Action) (goOn : State → State) :
    s.offer e acts goOn =
      ({ s with todo := acts, inFlight := true, pins := s.pins.during e } : State).tick := by
  unfold State.offer
  split
  · simp [*] at h
  · simp [*] at h
  · rfl

/-- Held or not, an event leaves the same. -/
theorem State.shell_accepted_of_held {s : State} (e : Event) (acts left : List Action) (h : s.inFlight = false) :
    ((({ s with todo := acts, inFlight := true, pins := s.pins.during e } : State).tick.shell left).accepted e) =
      (s.shell left).emit e := by
  simp only [State.accepted, State.emit, State.shell, State.inside, State.tick, Pins.after_during, h]

/-- An event that is offered to the port is accepted at once or in the end, and the actions after it go on. -/
theorem offer_reaches {n : Nat} (less : ∀ m < n, ∀ acts s, Completes m acts s) {e : Event} {rest : List Action}
    (run : ∀ s, Completes n rest s) {s : State} (ho : Orderly rest) (hw : wordBound rest ≤ s.fifo.length)
    (hc : Calm n s) (hh : s.halted = false) (left : List Action) :
    (s.offer e (.emit e :: rest) (runActs rest)).reaches (runActs rest ((s.shell left).emit e)) := by
  obtain ⟨⟨hhost, hplat, hport⟩, hflight, hsrst, hleft⟩ := hc
  cases hp : s.port with
  | nil =>
    simp only [State.offer, hp]
    exact run (s.emit e).tick ho hw (Calm.tick ⟨⟨hhost, hplat, hport⟩, hflight, hsrst, hleft⟩) (.inl hh) left
  | cons hold holds =>
    have hholds : ∀ p ∈ holds, ∃ n, p = Hold.ticks n := fun p hmem => hport p (hp ▸ List.mem_cons_of_mem _ hmem)
    rw [hp, List.length_cons] at hleft
    obtain ⟨ticks, rfl⟩ := hport hold (hp ▸ List.mem_cons_self)
    cases ticks with
    | zero =>
      simp only [State.offer, hp]
      refine run (State.emit e { s with port := holds }).tick ho hw
        (Calm.tick ⟨⟨hhost, hplat, hholds⟩, hflight, hsrst, ?_⟩) (.inl hh) left
      show s.host.length + holds.length ≤ n
      omega
    | succ k =>
      have hholding : Holding (n - 1) e rest (k + 1) holds
          ({ s with todo := .emit e :: rest, inFlight := true, pins := s.pins.during e } : State).tick := by
        refine ⟨State.harmless.tick ⟨hhost, hplat, hport⟩, rfl, hsrst, rfl, hp, ?_⟩
        rw [State.tick_host_length]
        show s.host.length + holds.length ≤ n - 1
        omega
      have hend := held_reaches (less (n - 1) (by omega)) hholding ho hw hh left
      rw [State.offer_held hp]
      have hend' := State.shell_accepted_of_held e (.emit e :: rest) left hflight
      rwa [hend'] at hend

/-! ### Skipping (60_exceptions.md R282) -/

/-- Words that are skipped while accesses fall due. -/
theorem skip_reaches {n : Nat} (less : ∀ m < n, ∀ acts s, Completes m acts s) (m : Nat) {s : State}
    (hw : m ≤ s.fifo.length) (hc : Calm n s) (hh : s.halted = false) (left : List Action) :
    (skipWords m s).reaches (skipWords m (s.shell left)) := by
  induction m generalizing s with
  | zero => exact ⟨0, _, rfl, rfl, rfl⟩
  | succ m ih =>
    have hne : s.fifo.isEmpty = false := by
      cases hf : s.fifo with
      | nil => simp [hf] at hw
      | cons => rfl
    have hfree : (s.shell left).envDue = false := State.envDue_of_quiet rfl rfl
    have hright : skipWords (m + 1) (s.shell left) = skipWords m ((s.pop 1).tick.shell left) := by
      rw [skipWords, hfree, State.shell_fifo, hne, Bool.or_self, if_neg Bool.false_ne_true]
      rfl
    by_cases he : s.envDue = true
    · have hleft : skipWords (m + 1) s = { s with todo := [.skip (m + 1)] } := by
        rw [skipWords, he, Bool.true_or, if_pos rfl]
      have hdue := due_reaches less (acts := [.skip (m + 1)]) (List.cons_ne_nil _ _) ⟨Nat.succ_pos m, trivial⟩
        ((wordBound_singleton _).trans_le hw) hc hh he left
      rwa [hleft, ← runActs_skip hfree []]
    · rw [Bool.not_eq_true] at he
      have hleft : skipWords (m + 1) s = skipWords m (s.pop 1).tick := by
        rw [skipWords, he, hne, Bool.or_self, if_neg Bool.false_ne_true]
      rw [hleft, hright]
      refine ih ?_ (Calm.tick (hc.of_env rfl rfl rfl rfl rfl)) hh
      show m ≤ (s.fifo.drop 1).length
      rw [List.length_drop]
      omega

/-! ### The actions of a command -/

/-- Where an access is due before the first action, fewer are to come when the actions go on. -/
theorem completes_of_free {n : Nat} (less : ∀ m < n, ∀ acts s, Completes m acts s) {a : Action} {rest : List Action}
    {s : State} (free : s.envDue = false → Completes n (a :: rest) s) : Completes n (a :: rest) s := by
  intro ho hw hc hh left
  by_cases he : s.envDue = true
  · rw [runActs, drain_cons_due _ _ _ he]
    exact due_reaches less (List.cons_ne_nil _ _) ho hw hc (hh.resolve_right (List.cons_ne_nil _ _)) he left
  · exact free (by simpa using he) ho hw hc hh left

/-- An action that `drain` goes on after leaves the words of the rest. -/
theorem wordBound_after {a : Action} {rest : List Action} {s : State} (ha : a.simple = true)
    (hw : wordBound (a :: rest) ≤ s.fifo.length) : wordBound rest ≤ (a.apply s).fifo.length := by
  obtain ⟨k, hk, hfifo, -⟩ := (a.apply_popsAtMost s).words
  rw [wordBound, if_pos ha] at hw
  rw [hfifo, List.length_drop]
  omega

/-- An action that is performed at once, or an event that is offered to the port: the rest completes. -/
theorem completes_simple {n : Nat} (less : ∀ m < n, ∀ acts s, Completes m acts s) {a : Action} {rest : List Action}
    {s : State} (ha : a.simple = true) (hb : ∀ window b, a ≠ .blit window b) (run : ∀ t, Completes n rest t) :
    Completes n (a :: rest) s := by
  refine completes_of_free less fun he ho hw hc hh left => ?_
  have hhalted := hh.resolve_right (List.cons_ne_nil _ _)
  have hwords := wordBound_after ha hw
  have hright : runActs (a :: rest) (s.shell left) = runActs rest ((a.apply s).shell left) := by
    rw [State.shell_apply]
    exact drain_cons_quiet _ _ _ (s.shell_quiet left) ha
  rw [hright]
  cases hout : a.isOut with
  | true =>
    cases a with
    | emit e =>
      rw [runActs_emit he]
      exact offer_reaches less run (s := s) ho.tail hwords hc hhalted left
    | blit window b => exact absurd rfl (hb window b)
    | _ => cases hout
  | false =>
    rw [runActs_simple he rest ha hout]
    refine run (a.apply s).tick ho.tail hwords (hc.apply a).tick ?_ left
    cases a with
    | halt hdr => exact .inr ho.1
    | emit | blit => cases hout
    | _ => exact .inl hhalted

/-- Every list of actions completes. -/
theorem completes (n : Nat) (acts : List Action) (s : State) : Completes n acts s := by
  induction n using Nat.strong_induction_on generalizing acts s with
  | _ n less =>
    refine actions_induction (fun s _ _ _ _ left => ⟨0, _, rfl, rfl, rfl⟩) ?_ ?_ ?_ ?_ ?_ acts s
    · intro a rest s ha run runEmits
      by_cases hb : ∃ window b, a = .blit window b
      · obtain ⟨window, b, rfl⟩ := hb
        refine completes_of_free less fun he ho hw hc hh left => ?_
        have hevents := unitEvents_congr (s.shell_sameView left).2.2 window b
        rw [runActs_blit he, runActs_blit (State.envDue_of_quiet rfl rfl), hevents]
        have hemits : Every Action.ordinary ((unitEvents window b s).map .emit) := fun a ha => by
          obtain ⟨e, -, rfl⟩ := List.mem_map.1 ha
          trivial
        refine runEmits window b rfl _ s (.append hemits ho.tail) ?_ hc (.inl (hh.resolve_right (List.cons_ne_nil _ _)))
          left
        refine wordBound_append_le (fun a ha => ?_) (by simpa [wordBound, Action.simple] using hw)
        obtain ⟨e, -, rfl⟩ := List.mem_map.1 ha
        exact ⟨Nat.zero_le _, fun _ => rfl⟩
      · exact completes_simple less ha (fun window b h => hb ⟨window, b, h⟩) run
    · intro a rest s ha hr
      refine completes_of_free less fun he ho hw hc hh left => ?_
      have hhalted := hh.resolve_right (List.cons_ne_nil _ _)
      have hright : (s.shell left).envDue = false := State.envDue_of_quiet rfl rfl
      cases a with
      | raise e hdr addr m =>
        rw [runActs_raise he, runActs_raise hright, State.raise, State.raise, ← State.shell_record,
          State.tick_of_quiet (s := State.shell left _) rfl rfl]
        refine skip_reaches less m (s := (s.record e hdr addr).tick) ?_ (hc.record e hdr addr).tick ?_ left
        · simpa [wordBound, Action.simple] using hw
        · exact (register_halted.record e hdr addr s).trans hhalted
      | skip m =>
        rw [runActs_skip he, runActs_skip hright]
        exact skip_reaches less m (by simpa [wordBound, Action.simple] using hw) hc hhalted left
      | payload => exact ho.1.elim
      | text r => exact absurd rfl (hr r)
      | _ => cases ha
    · intro r rest s hchs run
      refine completes_of_free less fun he ho hw hc hh left => ?_
      rw [runActs_text he, runActs_text (State.envDue_of_quiet rfl rfl), runText_finish hchs ho.1,
        runText_finish hchs ho.1]
      refine run s ?_ ?_ hc (.inl (hh.resolve_right (List.cons_ne_nil _ _))) left
      · simpa using Orderly.append (ordinary_finish r) (rest := []) trivial
      · rw [wordBound_of_popFree (popFree_finish r)]
        exact Nat.zero_le _
    · intro r rest s c l hchs hpop run
      refine completes_of_free less fun he ho hw hc hh left => ?_
      rw [runActs_text he, runActs_text (State.envDue_of_quiet rfl rfl), runText_pop hchs hpop, runText_pop hchs hpop]
      refine run s ⟨trivial, ho.1, trivial⟩ ?_ hc (.inl (hh.resolve_right (List.cons_ne_nil _ _))) left
      rw [TextRun.wordsLeft_pop hchs ho.1 hpop]
      simpa [wordBound, Action.simple] using hw
    · intro r rest s c l hchs hpop run
      refine completes_of_free less fun he ho hw hc hh left => ?_
      rw [runActs_text he, runActs_text (State.envDue_of_quiet rfl rfl), runText_char hchs hpop, runText_char hchs hpop,
        charActs_congr (s.shell_sameView left), State.tick_of_quiet (s := s.shell left) rfl rfl]
      refine run s _ s.tick (.append (ordinary_charActs s r c) (orderly_singleton_text ho.1)) ?_ hc.tick
        (.inl (hh.resolve_right (List.cons_ne_nil _ _))) left
      refine (wordBound_charActs hchs hpop _).trans_le ?_
      simpa [wordBound, Action.simple] using hw

/-! ### The obligation -/

/-- What a command does depends on what the engine can see, not on its environment. -/
theorem commandActs_inside (i : Instr) (s : State) : commandActs i s.inside = commandActs i s := by
  cases i <;> rfl

/-- Settles O48: the command's actions complete as they do without the environment. -/
theorem interferenceIsInvisible : Obligations.InterferenceIsInvisible := by
  intro i s t u hs hf hsr hh hw hu ht
  rw [exec_eq_runActs] at hu ht
  cases ht
  cases hu
  rw [commandActs_inside]
  exact completes (s.host.length + s.port.length) (commandActs i s) s.enter (orderly_commandActs i s)
    ((commandActs_wordBound i s).trans_le hw) ⟨hs, hf, hsr, le_rfl⟩ (.inl hh) s.todo

end Sys2Proof.Machine

/-! Words that arrive in batches (O9): a packet under way with some of its words still to come, and what it will have
come to when they are there. Every step of the engine takes words that are there, or waits; so does the next state know
what it will come to, and when the last word is there the engine gets there. -/

namespace Sys2Proof.Machine

/-! ### Where a packet ends -/

/-- The engine between two packets, with no word there and nothing to come of the environment. -/
structure Ended (u : State) : Prop where
  quiet : u.quiet
  flight : u.inFlight = false
  todo : u.todo = []
  pkt : u.pkt = []
  fifo : u.fifo = []

/-- There it stays. -/
theorem Ended.step {u : State} (h : Ended u) : step u = .next u := by
  obtain ⟨hq, hf, ht, hp, hfifo⟩ := h
  rw [step_eq_engine (State.envDue_of_quiet hq.1 hq.2.1)]
  cases hh : u.halted with
  | true => rw [engine_halted hf hh, State.discard, if_pos hfifo, State.tick_of_quiet hq.1 hq.2.1]
  | false =>
    have hd : decode u.stream = .error .needFixed := by rw [State.stream, hp, hfifo]; rfl
    rw [engine_eq_fetch hf hh ht, fetch_short hq hd, hfifo]
    rfl

/-- In the middle of a packet's actions, with nothing to come of the environment: no event in progress, no word held
back. -/
structure Clear (s : State) : Prop where
  quiet : s.quiet
  flight : s.inFlight = false
  pkt : s.pkt = []

theorem Clear.record {s : State} (h : Clear s) (e : ErrKind) (hdr : Word) (addr : Nat) :
    Clear (s.record e hdr addr) := by
  unfold State.record
  split
  · exact ⟨h.quiet, h.flight, h.pkt⟩
  · exact h

theorem Clear.apply {s : State} (h : Clear s) (a : Action) : Clear (a.apply s) := by
  cases a with
  | blit window b => rw [Action.apply_blit]; exact ⟨h.quiet, h.flight, h.pkt⟩
  | halt hdr => have hr := h.record .opcode hdr 0; exact ⟨hr.quiet, hr.flight, hr.pkt⟩
  | _ => exact ⟨h.quiet, h.flight, h.pkt⟩

theorem Clear.skipWords {m : Nat} {s : State} (h : Clear s) (hw : m = s.fifo.length) : Ended (skipWords m s) := by
  rw [skipWords_all h.quiet.1 h.quiet.2.1 hw.le]
  exact ⟨h.quiet, h.flight, rfl, h.pkt, by simp [State.tookWords, hw]⟩

theorem Clear.envDue {s : State} (h : Clear s) : s.envDue = false := State.envDue_of_quiet h.quiet.1 h.quiet.2.1

theorem Clear.raise {m : Nat} {s : State} (h : Clear s) (e : ErrKind) (hdr : Word) (addr : Nat)
    (hw : m = s.fifo.length) : Ended (s.raise e hdr addr m) := by
  have hrec := h.record e hdr addr
  rw [State.raise, State.tick_of_quiet hrec.quiet.1 hrec.quiet.2.1]
  exact hrec.skipWords (by rwa [State.record_fifo])

/-- Only a pop takes words. -/
theorem Action.apply_fifo_length {a : Action} (ha : a.simple = true) (s : State) :
    (a.apply s).fifo.length = s.fifo.length - a.mayPop := by
  cases a with
  | pop => exact List.length_drop
  | blit window b => rw [Action.apply_blit]; rfl
  | halt hdr => exact congrArg List.length (State.record_fifo .opcode hdr 0 s)
  | raise | skip | payload | text => cases ha
  | _ => rfl

/-- Actions whose words are there and are all there is. -/
theorem Clear.runActs (acts : List Action) (s : State) (hs : Clear s) (ho : Orderly acts)
    (hw : wordBound acts = s.fifo.length) : Ended (runActs acts s) := by
  refine actions_induction (P := fun acts s => Clear s → Orderly acts → wordBound acts = s.fifo.length →
    Ended (Machine.runActs acts s)) ?_ ?_ ?_ ?_ ?_ ?_ acts s hs ho hw
  · exact fun s hs _ hw => ⟨hs.quiet, hs.flight, rfl, hs.pkt, List.length_eq_zero_iff.1 hw.symm⟩
  · intro a rest s ha run _ hs ho hw
    rw [wordBound, if_pos ha] at hw
    rw [Machine.runActs, drain_cons_quiet _ _ _ hs.quiet ha]
    exact run _ (hs.apply a) ho.tail (by rw [Action.apply_fifo_length ha]; omega)
  · intro a rest s ha hr hs ho hw
    cases a with
    | raise e hdr addr m =>
      rw [runActs_raise hs.envDue]
      exact hs.raise e hdr addr (by simpa [wordBound, Action.simple] using hw)
    | skip m =>
      rw [runActs_skip hs.envDue]
      exact hs.skipWords (by simpa [wordBound, Action.simple] using hw)
    | payload => exact ho.1.elim
    | text r => exact absurd rfl (hr r)
    | _ => cases ha
  · intro r rest s hchs run hs ho hw
    rw [runActs_text (hs.envDue), runText_finish hchs ho.1]
    refine run s hs (by simpa using Orderly.append (ordinary_finish r) (rest := []) trivial) ?_
    rw [wordBound_of_popFree (popFree_finish r)]
    have hmore : r.more = 0 := ho.1
    simpa [wordBound, Action.simple, TextRun.wordsLeft, hchs, hmore] using hw
  · intro r rest s c l hchs hpop run hs ho hw
    rw [runActs_text (hs.envDue), runText_pop hchs hpop]
    refine run s hs ⟨trivial, ho.1, trivial⟩ ?_
    rw [TextRun.wordsLeft_pop hchs ho.1 hpop]
    simpa [wordBound, Action.simple] using hw
  · intro r rest s c l hchs hpop run hs ho hw
    rw [runActs_text (hs.envDue), runText_char hchs hpop,
      State.tick_of_quiet hs.quiet.1 hs.quiet.2.1]
    refine run s _ s hs (.append (ordinary_charActs s r c) (orderly_singleton_text ho.1)) ?_
    rw [wordBound_charActs hchs hpop]
    simpa [wordBound, Action.simple] using hw

/-- A command whose characters or payload are all there is ends between two packets. -/
theorem Clear.exec {i : Instr} {s u : State} (hs : Clear s) (hw : varCount i = s.fifo.length)
    (h : exec i s = .next u) : Ended u := by
  rw [exec_eq_runActs] at h
  cases h
  exact Clear.runActs (commandActs i s) s.enter ⟨hs.quiet, hs.flight, hs.pkt⟩ (orderly_commandActs i s)
    ((commandActs_wordBound i s).trans hw)

/-! ### The state when the rest of the words is there -/

/-- The state with the words that are still to come, whatever the engine waits with. -/
def State.whole (ws : List Word) (s : State) : State := { s with fifo := s.fifo ++ ws, todo := [] }

/-- The engine's own state, nothing to come of the environment and no halt. -/
structure Free (s : State) : Prop where
  quiet : s.quiet
  flight : s.inFlight = false
  halted : s.halted = false

theorem Free.envDue {s : State} (h : Free s) : s.envDue = false := State.envDue_of_quiet h.quiet.1 h.quiet.2.1

theorem Free.tick {s : State} (h : Free s) : s.tick = s := State.tick_of_quiet h.quiet.1 h.quiet.2.1

theorem Free.record {s : State} (h : Free s) (e : ErrKind) (hdr : Word) (addr : Nat) : Free (s.record e hdr addr) := by
  unfold State.record
  split
  · exact ⟨h.quiet, h.flight, h.halted⟩
  · exact h

theorem Free.step_resume {s : State} (h : Free s) (ht : s.todo ≠ []) : step s = .next (resume s) :=
  (step_eq_engine h.envDue).trans (engine_resume h.flight h.halted ht)

theorem Free.step_fetch {s : State} (h : Free s) (ht : s.todo = []) : step s = fetch s :=
  (step_eq_engine h.envDue).trans (engine_eq_fetch h.flight h.halted ht)

theorem Free.whole {s : State} (h : Free s) (ws : List Word) : Free (s.whole ws) := ⟨h.quiet, h.flight, h.halted⟩

theorem State.whole_record (ws : List Word) (e : ErrKind) (hdr : Word) (addr : Nat) (s : State) :
    (s.record e hdr addr).whole ws = (s.whole ws).record e hdr addr := by
  unfold State.record
  by_cases h : s.err = 0
  · rw [if_pos h, if_pos (show (s.whole ws).err = 0 from h)]
    rfl
  · rw [if_neg h, if_neg (show ¬(s.whole ws).err = 0 from h)]

/-- The words to come change nothing of what the engine reads. -/
theorem State.whole_sameView (ws : List Word) (s : State) : (s.whole ws).sameView s := ⟨rfl, rfl, rfl⟩

/-- A word that is there is popped first. -/
theorem State.whole_pop {s : State} (hne : s.fifo ≠ []) (ws : List Word) :
    (s.pop 1).whole ws = (s.whole ws).pop 1 := by
  cases hf : s.fifo with
  | nil => exact absurd hf hne
  | cons w rest => simp [State.whole, State.pop, hf]

/-- A text run all of whose characters are known. -/
def TextRun.known (chs : List Half) (r : TextRun) : TextRun := { r with chs := chs, more := 0 }

theorem TextRun.known_finish (chs : List Half) (r : TextRun) : (r.known chs).finish = r.finish := rfl

/-! ### What a packet will come to -/

/-- `u` is what the engine will have come to when the words `ws` have arrived, of which with those in the FIFO there are
at most `n`: it is taking a packet, skipping, collecting a payload, or walking a string, or it is there. -/
inductive Arriving (u : State) (ws : List Word) : Nat → State → Prop
  | fetching {n : Nat} {s : State} {h : Word} {tail : List Word} (free : Free s) (todo : s.todo = [])
      (stream : s.stream ++ ws = h :: tail) (len : tail.length + 1 = plen h) (part : s.pkt.length < fixedPart h)
      (bound : s.fifo.length + ws.length ≤ n) (goal : fetch (s.whole ws) = .next u) : Arriving u ws n s
  | skipping {n : Nat} {s : State} {m : Nat} (free : Free s) (todo : s.todo = [.skip m]) (pos : 0 < m)
      (count : s.fifo.length + ws.length = m) (bound : m ≤ n) (goal : skipWords m (s.whole ws) = u) : Arriving u ws n s
  | payload {n : Nat} {s : State} {got : List Byte} {more : Nat} (free : Free s) (todo : s.todo = [.payload got more])
      (pos : 0 < more) (count : s.fifo.length + ws.length = (more + 3) / 4) (bound : (more + 3) / 4 ≤ n)
      (goal : runActs (List.replicate ((more + 3) / 4) .pop ++
        [dataAct (got ++ ((s.fifo ++ ws).flatMap bytesOfWord).take more)]) (s.whole ws) = u) : Arriving u ws n s
  | text {n : Nat} {s : State} {r : TextRun} (free : Free s) (todo : s.todo = [.text r]) (chs : r.chs = [])
      (popped : r.popped = 0) (pos : 0 < r.more) (count : s.fifo.length + ws.length = (r.more + 1) / 2)
      (bound : (r.more + 1) / 2 ≤ n)
      (goal : runActs [.text (r.known (((s.fifo ++ ws).flatMap charsOfWord).take r.more))] (s.whole ws) = u) :
      Arriving u ws n s
  | ended {n : Nat} {s : State} (last : ws = []) (goal : s = u) : Arriving u ws n s

/-- When words arrive, what the engine will come to stays. -/
theorem Arriving.arrive {u : State} {words ws : List Word} {n : Nat} {s : State} (h : Arriving u (words ++ ws) n s) :
    Arriving u ws n { s with fifo := s.fifo ++ words } := by
  have hwhole : State.whole ws { s with fifo := s.fifo ++ words } = s.whole (words ++ ws) := by
    simp [State.whole]
  have hlen : (s.fifo ++ words).length + ws.length = s.fifo.length + (words ++ ws).length := by
    simp only [List.length_append, Nat.add_assoc]
  cases h with
  | fetching free todo stream len part bound goal =>
    refine .fetching ⟨free.quiet, free.flight, free.halted⟩ todo ?_ len part (hlen.trans_le bound) (hwhole ▸ goal)
    rw [← stream]
    simp [State.stream]
  | skipping free todo pos count bound goal =>
    exact .skipping ⟨free.quiet, free.flight, free.halted⟩ todo pos (hlen.trans count) bound (hwhole ▸ goal)
  | payload free todo pos count bound goal =>
    refine .payload ⟨free.quiet, free.flight, free.halted⟩ todo pos (hlen.trans count) bound ?_
    rw [hwhole, List.append_assoc]
    exact goal
  | text free todo chs popped pos count bound goal =>
    refine .text ⟨free.quiet, free.flight, free.halted⟩ todo chs popped pos (hlen.trans count) bound ?_
    rw [hwhole, List.append_assoc]
    exact goal
  | ended last goal =>
    obtain ⟨rfl, rfl⟩ := List.append_eq_nil_iff.1 last
    exact .ended rfl (by simpa using goal)

/-! ### Skipping and errors -/

/-- When the rest of the words is there, all are skipped. -/
theorem skipWords_whole {ws : List Word} {m : Nat} {s : State} (hs : Free s) (count : s.fifo.length + ws.length = m) :
    skipWords m (s.whole ws) = ((s.whole ws).tookVar m).endCommand :=
  skipWords_all hs.quiet.1 hs.quiet.2.1 (by simp [State.whole, count])

/-- Words that are skipped: those that are there, and the others as they arrive. -/
theorem arriving_skipWords {u : State} {ws : List Word} {m : Nat} {s : State} (hs : Free s)
    (count : s.fifo.length + ws.length = m) (goal : skipWords m (s.whole ws) = u) :
    Arriving u ws ws.length (skipWords m s) := by
  rw [skipWords_whole hs count] at goal
  cases ws with
  | nil =>
    refine .ended rfl ?_
    rw [← goal, skipWords_all hs.quiet.1 hs.quiet.2.1 count.ge]
    simp [State.whole, State.tookWords, State.endCommand]
  | cons w rest =>
    rw [List.length_cons] at count
    have hmin : min m s.fifo.length = s.fifo.length := by omega
    have hleft : m - s.fifo.length = (w :: rest).length := by rw [List.length_cons]; omega
    rw [skipWords_quiet m hs.quiet.1 hs.quiet.2.1, hmin, if_neg (by omega), if_neg (by omega), hleft]
    have hfree (l : List Action) (p : Phase) : Free { s.tookVar s.fifo.length with todo := l, phase := p } :=
      ⟨hs.quiet, hs.flight, hs.halted⟩
    have hcount (l : List Action) (p : Phase) :
        ({ s.tookVar s.fifo.length with todo := l, phase := p } : State).fifo.length + (w :: rest).length =
          (w :: rest).length := by
      simp [State.tookWords]
    refine .skipping (m := (w :: rest).length) (hfree _ _) rfl (Nat.succ_pos _) (hcount _ _) le_rfl ?_
    · rw [skipWords_whole (hfree _ _) (hcount _ _), ← goal]
      have hm : m = s.fifo.length + (rest.length + 1) := by omega
      simp [State.whole, State.tookWords, State.endCommand, hm, Nat.sub_add_eq, BitVec.add_assoc, BitVec.ofNat_add]

/-- An error whose words have not all arrived. -/
theorem arriving_raise {u : State} {ws : List Word} {m : Nat} {s : State} (hs : Free s) (e : ErrKind) (hdr : Word)
    (addr : Nat) (count : s.fifo.length + ws.length = m) (goal : (s.whole ws).raise e hdr addr m = u) :
    Arriving u ws ws.length (s.raise e hdr addr m) := by
  have hrec := hs.record e hdr addr
  rw [State.raise, hrec.tick]
  rw [State.raise, ← State.whole_record,
    State.tick_of_quiet (s := State.whole ws _) hrec.quiet.1 hrec.quiet.2.1] at goal
  exact arriving_skipWords hrec (by rwa [State.record_fifo]) goal

theorem Arriving.mono {u : State} {ws : List Word} {m n : Nat} {s : State} (h : Arriving u ws m s) (hmn : m ≤ n) :
    Arriving u ws n s := by
  cases h with
  | fetching free todo stream len part bound goal =>
    exact .fetching free todo stream len part (bound.trans hmn) goal
  | skipping free todo pos count bound goal => exact .skipping free todo pos count (bound.trans hmn) goal
  | payload free todo pos count bound goal => exact .payload free todo pos count (bound.trans hmn) goal
  | text free todo chs popped pos count bound goal =>
    exact .text free todo chs popped pos count (bound.trans hmn) goal
  | ended last goal => exact .ended last goal

/-! ### A string whose characters arrive (30_encoding.md R93) -/

theorem length_flatMap_charsOfWord (ws : List Word) : (ws.flatMap charsOfWord).length = 2 * ws.length := by
  induction ws with
  | nil => rfl
  | cons w ws ih =>
    rw [List.flatMap_cons, List.length_append, ih, List.length_cons, charsOfWord]
    simp only [List.length_cons, List.length_nil]
    omega

/-- With no word to come, what the engine waited with does not matter to what follows the last character. -/
theorem runActs_finish_whole {s : State} (hq : s.quiet) (r : TextRun) :
    runActs r.finish (s.whole []) = runActs r.finish s := by
  have simple : ∀ a ∈ r.finish, a.simple = true := by
    unfold TextRun.finish
    split <;> simp [Action.simple]
  rw [runActs, runActs, drain_quiet _ _ (s := s.whole []) hq simple, drain_quiet _ _ hq simple]
  unfold TextRun.finish
  split <;> simp [State.whole, Action.apply, State.endCommand]

/-- A character does the same in a run that knows more of the characters after it, the words left being as many. -/
theorem charActs_known {r : TextRun} {chs : List Half} (s : State) (c : Half)
    (h : (r.known chs).wordsLeft = r.wordsLeft) : charActs s (r.known chs) c = charActs s r c := by
  have herror (a : Nat) : (r.known chs).assetError a = r.assetError a := by
    rw [TextRun.assetError, TextRun.assetError, h]
    rfl
  simp only [charActs, herror]
  rfl

/-- The units of a character, or its error, before what the string goes on with. -/
theorem arriving_units {u : State} {ws : List Word} {m : Nat} {hdr : Word} {rest rest' : List Action}
    (acts : List Action)
    (hacts : ∀ a ∈ acts, (∃ window b, a = .blit window b) ∨ ∃ addr, a = .raise .asset hdr addr m) {s : State}
    (hs : Free s) (count : s.fifo.length + ws.length = m)
    (hrest : ∀ t, Free t → t.fifo = s.fifo → runActs rest' (t.whole ws) = u → Arriving u ws m (runActs rest t))
    (goal : runActs (acts ++ rest') (s.whole ws) = u) : Arriving u ws m (runActs (acts ++ rest) s) := by
  induction acts generalizing s with
  | nil => exact hrest s hs rfl goal
  | cons a acts ih =>
    rcases hacts a List.mem_cons_self with ⟨window, b, rfl⟩ | ⟨addr, rfl⟩
    · have hleft : runActs (.blit window b :: acts ++ rest) s =
          runActs (acts ++ rest) (s.emitAll (unitEvents window b s)) := by
        rw [← Action.apply_blit]
        exact drain_cons_quiet _ _ _ hs.quiet rfl
      have hright : runActs (.blit window b :: acts ++ rest') (s.whole ws) =
          runActs (acts ++ rest') ((s.emitAll (unitEvents window b s)).whole ws) := by
        have happly : (Action.blit window b).apply (s.whole ws) = (s.emitAll (unitEvents window b s)).whole ws := by
          rw [Action.apply_blit, unitEvents_congr (s.whole_sameView ws).2.2]
          rfl
        rw [← happly]
        exact drain_cons_quiet _ _ _ hs.quiet rfl
      rw [hleft]
      rw [hright] at goal
      exact ih (fun a ha => hacts a (List.mem_cons_of_mem _ ha)) (s := s.emitAll (unitEvents window b s))
        ⟨hs.quiet, hs.flight, hs.halted⟩ count hrest goal
    · rw [List.cons_append, runActs_raise hs.envDue]
      rw [List.cons_append, runActs_raise (hs.whole ws).envDue] at goal
      exact (arriving_raise hs .asset hdr addr count goal).mono (by omega)

/-- A string that goes on with the characters `l`, their words popped, the others still to come: it comes to what the
string with all of them does. -/
theorem arriving_text {u : State} {ws : List Word} (l : List Half) {q : TextRun} {s : State} (hs : Free s)
    (hchs : q.chs = l) (hpop : l.length ≤ q.popped) (hmore : q.popped = l.length ∨ q.more = 0)
    (count : s.fifo.length + ws.length = (q.more + 1) / 2)
    (goal : runActs [.text (q.known (l ++ ((s.fifo ++ ws).flatMap charsOfWord).take q.more))] (s.whole ws) = u) :
    Arriving u ws ((q.more + 1) / 2) (runActs [.text q] s) := by
  induction l generalizing q s with
  | nil =>
    rw [runActs_text hs.envDue]
    by_cases hm : q.more = 0
    · have hws : ws = [] := List.length_eq_zero_iff.1 (by omega)
      subst hws
      rw [runActs_text (hs.whole []).envDue, runText_finish (by simp [TextRun.known, hm]) rfl,
        TextRun.known_finish, runActs_finish_whole hs.quiet] at goal
      rw [runText_finish hchs hm]
      exact .ended rfl goal
    · have hwait : runText q.chs q s = { s with todo := [.text { q with chs := [] }] } := by
        rw [hchs, runText, if_neg hm]
      rw [hwait]
      exact .text ⟨hs.quiet, hs.flight, hs.halted⟩ rfl rfl (hmore.resolve_right hm) (Nat.pos_of_ne_zero hm) count le_rfl
        goal
  | cons c l ih =>
    have hp : q.popped ≠ 0 := by rw [List.length_cons] at hpop; omega
    have hlen : (((s.fifo ++ ws).flatMap charsOfWord).take q.more).length = q.more := by
      rw [List.length_take, length_flatMap_charsOfWord, List.length_append]
      omega
    have hleft : q.wordsLeft = (q.more + 1) / 2 := by
      rw [List.length_cons] at hpop hmore
      rw [TextRun.wordsLeft, hchs, List.length_cons]
      omega
    have hknown :
        (q.known (c :: l ++ ((s.fifo ++ ws).flatMap charsOfWord).take q.more)).wordsLeft = q.wordsLeft := by
      rw [List.length_cons] at hpop hmore
      rw [hleft]
      simp only [TextRun.wordsLeft, TextRun.known, List.length_append, List.length_cons, hlen]
      omega
    rw [List.cons_append] at goal hknown
    rw [runActs_text (hs.whole ws).envDue,
      runText_char (r := q.known _) (c := c) (rest := l ++ ((s.fifo ++ ws).flatMap charsOfWord).take q.more) rfl hp,
      (hs.whole ws).tick, charActs_congr (s.whole_sameView ws), charActs_known s c hknown] at goal
    rw [runActs_text hs.envDue, runText_char hchs hp, hs.tick]
    refine arriving_units (hdr := q.hdr) _ (fun a ha => ?_) hs count (fun t ht hfifo hgoal => ?_) goal
    · rcases charActs_units ha with ⟨x0, y0, x1, y1, b, h⟩ | ⟨addr, h⟩
      · exact .inl ⟨_, b, h⟩
      · exact .inr ⟨addr, hleft ▸ h⟩
    · rw [← hfifo] at count hgoal
      rw [List.length_cons] at hpop hmore
      refine ih (q := q.next _ l) ht rfl ?_ ?_ count hgoal
      · show l.length ≤ q.popped - 1
        omega
      · show q.popped - 1 = l.length ∨ q.more = 0
        omega

/-! ### Steps of a packet that waits for words -/

/-- A step either finds nothing to do, some words being still to come or the end being reached, or uses up words. -/
def StepArrives (u : State) (ws : List Word) (n : Nat) (s : State) : Prop :=
  (step s = .next s ∧ (ws = [] → s = u)) ∨ ∃ m t, m < n ∧ step s = .next t ∧ Arriving u ws m t

/-- Where no word is there and some are to come, the engine waits. -/
theorem stepArrives_of_wait {u : State} {ws : List Word} {n k : Nat} {s : State} (hstep : step s = .next s)
    (hf : s.fifo = []) (count : s.fifo.length + ws.length = k) (pos : 0 < k) : StepArrives u ws n s := by
  refine .inl ⟨hstep, fun hws => ?_⟩
  rw [hf, hws] at count
  simp at count
  omega

theorem stepArrives_skipping {u : State} {ws : List Word} {n m : Nat} {s : State} (hs : Free s)
    (ht : s.todo = [.skip m]) (pos : 0 < m) (count : s.fifo.length + ws.length = m) (bound : m ≤ n)
    (goal : skipWords m (s.whole ws) = u) : StepArrives u ws n s := by
  have hstep := hs.step_resume (by simp [ht])
  simp only [resume, ht] at hstep
  by_cases hf : s.fifo = []
  · rw [if_pos hf, hs.tick] at hstep
    exact stepArrives_of_wait hstep hf count pos
  · rw [if_neg hf] at hstep
    have := List.length_pos_iff.2 hf
    exact .inr ⟨ws.length, _, by omega, hstep, arriving_skipWords hs count goal⟩

/-- With no word to come, what the engine waited with does not matter to an event. -/
theorem runActs_data_whole {s : State} (hs : Free s) (d : List Byte) :
    runActs [dataAct d] (s.whole []) = runActs [dataAct d] s := by
  have simple : ∀ a ∈ [dataAct d], a.simple = true := by simp [dataAct, Action.simple]
  rw [runActs, runActs, drain_quiet _ _ (hs.whole []).quiet simple, drain_quiet _ _ hs.quiet simple]
  simp [State.whole, dataAct, Action.apply, State.emit, State.endCommand]

/-- The bytes of a payload, word by word. -/
theorem take_flatMap_bytesOfWord (w : Word) (ws : List Word) (more : Nat) :
    ((w :: ws).flatMap bytesOfWord).take more =
      (bytesOfWord w).take more ++ (ws.flatMap bytesOfWord).take (more - 4) := by
  rw [List.flatMap_cons, List.take_append]
  rfl

/-- The characters of a string, word by word. -/
theorem take_flatMap_charsOfWord (w : Word) (ws : List Word) (more : Nat) :
    ((w :: ws).flatMap charsOfWord).take more =
      (charsOfWord w).take more ++ (ws.flatMap charsOfWord).take (more - 2) := by
  rw [List.flatMap_cons, List.take_append]
  rfl

/-- A word that is there, popped from the state with all words. -/
theorem runActs_pop_whole {s : State} {ws : List Word} (hs : Free s) (hf : s.fifo ≠ []) (acts : List Action) :
    runActs (.pop :: acts) (s.whole ws) = runActs acts ((s.pop 1).whole ws) := by
  rw [State.whole_pop hf]
  exact drain_cons_quiet _ _ _ (hs.whole ws).quiet rfl

theorem stepArrives_payload {u : State} {ws : List Word} {n : Nat} {s : State} {got : List Byte} {more : Nat}
    (hs : Free s) (ht : s.todo = [.payload got more]) (pos : 0 < more)
    (count : s.fifo.length + ws.length = (more + 3) / 4) (bound : (more + 3) / 4 ≤ n)
    (goal : runActs (List.replicate ((more + 3) / 4) .pop ++
      [dataAct (got ++ ((s.fifo ++ ws).flatMap bytesOfWord).take more)]) (s.whole ws) = u) : StepArrives u ws n s := by
  have hstep := hs.step_resume (by simp [ht])
  simp only [resume, ht, State.payloadWord] at hstep
  cases hf : s.fifo with
  | nil =>
    simp only [hf, hs.tick] at hstep
    exact stepArrives_of_wait hstep hf count (by omega)
  | cons w rest =>
    have hpop : Free (s.pop 1) := ⟨hs.quiet, hs.flight, hs.halted⟩
    have hrest : (s.pop 1).fifo = rest := by simp [hf]
    obtain ⟨k, hk⟩ : ∃ k, (more + 3) / 4 = k + 1 := ⟨(more + 3) / 4 - 1, by omega⟩
    rw [hf, List.length_cons] at count
    rw [hk, List.replicate_succ, List.cons_append, runActs_pop_whole hs (by simp [hf]), hf, List.cons_append,
      take_flatMap_bytesOfWord, ← List.append_assoc] at goal
    simp only [hf] at hstep
    refine .inr ⟨k, _, by omega, hstep, ?_⟩
    split
    · have hnil : rest = [] ∧ ws = [] := by
        constructor <;> apply List.length_eq_zero_iff.1 <;> omega
      obtain ⟨rfl, rfl⟩ := hnil
      have hk0 : k = 0 := by omega
      rw [hpop.tick]
      refine .ended rfl ?_
      rw [← goal, hk0, List.replicate_zero, List.nil_append, runActs_data_whole hpop]
      simp
    · have hfree : Free { s.pop 1 with todo := [.payload (got ++ (bytesOfWord w).take more) (more - 4)] } :=
        ⟨hs.quiet, hs.flight, hs.halted⟩
      have hwords : (more - 4 + 3) / 4 = k := by omega
      rw [hfree.tick]
      refine .payload hfree rfl (by omega) ?_ hwords.le ?_
      · rw [hwords]
        show (s.pop 1).fifo.length + _ = k
        rw [hrest]
        omega
      · rw [hwords]
        show runActs (_ ++ [dataAct (_ ++ (((s.pop 1).fifo ++ ws).flatMap bytesOfWord).take (more - 4))]) _ = u
        rw [hrest]
        exact goal

theorem stepArrives_text {u : State} {ws : List Word} {n : Nat} {s : State} {r : TextRun} (hs : Free s)
    (ht : s.todo = [.text r]) (hchs : r.chs = []) (hpop : r.popped = 0) (pos : 0 < r.more)
    (count : s.fifo.length + ws.length = (r.more + 1) / 2) (bound : (r.more + 1) / 2 ≤ n)
    (goal : runActs [.text (r.known (((s.fifo ++ ws).flatMap charsOfWord).take r.more))] (s.whole ws) = u) :
    StepArrives u ws n s := by
  have hstep := hs.step_resume (by simp [ht])
  simp only [resume, ht, State.textWord, hchs, pos, and_self, if_true] at hstep
  cases hf : s.fifo with
  | nil =>
    simp only [hf, hs.tick] at hstep
    exact stepArrives_of_wait hstep hf count (by omega)
  | cons w rest =>
    have hfree : Free (s.pop 1) := ⟨hs.quiet, hs.flight, hs.halted⟩
    have hrest : (s.pop 1).fifo = rest := by simp [hf]
    have hlen : ((charsOfWord w).take r.more).length = min r.more 2 := List.length_take
    simp only [hf, hfree.tick] at hstep
    rw [hf, List.length_cons] at count
    rw [hf, List.cons_append, take_flatMap_charsOfWord] at goal
    refine .inr ⟨(r.more - 2 + 1) / 2, _, by omega, hstep, ?_⟩
    refine arriving_text (q := { r with chs := (charsOfWord w).take r.more, popped := 2, more := r.more - 2 })
      ((charsOfWord w).take r.more) hfree rfl ?_ ?_ ?_ ?_
    · show ((charsOfWord w).take r.more).length ≤ 2
      omega
    · show 2 = ((charsOfWord w).take r.more).length ∨ r.more - 2 = 0
      omega
    · rw [hrest]
      show rest.length + ws.length = (r.more - 2 + 1) / 2
      omega
    · have hcons : (charsOfWord w).take r.more = hi16 w :: ((charsOfWord w).take r.more).tail := by
        obtain ⟨k, hk⟩ : ∃ k, r.more = k + 1 := ⟨r.more - 1, by omega⟩
        rw [hk]
        rfl
      rw [runActs_text (hs.whole ws).envDue, runText_pop (r := r.known _) (c := hi16 w)
        (by rw [TextRun.known, hcons]; rfl) hpop, runActs_pop_whole hs (by simp [hf])] at goal
      rw [hrest]
      exact goal

end Sys2Proof.Machine

/-! The decision on a packet whose characters or payload have not all arrived (O9): what the engine starts with goes on
to what the decoded command does. -/

namespace Sys2Proof.Machine

/-! ### What the engine starts with (60_exceptions.md R282 steps 3 and 4) -/

theorem assetCheck_congr {s t : State} (h : s.sameView t) : s.assetCheck = t.assetCheck := by
  funext a n
  rw [State.assetCheck, State.assetCheck, State.assetSize, State.assetSize, h.2.1]

theorem readFont1_congr {s t : State} (h : s.sameView t) : readFont1 s = readFont1 t := by
  funext wexp a
  rw [readFont1, readFont1, assetCheck_congr h, State.assetRead_congr h.2.2]

theorem readFontV_congr {s t : State} (h : s.sameView t) : readFontV s = readFontV t := by
  funext withOffsets a
  rw [readFontV, readFontV, fontVAt, fontVAt, assetCheck_congr h, State.assetRead_congr h.2.2]

/-- What a text command of `n` characters starts with before their words have arrived, beside what it starts with when
they are known to be `chs`: the same error, or the same run but for the characters. -/
inductive Streams (n : Nat) (chs : List Half) : List Action → List Action → Prop
  | error (e : ErrKind) (hdr : Word) (addr : Nat) :
    Streams n chs [.raise e hdr addr ((n + 1) / 2)] [.raise e hdr addr ((n + 1) / 2)]
  | walk (r : TextRun) (hchs : r.chs = []) (hpop : r.popped = 0) (hmore : r.more = n) :
    Streams n chs [.text r] [.text (r.known chs)]

theorem textBmActs_streams {s t : State} (h : s.sameView t) (hdr : Word) (wexp : Nat) (font : Word) (x y fg bg : Half)
    (chs : List Half) :
    Streams chs.length chs (textBmActs s hdr wexp font x y fg bg [] chs.length)
      (textBmActs t hdr wexp font x y fg bg chs 0) := by
  unfold textBmActs
  rw [readFont1_congr h, List.length_nil, Nat.zero_add, Nat.add_zero]
  cases readFont1 t wexp font.toNat with
  | error p => exact .error _ _ _
  | ok f => exact .walk _ rfl rfl rfl

theorem ttTextActs_streams {s t : State} (h : s.sameView t) (hdr font : Word) (x y fg bg : Half) (chs : List Half) :
    Streams chs.length chs (ttTextActs s hdr font x y fg bg [] chs.length)
      (ttTextActs t hdr font x y fg bg chs 0) := by
  unfold ttTextActs
  rw [readFontV_congr h, List.length_nil, Nat.zero_add, Nat.add_zero]
  cases readFontV t true font.toNat with
  | error p => exact .error _ _ _
  | ok f => exact .walk _ rfl rfl rfl

theorem ttWidthActs_streams {s t : State} (h : s.sameView t) (hdr font : Word) (chs : List Half) :
    Streams chs.length chs (ttWidthActs s hdr font [] chs.length) (ttWidthActs t hdr font chs 0) := by
  unfold ttWidthActs
  rw [readFontV_congr h, List.length_nil, Nat.zero_add, Nat.add_zero]
  cases readFontV t false font.toNat with
  | error p => exact .error _ _ _
  | ok f => exact .walk _ rfl rfl rfl

/-- The engine waits for the characters, or skips them. -/
theorem Streams.arriving {u : State} {ws : List Word} {n : Nat} {acts acts' : List Action} {s : State} (hs : Free s)
    (count : s.fifo.length + ws.length = (n + 1) / 2) (pos : 0 < n)
    (h : Streams n (((s.fifo ++ ws).flatMap charsOfWord).take n) acts acts')
    (goal : runActs acts' (s.whole ws) = u) : Arriving u ws ((n + 1) / 2) (runActs acts s) := by
  cases h with
  | error e hdr addr =>
    rw [runActs_raise (hs.whole ws).envDue] at goal
    rw [runActs_raise hs.envDue]
    exact (arriving_raise hs e hdr addr count goal).mono (by omega)
  | walk r hchs hpop hmore =>
    have hwait : runText r.chs r s = { s with todo := [.text { r with chs := [] }] } := by
      rw [hchs, runText, if_neg (by omega)]
    subst hmore
    rw [runActs_text hs.envDue, hwait]
    exact .text ⟨hs.quiet, hs.flight, hs.halted⟩ rfl rfl hpop pos count le_rfl goal

/-! ### Headers and the commands they begin -/

theorem length_charsOf {h : Word} {var : List Word} (hv : var.length = ((lo16 h).toNat + 1) / 2) :
    (charsOf h var).length = (lo16 h).toNat := by
  rw [charsOf, List.length_take, length_flatMap_charsOfWord]
  omega

theorem length_flatMap_bytesOfWord (ws : List Word) : (ws.flatMap bytesOfWord).length = 4 * ws.length := by
  induction ws with
  | nil => rfl
  | cons w ws ih =>
    rw [List.flatMap_cons, List.length_append, ih, List.length_cons, bytesOfWord]
    simp only [List.length_cons, List.length_nil]
    omega

theorem length_payloadOf {h : Word} {var : List Word} (hv : var.length = ((argOf h).toNat + 3) / 4) :
    (payloadOf h var).length = (argOf h).toNat := by
  rw [payloadOf, List.length_take, length_flatMap_bytesOfWord]
  omega

/-- The header of a text command is that of its opcode and its number of characters (R98). -/
theorem header_of_chars {h : Word} {opc : Byte} (ho : opcode h = opc.toNat)
    (hr : (argOf h).extractLsb' 16 8 = 0) {chs : List Half} (hn : chs.length = (lo16 h).toNat) :
    header opc (arg16 (BitVec.ofNat 16 chs.length)) = h := by
  rw [hn, BitVec.ofNat_toNat, BitVec.setWidth_eq, arg16_lo16 h hr, ← BitVec.eq_of_toNat_eq (x := opcOf h) (y := opc) ho,
    header_opcOf_argOf]

/-- The header of WRPIX is that of its opcode and its number of bytes (R97). -/
theorem header_of_payload {h : Word} (ho : opcode h = 0x03) {payload : List Byte}
    (hn : payload.length = (argOf h).toNat) : header 0x03 (BitVec.ofNat 24 payload.length) = h := by
  rw [hn, BitVec.ofNat_toNat, BitVec.setWidth_eq, ← BitVec.eq_of_toNat_eq (x := opcOf h) (y := 0x03) ho,
    header_opcOf_argOf]

theorem opcode_of_nbytes {opc : Nat} (h : argKind opc = .nbytes) : opc = 0x03 := by
  unfold argKind at h
  split at h <;> simp_all

theorem opcode_of_nchars {opc : Nat} (h : argKind opc = .nchars) :
    opc = 0x0D ∨ opc = 0x0E ∨ opc = 0x0F ∨ opc = 0x10 := by
  unfold argKind at h
  split at h <;> simp_all

/-- Only five opcodes have words to count (R82). -/
theorem opcode_of_varWords {h : Word} (hv : varWords h ≠ 0) :
    opcode h = 0x03 ∨ opcode h = 0x0D ∨ opcode h = 0x0E ∨ opcode h = 0x0F ∨ opcode h = 0x10 := by
  unfold varWords at hv
  split at hv
  · exact .inl (opcode_of_nbytes ‹_›)
  · exact .inr (opcode_of_nchars ‹_›)
  · exact absurd rfl hv
  · exact absurd rfl hv
  · exact absurd rfl hv

theorem varCount_illegalInstr (h : Word) : varCount (illegalInstr h) = 0 := by
  unfold illegalInstr
  repeat' split
  all_goals rfl

/-- The words of the command that a packet is are those that its header counts (R99). -/
theorem varCount_buildInstr {h : Word} {fixed var : List Word} (hv : var.length = varWords h) :
    varCount (buildInstr h fixed var) = varWords h := by
  by_cases hcounted : opcode h = 0x03 ∨ opcode h = 0x0D ∨ opcode h = 0x0E ∨ opcode h = 0x0F ∨ opcode h = 0x10
  · have hchars (hk : argKind (opcode h) = .nchars) : ((charsOf h var).length + 1) / 2 = varWords h := by
      rw [varWords, hk] at hv ⊢
      rw [length_charsOf hv]
    rcases hcounted with ho | ho | ho | ho | ho
    · have hk : argKind (opcode h) = .nbytes := by rw [ho]; rfl
      rw [varWords, hk] at hv ⊢
      simp only [buildInstr, ho, varCount]
      rw [length_payloadOf hv]
    all_goals
      simp only [buildInstr, ho, varCount]
      exact hchars (by rw [ho]; rfl)
  · have hnone : varWords h = 0 := of_not_not fun h0 => hcounted (opcode_of_varWords h0)
    rw [hnone]
    unfold buildInstr
    simp only
    split
    case h_24 => exact varCount_illegalInstr h
    all_goals simp_all [varCount]

/-! ### The decision (60_exceptions.md R282) -/

/-- Where a packet's fixed part is there, what the decoder answers. -/
theorem decode_fixed {h : Word} {fixed : List Word} (hleg : illegalOpcode (opcode h) = false)
    (hf : fixed.length = fixedWords (opcode h)) (var : List Word) :
    decode (h :: (fixed ++ var)) =
      if reservedBitSet h fixed then .error .reserved
      else if var.length < varWords h then .error .needVar
      else .ok (buildInstr h fixed (var.take (varWords h)), var.drop (varWords h)) := by
  simp [decode, hleg, ← hf]

/-- The actions with which the engine starts a packet whose counted words have not all arrived. -/
def streamStart (h : Word) (fixed : List Word) (s : State) : List Action :=
  if requiresReady (opcode h) && !s.ready then [.raise .uninit h 0 (varWords h)] else streamActs h fixed s

theorem startStream_eq (h : Word) (fixed : List Word) (s : State) :
    startStream h fixed s = runActs (streamStart h fixed s) s.enter := rfl

theorem State.whole_enter (ws : List Word) (s : State) : (s.whole ws).enter = s.enter.whole ws := rfl

/-- A packet of WRPIX, its payload still arriving (41_window_blit.md R165). -/
theorem arriving_wrpix {u : State} {ws : List Word} {h : Word} {fixed : List Word} {s : State} (hs : Free s)
    (ho : opcode h = 0x03) (hv : varWords h ≠ 0)
    (count : s.fifo.length + ws.length = varWords h)
    (goal : runActs (commandActs (buildInstr h fixed (s.fifo ++ ws)) (s.whole ws)) (s.whole ws).enter = u) :
    Arriving u ws (varWords h) (startStream h fixed s) := by
  have hwords : varWords h = ((argOf h).toNat + 3) / 4 := by
    rw [varWords, ho]
    rfl
  have hlen : (payloadOf h (s.fifo ++ ws)).length = (argOf h).toNat := length_payloadOf (by simp [count, hwords])
  have hcmd : commandActs (buildInstr h fixed (s.fifo ++ ws)) (s.whole ws) =
      requireReady h (varWords h) (List.replicate (varWords h) .pop ++ [dataAct (payloadOf h (s.fifo ++ ws))])
        (s.whole ws) := by
    simp only [buildInstr, ho, commandActs, requiresReadyInstr, if_true, bodyActs, varCount, headerOf, encode,
      List.headD_cons, header_of_payload ho hlen]
    rw [hlen, hwords]
  have henter : Free s.enter := ⟨hs.quiet, hs.flight, hs.halted⟩
  rw [hcmd, State.whole_enter] at goal
  rw [startStream_eq]
  cases hr : s.ready with
  | true =>
    have hstart : streamStart h fixed s = [.payload [] (argOf h).toNat] := by
      simp [streamStart, streamActs, ho, hr]
    have hwait : runActs [.payload [] (argOf h).toNat] s.enter =
        { s.enter with todo := [.payload [] (argOf h).toNat] } := drain_cons_free _ _ _ henter.envDue
    rw [requireReady_of_ready (show (s.whole ws).ready = true from hr), hwords] at goal
    rw [hstart, hwait, hwords]
    exact .payload ⟨hs.quiet, hs.flight, hs.halted⟩ rfl (by omega) (count.trans hwords) le_rfl goal
  | false =>
    have hstart : streamStart h fixed s = [.raise .uninit h 0 (varWords h)] := by
      simp [streamStart, requiresReady, ho, hr]
    rw [requireReady, if_neg (by simp [State.whole, hr]), runActs_raise (henter.whole ws).envDue] at goal
    rw [hstart, runActs_raise henter.envDue]
    exact (arriving_raise henter .uninit h 0 count goal).mono (by omega)

/-- The READY check before the characters arrive is that of the decoded command. -/
theorem Streams.start {n : Nat} {chs : List Half} {ws : List Word} {h : Word} {fixed : List Word} {i : Instr}
    {s : State}
    (hbody : Streams n chs (streamActs h fixed s) (bodyActs (s.whole ws) i))
    (hready : requiresReadyInstr i = requiresReady (opcode h)) (hheader : headerOf i = h)
    (hcount : varCount i = varWords h) (hwords : varWords h = (n + 1) / 2) :
    Streams n chs (streamStart h fixed s) (commandActs i (s.whole ws)) := by
  rw [streamStart, commandActs, requireReady, hready, hheader, hcount]
  cases requiresReady (opcode h) with
  | false => exact hbody
  | true =>
    cases hr : s.ready with
    | true => simpa [State.whole, hr] using hbody
    | false =>
      simp only [State.whole, hr, Bool.not_false, Bool.and_self, if_true, Bool.false_eq_true, if_false, hwords]
      exact .error .uninit h 0

/-- A packet of a text command, its characters still arriving (30_encoding.md R93). -/
theorem arriving_chars {u : State} {ws : List Word} {h : Word} {fixed : List Word} {s : State} (hs : Free s)
    (ho : opcode h = 0x0D ∨ opcode h = 0x0E ∨ opcode h = 0x0F ∨ opcode h = 0x10)
    (hres : reservedBitSet h fixed = false) (hv : varWords h ≠ 0)
    (count : s.fifo.length + ws.length = varWords h)
    (goal : runActs (commandActs (buildInstr h fixed (s.fifo ++ ws)) (s.whole ws)) (s.whole ws).enter = u) :
    Arriving u ws (varWords h) (startStream h fixed s) := by
  have hkind : argKind (opcode h) = .nchars := by
    rcases ho with ho | ho | ho | ho <;> rw [ho] <;> rfl
  have hwords : varWords h = ((lo16 h).toNat + 1) / 2 := by rw [varWords, hkind]
  have harg : (argOf h).extractLsb' 16 8 = 0 := by
    rw [reservedBitSet, hkind, Bool.or_eq_false_iff] at hres
    simpa [ArgKind.reservedBit] using hres.1
  have hvar : (s.fifo ++ ws).length = varWords h := by rw [List.length_append, count]
  have hlen : (charsOf h (s.fifo ++ ws)).length = (lo16 h).toNat := length_charsOf (hvar.trans hwords)
  have hview : s.sameView (s.whole ws) := ⟨rfl, rfl, rfl⟩
  have hheader : headerOf (buildInstr h fixed (s.fifo ++ ws)) = h := by
    rcases ho with ho | ho | ho | ho
    all_goals
      simp only [buildInstr, ho]
      exact header_of_chars ho harg hlen
  have hbody : Streams (lo16 h).toNat (charsOf h (s.fifo ++ ws)) (streamActs h fixed s)
      (bodyActs (s.whole ws) (buildInstr h fixed (s.fifo ++ ws))) := by
    rcases ho with ho | ho | ho | ho <;> simp only [buildInstr, ho] at hheader <;>
      simp only [streamActs, buildInstr, ho, bodyActs, hheader] <;> rw [← hlen]
    · exact textBmActs_streams hview ..
    · exact textBmActs_streams hview ..
    · exact ttTextActs_streams hview ..
    · exact ttWidthActs_streams hview ..
  have hready : requiresReadyInstr (buildInstr h fixed (s.fifo ++ ws)) = requiresReady (opcode h) := by
    rcases ho with ho | ho | ho | ho <;> simp only [buildInstr, ho] <;> rfl
  rw [startStream_eq, hwords]
  rw [State.whole_enter] at goal
  exact Streams.arriving (s := s.enter) ⟨hs.quiet, hs.flight, hs.halted⟩ (count.trans hwords) (by omega)
    (hbody.start hready hheader (varCount_buildInstr hvar) hwords) goal

/-- A packet whose fixed part is popped and whose counted words have not all arrived is rejected, or starts (R282). -/
theorem arriving_decided {u : State} {ws : List Word} {h : Word} {fixed : List Word} {s : State} (hs : Free s)
    (hpkt : s.pkt = h :: fixed) (hleg : illegalOpcode (opcode h) = false) (hf : fixed.length = fixedWords (opcode h))
    (count : s.fifo.length + ws.length = varWords h) (hws : ws ≠ []) (goal : decidePacket (s.whole ws) = .next u) :
    ∃ t, decidePacket s = .next t ∧ Arriving u ws (varWords h) t := by
  have hclear : Free { s with pkt := [] } := ⟨hs.quiet, hs.flight, hs.halted⟩
  have hpos := List.length_pos_iff.2 hws
  have hstream : s.stream = h :: (fixed ++ s.fifo) := by rw [State.stream, hpkt]; rfl
  have hwhole : (s.whole ws).stream = h :: (fixed ++ (s.fifo ++ ws)) := by
    show s.pkt ++ (s.fifo ++ ws) = _
    rw [hpkt]
    rfl
  have hlen : (s.fifo ++ ws).length = varWords h := by rw [List.length_append, count]
  rw [decidePacket, hwhole, decode_fixed hleg hf, hlen] at goal
  rw [decidePacket, hstream, decode_fixed hleg hf]
  cases hres : reservedBitSet h fixed with
  | true =>
    have hfirst : fixedWord s.pkt 0 = h := by rw [hpkt]; rfl
    have hfirst' : fixedWord (s.whole ws).pkt 0 = h := hfirst
    have henter : Free (State.enter { s with pkt := [] }) := ⟨hs.quiet, hs.flight, hs.halted⟩
    simp only [hres, if_true, hfirst'] at goal
    simp only [if_true, hfirst]
    refine ⟨_, rfl, ?_⟩
    have hgoal := (runActs_raise (henter.whole ws).envDue [] .reserved h 0 (varWords h)).symm.trans
      (Host.Outcome.next.inj goal)
    rw [State.startText, runActs_raise henter.envDue]
    exact (arriving_raise henter .reserved h 0 count hgoal).mono (by omega)
  | false =>
    have hshort : s.fifo.length < varWords h := by omega
    have hfirst : fixedWord s.pkt 0 = h ∧ s.pkt.tail = fixed := by rw [hpkt]; exact ⟨rfl, rfl⟩
    have htake : (s.fifo ++ ws).take (varWords h) = s.fifo ++ ws := List.take_of_length_le hlen.le
    simp only [hres, Bool.false_eq_true, if_false, Nat.lt_irrefl, htake] at goal
    simp only [Bool.false_eq_true, if_false, hshort, if_true, hfirst]
    rw [exec_eq_runActs] at goal
    have hgoal := Host.Outcome.next.inj goal
    refine ⟨_, rfl, ?_⟩
    rcases opcode_of_varWords (h := h) (by omega) with ho | ho
    · exact arriving_wrpix hclear ho (by omega) count hgoal
    · exact arriving_chars hclear ho hres (by omega) count hgoal

/-! ### Taking the fixed part -/

/-- Popping a word that is there, from the state with all words. -/
theorem State.takeWord_whole {s : State} (hne : s.fifo ≠ []) (ws : List Word) :
    (s.whole ws).takeWord = s.takeWord.whole ws := by
  cases hf : s.fifo with
  | nil => exact absurd hf hne
  | cons w rest =>
    rw [State.takeWord, State.takeWord, State.newHeader_eq, State.newHeader_eq]
    simp [State.whole, State.pop, State.tick, hf]

theorem State.takeWord_iterate_whole (k : Nat) {s : State} (hk : k ≤ s.fifo.length) (ws : List Word) :
    State.takeWord^[k] (s.whole ws) = (State.takeWord^[k] s).whole ws := by
  induction k generalizing s with
  | zero => rfl
  | succ k ih =>
    have hne : s.fifo ≠ [] := fun h => by rw [h] at hk; simp at hk
    rw [Function.iterate_succ_apply, State.takeWord_whole hne,
      ih (by rw [State.takeWord_fifo, List.length_drop]; omega)]
    rfl

theorem Free.takeWord_iterate {s : State} (h : Free s) (k : Nat) :
    Free (State.takeWord^[k] s) ∧ (State.takeWord^[k] s).todo = s.todo := by
  induction k generalizing s with
  | zero => exact ⟨h, rfl⟩
  | succ k ih =>
    have htake : Free s.takeWord ∧ s.takeWord.todo = s.todo := by
      rw [State.takeWord_quiet h.quiet, State.newHeader_eq]
      exact ⟨⟨h.quiet, h.flight, h.halted⟩, rfl⟩
    obtain ⟨hfree, htodo⟩ := ih htake.1
    exact ⟨hfree, htodo.trans htake.2⟩

/-- A packet whose fixed part is there, in a quiet environment. -/
theorem fetch_quiet {s : State} {h : Word} {tail : List Word} (hq : s.quiet) (hs : s.stream = h :: tail)
    (hp : s.pkt.length ≤ fixedPart h) (hf : fixedPart h ≤ tail.length + 1) :
    fetch s = decidePacket (State.takeWord^[fixedPart h - s.pkt.length] s) := by
  refine fetch_eq hs hp (fun hd => ?_) fun k _ => ?_
  · have hlack := State.fifo_lt_lacking hd
    have hlen : s.pkt.length + s.fifo.length = tail.length + 1 := by
      rw [← List.length_append, ← State.stream, hs, List.length_cons]
    rw [State.lacking_eq hs] at hlack
    omega
  · have hk := State.takeWord_iterate_isQuiet k hq
    exact State.envDue_of_quiet hk.1 hk.2.1

/-- Less than the fixed part of a packet is no packet yet. -/
theorem decode_of_short {l ws : List Word} {h : Word} {tail : List Word} (hl : l ++ ws = h :: tail)
    (hs : l.length < fixedPart h) : decode l = .error .needFixed := by
  cases l with
  | nil => rfl
  | cons x xs =>
    obtain ⟨rfl, -⟩ := List.cons.inj hl
    rw [List.length_cons] at hs
    unfold fixedPart at hs
    rw [decode]
    split at hs
    · omega
    · rw [if_neg ‹_›, if_pos (by omega)]

theorem fixedPart_le_plen (h : Word) : fixedPart h ≤ plen h := by
  unfold fixedPart plen
  split
  · exact le_rfl
  · exact Nat.le_add_right _ _

/-- The words that are there of a fixed part are taken, and the engine goes on with the others. -/
theorem arriving_taken {u : State} {ws : List Word} {s : State} {h : Word} {tail : List Word}
    (hs : Free s) (ht : s.todo = []) (hst : s.stream ++ ws = h :: tail) (hlen : tail.length + 1 = plen h)
    (hshort : s.stream.length < fixedPart h) (goal : fetch (s.whole ws) = .next u) :
    Arriving u ws ws.length (State.takeWord^[s.fifo.length] s) := by
  obtain ⟨hpkt, hfifo, hsame⟩ := State.takeWord_iterate s.fifo.length s
  obtain ⟨hfree, htodo⟩ := hs.takeWord_iterate s.fifo.length
  have hstream : s.stream.length = s.pkt.length + s.fifo.length := List.length_append
  have htaken : (State.takeWord^[s.fifo.length] s).pkt.length = s.stream.length := by
    rw [hpkt, List.take_length]
    rfl
  have hle := fixedPart_le_plen h
  have whole_stream {t : State} (heq : t.stream = s.stream) : (t.whole ws).stream = h :: tail := by
    rw [← hst, ← heq]
    exact (List.append_assoc ..).symm
  refine .fetching hfree (htodo.trans ht) (by rw [hsame, hst]) hlen (htaken.trans_lt hshort) ?_ ?_
  · rw [hfifo, List.drop_length, List.length_nil, Nat.zero_add]
  · rw [← goal, fetch_quiet (hs.whole ws).quiet (whole_stream rfl) (by show s.pkt.length ≤ _; omega) (by omega),
      fetch_quiet (hfree.whole ws).quiet (whole_stream hsame) (htaken.trans_lt hshort).le (by omega),
      ← State.takeWord_iterate_whole s.fifo.length le_rfl, ← Function.iterate_add_apply]
    have htaken' : (State.takeWord^[s.fifo.length] (s.whole ws)).pkt.length = s.stream.length := by
      rw [State.takeWord_iterate_whole s.fifo.length le_rfl]
      exact htaken
    rw [htaken', show fixedPart h - s.stream.length + s.fifo.length = fixedPart h - (s.whole ws).pkt.length by
      show _ = fixedPart h - s.pkt.length
      omega]

/-- The fixed part is taken and decided on, some counted words being still to come. -/
theorem stepArrives_decided {u : State} {ws : List Word} {n : Nat} {s : State} {h : Word} {tail : List Word}
    (hs : Free s) (ht : s.todo = []) (hst : s.stream ++ ws = h :: tail) (hlen : tail.length + 1 = plen h)
    (hp : s.pkt.length < fixedPart h) (hthere : fixedPart h ≤ s.stream.length) (hws : ws ≠ [])
    (bound : s.fifo.length + ws.length ≤ n) (goal : fetch (s.whole ws) = .next u) : StepArrives u ws n s := by
  have hpos := List.length_pos_iff.2 hws
  have hstream : s.stream.length = s.pkt.length + s.fifo.length := List.length_append
  have hcount : s.stream.length + ws.length = plen h := by
    rw [← hlen, ← List.length_cons (a := h), ← hst, List.length_append]
  have hleg : illegalOpcode (opcode h) = false := by
    rw [← Bool.not_eq_true]
    intro hill
    rw [fixedPart, if_pos hill] at hthere
    rw [plen, if_pos hill] at hcount
    omega
  have hfixed : fixedPart h = 1 + fixedWords (opcode h) := by simp [fixedPart, hleg]
  have hplen : plen h = 1 + fixedWords (opcode h) + varWords h := by simp [plen, hleg]
  have hwhole : (s.whole ws).stream = h :: tail := by
    rw [← hst]
    exact (List.append_assoc ..).symm
  obtain ⟨x, xs, hcons⟩ : ∃ x xs, s.stream = x :: xs := List.exists_cons_of_length_pos (by omega)
  obtain rfl : x = h := by
    rw [hcons] at hst
    exact (List.cons.inj hst).1
  have hk : fixedPart x - s.pkt.length ≤ s.fifo.length := by omega
  have hlenxs : s.stream.length = xs.length + 1 := by rw [hcons, List.length_cons]
  have hfetch := fetch_quiet hs.quiet hcons hp.le (by omega)
  have hfetch' := fetch_quiet (hs.whole ws).quiet hwhole (by show s.pkt.length ≤ _; omega) (by omega)
  have hiter := State.takeWord_iterate_whole (fixedPart x - s.pkt.length) hk ws
  obtain ⟨hpkt, hfifo, hsame⟩ := State.takeWord_iterate (fixedPart x - s.pkt.length) s
  obtain ⟨hfree, -⟩ := hs.takeWord_iterate (fixedPart x - s.pkt.length)
  generalize State.takeWord^[fixedPart x - s.pkt.length] s = t at *
  have htaken : t.pkt.length = fixedPart x := by
    rw [hpkt, List.length_append, List.length_take]
    omega
  have hfifo' : t.fifo.length = s.fifo.length - (fixedPart x - s.pkt.length) := by rw [hfifo, List.length_drop]
  obtain ⟨y, fixed, hy⟩ : ∃ y fixed, t.pkt = y :: fixed := List.exists_cons_of_length_pos (by omega)
  obtain rfl : y = x := by
    rw [State.stream, hy, hcons] at hsame
    exact (List.cons.inj hsame).1
  rw [hy, List.length_cons] at htaken
  have hgoal : decidePacket (t.whole ws) = .next u := by
    rw [← goal, hfetch', ← hiter]
    rfl
  obtain ⟨v, hv, harrive⟩ := arriving_decided (ws := ws) hfree hy hleg (by omega) (by omega) hws hgoal
  exact .inr ⟨varWords y, v, by omega, (hs.step_fetch ht).trans (hfetch.trans hv), harrive⟩

/-- The engine takes what has arrived of a packet, and decides it when its fixed part is there. -/
theorem stepArrives_fetching {u : State} {ws : List Word} {n : Nat} {s : State} {h : Word} {tail : List Word}
    (hs : Free s) (ht : s.todo = []) (hst : s.stream ++ ws = h :: tail) (hlen : tail.length + 1 = plen h)
    (hp : s.pkt.length < fixedPart h) (bound : s.fifo.length + ws.length ≤ n) (goal : fetch (s.whole ws) = .next u) :
    StepArrives u ws n s := by
  have hwhole : (s.whole ws).stream = h :: tail := by
    rw [← hst]
    exact (List.append_assoc ..).symm
  have hle := fixedPart_le_plen h
  have hcount : s.pkt.length + s.fifo.length + ws.length = plen h := by
    rw [← hlen, ← List.length_cons (a := h), ← hst, State.stream, List.length_append, List.length_append]
  have hstep := hs.step_fetch ht
  by_cases hshort : s.stream.length < fixedPart h
  · rw [fetch_short hs.quiet (decode_of_short hst hshort)] at hstep
    by_cases hnone : s.fifo = []
    · rw [hnone] at hstep
      rw [hnone, List.length_nil] at hcount
      exact stepArrives_of_wait hstep hnone (by rw [hnone, List.length_nil, Nat.zero_add]) (k := ws.length) (by omega)
    · have hpos := List.length_pos_iff.2 hnone
      exact .inr ⟨ws.length, _, by omega, hstep, arriving_taken hs ht hst hlen hshort goal⟩
  · by_cases hws : ws = []
    · subst hws
      have hsame : s.whole [] = s := by
        rw [State.whole, List.append_nil, ← ht]
      rw [hsame] at goal
      rw [List.length_nil] at hcount bound
      exact .inr ⟨0, u, by omega, hstep.trans goal, .ended rfl rfl⟩
    · exact stepArrives_decided hs ht hst hlen hp (by omega) hws bound goal

end Sys2Proof.Machine

/-! It does not matter in what batches the words of a packet arrive (O9). -/

namespace Sys2Proof.Machine

/-- A step takes what is there, or waits. -/
theorem Arriving.step {u : State} {ws : List Word} {n : Nat} {s : State} (hu : Ended u) (h : Arriving u ws n s) :
    StepArrives u ws n s := by
  cases h with
  | fetching free todo stream len part bound goal => exact stepArrives_fetching free todo stream len part bound goal
  | skipping free todo pos count bound goal => exact stepArrives_skipping free todo pos count bound goal
  | payload free todo pos count bound goal => exact stepArrives_payload free todo pos count bound goal
  | text free todo chs popped pos count bound goal => exact stepArrives_text free todo chs popped pos count bound goal
  | ended last goal =>
    subst goal
    exact .inl ⟨hu.step, fun _ => rfl⟩

/-- Before the next batch, any number of steps may be made. -/
theorem Arriving.steps {u : State} {ws : List Word} (hu : Ended u) (k : Nat) {n : Nat} {s t : State}
    (h : Arriving u ws n s) (ht : steps k s = .next t) : ∃ m, Arriving u ws m t := by
  induction k generalizing n s with
  | zero =>
    cases ht
    exact ⟨n, h⟩
  | succ k ih =>
    rcases h.step hu with ⟨hwait, -⟩ | ⟨m, v, -, hstep, hv⟩
    · exact ih h ((steps_succ hwait).symm.trans ht)
    · exact ih hv ((steps_succ hstep).symm.trans ht)

theorem Arriving.feed {u : State} (hu : Ended u) (batches : List (List Word × Nat)) {n : Nat} {s t : State}
    (h : Arriving u (batches.map Prod.fst).flatten n s) (ht : feed batches s = .next t) : ∃ m, Arriving u [] m t := by
  induction batches generalizing n s with
  | nil =>
    cases ht
    exact ⟨n, h⟩
  | cons b batches ih =>
    obtain ⟨words, k⟩ := b
    rw [Machine.feed] at ht
    split at ht
    · next v hv =>
      obtain ⟨m, hm⟩ := h.arrive.steps hu k hv
      exact ih hm ht
    · cases ht
    · cases ht

/-- When no word is to come, the engine gets there: of the words that are there, each step takes some. -/
theorem Arriving.reaches {u : State} (hu : Ended u) (n : Nat) {s : State} (h : Arriving u [] n s) :
    ∃ k, Machine.steps k s = .next u := by
  induction n using Nat.strong_induction_on generalizing s with
  | _ n ih =>
    rcases h.step hu with ⟨-, hthere⟩ | ⟨m, v, hm, hstep, hv⟩
    · exact ⟨0, congrArg _ (hthere rfl)⟩
    · obtain ⟨k, hk⟩ := ih m hm hv
      exact ⟨k + 1, (steps_succ hstep).trans hk⟩

/-! ### The packet when it is there whole -/

/-- Every command has the opcode of its row and the length of R99. -/
theorem headerRow : ∀ i : Instr, Laws.HeaderRow.Statement i
  | .init .. => Laws.HeaderRow.init _ _ _
  | .setwin .. => Laws.HeaderRow.setwin _ _ _ _
  | .wrpix .. => Laws.HeaderRow.wrpix _
  | .fillrect .. => Laws.HeaderRow.fillrect _ _ _ _ _
  | .pixel .. => Laws.HeaderRow.pixel _ _ _
  | .hline .. => Laws.HeaderRow.hline _ _ _ _
  | .vline .. => Laws.HeaderRow.vline _ _ _ _
  | .line .. => Laws.HeaderRow.line _ _ _ _ _
  | .circle .. => Laws.HeaderRow.circle _ _ _ _
  | .fcircle .. => Laws.HeaderRow.fcircle _ _ _ _
  | .tri .. => Laws.HeaderRow.tri _ _ _ _ _ _ _
  | .ftri .. => Laws.HeaderRow.ftri _ _ _ _ _ _ _
  | .text8 .. => Laws.HeaderRow.text8 _ _ _ _ _ _
  | .text16 .. => Laws.HeaderRow.text16 _ _ _ _ _ _
  | .tttext .. => Laws.HeaderRow.tttext _ _ _ _ _ _
  | .ttwidth .. => Laws.HeaderRow.ttwidth _ _
  | .bitmap .. => Laws.HeaderRow.bitmap _ _ _ _
  | .setrot .. => Laws.HeaderRow.setrot _
  | .setorg .. => Laws.HeaderRow.setorg _ _
  | .sleep .. => Laws.HeaderRow.sleep _
  | .invert .. => Laws.HeaderRow.invert _
  | .display .. => Laws.HeaderRow.display _
  | .rgb565 .. => Laws.HeaderRow.rgb565 _ _ _
  | .illegal00 .. => Laws.HeaderRow.illegal00 _
  | .illegal18 .. => Laws.HeaderRow.illegal18 _
  | .illegal20 .. => Laws.HeaderRow.illegal20 _
  | .illegal40 .. => Laws.HeaderRow.illegal40 _
  | .illegal80 .. => Laws.HeaderRow.illegal80 _

/-- A well-formed command is as many words as its header says (30_encoding.md R99). -/
theorem encode_eq_cons {i : Instr} (hwf : i.wf = true) :
    ∃ h tail, encode i = h :: tail ∧ tail.length + 1 = plen h := by
  have hlen := (headerRow i hwf).2
  cases he : encode i with
  | nil =>
    rw [he, List.length_nil] at hlen
    have hpos := (fixedPart_pos (headerOf i)).trans_le (fixedPart_le_plen (headerOf i))
    omega
  | cons h tail => exact ⟨h, tail, rfl, by rw [← List.length_cons, ← he, hlen, headerOf, he, List.headD_cons]⟩

/-- A packet that is there whole, its fixed part popped, is dealt with to its end. -/
theorem decidePacket_ended {s : State} (hs : Free s) {h : Word} {fixed : List Word} (hp : s.pkt = h :: fixed)
    (hfixed : fixed.length + 1 = fixedPart h) (hlen : fixed.length + s.fifo.length + 1 = plen h) :
    ∃ u, decidePacket s = .next u ∧ Ended u := by
  have hclear : Clear { s with pkt := [] } := ⟨hs.quiet, hs.flight, rfl⟩
  have hstream : s.stream = h :: (fixed ++ s.fifo) := by rw [State.stream, hp]; rfl
  have hfirst : fixedWord s.pkt 0 = h := by rw [hp]; rfl
  have dealt {i : Instr} (hi : varCount i = s.fifo.length) :
      ∃ u, exec i { s with pkt := [] } = .next u ∧ Ended u :=
    ⟨_, exec_eq_runActs .., hclear.exec hi (exec_eq_runActs ..)⟩
  rw [decidePacket, hstream]
  cases hleg : illegalOpcode (opcode h) with
  | true =>
    rw [fixedPart, if_pos hleg] at hfixed
    rw [plen, if_pos hleg] at hlen
    rw [decode_illegal h _ ((illegalOpcode_eq_true ..).1 hleg)]
    exact dealt (by rw [varCount_illegalInstr]; omega)
  | false =>
    have hf : fixed.length = fixedWords (opcode h) := by simpa [fixedPart, hleg, Nat.add_comm] using hfixed
    have hvar : s.fifo.length = varWords h := by
      simp only [plen, hleg, Bool.false_eq_true, if_false] at hlen
      omega
    rw [decode_fixed hleg hf]
    cases reservedBitSet h fixed with
    | true =>
      have henter : Clear (State.enter { s with pkt := [] }) := ⟨hs.quiet, hs.flight, rfl⟩
      refine ⟨_, rfl, ?_⟩
      rw [hfirst, State.startText, runActs_raise (s := State.enter _) henter.envDue]
      exact henter.raise .reserved h 0 hvar.symm
    | false =>
      rw [hvar, ← hvar, List.take_length]
      simp only [Bool.false_eq_true, if_false, Nat.lt_irrefl]
      exact dealt ((varCount_buildInstr hvar).trans hvar.symm)

/-- A packet that is there whole is dealt with in one step of the engine, to its end. -/
theorem fetch_ended {s : State} (hs : Free s) (hp : s.pkt = []) {h : Word} {tail : List Word}
    (hf : s.fifo = h :: tail) (hlen : tail.length + 1 = plen h) : ∃ u, fetch s = .next u ∧ Ended u := by
  have hle := fixedPart_le_plen h
  have hpos := fixedPart_pos h
  obtain ⟨hpkt, hfifo, -⟩ := State.takeWord_iterate (fixedPart h) s
  obtain ⟨hfree, -⟩ := hs.takeWord_iterate (fixedPart h)
  have hfetch := fetch_quiet (h := h) (tail := tail) hs.quiet (by rw [State.stream, hp, hf]; rfl)
    (by rw [hp]; exact hpos.le) (by omega)
  rw [hp, List.length_nil, Nat.sub_zero] at hfetch
  rw [hfetch]
  obtain ⟨k, hk⟩ : ∃ k, fixedPart h = k + 1 := ⟨fixedPart h - 1, by omega⟩
  rw [hk] at hpkt hfifo hfree ⊢
  rw [hp, hf, List.nil_append, List.take_succ_cons] at hpkt
  rw [hf, List.drop_succ_cons] at hfifo
  refine decidePacket_ended hfree hpkt ?_ ?_
  · rw [List.length_take, hk]
    omega
  · rw [hfifo, List.length_take, List.length_drop]
    omega

/-- Settles O9: until the last word is there, what the engine will have come to does not change; then it gets there, and
that is where the packet that is there whole ends. -/
theorem wordArrivalTimesDoNotMatter : Obligations.WordArrivalTimesDoNotMatter := by
  intro i batches s t hwf henc hq hb hfifo hfeed
  obtain ⟨hpkt, htodo, hflight, hhalt⟩ := hb
  obtain ⟨h, tail, he, hlen⟩ := encode_eq_cons hwf
  have hfree : Free { s with fifo := encode i } := ⟨hq, hflight, hhalt⟩
  obtain ⟨u, hgoal, hu⟩ := fetch_ended hfree hpkt he hlen
  have hwhole : s.whole (encode i) = { s with fifo := encode i } := by
    rw [State.whole, hfifo, List.nil_append, ← htodo]
  have start : Arriving u (encode i) (encode i).length s :=
    .fetching ⟨hq, hflight, hhalt⟩ htodo (by rw [State.stream, hpkt, hfifo, he]; rfl) hlen
      (by rw [hpkt]; exact fixedPart_pos h) (by rw [hfifo, List.length_nil, Nat.zero_add]) (hwhole ▸ hgoal)
  rw [henc] at start
  obtain ⟨m, hm⟩ := start.feed hu batches hfeed
  obtain ⟨k, hk⟩ := hm.reaches hu
  exact ⟨k, hk.trans ((hfree.step_fetch htodo).trans hgoal).symm⟩

end Sys2Proof.Machine

/-! The encoding (O1 to O5, O11): an illegal header is its own packet, and a legal packet is its header, its fixed words
and its counted words. What the engine does with an illegal header (O10), a reserved bit (O5) and a payload (O23). -/

namespace Sys2Proof.Machine

/-! ### Illegal headers (30_encoding.md R100) -/

/-- A word is its leading bits and the bits below them. -/
theorem append_extractLsb'_low {m n : Nat} (c : BitVec m) (h : BitVec (m + n)) (hc : h.toNat / 2 ^ n = c.toNat) :
    c ++ h.extractLsb' 0 n = h := by
  apply BitVec.eq_of_toNat_eq
  rw [toNat_append, BitVec.extractLsb'_toNat, Nat.shiftRight_zero, ← hc]
  exact Nat.div_add_mod' _ _

/-- The row of an illegal header has that header (R100). -/
theorem headerOf_illegalInstr {h : Word} (ho : opcode h = 0 ∨ 0x18 ≤ opcode h) : headerOf (illegalInstr h) = h := by
  have hlt := h.isLt
  have hop := opcode_eq h
  unfold illegalInstr
  split
  · exact append_extractLsb'_low (0 : BitVec 8) (n := 24) h (show _ = 0 by omega)
  split
  · exact append_extractLsb'_low (3 : BitVec 5) (n := 27) h (show _ = 3 by omega)
  split
  · exact append_extractLsb'_low (1 : BitVec 3) (n := 29) h (show _ = 1 by omega)
  split
  · exact append_extractLsb'_low (1 : BitVec 2) (n := 30) h (show _ = 1 by omega)
  · exact append_extractLsb'_low (1 : BitVec 1) (n := 31) h (show _ = 1 by omega)

/-- An illegal header is read as one of the five illegal rows. -/
theorem illegalInstr_cases (h : Word) :
    (∃ low, illegalInstr h = .illegal00 low) ∨ (∃ low, illegalInstr h = .illegal18 low) ∨
      (∃ low, illegalInstr h = .illegal20 low) ∨ (∃ low, illegalInstr h = .illegal40 low) ∨
      (∃ low, illegalInstr h = .illegal80 low) := by
  unfold illegalInstr
  split
  · exact .inl ⟨_, rfl⟩
  split
  · exact .inr (.inl ⟨_, rfl⟩)
  split
  · exact .inr (.inr (.inl ⟨_, rfl⟩))
  split
  · exact .inr (.inr (.inr (.inl ⟨_, rfl⟩)))
  · exact .inr (.inr (.inr (.inr ⟨_, rfl⟩)))

/-- Settles O11: the decoder looks at nothing but the opcode, and the row keeps the bits. -/
theorem illegalOpcodesDecodeAsIllegal : Obligations.IllegalOpcodesDecodeAsIllegal := fun h t ho =>
  ⟨illegalInstr h, decode_illegal h t ho, headerOf_illegalInstr ho, illegalInstr_cases h⟩

/-! ### The parts of a packet (30_encoding.md R80) -/

/-- The fixed operand words of a command (R82). -/
def fixedWordsOf (i : Instr) : List Word := (encode i).tail.take (fixedWords (opcode (headerOf i)))

/-- The words of its characters or payload (R93, R94). -/
def varWordsOf (i : Instr) : List Word := (encode i).tail.drop (fixedWords (opcode (headerOf i)))

theorem encode_eq_headerOf_cons (i : Instr) : encode i = headerOf i :: (encode i).tail := by
  cases i <;> rfl

/-- A packet is its header, its fixed words and its counted words. -/
theorem encode_eq_parts (i : Instr) : encode i = headerOf i :: (fixedWordsOf i ++ varWordsOf i) := by
  rw [fixedWordsOf, varWordsOf, List.take_append_drop]
  exact encode_eq_headerOf_cons i

/-- A legal command has as many fixed words as its opcode asks for, and as many others as its header counts (R99). -/
theorem parts_length {i : Instr} (hwf : i.wf = true) (hleg : illegalOpcode (opcode (headerOf i)) = false) :
    (fixedWordsOf i).length = fixedWords (opcode (headerOf i)) ∧ (varWordsOf i).length = varWords (headerOf i) := by
  have hlen := (headerRow i hwf).2
  rw [plen, hleg, encode_eq_headerOf_cons, List.length_cons] at hlen
  simp only [Bool.false_eq_true, if_false] at hlen
  rw [fixedWordsOf, varWordsOf, List.length_take, List.length_drop]
  omega

/-- The row of a legal command is not an illegal one (R100). -/
theorem rowOpcodes_of_legal {i : Instr} (hwf : i.wf = true) (hleg : illegalOpcode (opcode (headerOf i)) = false) :
    0 < (Laws.rowOpcodes i).2 ∧ (Laws.rowOpcodes i).1 < 0x18 := by
  obtain ⟨hlow, hhigh⟩ := (headerRow i hwf).1
  obtain ⟨hpos, hlt⟩ := illegalOpcode_eq_false.1 hleg
  omega

/-- The row of an illegal command is an illegal one. -/
theorem rowOpcodes_of_illegal {i : Instr} (hwf : i.wf = true) (hill : illegalOpcode (opcode (headerOf i)) = true) :
    (Laws.rowOpcodes i).1 = 0 ∨ 0x18 ≤ (Laws.rowOpcodes i).2 := by
  obtain ⟨hlow, hhigh⟩ := (headerRow i hwf).1
  have hrange := illegalOpcode_eq_true.1 hill
  omega

/-- The bytes of a colour word (R92). -/
theorem bytes_word4 (a b c d : Byte) :
    (word4 a b c d).extractLsb' 24 8 = a ∧ (word4 a b c d).extractLsb' 16 8 = b ∧
      (word4 a b c d).extractLsb' 8 8 = c ∧ (word4 a b c d).extractLsb' 0 8 = d := by
  simpa [bytesOfWord] using bytesOfWord_word4 a b c d

/-- The characters come back from their words (R93, R98). -/
theorem charsOf_encoded (opc : Byte) {chars : List Half} (hw : charsFit chars = true) :
    charsOf (header opc (arg16 (BitVec.ofNat 16 chars.length))) (charWords chars) = chars := by
  rw [charsOf, lo16_header_arg16, BitVec.toNat_ofNat, Nat.mod_eq_of_lt (of_decide_eq_true hw), charsOf_charWords]

/-- The payload comes back from its words (R94, R97). -/
theorem payloadOf_encoded (opc : Byte) {payload : List Byte} (hw : payloadFits payload = true) :
    payloadOf (header opc (BitVec.ofNat 24 payload.length)) (dataWords payload) = payload := by
  rw [payloadOf, argOf_header, BitVec.toNat_ofNat, Nat.mod_eq_of_lt (of_decide_eq_true hw), bytesOf_dataWords]

/-- The encoder sets no reserved bit (R101). -/
theorem reservedBitSet_encode {i : Instr} (hwf : i.wf = true)
    (hleg : illegalOpcode (opcode (headerOf i)) = false) : reservedBitSet (headerOf i) (fixedWordsOf i) = false := by
  have hrow := rowOpcodes_of_legal hwf hleg
  cases i with
  | illegal00 | illegal18 | illegal20 | illegal40 | illegal80 => simp [Laws.rowOpcodes] at hrow
  | _ => simp [reservedBitSet, fixedWordsOf, headerOf, encode, fixedWords, fixedKinds, argKind, ArgKind.reservedBit,
      WordKind.reservedBit, bytes_word4]

/-- A legal command is built from the parts of its packet. -/
theorem buildInstr_encode {i : Instr} (hwf : i.wf = true) (hleg : illegalOpcode (opcode (headerOf i)) = false) :
    buildInstr (headerOf i) (fixedWordsOf i) (varWordsOf i) = i := by
  have hrow := rowOpcodes_of_legal hwf hleg
  cases i with
  | illegal00 | illegal18 | illegal20 | illegal40 | illegal80 => simp [Laws.rowOpcodes] at hrow
  | wrpix payload =>
    simp [buildInstr, varWordsOf, headerOf, encode, fixedWords, fixedKinds, payloadOf_encoded _ hwf]
  | text8 | text16 | tttext | ttwidth =>
    simp [buildInstr, fixedWordsOf, varWordsOf, headerOf, encode, fixedWords, fixedKinds, fixedWord,
      charsOf_encoded _ hwf]
  | _ => simp [buildInstr, fixedWordsOf, headerOf, encode, fixedWords, fixedKinds, fixedWord, bytes_word4]

/-- An illegal command is the row of its header. -/
theorem illegalInstr_headerOf {i : Instr} (hwf : i.wf = true)
    (hill : illegalOpcode (opcode (headerOf i)) = true) : illegalInstr (headerOf i) = i := by
  have hrow := rowOpcodes_of_illegal hwf hill
  obtain ⟨hlow, hhigh⟩ := (headerRow i hwf).1
  cases i with
  | illegal00 low =>
    rw [illegalInstr, if_pos (Nat.le_zero.1 hhigh)]
    exact congrArg _ (extractLsb'_append_low _ low)
  | illegal18 low =>
    simp only [Laws.rowOpcodes] at hlow hhigh
    rw [illegalInstr, if_neg (by omega), if_pos (by omega)]
    exact congrArg _ (extractLsb'_append_low _ low)
  | illegal20 low =>
    simp only [Laws.rowOpcodes] at hlow hhigh
    rw [illegalInstr, if_neg (by omega), if_neg (by omega), if_pos (by omega)]
    exact congrArg _ (extractLsb'_append_low _ low)
  | illegal40 low =>
    simp only [Laws.rowOpcodes] at hlow hhigh
    rw [illegalInstr, if_neg (by omega), if_neg (by omega), if_neg (by omega), if_pos (by omega)]
    exact congrArg _ (extractLsb'_append_low _ low)
  | illegal80 low =>
    simp only [Laws.rowOpcodes] at hlow hhigh
    rw [illegalInstr, if_neg (by omega), if_neg (by omega), if_neg (by omega), if_neg (by omega)]
    exact congrArg _ (extractLsb'_append_low _ low)
  | _ => simp [Laws.rowOpcodes] at hrow

/-- Settles O1: an illegal header is its own packet; the parts of a legal packet are those the decoder takes. -/
theorem decodeOfEncodeIsTheCommand : Obligations.DecodeOfEncodeIsTheCommand := by
  intro i rest hwf
  cases hop : illegalOpcode (opcode (headerOf i)) with
  | true =>
    have hlen := (headerRow i hwf).2
    rw [plen, if_pos hop, encode_eq_headerOf_cons, List.length_cons, Nat.add_eq_right, List.length_eq_zero_iff] at hlen
    rw [encode_eq_headerOf_cons, hlen, List.cons_append, List.nil_append,
      decode_illegal _ _ (illegalOpcode_eq_true.1 hop), illegalInstr_headerOf hwf hop]
  | false =>
    obtain ⟨hfixed, hvar⟩ := parts_length hwf hop
    rw [encode_eq_parts, List.cons_append, List.append_assoc,
      decode_packet _ _ _ _ hop hfixed (reservedBitSet_encode hwf hop) hvar, buildInstr_encode hwf hop]

/-! ### Packet lengths (30_encoding.md R99) -/

theorem argKind_eq_nbytes {opc : Nat} : argKind opc = .nbytes ↔ opc = 0x03 :=
  ⟨opcode_of_nbytes, by rintro rfl; rfl⟩

theorem argKind_eq_nchars {opc : Nat} : argKind opc = .nchars ↔ 0x0D ≤ opc ∧ opc ≤ 0x10 := by
  refine ⟨fun h => ?_, fun ⟨h1, h2⟩ => ?_⟩
  · have := opcode_of_nchars h
    omega
  · interval_cases opc <;> rfl

/-- The fixed words of each opcode, as numbers (R82). -/
theorem fixedWords_table : ∀ opc ≤ 0x17, 1 ≤ opc →
    fixedWords opc = [1, 2, 0, 3, 2, 3, 3, 3, 3, 3, 4, 4, 3, 3, 3, 1, 3, 0, 1, 0, 0, 0, 1].getD (opc - 1) 0 := by
  decide

/-- The counted words of each opcode (R97, R98): only the count enters. -/
theorem varWords_header (opc : Byte) (arg : BitVec 24) :
    varWords (header opc arg) =
      if opc.toNat = 0x03 then (arg.toNat + 3) / 4
      else if 0x0D ≤ opc.toNat ∧ opc.toNat ≤ 0x10 then (arg.toNat % 65536 + 1) / 2 else 0 := by
  have hcount : (lo16 (header opc arg)).toNat = arg.toNat % 65536 := by
    rw [lo16_eq_argOf, argOf_header, BitVec.extractLsb'_toNat, Nat.shiftRight_zero]
  rw [varWords, opcode_header, argOf_header, hcount]
  simp only [← argKind_eq_nbytes, ← argKind_eq_nchars]
  cases argKind opc.toNat <;> rfl

/-- Settles O2: the fixed words by the table, the counted ones by their count. -/
theorem packetLengthTable : Obligations.PacketLengthTable := by
  intro opc arg h1 h2
  have hopc : (BitVec.ofNat 8 opc).toNat = opc := by
    rw [BitVec.toNat_ofNat]
    omega
  rw [Laws.plen_header (by omega) (by omega), varWords_header, hopc, fixedWords_table opc h2 h1]

/-! ### What the decoder takes (R99, R101) -/

/-- What a successful reading is: an illegal header alone, or a legal one without reserved bits and the words it asks
for. -/
theorem decode_eq_ok {h : Word} {t : List Word} {i : Instr} {rest : List Word} (hd : decode (h :: t) = .ok (i, rest)) :
    (illegalOpcode (opcode h) = true ∧ i = illegalInstr h ∧ rest = t) ∨
      ∃ fixed var, illegalOpcode (opcode h) = false ∧ fixed.length = fixedWords (opcode h) ∧
        reservedBitSet h fixed = false ∧ var.length = varWords h ∧ i = buildInstr h fixed var ∧
        t = fixed ++ (var ++ rest) := by
  rw [decode] at hd
  split at hd
  case isTrue hill =>
    cases hd
    exact .inl ⟨hill, rfl, rfl⟩
  case isFalse hleg =>
    split at hd
    · cases hd
    split at hd
    · cases hd
    case isFalse hres =>
      split at hd
      · cases hd
      · cases hd
        refine .inr ⟨_, _, by simpa using hleg, ?_, by simpa using hres, ?_, rfl, ?_⟩
        · rw [List.length_take]
          omega
        · rw [List.length_take]
          omega
        · rw [List.take_append_drop, List.take_append_drop]

theorem charsFit_charsOf (h : Word) (var : List Word) : charsFit (charsOf h var) = true :=
  decide_eq_true ((List.length_take_le _ _).trans_lt (lo16 h).isLt)

theorem payloadFits_payloadOf (h : Word) (var : List Word) : payloadFits (payloadOf h var) = true :=
  decide_eq_true ((List.length_take_le _ _).trans_lt (argOf h).isLt)

theorem illegalInstr_wf (h : Word) : (illegalInstr h).wf = true := by
  obtain ⟨_, h⟩ | ⟨_, h⟩ | ⟨_, h⟩ | ⟨_, h⟩ | ⟨_, h⟩ := illegalInstr_cases h <;> rw [h] <;> rfl

/-- The header's counts bound what is read by them. -/
theorem buildInstr_wf (h : Word) (fixed var : List Word) : (buildInstr h fixed var).wf = true := by
  unfold buildInstr
  simp only
  split
  case h_3 => exact payloadFits_payloadOf h var
  case h_13 | h_14 | h_15 | h_16 => exact charsFit_charsOf h var
  case h_24 => exact illegalInstr_wf h
  all_goals rfl

/-- A header is its opcode and its argument (R81). -/
theorem header_eq {h : Word} {opc : Byte} {arg : BitVec 24} (ho : opcode h = opc.toNat) (ha : arg = argOf h) :
    header opc arg = h := by
  rw [← BitVec.eq_of_toNat_eq (x := opcOf h) (y := opc) ho, ha, header_opcOf_argOf]

/-- What is built from a packet without reserved bits has its header. -/
theorem headerOf_buildInstr {h : Word} {fixed var : List Word} (hleg : illegalOpcode (opcode h) = false)
    (hr : reservedBitSet h fixed = false) (hv : var.length = varWords h) : headerOf (buildInstr h fixed var) = h := by
  have hclear {k : ArgKind} (hk : argKind (opcode h) = k) : k.reservedBit (argOf h) = false :=
    hk ▸ (Bool.or_eq_false_iff.1 hr).1
  have hnone (hk : argKind (opcode h) = .none) : 0 = argOf h := (bne_eq_false_iff_eq.1 (hclear hk)).symm
  have hrot16 (hk : argKind (opcode h) = .rot16) : arg16 (lo16 h) = argOf h :=
    arg16_lo16 h (bne_eq_false_iff_eq.1 (hclear hk))
  have hon (hk : argKind (opcode h) = .on) : argOn (h.getLsbD 0) = argOf h :=
    argOn_getLsbD h (bne_eq_false_iff_eq.1 (hclear hk))
  have hnchars {opc : Byte} (ho : opcode h = opc.toNat) (hk : argKind (opcode h) = .nchars) :
      header opc (arg16 (BitVec.ofNat 16 (charsOf h var).length)) = h :=
    header_of_chars ho (bne_eq_false_iff_eq.1 (hclear hk)) (length_charsOf (by rw [hv, varWords, hk]))
  have hnbytes (hk : argKind (opcode h) = .nbytes) : var.length = ((argOf h).toNat + 3) / 4 := by
    rw [hv, varWords, hk]
  have hlegal := illegalOpcode_eq_false.1 hleg
  unfold buildInstr
  simp only
  split
  case h_1 ho | h_18 ho => exact header_eq ho (hrot16 (by rw [ho]; rfl))
  case h_3 ho => exact header_of_payload ho (length_payloadOf (hnbytes (by rw [ho]; rfl)))
  case h_13 ho | h_14 ho | h_15 ho | h_16 ho => exact hnchars ho (by rw [ho]; rfl)
  case h_20 ho | h_21 ho | h_22 ho => exact header_eq ho (hon (by rw [ho]; rfl))
  -- No legal opcode is left for the last branch.
  case h_24 => grind
  all_goals
    rename_i ho
    exact header_eq ho (hnone (by rw [ho]; rfl))

/-- Settles O3: the two ways to read a command, one after the other. -/
theorem decoderTakesExactlyThePacket : Obligations.DecoderTakesExactlyThePacket := by
  intro h t i rest hd
  obtain ⟨hill, rfl, rfl⟩ | ⟨fixed, var, hleg, hfixed, hres, hvar, rfl, rfl⟩ := decode_eq_ok hd
  · have hlen : plen h = 1 := by rw [plen, if_pos hill]
    refine ⟨illegalInstr_wf h, headerOf_illegalInstr (illegalOpcode_eq_true.1 hill), ?_, ?_⟩
    · omega
    · rw [hlen, Nat.sub_self, List.drop_zero]
  · have hlen : plen h = 1 + (fixed ++ var).length := by
      rw [plen, hleg, if_neg Bool.false_ne_true, List.length_append, hfixed, hvar, Nat.add_assoc]
    refine ⟨buildInstr_wf h fixed var, headerOf_buildInstr hleg hres hvar, ?_, ?_⟩
    · rw [← List.append_assoc, List.length_append, hlen]
      omega
    · rw [← List.append_assoc, hlen, Nat.add_sub_cancel_left, List.drop_left]

/-- Settles O4, packet by packet. -/
theorem specWordsDecode : Obligations.SpecWordsDecode := by
  refine ⟨?_, ?_, ?_, ?_, ?_, ?_, ?_, ?_, ?_⟩ <;> decide

/-! ### Reserved bits (30_encoding.md R101) -/

/-- The mask of some bits of a word. -/
def bitMask (start len : Nat) : Word := (BitVec.allOnes len).setWidth 32 <<< start

theorem bitMask_getLsbD (start len i : Nat) (hi : i < 32) :
    (bitMask start len).getLsbD i = decide (start ≤ i ∧ i < start + len) := by
  rw [bitMask, BitVec.getLsbD_shiftLeft, BitVec.getLsbD_setWidth, BitVec.getLsbD_allOnes, Bool.eq_iff_iff]
  simp only [Bool.and_eq_true, Bool.not_eq_true', decide_eq_true_eq, decide_eq_false_iff_not]
  omega

/-- Some bits of a word are all zero exactly when their mask takes nothing. -/
theorem extractLsb'_eq_zero_iff (start len : Nat) (w : Word) :
    w.extractLsb' start len = 0 ↔ w &&& bitMask start len = 0 := by
  refine ⟨fun h => eq_of_bits fun i hi => ?_, fun h => eq_of_bits fun j hj => ?_⟩
  · rw [BitVec.getLsbD_and, bitMask_getLsbD start len i hi]
    by_cases hin : start ≤ i ∧ i < start + len
    · have hbit := congrArg (·.getLsbD (i - start)) h
      have hzero : w.getLsbD i = false := by
        simpa [show i - start < len by omega, Nat.add_sub_cancel' hin.1] using hbit
      simp [hzero]
    · simp [hin]
  · rw [BitVec.getLsbD_extractLsb']
    by_cases hlt : start + j < 32
    · have hbit := congrArg (·.getLsbD (start + j)) h
      simp only [BitVec.getLsbD_and, bitMask_getLsbD start len _ hlt] at hbit
      simpa [hj] using hbit
    · simp [BitVec.getLsbD_of_ge w (start + j) (by omega)]

/-- The bits of a header that its opcode does not use. -/
def argMask : ArgKind → Word
  | .none => 0x00FFFFFF
  | .rot16 | .nchars => 0x00FF0000
  | .nbytes => 0
  | .on => 0x00FFFFFE

/-- The bits of a fixed operand word that its kind does not use. -/
def wordMask : WordKind → Word
  | .len | .rad | .col => 0xFFFF0000
  | .rgb => 0xFF000000
  | .pt | .sz | .cp | .addr | .idx | .org => 0

/-- The masks of the statement are those of the opcode's fields. -/
theorem reservedMasks_eq : ∀ opc ≤ 0x17, 1 ≤ opc →
    reservedMasks opc = argMask (argKind opc) :: (fixedKinds opc).map wordMask := by
  decide

theorem argReservedBit_iff (k : ArgKind) (h : Word) : k.reservedBit (argOf h) = true ↔ h &&& argMask k ≠ 0 := by
  have hsub (start len : Nat) (hl : start + len ≤ 24) :
      (argOf h).extractLsb' start len = h.extractLsb' start len :=
    eq_of_bits fun i hi => by simp [argOf, hi, show start + i < 24 by omega]
  cases k with
  | none => exact bne_iff_ne.trans (extractLsb'_eq_zero_iff 0 24 h).not
  | rot16 | nchars =>
    rw [ArgKind.reservedBit, hsub 16 8 le_rfl]
    exact bne_iff_ne.trans (extractLsb'_eq_zero_iff 16 8 h).not
  | nbytes => simp [ArgKind.reservedBit, argMask]
  | on =>
    rw [ArgKind.reservedBit, hsub 1 23 le_rfl]
    exact bne_iff_ne.trans (extractLsb'_eq_zero_iff 1 23 h).not

theorem wordReservedBit_iff (k : WordKind) (w : Word) : k.reservedBit w = true ↔ w &&& wordMask k ≠ 0 := by
  cases k with
  | len | rad | col => exact bne_iff_ne.trans (extractLsb'_eq_zero_iff 16 16 w).not
  | rgb => exact bne_iff_ne.trans (extractLsb'_eq_zero_iff 24 8 w).not
  | pt | sz | cp | addr | idx | org => simp [WordKind.reservedBit, wordMask]

theorem any_wordReservedBit_iff (kinds : List WordKind) (fixed : List Word) :
    ((kinds.zip fixed).any fun kw => kw.1.reservedBit kw.2) = true ↔
      ∃ p ∈ fixed.zip (kinds.map wordMask), p.1 &&& p.2 ≠ 0 := by
  induction kinds generalizing fixed with
  | nil => simp
  | cons k kinds ih =>
    cases fixed with
    | nil => simp
    | cons w fixed =>
      rw [List.zip_cons_cons, List.any_cons, Bool.or_eq_true, wordReservedBit_iff, ih, List.map_cons,
        List.zip_cons_cons, List.exists_mem_cons_iff]

/-- The decoder's check says that some bit under the masks of a packet is 1. -/
theorem reservedBitSet_iff {h : Word} (hleg : illegalOpcode (opcode h) = false) (fixed : List Word) :
    reservedBitSet h fixed = true ↔ ∃ p ∈ (h :: fixed).zip (reservedMasks (opcode h)), p.1 &&& p.2 ≠ 0 := by
  obtain ⟨h1, h2⟩ := illegalOpcode_eq_false.1 hleg
  rw [reservedMasks_eq _ h2 h1, List.zip_cons_cons, List.exists_mem_cons_iff, reservedBitSet, Bool.or_eq_true,
    argReservedBit_iff, any_wordReservedBit_iff]

/-! ### The rejection of a packet (60_exceptions.md R282 step 2) -/

/-- A raise in a quiet environment: of the words it skips, those that are there, and the rest waits (R284). -/
theorem State.raise_quiet_partial (e : ErrKind) (hdr : Word) (addr m : Nat) {s : State} (hq : s.quiet) :
    s.raise e hdr addr m =
      { (s.tookVar (min m s.fifo.length)).record e hdr addr with
        todo := if min m s.fifo.length = m then [] else [.skip (m - min m s.fifo.length)]
        phase := if min m s.fifo.length = m then .idle else s.phase } := by
  obtain ⟨hhost, hplat, -⟩ := State.record_env e hdr addr s
  have hphase : (s.record e hdr addr).phase = s.phase := by
    unfold State.record
    split <;> rfl
  rw [State.raise, State.tick_of_quiet (hhost.trans hq.1) (hplat.trans hq.2.1),
    skipWords_quiet m (hhost.trans hq.1) (hplat.trans hq.2.1), hphase]
  simp only [State.tookVar, State.record_tookWords, State.record_fifo]

/-- A packet's fixed part and some words after it. -/
theorem State.tookPacket_tookWords {n k : Nat} {s : State} (hp : s.pkt = []) (mid rest : List Word) :
    (s.tookPacket n mid).tookWords k rest = s.tookPacket (n + k) rest := by
  simp [State.tookPacket, State.tookWords, hp, Nat.sub_sub, BitVec.add_assoc, BitVec.ofNat_add, Function.comp_def]

/-- A rejected packet, its fixed part there: it is popped, and the rejection is raised. -/
theorem step_reserved {s : State} {h : Word} {fixed rest : List Word} (hq : s.quiet) (hb : s.betweenPackets)
    (hleg : illegalOpcode (opcode h) = false) (hlen : fixed.length = fixedWords (opcode h))
    (hfifo : s.fifo = h :: (fixed ++ rest)) (hres : reservedBitSet h fixed = true) :
    step s = .next ((s.tookPacket (1 + fixed.length) rest).raise .reserved h 0 (varWords h)) := by
  obtain ⟨hpkt, htodo, hflight, hhalt⟩ := hb
  have hpart : fixedPart h = 1 + fixed.length := by rw [fixedPart, hleg, if_neg Bool.false_ne_true, hlen]
  have hstream : s.stream = h :: (fixed ++ rest) := by rw [State.stream, hpkt, hfifo]; rfl
  have hdec : decode s.stream = .error .reserved := by rw [hstream, decode_fixed hleg hlen, if_pos hres]
  have hdrop : s.fifo.drop (1 + fixed.length) = rest := by simp [hfifo, Nat.add_comm 1]
  obtain ⟨htaken, -, hseen⟩ := State.takeWord_iterate (1 + fixed.length) s
  have hfirst : fixedWord (State.takeWord^[1 + fixed.length] s).pkt 0 = h := by
    rw [htaken, hpkt, hfifo, Nat.add_comm]
    rfl
  have hfree : (s.tookPacket (1 + fixed.length) rest).enter.envDue = false := State.envDue_of_quiet hq.1 hq.2.1
  rw [step_eq_engine (State.envDue_of_quiet hq.1 hq.2.1), engine_eq_fetch hflight hhalt htodo,
    fetch_quiet hq hstream (by rw [hpkt]; exact Nat.zero_le _) (by rw [hpart, List.length_append]; omega),
    hpkt, hpart, List.length_nil, Nat.sub_zero, decidePacket, hseen, hdec]
  simp only [hfirst]
  rw [State.takeWord_iterate_tookPacket hq hpkt (by omega) (by rw [hfifo]; simp; omega), hdrop, State.startText,
    runActs_raise hfree]
  rfl

/-- Settles O5: the masks are the decoder's check, and the rejection skips the counted words that are there. -/
theorem reservedBitRejectsThePacket : Obligations.ReservedBitRejectsThePacket := by
  intro s h fixed rest k hq hb h1 h2 hlen hfifo hset hk
  have hleg : illegalOpcode (opcode h) = false := illegalOpcode_eq_false.2 ⟨h1, h2⟩
  have hfixed : fixed.length = fixedWords (opcode h) := by
    rw [reservedMasks_eq _ h2 h1, List.length_cons, List.length_map] at hlen
    exact Nat.succ.inj hlen
  rw [step_reserved hq hb hleg hfixed hfifo ((reservedBitSet_iff hleg fixed).2 hset),
    State.raise_quiet_partial _ _ _ _ (s := s.tookPacket _ _) hq,
    show (s.tookPacket (1 + fixed.length) rest).fifo = rest from rfl, ← hk, State.tookVar,
    State.tookPacket_tookWords hb.1]
  rfl

/-! ### An illegal header halts the engine (60_exceptions.md R285) -/

/-- A halt in a quiet environment (60_exceptions.md R285). -/
theorem drain_halt_quiet (k : TextRun → State → State) (hdr : Word) {s : State} (hq : s.quiet) :
    drain k (illegalActs hdr) s.enter =
      { s.record .opcode hdr 0 with halted := true, todo := [], phase := .idle } := by
  rw [illegalActs, drain_quiet k _ (s := s.enter) hq (by simp [Action.simple]), applyAll_cons, applyAll_nil,
    Action.apply, State.record_enter]
  rfl

/-- Settles O10: the one action of each is the halt. -/
theorem illegalHeadersHalt : Obligations.IllegalHeadersHalt := by
  intro s hq
  refine ⟨fun low => ?_, fun low => ?_, fun low => ?_, fun low => ?_, fun low => ?_⟩
  all_goals
    rw [exec_eq_drain]
    exact congrArg _ (drain_halt_quiet _ _ hq)

/-! ### WRPIX (41_window_blit.md R165) -/

/-- Settles O23: the words are popped, then the payload is one event. -/
theorem wrpixSendsThePayload : Obligations.WrpixSendsThePayload := by
  intro payload s hq hready _
  have hacts : commandActs (.wrpix payload) s = bodyActs s (.wrpix payload) := by
    rw [commandActs, requireReady, if_pos hready, ite_self]
  have hsimple : Every (·.simple = true) (bodyActs s (.wrpix payload)) := by
    rw [bodyActs, every_append]
    exact ⟨fun a ha => (List.mem_replicate.1 ha).2 ▸ rfl, by simp [dataAct, Action.simple]⟩
  rw [exec_eq_drain, hacts, drain_quiet _ _ (s := s.enter) hq hsimple, bodyActs, applyAll_append, applyAll_pops]
  rfl

end Sys2Proof.Machine

/-! Panel control and colour (O16 to O21): a quiet command is its actions one after the other, and what those of
40_panel_control.md are is said in the numbers of the spec. -/

namespace Sys2Proof.Machine

/-! ### A command in a quiet environment -/

/-- A command that READY does not reject, and none of whose actions waits or ends it, runs to its end. -/
theorem exec_of_simple {i : Instr} {s : State} (hq : s.quiet) (hready : requiresReadyInstr i = true → s.ready = true)
    (hsimple : Every (·.simple = true) (bodyActs s i)) :
    exec i s = .next (applyAll (bodyActs s i) s.enter).endCommand := by
  have hacts : commandActs i s = bodyActs s i := by
    rw [commandActs]
    split
    next hreq => exact requireReady_of_ready (hready hreq)
    next => rfl
  rw [exec_eq_drain, hacts, drain_quiet _ _ (s := s.enter) hq hsimple]

/-- A command that requires READY and has no counted words, READY clear (60_exceptions.md R282 step 3). -/
theorem exec_unready {i : Instr} {s : State} {hdr : Word} {rest : List Word} (hq : s.quiet) (hready : s.ready = false)
    (hreq : requiresReadyInstr i = true) (hvar : varCount i = 0) (henc : encode i = hdr :: rest) :
    exec i s = .next (s.failed .uninit hdr 0) := by
  have h := uninitialisedCommandsAreRejected i s hreq hready hq (by omega)
  rwa [hvar, State.tookVar_zero, headerOf, henc, List.headD_cons] at h

/-- A command that is one command byte, READY set. -/
theorem exec_cmdAct {i : Instr} {s : State} {c : Byte} (hq : s.quiet) (hready : s.ready = true)
    (hbody : bodyActs s i = [cmdAct c]) : exec i s = .next (s.drawn [.cmd c] s.tbuf) := by
  rw [exec_of_simple hq (fun _ => hready) (by simp [hbody, cmdAct, Action.simple]), hbody]
  rfl

/-! ### Words as numbers (30_encoding.md R81, R92, R96) -/

/-- A word is its number. -/
theorem eq_ofNat {n k : Nat} {x : BitVec n} (h : x.toNat = k) : x = BitVec.ofNat n k := by
  rw [← h, BitVec.ofNat_toNat, BitVec.setWidth_eq]

/-- A header whose argument is the `ON` bit. -/
theorem header_argOn_eq_ofNat (opc : Byte) (on : Bool) :
    header opc (argOn on) = BitVec.ofNat 32 (opc.toNat * 16777216 + on.toNat) :=
  eq_ofNat <| by simp only [header, argOn, toNat_append]; simp

/-- The `RGB` word (R92). -/
theorem word4_rgb_eq_ofNat (r g b : Byte) :
    word4 0 r g b = BitVec.ofNat 32 (r.toNat * 65536 + g.toNat * 256 + b.toNat) :=
  eq_ofNat <| by simp only [word4, toNat_append]; simp; omega

/-! ### Rotation (R124, R125) -/

/-- The rotation code of a request in numbers (30_encoding.md R95). -/
theorem rotOf_toNat (v : Half) : (rotOf v).toNat = v.toNat % 8 := by
  simp [rotOf, BitVec.extractLsb'_toNat]

theorem rotOf_eq (v : Half) : rotOf v = BitVec.ofNat 3 (v.toNat % 8) := eq_ofNat (rotOf_toNat v)

/-- The extent of a request's code: swapped exactly when the code is odd (R125). -/
theorem extentOf_rotOf (v nativeW nativeH : Half) :
    extentOf (rotOf v) nativeW nativeH = (rotatedWidth v nativeW nativeH, rotatedHeight v nativeW nativeH) := by
  have hodd : (rotOf v).getLsbD 0 = decide (v.toNat % 8 % 2 = 1) := by
    rw [BitVec.getLsbD, rotOf_toNat, Nat.testBit_zero]
  simp only [extentOf, rotatedWidth, rotatedHeight, hodd, decide_eq_true_eq]
  split <;> rfl

/-- The orientation byte of a request's code (R125). -/
theorem madctl_rotOf (cfg : Config) (v : Half) : cfg.madctl[(rotOf v).toFin] = madctlOf cfg v := by
  have hv : v.toNat % 8 < cfg.madctl.toList.length := by simp; omega
  rw [madctlOf, List.getD_eq_getElem _ _ hv, Vector.getElem_toList]
  simp only [Fin.getElem_fin, BitVec.val_toFin, rotOf_toNat]

/-- `ROTATE(v)` (R124): the code and its extent, then one event. -/
theorem rotateActs_eq (cfg : Config) (v nativeW nativeH : Half) :
    rotateActs cfg v nativeW nativeH =
      [.setRot (BitVec.ofNat 3 (v.toNat % 8)),
        .setExtent (rotatedWidth v nativeW nativeH) (rotatedHeight v nativeW nativeH)] ++
        [Event.cmdData 0x36 [madctlOf cfg v]].map .emit := by
  simp only [rotateActs, extentOf_rotOf, madctl_rotOf]
  rw [rotOf_eq]
  rfl

/-! ### INIT (R121) -/

theorem waitActs_eq (ms : Nat) : waitActs ms = (delayEvents ms).map .emit := by
  unfold waitActs delayEvents
  split <;> rfl

theorem vendorActs_eq (item : VendorItem) : vendorActs item = (vendorEvents item).map .emit := by
  cases item with
  | send c payload => cases payload <;> rfl
  | delay ms => exact waitActs_eq ms

theorem vendorInit_eq (items : List VendorItem) :
    items.flatMap vendorActs = (items.flatMap vendorEvents).map .emit := by
  simp [List.map_flatMap, funext vendorActs_eq]

/-- INIT's events before `ROTATE` (R121): the reset pulse, the two commands and COLMOD. -/
def wakeEvents (cfg : Config) : List Event :=
  (.pinRst false :: delayEvents cfg.tRst[0].val) ++ (.pinRst true :: delayEvents cfg.tRst[1].val) ++
  (.pinRst false :: delayEvents cfg.tRst[2].val) ++ (.pinRst true :: delayEvents cfg.tRst[3].val) ++
  (.cmd 0x01 :: delayEvents cfg.tSwreset.val) ++ (.cmd 0x11 :: delayEvents cfg.tSlpout.val) ++
  [.cmdData 0x3A [cfg.colmod16bpp]]

/-- INIT's events after `ROTATE` and up to the clear (R121). -/
def settleEvents (cfg : Config) : List Event :=
  cfg.vendorInit.flatMap vendorEvents ++ delayEvents cfg.tSettle.val

theorem bringUpEvents_eq (cfg : Config) (v : Half) :
    bringUpEvents cfg v = wakeEvents cfg ++ [.cmdData 0x36 [madctlOf cfg v]] ++ settleEvents cfg := by
  simp [bringUpEvents, wakeEvents, settleEvents]

/-- The extent and origin at INIT's clear (R121, R125). -/
def clearGeometry (v nw nh : Half) : Geometry where
  width := rotatedWidth v nw nh
  height := rotatedHeight v nw nh
  xstart := 0
  ystart := 0

/-- INIT's actions, its events gathered between the register writes (R121). -/
theorem initActs_eq (cfg : Config) (v nw nh : Half) :
    initActs cfg v nw nh =
      [.setNative nw nh, .setOrigin 0 0] ++ (wakeEvents cfg).map .emit ++ rotateActs cfg v nw nh ++
        (settleEvents cfg).map .emit ++
        fillActs (clearGeometry v nw nh) 0 0 (rotatedWidth v nw nh).toNat (rotatedHeight v nw nh).toNat 0 ++
        [.setReady] := by
  simp only [initActs, wakeEvents, settleEvents, clearGeometry, extentOf_rotOf, waitActs_eq, vendorInit_eq,
    List.map_append, List.map_cons, List.map_nil, pinAct, cmdAct, cmdDataAct, List.append_assoc]

/-- INIT's state before the clear (R121): its registers but READY are written, and its events up to there are out. -/
def State.beforeClear (v nw nh : Half) (s : State) : State :=
  { s.emitAll (bringUpEvents s.cfg v) with
    nativeW := nw, nativeH := nh, xstart := 0, ystart := 0
    rot := BitVec.ofNat 3 (v.toNat % 8)
    width := rotatedWidth v nw nh, height := rotatedHeight v nw nh }

theorem applyAll_bringUp (v nw nh : Half) (s : State) :
    applyAll ([.setNative nw nh, .setOrigin 0 0] ++ (wakeEvents s.cfg).map .emit ++ rotateActs s.cfg v nw nh ++
      (settleEvents s.cfg).map .emit) s = s.beforeClear v nw nh := by
  simp only [rotateActs_eq, State.beforeClear, bringUpEvents_eq, applyAll_append, applyAll_emits, State.emitAll_append]
  rfl

/-- INIT in a quiet environment: the clear at the new extent (R166, R175), then READY. -/
theorem applyAll_initActs (v nw nh : Half) (s : State) :
    applyAll (initActs s.cfg v nw nh) s =
      { (s.beforeClear v nw nh).emitAll ((s.beforeClear v nw nh).fillEvents 0 0
          (rotatedWidth v nw nh).toNat (rotatedHeight v nw nh).toNat 0) with
        tbuf := tbufAfter 0 ((rotatedWidth v nw nh).toNat * (rotatedHeight v nw nh).toNat) s.tbuf
        ready := true } := by
  have hclear := applyAll_fillActs (s.beforeClear v nw nh) 0 0 (rotatedWidth v nw nh).toNat
    (rotatedHeight v nw nh).toNat 0
  rw [initActs_eq, applyAll_append, applyAll_append, applyAll_bringUp,
    show clearGeometry v nw nh = (s.beforeClear v nw nh).geom from rfl, hclear]
  rfl

theorem every_simple_emits (evs : List Event) : Every (·.simple = true) (evs.map .emit) := fun a ha => by
  obtain ⟨e, -, rfl⟩ := List.mem_map.1 ha
  rfl

theorem every_simple_initActs (cfg : Config) (v nw nh : Half) : Every (·.simple = true) (initActs cfg v nw nh) := by
  rw [initActs_eq, rotateActs_eq]
  simp only [every_append]
  exact ⟨⟨⟨⟨⟨by simp [Action.simple], every_simple_emits _⟩, by simp [Action.simple], every_simple_emits _⟩,
    every_simple_emits _⟩, fillActs_simple _ _ _ _ _ _⟩, by simp [Action.simple]⟩

/-- Settles O16: what INIT sends depends on the new extent and origin alone. -/
theorem initBringsUpThePanel : Obligations.InitBringsUpThePanel := by
  intro v nw nh s hq
  rw [exec_of_simple (i := .init v nw nh) hq (by simp [requiresReadyInstr]) (every_simple_initActs _ _ _ _), bodyActs,
    show s.cfg = s.enter.cfg from rfl, applyAll_initActs]
  have hfill := State.fillEvents_congr (s := s.enter.beforeClear v nw nh)
    (t := { s with
      xstart := 0, ystart := 0, width := rotatedWidth v nw nh, height := rotatedHeight v nw nh }) rfl
  rw [hfill, State.emitAll_append]
  rfl

/-! ### SETROT, SETORG and the toggles (R124 to R129) -/

/-- Settles O17: `ROTATE` in numbers. -/
theorem setrotRotates : Obligations.SetrotRotates := by
  intro v s hq
  have henc : encode (.setrot v) = [BitVec.ofNat 32 (0x12000000 + v.toNat)] := by
    have h := header_arg16_eq 0x12 v.toNat v.isLt
    rw [BitVec.ofNat_toNat, BitVec.setWidth_eq] at h
    rw [encode, h]
    rfl
  refine ⟨henc, fun hready => ?_, fun hready => exec_unready hq hready rfl rfl henc⟩
  rw [exec_of_simple hq (fun _ => hready) (by simp [bodyActs, rotateActs_eq, Action.simple]), bodyActs, rotateActs_eq]
  rfl

/-- Settles O18: the pair is written in one action. -/
theorem setorgSetsTheOrigin : Obligations.SetorgSetsTheOrigin := by
  intro xs ys s hq
  have henc : encode (.setorg xs ys) = [0x13000000, xs ++ ys] := rfl
  refine ⟨henc, fun hready => ?_, fun hready => exec_unready hq hready rfl rfl henc⟩
  rw [exec_of_simple hq (fun _ => hready) (by simp [bodyActs, Action.simple]), bodyActs]
  rfl

/-- Settles O19: each is one command byte. -/
theorem togglesSendOneCommand : Obligations.TogglesSendOneCommand := by
  intro on s hq
  have hsleep : encode (.sleep on) = [BitVec.ofNat 32 (0x14000000 + on.toNat)] :=
    congrArg (fun w => [w]) (header_argOn_eq_ofNat 0x14 on)
  have hinvert : encode (.invert on) = [BitVec.ofNat 32 (0x15000000 + on.toNat)] :=
    congrArg (fun w => [w]) (header_argOn_eq_ofNat 0x15 on)
  have hdisplay : encode (.display on) = [BitVec.ofNat 32 (0x16000000 + on.toNat)] :=
    congrArg (fun w => [w]) (header_argOn_eq_ofNat 0x16 on)
  exact ⟨⟨hsleep, hinvert, hdisplay⟩,
    fun hready => ⟨exec_cmdAct hq hready rfl, exec_cmdAct hq hready rfl, exec_cmdAct hq hready rfl⟩,
    fun hready => ⟨exec_unready hq hready rfl rfl hsleep, exec_unready hq hready rfl rfl hinvert,
      exec_unready hq hready rfl rfl hdisplay⟩⟩

/-! ### Colour (R130, R131) -/

/-- The packed colour as a number (R131). -/
theorem rgb565_toNat (r g b : Byte) :
    (rgb565 r g b).toNat = r.toNat / 8 * 2048 + g.toNat / 4 * 32 + b.toNat / 8 := by
  have hr := r.isLt
  have hg := g.isLt
  have hb := b.isLt
  simp only [rgb565, toNat_append, BitVec.extractLsb'_toNat, Nat.shiftRight_eq_div_pow]
  omega

/-- Settles O20: the one action writes the colour's number. -/
theorem rgb565SetsTheResult : Obligations.Rgb565SetsTheResult := by
  intro r g b s hq
  have hcolor : (rgb565 r g b).setWidth 32 =
      BitVec.ofNat 32 (r.toNat / 8 * 2048 + g.toNat / 4 * 32 + b.toNat / 8) := by
    rw [← rgb565_toNat, BitVec.ofNat_toNat]
  refine ⟨by rw [encode, word4_rgb_eq_ofNat]; rfl, ?_⟩
  rw [exec_of_simple hq (by simp [requiresReadyInstr]) (by simp [bodyActs, Action.simple]), bodyActs, hcolor]
  rfl

/-- The bits of the packed colour (R131): blue in 4..0, green in 10..5, red above. -/
theorem rgb565_getLsbD (r g b : Byte) {i : Nat} (hi : i < 16) :
    (rgb565 r g b).getLsbD i =
      if i < 5 then b.getLsbD (i + 3) else if i < 11 then g.getLsbD (i - 3) else r.getLsbD (i - 8) := by
  simp only [rgb565, BitVec.getLsbD_append, BitVec.getLsbD_extractLsb']
  grind

/-- The masks of R131 keep the top five bits of a byte and the top six. -/
theorem masks_getLsbD : ∀ i < 16, (0xF8 : Half).getLsbD i = decide (3 ≤ i ∧ i < 8) ∧
    (0xFC : Half).getLsbD i = decide (2 ≤ i ∧ i < 8) := by
  decide

/-- The packed colour as shifts and masks (R131): in each of the three fields the two other terms are 0. -/
theorem rgb565_eq_masks (r g b : Byte) :
    rgb565 r g b = ((r.setWidth 16 &&& 0xF8) <<< 8) ||| ((g.setWidth 16 &&& 0xFC) <<< 3) ||| (b.setWidth 16 >>> 3) := by
  refine eq_of_bits fun i hi => ?_
  have hmask5 := (masks_getLsbD (i - 8) (by omega)).1
  have hmask6 := (masks_getLsbD (i - 3) (by omega)).2
  rw [rgb565_getLsbD r g b hi]
  simp only [BitVec.getLsbD_or, BitVec.getLsbD_shiftLeft, BitVec.getLsbD_and, BitVec.getLsbD_ushiftRight,
    BitVec.getLsbD_setWidth, hmask5, hmask6]
  split
  next blue => grind
  next =>
    split
    next green => grind
    next red => grind

/-- Packing the components of a colour gives the colour (R131). -/
theorem rgb565_decoded (c : Half) :
    rgb565 ((c.extractLsb 15 11).setWidth 8 <<< 3) ((c.extractLsb 10 5).setWidth 8 <<< 2)
      ((c.extractLsb 4 0).setWidth 8 <<< 3) = c := by
  have hc := c.isLt
  apply BitVec.eq_of_toNat_eq
  rw [rgb565_toNat]
  simp only [BitVec.toNat_shiftLeft, BitVec.toNat_setWidth, BitVec.extractLsb_toNat, Nat.shiftLeft_eq,
    Nat.shiftRight_eq_div_pow]
  omega

/-- Settles O21: the model's concatenation is R131's, its bits are those of the masked form, and its number is that of the
decoded colour. -/
theorem rgb565PacksTopBits : Obligations.Rgb565PacksTopBits :=
  ⟨fun r g b => ⟨rfl, rgb565_eq_masks r g b⟩, rgb565_decoded⟩

end Sys2Proof.Machine

/-! The window and the fill (O22, O24 to O28): each command is one `WINDOW` or one `FILL`, and the data of a fill is its
chunks, whose bytes are one run of pixels. -/

namespace Sys2Proof.Machine

/-! ### Commands that are one window or one fill (41_window_blit.md R164, R171 to R174) -/

/-- A command whose actions are events, READY set. -/
theorem exec_of_events {i : Instr} {s : State} {evs : List Event} (hq : s.quiet) (hready : s.ready = true)
    (hbody : bodyActs s i = evs.map .emit) : exec i s = .next (s.drawn evs s.tbuf) := by
  rw [exec_of_simple hq (fun _ => hready) (hbody ▸ every_simple_emits evs), hbody, applyAll_emits]
  rfl

/-- A command whose actions are those of one fill, READY set (R166, R175). -/
theorem exec_of_fill {i : Instr} {s : State} {x y : Int} {w h : Nat} {color : Half} (hq : s.quiet)
    (hready : s.ready = true) (hbody : bodyActs s i = fillActs s.geom x y w h color) :
    exec i s = .next (s.drawn (s.fillEvents x y w h color) (tbufAfter color (w * h) s.tbuf)) := by
  have hgeom : s.enter.geom = s.geom := rfl
  have hfill := applyAll_fillActs s.enter x y w h color
  rw [hgeom, State.fillEvents_congr hgeom] at hfill
  rw [exec_of_simple hq (fun _ => hready) (hbody ▸ fillActs_simple _ _ _ _ _ _), hbody, hfill]
  rfl

/-- Settles O22: its actions are the window's events. -/
theorem setwinIssuesTheWindow : Obligations.SetwinIssuesTheWindow := by
  intro x0 y0 x1 y1 s hq
  have henc : encode (.setwin x0 y0 x1 y1) = [0x02000000, x0 ++ y0, x1 ++ y1] := rfl
  exact ⟨henc, fun hready => exec_of_events hq hready (windowActs_eq s _ _ _ _),
    fun hready => exec_unready hq hready rfl rfl henc⟩

/-- Settles O24: its actions are one fill. -/
theorem fillrectFills : Obligations.FillrectFills := by
  intro x y w h color s hq
  have henc : encode (.fillrect x y w h color) = [0x04000000, x ++ y, w ++ h, (0 : Half) ++ color] := rfl
  exact ⟨henc, fun hready => exec_fillrect hq hready, fun hready => exec_unready hq hready rfl rfl henc⟩

/-- What PIXEL leaves with READY set: a fill of one pixel, which is not empty (R167, R172). -/
theorem exec_pixel {x y color : Half} {s : State} (hq : s.quiet) (hready : s.ready = true) :
    exec (.pixel x y color) s =
      .next (s.drawn (s.fillEvents x.toInt y.toInt 1 1 color) (Vector.replicate 1024 color)) :=
  exec_of_fill hq hready rfl

/-- Settles O25: its actions are those of a fill of one pixel. -/
theorem pixelIsAOnePixelFill : Obligations.PixelIsAOnePixelFill := by
  intro x y color s hq
  have henc : encode (.pixel x y color) = [0x05000000, x ++ y, (0 : Half) ++ color] := rfl
  exact ⟨henc, fun hready => exec_pixel hq hready, fun hready => exec_unready hq hready rfl rfl henc⟩

/-- Settles O26: a fill one row high or one column wide has as many pixels as it is long. -/
theorem spansAreOneRowOrColumn : Obligations.SpansAreOneRowOrColumn := by
  intro x y len color s hq
  have hrow : encode (.hline x y len color) = [0x06000000, x ++ y, (0 : Half) ++ len, (0 : Half) ++ color] := rfl
  have hcol : encode (.vline x y len color) = [0x07000000, x ++ y, (0 : Half) ++ len, (0 : Half) ++ color] := rfl
  refine ⟨hrow, hcol, fun hready => ⟨?_, ?_⟩,
    fun hready => ⟨exec_unready hq hready rfl rfl hrow, exec_unready hq hready rfl rfl hcol⟩⟩
  · have hfill := exec_of_fill (i := .hline x y len color) (w := len.toNat) (h := 1) hq hready rfl
    rwa [Nat.mul_one] at hfill
  · have hfill := exec_of_fill (i := .vline x y len color) (w := 1) (h := len.toNat) hq hready rfl
    rwa [Nat.one_mul] at hfill

/-! ### The window's events (R161) -/

/-- A window that is accepted is a column, a row and a memory-write event. -/
theorem State.windowEvents_of_accepts {s : State} {x0 y0 x1 y1 : Int} (h : s.accepts x0 y0 x1 y1) :
    ∃ cols rows, s.windowEvents x0 y0 x1 y1 = [.cmdData 0x2A cols, .cmdData 0x2B rows, .cmd 0x2C] :=
  ⟨_, _, if_pos h⟩

/-- A window that is dropped is no event. -/
theorem State.windowEvents_of_not_accepts {s : State} {x0 y0 x1 y1 : Int} (h : ¬s.accepts x0 y0 x1 y1) :
    s.windowEvents x0 y0 x1 y1 = [] :=
  if_neg h

/-- A window of one position is accepted where the position is inside the extent, its ends included (R162, R168). -/
theorem State.accepts_position_iff {s : State} {x y : Int} :
    s.accepts x y x y ↔ (0 ≤ x ∧ x ≤ s.width.toNat) ∧ (0 ≤ y ∧ y ≤ s.height.toNat) := by
  simp only [State.accepts, le_refl, true_and]

/-! ### The chunks of a fill (R166, R169, R170) -/

/-- The byte lists of a fill's data transactions: full buffers of 1024 pixels, then the remainder. -/
def fillChunks (color : Half) (n : Nat) : List (List Byte) :=
  List.replicate (n / 1024) (pixelRun color 1024) ++ (if n % 1024 = 0 then [] else [pixelRun color (n % 1024)])

/-- A fill is its window, then its chunks. -/
theorem State.fillEvents_eq_chunks (s : State) (x y : Int) (w h : Nat) (color : Half) :
    s.fillEvents x y w h color =
      s.windowEvents x y (x + w - 1) (y + h - 1) ++ (fillChunks color (w * h)).map .data := by
  rw [State.fillEvents, fillChunks, List.append_assoc, List.map_append, List.map_replicate, apply_ite (List.map _)]
  rfl

/-- A fill of one pixel is the window of its position and the pixel (R167). -/
theorem State.fillEvents_pixel (s : State) (x y : Int) (color : Half) :
    s.fillEvents x y 1 1 color = s.windowEvents x y x y ++ [.data (bytesOfNat16 color.toNat)] := by
  rw [State.fillEvents_eq_chunks, Nat.cast_one, Int.add_sub_cancel, Int.add_sub_cancel]
  rfl

/-- A pixel is two bytes. -/
@[simp] theorem length_pixelRun (color : Half) (n : Nat) : (pixelRun color n).length = 2 * n := by
  rw [pixelRun, List.length_flatten, List.map_replicate, List.sum_replicate_nat, Nat.mul_comm]
  rfl

theorem pixelRun_add (color : Half) (m n : Nat) : pixelRun color (m + n) = pixelRun color m ++ pixelRun color n := by
  rw [pixelRun, List.replicate_add, List.flatten_append]
  rfl

/-- Several runs of equal length are one run. -/
theorem flatten_replicate_pixelRun (color : Half) (k n : Nat) :
    (List.replicate k (pixelRun color n)).flatten = pixelRun color (k * n) := by
  induction k with
  | zero => rw [Nat.zero_mul]; rfl
  | succ k ih => rw [List.replicate_succ, List.flatten_cons, ih, ← pixelRun_add, Nat.succ_mul, Nat.add_comm]

/-- The chunks' lengths: full buffers are 2048 bytes, a remainder two bytes a pixel (R169). -/
theorem map_length_fillChunks (color : Half) (n : Nat) :
    (fillChunks color n).map List.length =
      List.replicate (n / 1024) 2048 ++ (if n % 1024 = 0 then [] else [2 * (n % 1024)]) := by
  rw [fillChunks, List.map_append, List.map_replicate, length_pixelRun, apply_ite (List.map _), List.map_singleton,
    length_pixelRun]
  rfl

/-- The chunks together are one run of all the pixels (R170). -/
theorem flatten_fillChunks (color : Half) (n : Nat) : (fillChunks color n).flatten = pixelRun color n := by
  have hlast : (if n % 1024 = 0 then [] else [pixelRun color (n % 1024)]).flatten = pixelRun color (n % 1024) := by
    split
    next hzero => rw [hzero]; rfl
    next => exact List.flatten_singleton
  rw [fillChunks, List.flatten_append, flatten_replicate_pixelRun, hlast, ← pixelRun_add, Nat.div_add_mod']

/-! ### Event counts (R168, R170) -/

@[simp] theorem State.drawn_trace (evs : List Event) (tbuf : Vector Half 1024) (s : State) :
    (s.drawn evs tbuf).trace = s.trace ++ evs :=
  rfl

/-- Settles O27: the window of one position is accepted or dropped, and the fill's data is the pixel. -/
theorem pixelEventCount : Obligations.PixelEventCount := by
  intro x y color s t hq hready ht
  rw [exec_pixel hq hready] at ht
  cases ht
  rw [State.drawn_trace, State.fillEvents_pixel, ← State.accepts_position_iff]
  refine ⟨fun haccept => ?_, fun hdrop => ?_⟩
  · obtain ⟨cols, rows, hwindow⟩ := State.windowEvents_of_accepts haccept
    exact ⟨cols, rows, by rw [hwindow]; rfl⟩
  · rw [State.windowEvents_of_not_accepts hdrop, List.nil_append]

/-- Settles O28: quotient and remainder of the count are `k` and `r`; the chunks have these lengths and are one run. -/
theorem gearboxLaw : Obligations.GearboxLaw := by
  intro x y w h color s t k r hq hready hcount hr ht
  rw [exec_fillrect hq hready] at ht
  cases ht
  have hdiv : w.toNat * h.toNat / 1024 = k := by omega
  have hmod : w.toNat * h.toNat % 1024 = r := by omega
  refine ⟨s.windowEvents x.toInt y.toInt (x.toInt + w.toNat - 1) (y.toInt + h.toNat - 1),
    fillChunks color (w.toNat * h.toNat), ?trace, ?window, ?lengths, flatten_fillChunks color _⟩
  case trace => rw [State.drawn_trace, State.fillEvents_eq_chunks, List.append_assoc]
  case window =>
    by_cases haccept : s.accepts x.toInt y.toInt (x.toInt + w.toNat - 1) (y.toInt + h.toNat - 1)
    · exact .inr (State.windowEvents_of_accepts haccept)
    · exact .inl (State.windowEvents_of_not_accepts haccept)
  case lengths =>
    rw [map_length_fillChunks, hdiv, hmod]
    simp only [Nat.pos_iff_ne_zero, ite_not]

end Sys2Proof.Machine

/-! Shapes (O29 to O37): each command is a plot list (42_raster.md R200), and a plot list is the pixels or the spans of
the closed forms of Laws/Raster. What the lists of the circles and of FTRI are like is said of the closed forms, where
no loop is left. -/

namespace Sys2Proof.Machine

/-! ### Commands that are one plot list (42_raster.md R200) -/

/-- Every action of a plot list of lengths at least 1 is one that `drain` performs and goes on. -/
theorem plotActs_simple {plots : List Plot} (hsized : ∀ p ∈ plots, p.sized) (g : Geometry) (color : Half) :
    Every (·.simple = true) (plotActs g color plots) := by
  rw [plotActs_eq_fillsActs g color plots hsized]
  exact fillsActs_simple g color _

theorem Plot.hspan_sized_iff (x y : Int) (n : Nat) : (Plot.hspan x y n).sized ↔ 1 ≤ n := Int.ofNat_le (m := 1)

theorem Plot.vspan_sized_iff (x y : Int) (n : Nat) : (Plot.vspan x y n).sized ↔ 1 ≤ n := Int.ofNat_le (m := 1)

/-- A command that makes one plot of length at least 1 for each entry of a list, READY set (R175, R200). -/
theorem exec_of_plots {α : Type} {i : Instr} {s : State} {color : Half} {entries : List α} (plot : α → Plot)
    (hq : s.quiet) (hready : s.ready = true) (hbody : bodyActs s i = plotActs s.geom color (entries.map plot))
    (hne : entries ≠ []) (hsized : ∀ a ∈ entries, (plot a).sized) :
    exec i s = .next (s.drawn
      (entries.flatMap fun a =>
        s.fillEvents (plot a).args.1 (plot a).args.2.1 (plot a).args.2.2.1 (plot a).args.2.2.2 color)
      (Vector.replicate 1024 color)) := by
  have hplots : ∀ p ∈ entries.map plot, p.sized := List.forall_mem_map.2 hsized
  have hsimple := plotActs_simple hplots s.geom color
  have hstart := start_plotActs color (entries.map plot) hq (by simpa using hne) hplots
  rw [State.start, drain_quiet _ _ (s := s.enter) hq hsimple, State.fillsEvents, List.map_map,
    List.flatMap_map] at hstart
  rw [exec_of_simple hq (fun _ => hready) (hbody ▸ hsimple), hbody, hstart]
  rfl

/-- A command that plots pixels (R200). -/
theorem exec_of_pixels {i : Instr} {s : State} {color : Half} {points : List (Int × Int)} (hq : s.quiet)
    (hready : s.ready = true) (hbody : bodyActs s i = plotActs s.geom color (points.map fun p => .pixel p.1 p.2))
    (hne : points ≠ []) :
    exec i s = .next (s.drawn (s.pixelEvents color points) (Vector.replicate 1024 color)) := by
  have hplots := exec_of_plots (fun p => .pixel p.1 p.2) hq hready hbody hne fun _ _ => trivial
  simpa only [Plot.args, State.pixelEvents] using hplots

theorem State.pixelEvents_append (s : State) (color : Half) (points more : List (Int × Int)) :
    s.pixelEvents color (points ++ more) = s.pixelEvents color points ++ s.pixelEvents color more :=
  List.flatMap_append

/-! ### LINE and TRI (R201, R204, R207) -/

/-- Settles O29: the loop's plot list is the closed form's pixels, and there is at least one. -/
theorem linePlotsItsPixels : Obligations.LinePlotsItsPixels := by
  intro x0 y0 x1 y1 color s hq hready
  exact exec_of_pixels hq hready (congrArg (plotActs s.geom color) (linePlots_eq ..)) (linePixels_ne_nil _ _ _ _)

/-- Once the endpoints are put in order their first order is lost, unless they share the major coordinate and differ in
the other (R201). -/
theorem lineOrdered_comm (steep : Bool) {x0 y0 x1 y1 : Int} (h : x0 = x1 → y0 = y1) :
    lineOrdered steep x0 y0 x1 y1 = lineOrdered steep x1 y1 x0 y0 := by
  unfold lineOrdered
  obtain hlt | heq | hgt := lt_trichotomy x0 x1
  · rw [if_pos hlt, if_neg hlt.not_gt]
  · rw [heq, h heq]
  · rw [if_pos hgt, if_neg hgt.not_gt]

/-- A line's plot list in both directions (R207): the major axis is the same, and endpoints that share their major
coordinate are one point. -/
theorem linePlots_comm (x0 y0 x1 y1 : Int) : linePlots x0 y0 x1 y1 = linePlots x1 y1 x0 y0 := by
  unfold linePlots
  rw [← Int.natAbs_neg (x0 - x1), neg_sub, ← Int.natAbs_neg (y0 - y1), neg_sub]
  split
  next hsteep => exact lineOrdered_comm true (by omega)
  next hshallow => exact lineOrdered_comm false (by omega)

/-- Settles O30: the command depends on its endpoints through the plot list alone, so nothing is asked of the state. -/
theorem lineIsSymmetric : Obligations.LineIsSymmetric := by
  refine ⟨linePlots_comm, fun x0 y0 x1 y1 color s => ?_⟩
  exact congrArg
    (fun plots => Host.Outcome.next (s.start (requireReady (header 0x08 0) 0 (plotActs s.geom color plots) s)))
    (linePlots_comm ..)

/-- TRI's plot list is the pixels of its three lines (R204). -/
theorem triPlots_eq (x0 y0 x1 y1 x2 y2 : Int) :
    triPlots x0 y0 x1 y1 x2 y2 =
      (linePixels x0 y0 x1 y1 ++ linePixels x1 y1 x2 y2 ++ linePixels x2 y2 x0 y0).map fun p => .pixel p.1 p.2 := by
  simp only [triPlots, linePlots_eq, List.map_append]

/-- Settles O35: the events of pixels in a row are those of the parts, one after the other. -/
theorem triIsThreeLines : Obligations.TriIsThreeLines := by
  intro x0 y0 x1 y1 x2 y2 color s hq hready
  rw [← State.pixelEvents_append, ← State.pixelEvents_append]
  exact exec_of_pixels hq hready (congrArg (plotActs s.geom color) (triPlots_eq ..)) (by simp [linePixels_ne_nil])

/-! ### CIRCLE and FCIRCLE (R202, R203, R208) -/

/-- Settles O31: the axis points alone are four pixels. -/
theorem circlePlotsEightfold : Obligations.CirclePlotsEightfold := by
  intro x0 y0 r color s hq hready
  obtain ⟨n, -, hn⟩ := circleRuns_exists r.toNat
  exact ⟨n, hn, exec_of_pixels hq hready (congrArg (plotActs s.geom color) (circlePlots_eq hn))
    (by simp [circlePixels])⟩

/-- Settles O32: the middle column alone is a span, and every span has a pixel. -/
theorem filledCircleIsVerticalSpans : Obligations.FilledCircleIsVerticalSpans := by
  intro x0 y0 r color s hq hready
  obtain ⟨n, -, hn⟩ := circleRuns_exists r.toNat
  have hplots := exec_of_plots (i := .fcircle x0 y0 r color) (fun v : Int × Int × Nat => .vspan v.1 v.2.1 v.2.2) hq
    hready (congrArg (plotActs s.geom color) (fcirclePlots_eq hn)) (by simp [circleSpans])
    fun v hv => (Plot.vspan_sized_iff ..).2 (circleSpans_pos hn v hv)
  exact ⟨n, hn, by simpa only [Plot.args, Int.toNat_natCast] using hplots⟩

/-- The point `(x, y)` is next to the circle of radius `r` in its column: the circle passes within half a row of it, in
integers, where `y^2 + y` and `y^2 - y` stand for the squares of `y + 1/2` and `y - 1/2`. -/
structure NextToCircle (r : Nat) (x y : Int) : Prop where
  outside : (r : Int) ^ 2 ≤ x ^ 2 + y ^ 2 + y
  inside : x ^ 2 + y ^ 2 - y ≤ (r : Int) ^ 2
  inside_octant : x ≤ y → x ^ 2 + y ^ 2 - y < (r : Int) ^ 2

/-- A pass that goes one row down: before the diagonal `x = y` the circle falls by no more than that. -/
theorem NextToCircle.down {r : Nat} {x y : Int} (h : NextToCircle r x y) (hxy : x < y)
    (hdown : (r : Int) ^ 2 ≤ (x + 1) ^ 2 + y ^ 2 - y) : NextToCircle r (x + 1) (y - 1) := by
  have hstrict := h.inside_octant hxy.le
  exact ⟨by linarith, by linarith, fun hle => by linarith⟩

/-- A pass that stays on its row. -/
theorem NextToCircle.level {r : Nat} {x y : Int} (h : NextToCircle r x y) (hx : 0 ≤ x)
    (hlevel : (x + 1) ^ 2 + y ^ 2 - y < (r : Int) ^ 2) : NextToCircle r (x + 1) y := by
  have houtside := h.outside
  exact ⟨by linarith, hlevel.le, fun _ => hlevel⟩

/-- Every point that the midpoint loop reaches is next to the circle (R202). -/
theorem nextToCircle_circlePoint {r n : Nat} (hn : circleRuns r n) (hr : 0 < r) :
    ∀ k ≤ n, NextToCircle r (circlePoint r k).1 (circlePoint r k).2 := by
  intro k
  induction k with
  | zero =>
    intro _
    exact ⟨by simp [circlePoint], by simp [circlePoint], fun _ => by simpa [circlePoint] using hr⟩
  | succ k ih =>
    intro hk
    have hnext := ih (Nat.le_of_succ_le hk)
    have hx : 0 ≤ (circlePoint r k).1 := by rw [circlePoint_fst]; omega
    rw [circlePoint]
    dsimp only
    split
    next hdown => exact hnext.down (hn.1 k hk) hdown
    next hlevel => exact hnext.level hx (not_le.1 hlevel)

/-- Another pass follows exactly while `x < y` (R202). -/
theorem circlePoint_lt_iff {r n k : Nat} (hn : circleRuns r n) (hk : k ≤ n) :
    (circlePoint r k).1 < (circlePoint r k).2 ↔ k < n := by
  refine ⟨fun hlt => lt_of_le_of_ne hk fun hlast => ?_, hn.1 k⟩
  exact absurd (hlast ▸ hn.2) hlt.not_ge

/-- There is a pass exactly when the radius is not 0. -/
theorem circleRuns_pos_iff {r n : Nat} (hn : circleRuns r n) : 0 < n ↔ 0 < r := by
  simpa [circlePoint] using (circlePoint_lt_iff hn (Nat.zero_le n)).symm

theorem length_circlePasses {r n : Nat} (hn : circleRuns r n) : (circlePasses r).length = n := by
  rw [circlePasses_eq hn, List.length_map, List.length_range]

/-- The list holds the point after each pass, counted from the first. -/
theorem circlePasses_getElem?_eq_some {r n k : Nat} {p : Int × Int} (hn : circleRuns r n) :
    (circlePasses r)[k]? = some p ↔ k < n ∧ circlePoint r (k + 1) = p := by
  simp [circlePasses_eq hn, List.getElem?_eq_some_iff]

/-- Settles O33: the list's entry `k` is the point after `k + 1` passes, and that is next to the circle. -/
theorem circlePointsAreNearest : Obligations.CirclePointsAreNearest := by
  intro r
  obtain ⟨n, hle, hn⟩ := circleRuns_exists r
  have hpos := circleRuns_pos_iff hn
  rw [← List.length_eq_zero_iff, length_circlePasses hn]
  refine ⟨hle, fun k p hp => ?_, by omega⟩
  obtain ⟨hk, rfl⟩ := (circlePasses_getElem?_eq_some hn).1 hp
  have hnext := nextToCircle_circlePoint hn (hpos.1 (Nat.zero_lt_of_lt hk)) (k + 1) hk
  exact ⟨by simp [circlePoint_fst], circlePoint_snd_nonneg hn (k + 1) hk, hnext.outside, hnext.inside,
    hnext.inside_octant, circlePoint_lt_iff hn hk⟩

/-- Settles O34: radius 0 makes no pass, and the one pass of radius 1 is at `(1, 0)`, whose eight images are the axis
points again. -/
theorem smallCirclesAreAxisPoints : Obligations.SmallCirclesAreAxisPoints := by
  intro x0 y0
  have hzero : circlePasses 0 = [] := rfl
  have hone : circlePasses 1 = [(1, 0)] := rfl
  constructor
  · intro p
    simp [circlePlots, hzero]
  · intro p
    simp only [circlePlots, hone, octants, List.flatMap_cons, List.flatMap_nil, List.append_nil, List.mem_append,
      List.mem_cons, List.not_mem_nil, or_false, Nat.cast_one, add_zero, sub_zero]
    tauto

/-! ### FTRI (R205, R206) -/

/-- A triangle sorted by row has one span on each row from its first vertex's to its last's, none of them empty
(R206 (b)). -/
theorem triangleSpans_rows (p q r : Int × Int) :
    ∃ span : Nat → Int × Nat, (∀ k, 1 ≤ (span k).2) ∧
      triangleSpans p q r =
        (List.range (r.2 - p.2 + 1).toNat).map fun (k : Nat) => ((span k).1, p.2 + k, (span k).2) := by
  unfold triangleSpans
  split
  next hrow =>
    refine ⟨fun _ => (min p.1 (min q.1 r.1), (max p.1 (max q.1 r.1) - min p.1 (min q.1 r.1) + 1).toNat),
      fun _ => ?_, ?_⟩
    · dsimp only
      omega
    · simp [hrow]
  next hrows =>
    exact ⟨fun k => (min (shortEdgeAt p q r (p.2 + k)) (edgeAt p r (p.2 + k)),
      (shortEdgeAt p q r (p.2 + k) - edgeAt p r (p.2 + k)).natAbs + 1), fun _ => Nat.le_add_left .., rfl⟩

/-- The sort puts a vertex of the least row first and one of the greatest last (R205). -/
theorem sortRows_rows (p q r : Int × Int) :
    (sortRows p q r).1.2 = min p.2 (min q.2 r.2) ∧ (sortRows p q r).2.2.2 = max p.2 (max q.2 r.2) := by
  unfold sortRows
  repeat' split
  all_goals
    dsimp only
    omega

/-- FTRI's spans by row, whatever the order of the vertices (R206 (b)). -/
theorem ftriSpans_rows (p q r : Int × Int) :
    ∃ span : Nat → Int × Nat, (∀ k, 1 ≤ (span k).2) ∧
      ftriSpans p q r =
        (List.range ((max p.2 (max q.2 r.2) - min p.2 (min q.2 r.2)).toNat + 1)).map fun (k : Nat) =>
          ((span k).1, min p.2 (min q.2 r.2) + k, (span k).2) := by
  obtain ⟨hfirst, hlast⟩ := sortRows_rows p q r
  obtain ⟨span, hpos, hspans⟩ := triangleSpans_rows (sortRows p q r).1 (sortRows p q r).2.1 (sortRows p q r).2.2
  refine ⟨span, hpos, ?_⟩
  rw [ftriSpans, hspans, hfirst, hlast]
  congr 2
  omega

theorem ftriSpans_ne_nil (p q r : Int × Int) : ftriSpans p q r ≠ [] := by
  obtain ⟨span, -, hspans⟩ := ftriSpans_rows p q r
  simp [hspans]

theorem ftriSpans_pos (p q r : Int × Int) : ∀ h ∈ ftriSpans p q r, 1 ≤ h.2.2 := by
  obtain ⟨span, hpos, hspans⟩ := ftriSpans_rows p q r
  rw [hspans]
  exact List.forall_mem_map.2 fun k _ => hpos k

/-- Settles O36: the accumulators' plot list is the closed form's spans, none of them empty. -/
theorem ftriFillsBetweenItsEdges : Obligations.FtriFillsBetweenItsEdges := by
  intro x0 y0 x1 y1 x2 y2 color s hq hready
  have hplots := exec_of_plots (i := .ftri x0 y0 x1 y1 x2 y2 color)
    (fun h : Int × Int × Nat => .hspan h.1 h.2.1 h.2.2) hq hready (congrArg (plotActs s.geom color) (ftriPlots_eq ..))
    (ftriSpans_ne_nil _ _ _) fun h hh => (Plot.hspan_sized_iff ..).2 (ftriSpans_pos _ _ _ h hh)
  simpa only [Plot.args, Int.toNat_natCast] using hplots

/-- Numbering the values of a function at 0, 1, … gives each with its argument. -/
theorem zipIdx_map_range {α : Type} (f : Nat → α) (n : Nat) :
    ((List.range n).map f).zipIdx = (List.range n).map fun k => (f k, k) :=
  List.ext_getElem (by simp) (by simp)

/-- Settles O37: the spans by row, numbered. -/
theorem ftriGivesEachRowOneSpan : Obligations.FtriGivesEachRowOneSpan := by
  intro x0 y0 x1 y1 x2 y2
  obtain ⟨span, hpos, hspans⟩ := ftriSpans_rows (x0, y0) (x1, y1) (x2, y2)
  refine ⟨_, _, rfl, rfl, (List.range _).map span, ?_, by rw [List.length_map, List.length_range],
    List.forall_mem_map.2 fun k _ => hpos k⟩
  rw [ftriPlots_eq, hspans, zipIdx_map_range, List.map_map, List.map_map]
  rfl

end Sys2Proof.Machine

/-! Text and bitmaps (O38 to O43): a text command is the rejection of its descriptor or one walk over its string, and
BITMAP is a rejection, nothing, or one blit. -/

namespace Sys2Proof.Machine

/-! ### Commands that are one rejection, one walk or one unit (43_expand.md R240) -/

/-- A command that READY does not reject is its own actions. -/
theorem commandActs_of_accepted {i : Instr} {s : State} (hready : requiresReadyInstr i = true → s.ready = true) :
    commandActs i s = bodyActs s i := by
  rw [commandActs]
  split
  next hreq => exact requireReady_of_ready (hready hreq)
  next => rfl

/-- A command whose one action raises an error that skips `n` words (60_exceptions.md R284). -/
theorem exec_of_raise {i : Instr} {s : State} {e : ErrKind} {hdr : Word} {addr n : Nat} (hq : s.quiet)
    (hready : requiresReadyInstr i = true → s.ready = true) (hwords : n ≤ s.fifo.length)
    (hbody : bodyActs s i = [.raise e hdr addr n]) : exec i s = .next ((s.tookVar n).failed e hdr addr) := by
  rw [exec_eq_drain, commandActs_of_accepted hready, hbody, drain_raise_quiet _ _ _ _ _ _ (s := s.enter) hq hwords]
  exact congrArg _ (State.failed_enter e hdr addr (s.tookVar n))

/-- A command whose one action walks a string. -/
theorem exec_of_text {i : Instr} {s : State} {r : TextRun} (hq : s.quiet)
    (hready : requiresReadyInstr i = true → s.ready = true) (hbody : bodyActs s i = [.text r]) :
    exec i s = .next (runText r.chs r s.enter) := by
  rw [exec_eq_runActs, commandActs_of_accepted hready, hbody]
  exact congrArg _ (drain_text_quiet _ r [] (s := s.enter) hq)

/-- A command whose one action is a blit unit, READY set. -/
theorem exec_of_blit {i : Instr} {s : State} {window : List Event} {b : Blit} (hq : s.quiet) (hready : s.ready = true)
    (hbody : bodyActs s i = [.blit window b]) : exec i s = .next (s.drawn (unitEvents window b s) s.tbuf) := by
  rw [exec_of_simple hq (fun _ => hready) (by simp [hbody, Action.simple]), hbody, applyAll_cons, Action.apply_blit]
  rfl

/-! ### Commands that read a font descriptor (R242, R247) -/

/-- The actions of a command that reads a descriptor: the rejection, which skips `n` words, or the walk. -/
def readActs {α : Type} (hdr : Word) (n : Nat) (read : Except (ErrKind × Nat) α) (run : α → TextRun) : List Action :=
  match read with
  | .error (e, a) => [.raise e hdr a n]
  | .ok f => [.text (run f)]

/-- What such a command leaves: the error, its packet consumed, or what the walk with the descriptor leaves. -/
def State.afterReading {α : Type} (hdr : Word) (read : Except (ErrKind × Nat) α) (result : α → State) (s : State) :
    State :=
  match read with
  | .error (e, a) => s.failed e hdr a
  | .ok f => result f

/-- A command that reads a descriptor leaves its error, or what its walk leaves. -/
theorem exec_of_reading {α : Type} {i : Instr} {s : State} {hdr : Word} {n : Nat} {read : Except (ErrKind × Nat) α}
    {run : α → TextRun} {result : α → State} (hq : s.quiet) (hready : requiresReadyInstr i = true → s.ready = true)
    (hwords : n ≤ s.fifo.length) (hbody : bodyActs s i = readActs hdr n read run)
    (hrun : ∀ f, runText (run f).chs (run f) s.enter = result f) :
    exec i s = .next ((s.tookVar n).afterReading hdr read result) := by
  cases read with
  | error p => exact exec_of_raise hq hready hwords hbody
  | ok f => exact (exec_of_text hq hready hbody).trans (congrArg _ (hrun f))

theorem textBmActs_eq (s : State) (hdr : Word) (wexp : Nat) (font : Word) (x y fg bg : Half) (chars : List Half) :
    textBmActs s hdr wexp font x y fg bg chars 0 =
      readActs hdr ((chars.length + 1) / 2) (readFont1 s wexp font.toNat) fun f =>
        { hdr := hdr, job := .bitmapFont f, y := y.toInt, fg := fg, bg := bg, pen := x.toInt, chs := chars,
          popped := 0, more := 0 } := by
  rw [textBmActs]
  cases readFont1 s wexp font.toNat <;> rfl

theorem ttTextActs_eq (s : State) (hdr font : Word) (x y fg bg : Half) (chars : List Half) :
    ttTextActs s hdr font x y fg bg chars 0 =
      readActs hdr ((chars.length + 1) / 2) (readFontV s true font.toNat) fun f =>
        { hdr := hdr, job := .variableFont f, y := y.toInt, fg := fg, bg := bg, pen := x.toInt, chs := chars,
          popped := 0, more := 0 } := by
  rw [ttTextActs]
  cases readFontV s true font.toNat <;> rfl

theorem ttWidthActs_eq (s : State) (hdr font : Word) (chars : List Half) :
    ttWidthActs s hdr font chars 0 =
      readActs hdr ((chars.length + 1) / 2) (readFontV s false font.toNat) fun f =>
        { hdr := hdr, job := .measure f, y := 0, fg := 0, bg := 0, pen := 0, chs := chars, popped := 0,
          more := 0 } := by
  rw [ttWidthActs]
  cases readFontV s false font.toNat <;> rfl

theorem State.bitmapTextResult_eq (s : State) (hdr : Word) (wexp : Nat) (font : Word) (x y fg bg : Half)
    (chars : List Half) :
    s.bitmapTextResult hdr wexp font x y fg bg chars =
      s.afterReading hdr (readFont1 s wexp font.toNat) fun f =>
        s.afterText hdr (s.stringRun f y.toInt fg bg x.toInt chars) := by
  rw [State.bitmapTextResult, readFont1_eq]
  split_ifs <;> rfl

theorem State.variableTextResult_eq (s : State) (hdr font : Word) (x y fg bg : Half) (chars : List Half) :
    s.variableTextResult hdr font x y fg bg chars =
      s.afterReading hdr (readFontV s true font.toNat) fun f =>
        s.afterText hdr (s.vstringRun f y.toInt fg bg x.toInt chars) := by
  rw [State.variableTextResult, readFontV_eq]
  split_ifs
  · rfl
  · cases s.missingTable (s.fontV font.toNat) true <;> rfl
  · rfl

theorem State.widthResult_eq (s : State) (hdr font : Word) (chars : List Half) :
    s.widthResult hdr font chars =
      s.afterReading hdr (readFontV s false font.toNat) fun f =>
        { s with result := BitVec.ofNat 32 (s.measure f chars), todo := [], phase := .idle } := by
  rw [State.widthResult, readFontV_eq]
  split_ifs
  · rfl
  · cases s.missingTable (s.fontV font.toNat) false <;> rfl
  · rfl

/-! ### The text commands (R244, R245, R250, R251) -/

/-- What a string depends on is the same in EXEC as when its words are popped. -/
theorem State.enter_sameView_tookVar (n : Nat) (s : State) : s.enter.sameView (s.tookVar n) :=
  ⟨rfl, rfl, (s.sameView_tookVar n).2.2.symm⟩

/-- Strings are measured alike. -/
theorem State.sameView.measure {s t : State} (h : s.sameView t) : s.measure = t.measure := by
  have hadvance : s.advance = t.advance := by
    funext f c
    rw [State.advance, State.advance, h.index, State.assetRead_congr h.2.2]
  funext f chars
  rw [State.measure, State.measure, hadvance]

/-- `TEXTBM`: the walk is that of a bitmap-font string (R244). -/
theorem exec_of_textBm {i : Instr} {s : State} {hdr : Word} {wexp : Nat} {font : Word} {x y fg bg : Half}
    {chars : List Half} (hq : s.quiet) (hready : s.ready = true) (hwords : (chars.length + 1) / 2 ≤ s.fifo.length)
    (hbody : bodyActs s i = textBmActs s hdr wexp font x y fg bg chars 0) :
    exec i s = .next ((s.tookVar ((chars.length + 1) / 2)).bitmapTextResult hdr wexp font x y fg bg chars) := by
  rw [textBmActs_eq, ← readFont1_congr (s.sameView_tookVar ((chars.length + 1) / 2))] at hbody
  rw [State.bitmapTextResult_eq]
  refine exec_of_reading hq (fun _ => hready) hwords hbody fun f => ?_
  rw [← (s.enter_sameView_tookVar ((chars.length + 1) / 2)).stringRun, ← afterRun_enter]
  exact runText_bitmapFont f chars _ rfl rfl rfl (s := s.enter) hq hwords

/-- Settles O38: both commands are `TEXTBM`, each with its header and its glyph width. -/
theorem bitmapTextDrawsItsGlyphs : Obligations.BitmapTextDrawsItsGlyphs := by
  intro font x y fg bg chars s hq hready hlength hwords
  have h8 : headerOf (.text8 font x y fg bg chars) = BitVec.ofNat 32 (0x0D000000 + chars.length) :=
    header_arg16_eq 0x0D _ hlength
  have h16 : headerOf (.text16 font x y fg bg chars) = BitVec.ofNat 32 (0x0E000000 + chars.length) :=
    header_arg16_eq 0x0E _ hlength
  rw [← h8, ← h16]
  exact ⟨exec_of_textBm hq hready hwords rfl, exec_of_textBm hq hready hwords rfl⟩

/-- Settles O39: the walk is that of a variable-width string. -/
theorem variableTextDrawsItsGlyphs : Obligations.VariableTextDrawsItsGlyphs := by
  intro font x y fg bg chars s hq hready hlength hwords
  have hhdr : headerOf (.tttext font x y fg bg chars) = BitVec.ofNat 32 (0x0F000000 + chars.length) :=
    header_arg16_eq 0x0F _ hlength
  have hbody := ttTextActs_eq s (BitVec.ofNat 32 (0x0F000000 + chars.length)) font x y fg bg chars
  rw [← readFontV_congr (s.sameView_tookVar ((chars.length + 1) / 2)), ← hhdr] at hbody
  rw [State.variableTextResult_eq, ← hhdr]
  refine exec_of_reading hq (fun _ => hready) hwords hbody fun f => ?_
  rw [← (s.enter_sameView_tookVar ((chars.length + 1) / 2)).vstringRun, ← afterRun_enter]
  exact runText_variableFont f chars _ rfl rfl rfl (s := s.enter) hq hwords

/-- Settles O40: the walk is that of a measured string. -/
theorem ttwidthMeasures : Obligations.TtwidthMeasures := by
  intro font chars s hq hlength hwords
  have hhdr : headerOf (.ttwidth font chars) = BitVec.ofNat 32 (0x10000000 + chars.length) :=
    header_arg16_eq 0x10 _ hlength
  have hbody := ttWidthActs_eq s (BitVec.ofNat 32 (0x10000000 + chars.length)) font chars
  rw [← readFontV_congr (s.sameView_tookVar ((chars.length + 1) / 2)), ← hhdr] at hbody
  rw [State.widthResult_eq, ← hhdr]
  refine exec_of_reading hq (fun h => nomatch h) hwords hbody fun f => ?_
  rw [← (s.enter_sameView_tookVar ((chars.length + 1) / 2)).measure, ← BitVec.ofInt_natCast,
    ← Int.zero_add ((s.enter.measure f chars : Nat) : Int)]
  exact runText_measure f chars _ rfl rfl rfl (s := s.enter) hq hwords

/-! ### The pen advance (R250, R251) -/

/-- A character's width is a byte (R248). -/
theorem State.advance_lt (s : State) (f : FontV) (c : Half) : s.advance f c < 256 := by
  unfold State.advance
  split
  · decide
  · exact assetRead_lt s _ 1

/-- The sum of the widths of a string that NCHARS can hold fits RESULT. -/
theorem State.measure_lt (s : State) (f : FontV) {chars : List Half} (h : chars.length < 65536) :
    s.measure f chars < 2 ^ 32 := by
  have hsum := List.sum_le_card_nsmul (chars.map (s.advance f)) 255
    (List.forall_mem_map.2 fun c _ => Nat.le_of_lt_succ (s.advance_lt f c))
  rw [List.length_map, smul_eq_mul] at hsum
  exact hsum.trans_lt (by omega)

/-- TTWIDTH accepts every descriptor that TTTEXT accepts (R251). -/
theorem readFontV_without_offsets {s : State} {a : Nat} {f : FontV} (h : readFontV s true a = .ok f) :
    readFontV s false a = .ok f := by
  unfold readFontV at h ⊢
  simp only [Bool.true_and, Bool.false_and, Bool.false_eq_true, if_false] at h ⊢
  split_ifs at h ⊢
  exact h

/-- Two states that show the same to the panel, and of the error the same but its header. -/
structure State.SameReport (s t : State) : Prop where
  trace : s.trace = t.trace
  err : s.err = t.err
  erraddr : s.erraddr = t.erraddr
  pins : s.pins = t.pins

theorem State.sameReport_iff {s t : State} :
    s.SameReport t ↔ s.trace = t.trace ∧ s.err = t.err ∧ s.erraddr = t.erraddr ∧ s.pins = t.pins :=
  ⟨fun ⟨htrace, herr, haddr, hpins⟩ => ⟨htrace, herr, haddr, hpins⟩,
    fun ⟨htrace, herr, haddr, hpins⟩ => ⟨htrace, herr, haddr, hpins⟩⟩

theorem State.SameReport.emitAll {s t : State} (h : s.SameReport t) (evs : List Event) :
    (s.emitAll evs).SameReport (t.emitAll evs) where
  trace := congrArg (· ++ evs) h.trace
  err := h.err
  erraddr := h.erraddr
  pins := congrArg (evs.foldl Pins.after ·) h.pins

theorem State.SameReport.failed {s t : State} (h : s.SameReport t) (e : ErrKind) (hdr hdr' : Word) (addr : Nat) :
    (s.failed e hdr addr).SameReport (t.failed e hdr' addr) := by
  unfold State.failed State.record
  rw [h.err]
  split
  · exact ⟨h.trace, rfl, rfl, h.pins⟩
  · exact ⟨h.trace, h.err, h.erraddr, h.pins⟩

/-- The same string from two states with the same report, whatever the headers. -/
theorem State.SameReport.afterText {s t : State} (h : s.SameReport t) (hdr hdr' : Word)
    (run : List Event × Option Nat) : (s.afterText hdr run).SameReport (t.afterText hdr' run) := by
  have hsent := h.emitAll run.1
  unfold State.afterText
  cases run.2 with
  | none => exact ⟨hsent.trace, hsent.err, hsent.erraddr, hsent.pins⟩
  | some a => exact hsent.failed .asset hdr hdr' a

/-- The first events of a string may as well have been there before it. -/
theorem State.afterText_append (s : State) (hdr : Word) (evs more : List Event) (failed : Option Nat) :
    s.afterText hdr (evs ++ more, failed) = (s.emitAll evs).afterText hdr (more, failed) := by
  unfold State.afterText State.drawn
  simp only [State.emitAll_append]
  rfl

/-- The words that have been popped, and how a command ended, are no part of the report. -/
theorem State.drawn_sameReport (m n k : Nat) (evs : List Event) (tbuf : Vector Half 1024) (s : State) :
    (((s.tookVar m).drawn evs tbuf).tookVar n).SameReport ((s.tookVar k).emitAll evs) := ⟨rfl, rfl, rfl, rfl⟩

/-- A failed command leaves an error recorded, its own or an earlier one. -/
theorem State.failed_err_ne_zero (e : ErrKind) (hdr : Word) (addr : Nat) (s : State) :
    (s.failed e hdr addr).err ≠ 0 := by
  have hcode : e.code ≠ 0 := by cases e <;> decide
  unfold State.failed State.record
  split
  next => exact hcode
  next hearlier => exact hearlier

/-- What TTTEXT leaves where its descriptor, read in a state with the same view, is accepted. -/
theorem exec_tttext_of_read {font : Word} {x y fg bg : Half} {chars : List Half} {s t : State} {f : FontV}
    (hq : s.quiet) (hready : s.ready = true) (hlength : chars.length < 65536)
    (hwords : (chars.length + 1) / 2 ≤ s.fifo.length) (hview : s.sameView t)
    (hread : readFontV t true font.toNat = .ok f) :
    exec (.tttext font x y fg bg chars) s =
      .next ((s.tookVar ((chars.length + 1) / 2)).afterText (BitVec.ofNat 32 (0x0F000000 + chars.length))
        (t.vstringRun f y.toInt fg bg x.toInt chars)) := by
  have htook := s.sameView_tookVar ((chars.length + 1) / 2)
  rw [variableTextDrawsItsGlyphs font x y fg bg chars s hq hready hlength hwords, State.variableTextResult_eq,
    readFontV_congr htook, readFontV_congr hview, hread, State.afterReading, htook.vstringRun, hview.vstringRun]

/-- TTTEXT leaves no error only where its descriptor is accepted and its string is drawn to the end. -/
theorem exec_tttext_of_err_eq_zero {font : Word} {x y fg bg : Half} {chars : List Half} {s t : State}
    (hq : s.quiet) (hready : s.ready = true) (hlength : chars.length < 65536)
    (hwords : (chars.length + 1) / 2 ≤ s.fifo.length) (hexec : exec (.tttext font x y fg bg chars) s = .next t)
    (herr : t.err = 0) :
    ∃ f, readFontV s true font.toNat = .ok f ∧ (s.vstringRun f y.toInt fg bg x.toInt chars).2 = none ∧
      t = (s.tookVar ((chars.length + 1) / 2)).drawn (s.vstringRun f y.toInt fg bg x.toInt chars).1 s.tbuf := by
  cases hread : readFontV s true font.toNat with
  | error p =>
    have hresult := variableTextDrawsItsGlyphs font x y fg bg chars s hq hready hlength hwords
    rw [State.variableTextResult_eq, readFontV_congr (s.sameView_tookVar _), hread] at hresult
    cases hexec.symm.trans hresult
    exact (State.failed_err_ne_zero _ _ _ _ herr).elim
  | ok f =>
    cases hexec.symm.trans (exec_tttext_of_read hq hready hlength hwords ⟨rfl, rfl, rfl⟩ hread)
    refine ⟨f, rfl, ?_⟩
    unfold State.afterText at herr ⊢
    cases hrun : (s.vstringRun f y.toInt fg bg x.toInt chars).2 with
    | none => exact ⟨rfl, rfl⟩
    | some a =>
      rw [hrun] at herr
      exact (State.failed_err_ne_zero _ _ _ _ herr).elim

/-- What TTWIDTH writes where the descriptor is accepted (R251). -/
theorem exec_ttwidth_result {font : Word} {chars : List Half} {s u : State} {f : FontV} (hq : s.quiet)
    (hlength : chars.length < 65536) (hwords : (chars.length + 1) / 2 ≤ s.fifo.length)
    (hexec : exec (.ttwidth font chars) s = .next u) (hread : readFontV s false font.toNat = .ok f) :
    u.result.toNat = s.measure f chars := by
  have htook := s.sameView_tookVar ((chars.length + 1) / 2)
  have hresult := ttwidthMeasures font chars s hq hlength hwords
  rw [State.widthResult_eq, readFontV_congr htook, hread, State.afterReading] at hresult
  cases hexec.symm.trans hresult
  rw [htook.measure, BitVec.toNat_ofNat, Nat.mod_eq_of_lt (s.measure_lt f hlength)]

/-- Settles O41: the walk over the whole string is the walks over its pieces, with the descriptor read alike. -/
theorem widthIsThePenAdvance : Obligations.WidthIsThePenAdvance := by
  intro font x x' y fg bg first second s t u hq hready _ hlength hwords hdraw hdrawn hmeasure hx
  have hlengths := List.length_append (as := first) (bs := second)
  obtain ⟨f, hread, hrun, rfl⟩ := exec_tttext_of_err_eq_zero hq hready (by omega) (by omega) hdraw hdrawn
  rw [exec_ttwidth_result hq (by omega) (by omega) hmeasure (readFontV_without_offsets hread)] at hx
  have hpieces := State.vstringRun_append s f y.toInt fg bg first second x.toInt hrun
  rw [← hx] at hpieces
  have hwhole := exec_tttext_of_read (x := x) (y := y) (fg := fg) (bg := bg) hq hready hlength (by omega)
    ⟨rfl, rfl, rfl⟩ hread
  rw [hpieces, State.afterText_append] at hwhole
  have hview := s.sameView_tookVar ((first.length + 1) / 2)
  have hsecond := exec_tttext_of_read (x := x') (y := y) (fg := fg) (bg := bg) (chars := second)
    (s := (s.tookVar _).drawn (s.vstringRun f y.toInt fg bg x.toInt first).1 s.tbuf) hq hready (by omega)
    (le_of_le_of_eq (by omega) List.length_drop.symm) ⟨hview.1, hview.2.1, hview.2.2⟩ hread
  refine ⟨_, _, hsecond, hwhole, State.sameReport_iff.1 ?_⟩
  exact (s.drawn_sameReport ..).afterText ..

/-! ### Characters of a variable-width font (R248) -/

/-- Settles O42: the model searches the indices from 0 on. -/
theorem lookupFindsTheLeastIndex : Obligations.LookupFindsTheLeastIndex := by
  intro s f c
  refine ⟨fun i => ?_, ?_⟩
  · rw [FontV.index, List.find?_range_eq_some, List.mem_range]
    simp only [beq_iff_eq, Bool.not_eq_true', beq_eq_false_iff_ne]
    exact and_left_comm
  · rw [FontV.index, List.find?_range_eq_none]
    simp only [Bool.not_eq_true', beq_eq_false_iff_ne]

/-! ### BITMAP (R252 to R254) -/

/-- A region check that fails, as `bitmapActs` asks for it. -/
theorem not_assetCheck_iff {s : State} {a n : Nat} (hn : n ≠ 0) : (!s.assetCheck a n) = true ↔ s.assetSize < a + n := by
  rw [Bool.not_eq_true', assetCheck_eq_false hn]

/-- A fit check that fails (R241). -/
theorem not_fits_iff (s : State) (x y : Int) (w h : Nat) :
    (!fits s.geom x y w h) = true ↔ ¬(0 ≤ x ∧ 0 ≤ y ∧ x + w ≤ s.width.toNat ∧ y + h ≤ s.height.toNat) := by
  rw [Bool.not_eq_true', ← Bool.not_eq_true, fits_iff]

/-- The bits of a frame that has any reach past the byte in which they start. -/
theorem Bmp.frameRegion_end {b : Bmp} (index : Nat) (hbits : b.width * b.height * b.bpp ≠ 0) :
    (b.frameRegion index).2 ≠ 0 ∧ (b.frameRegion index).1 + (b.frameRegion index).2 =
      (frameStart b index + b.width * b.height * b.bpp + 7) / 8 := by
  dsimp only [Bmp.frameRegion, Bmp.frameBit, frameStart]
  omega

/-- The frame's region check fails where its last bit lies past the end of asset memory (R254). -/
theorem not_assetCheck_frameRegion_iff {s : State} {b : Bmp} {index : Nat}
    (hbits : b.width * b.height * b.bpp ≠ 0) :
    (!s.assetCheck (b.bits + (b.frameRegion index).1) (b.frameRegion index).2) = true ↔
      s.assetSize < b.bits + (frameStart b index + b.width * b.height * b.bpp + 7) / 8 := by
  obtain ⟨hlength, hend⟩ := b.frameRegion_end index hbits
  rw [not_assetCheck_iff hlength, Nat.add_assoc, hend]

/-- The checks before anything is drawn, one by one (R252, R254). -/
theorem State.bitmapReject_eq (s : State) (a index : Nat) :
    s.bitmapReject a index =
      if s.assetSize < a + 16 then some (.asset, a)
      else if (s.bmp a).bpp = 0 ∨ 8 < (s.bmp a).bpp then some (.desc, 0)
      else if (s.bmp a).rsvd ≠ 0 then some (.desc, 0)
      else if (s.bmp a).frames ≤ index then some (.frame, 0)
      else none := by
  simp only [State.bitmapReject, ite_or]
  rfl

/-- A rejected BITMAP raises its error. -/
theorem bitmapActs_of_reject {s : State} {a index : Nat} {p : ErrKind × Nat} (h : s.bitmapReject a index = some p)
    (hdr : Word) (x y : Int) : bitmapActs s hdr a index x y = [.raise p.1 hdr p.2 0] := by
  have hbmp : bmpAt s a = s.bmp a := rfl
  rw [State.bitmapReject_eq] at h
  simp only [bitmapActs, hbmp, not_assetCheck_iff (show 16 ≠ 0 by decide)]
  split_ifs at h ⊢
  all_goals
    cases h
    rfl

/-- What BITMAP does once its descriptor and its frame are accepted: nothing, the error of a region, or its unit. -/
theorem bitmapActs_of_accepted {s : State} {a index : Nat} (h : s.bitmapReject a index = none)
    (hdr : Word) (x y : Int) :
    bitmapActs s hdr a index x y =
      if s.bitmapSkipped (s.bmp a) x y then []
      else (s.bitmapMissing (s.bmp a) index).elim
        [.blit (s.windowEvents x y (x + (s.bmp a).width - 1) (y + (s.bmp a).height - 1)) (.frame (s.bmp a) index)]
        fun addr => [.raise .asset hdr addr 0] := by
  have hbmp : bmpAt s a = s.bmp a := rfl
  rw [State.bitmapReject_eq] at h
  simp only [bitmapActs, hbmp, not_assetCheck_iff (show 16 ≠ 0 by decide), not_fits_iff]
  generalize s.bmp a = b at h ⊢
  split_ifs at h with hsize hdesc hrsvd hframes
  rw [if_neg hsize, if_neg hdesc, if_neg hrsvd, if_neg hframes, ← ite_or]
  by_cases hskip : s.bitmapSkipped b x y
  · rw [if_pos (or_assoc.2 hskip), if_pos hskip]
  · have hbits : b.width * b.height * b.bpp ≠ 0 := by
      obtain ⟨hwidth, hdraw⟩ := not_or.1 hskip
      exact mul_ne_zero (mul_ne_zero hwidth (not_or.1 hdraw).1) (not_or.1 hdesc).1
    rw [if_neg (or_assoc.not.2 hskip), if_neg hskip, State.bitmapMissing]
    simp only [not_assetCheck_frameRegion_iff hbits, not_assetCheck_iff (show 2 * 2 ^ b.bpp ≠ 0 by positivity)]
    rw [windowOut_eq]
    split_ifs <;> rfl

/-- Settles O43: the error of a check, nothing, or the one unit, whose pixels are the frame's bytes. -/
theorem bitmapDrawsItsFrame : Obligations.BitmapDrawsItsFrame := by
  intro desc x y index s hq
  have henc : encode (.bitmap desc x y index) = [0x11000000, desc, x ++ y, index] := rfl
  refine ⟨henc, fun hready => ?_, fun hready => exec_unready hq hready rfl rfl henc⟩
  have raises {e : ErrKind} {addr : Nat} (hbody : bodyActs s (.bitmap desc x y index) = [.raise e 0x11000000 addr 0]) :
      exec (.bitmap desc x y index) s = .next (s.failed e 0x11000000 addr) := by
    rw [exec_of_raise hq (fun _ => hready) (Nat.zero_le _) hbody, State.tookVar_zero]
  unfold State.bitmapResult
  cases hreject : s.bitmapReject desc.toNat index.toNat with
  | some p => exact raises (bitmapActs_of_reject hreject _ _ _)
  | none =>
    have hbody := bitmapActs_of_accepted hreject (headerOf (.bitmap desc x y index)) x.toInt y.toInt
    dsimp only
    split
    next hskip => exact exec_of_events hq hready (hbody.trans (if_pos hskip))
    next hdraw =>
      rw [if_neg hdraw] at hbody
      cases hmissing : s.bitmapMissing (s.bmp desc.toNat) index.toNat with
      | some addr => rw [hmissing] at hbody; exact raises hbody
      | none =>
        rw [hmissing] at hbody
        rw [exec_of_blit (i := .bitmap desc x y index) hq hready hbody, unitEvents, Blit.bytes, frameData_eq]

end Sys2Proof.Machine

/-! Rejected packets and stops (O6, O59): the words of a rejected packet are skipped as they arrive, and only an access
of the environment stops the machine. -/

namespace Sys2Proof.Machine

/-! ### Skipping (60_exceptions.md R282) -/

/-- Where an access is due, the skipping waits. -/
theorem skipWords_due (m : Nat) {s : State} (hd : s.envDue = true) :
    skipWords (m + 1) s = { s with todo := [.skip (m + 1)] } := by
  rw [skipWords, hd, Bool.true_or, if_pos rfl]

/-- Where none is due, a word that is there is popped. -/
theorem skipWords_free (m : Nat) {s : State} (hd : s.envDue = false) (hf : s.fifo ≠ []) :
    skipWords (m + 1) s = skipWords m (s.pop 1).tick := by
  rw [skipWords, hd, List.isEmpty_eq_false_iff.2 hf, Bool.or_self, if_neg Bool.false_ne_true]

/-- The step of an engine that has words left to skip. -/
theorem step_skip {s : State} {m : Nat} (hd : s.envDue = false) (hf : s.inFlight = false) (hh : s.halted = false)
    (ht : s.todo = [.skip m]) : step s = .next (if s.fifo = [] then s.tick else skipWords m s) := by
  rw [step_eq_engine hd, engine_resume hf hh (by simp [ht])]
  simp only [resume, ht]

/-- In a quiet environment the engine skips the words that are there, which may be none. -/
theorem step_skip_quiet {s : State} {m : Nat} (hhost : s.host = []) (hplat : s.platform = []) (hf : s.inFlight = false)
    (hh : s.halted = false) (hm : 0 < m) (ht : s.todo = [.skip m]) : step s = .next (skipWords m s) := by
  rw [step_skip (State.envDue_of_quiet hhost hplat) hf hh ht]
  split
  next hfifo =>
    have hnone : 0 ≠ m := hm.ne
    rw [State.tick_of_quiet hhost hplat, skipWords_quiet m hhost hplat, hfifo]
    simp [hnone, ← ht]
  next => rfl

/-- Settles O6: in a quiet environment all the words that are there are skipped; where an access falls due after the
first, one is. -/
theorem skippedWordsAreDiscarded : Obligations.SkippedWordsAreDiscarded := by
  refine ⟨fun s m k hhost hplat hf hh hm ht hk => ?_, fun s m w rest hd hf hh ht hfifo hdue => ?_⟩
  · subst hk
    rw [step_skip_quiet hhost hplat hf hh hm ht, skipWords_quiet m hhost hplat]
  · have hpop : s.pop 1 = s.tookWords 1 rest := State.pop_eq_tookWords (by rw [hfifo]; rfl)
    have hne : s.fifo ≠ [] := by simp [hfifo]
    rw [step_skip hd hf hh ht, if_neg hne, skipWords_free _ hd hne, hpop, skipWords_due m hdue]

/-! ### What stops the machine (20_memory.md R51, R52) -/

/-- Whatever a packet turns out to be, its decision has a next state. -/
theorem decidePacket_has_next (s : State) : ∃ t, decidePacket s = .next t := by
  unfold decidePacket
  split
  next i _ _ => exact ⟨_, exec_eq_drain i _⟩
  all_goals exact ⟨_, rfl⟩

/-- Every move of the engine has a next state. -/
theorem engine_has_next (s : State) : ∃ t, engine s = .next t := by
  unfold engine
  split
  · exact ⟨_, rfl⟩
  split
  · exact ⟨_, rfl⟩
  split
  · simp only [fetch]
    split
    · exact ⟨_, rfl⟩
    · exact decidePacket_has_next _
  · exact ⟨_, rfl⟩

/-- An act of the platform has a next state or is a load outside asset memory. -/
theorem platformAccess_cases (a : PlatformAccess) (s : State) :
    (∃ t, platformAccess a s = .next t) ∨
      (platformAccess a s = .fault .assetOutside ∧ ∃ addr v, a = .loadAsset addr v ∧ s.assetSize ≤ addr) := by
  cases a with
  | loadAsset addr v =>
    rw [platformAccess]
    split
    · exact .inl ⟨_, rfl⟩
    · exact .inr ⟨rfl, addr, v, rfl, not_lt.1 ‹_›⟩
  | powerOn => exact .inl ⟨_, rfl⟩

/-- A host access has a next state or is not an aligned 32-bit one inside the window. -/
theorem access_cases (a : HostAccess) (s : State) :
    (∃ t, access a s = .next t) ∨
      (access a s = .refused .hostAccess ∧ ∃ bytes off, (a = .read bytes off ∨ ∃ v, a = .write bytes off v) ∧
        ¬(bytes = 4 ∧ off % 4 = 0 ∧ off < 64)) := by
  cases a with
  | read bytes off =>
    by_cases hw : bytes = 4 ∧ off % 4 = 0 ∧ off < 64
    · exact .inl ⟨_, access_read hw s⟩
    · exact .inr ⟨access_outside (v := 0) hw (.inl rfl) s, bytes, off, .inl rfl, hw⟩
  | write bytes off v =>
    by_cases hw : bytes = 4 ∧ off % 4 = 0 ∧ off < 64
    · exact .inl ⟨_, access_write hw v s⟩
    · exact .inr ⟨access_outside hw (.inr rfl) s, bytes, off, .inr ⟨v, rfl⟩, hw⟩

/-- Settles O59: a command is its actions, a move of the engine has a next state, and the stops are those of the two
kinds of access. -/
theorem commandsNeverStopTheMachine : Obligations.CommandsNeverStopTheMachine := by
  refine ⟨fun i s => ⟨_, exec_eq_drain i s⟩, fun s hd => by rw [step_eq_engine hd]; exact engine_has_next s,
    fun s => ?_⟩
  rcases step_cases s with ⟨hdue, p, rest, hl, hstep⟩ | ⟨hplat, hdue, h, rest, hl, hstep⟩ | ⟨-, hstep⟩ <;>
    rw [hstep]
  · rcases platformAccess_cases p.access { s with platform := rest } with hnext | ⟨hfault, addr, v, ha, hout⟩
    · exact .inl hnext
    · exact .inr (.inl ⟨hfault, hdue, p.wait, addr, v, rest, by rw [hl, ← ha], hout⟩)
  · rcases access_cases h.access { s with host := rest } with hnext | ⟨hrefused, bytes, off, ha, hw⟩
    · exact .inl hnext
    · exact .inr (.inr ⟨hrefused, hplat, hdue, h.wait, h.access, bytes, off, rest, hl, ha, hw⟩)
  · exact .inl (engine_has_next s)

end Sys2Proof.Machine
